-- ==== Sys2Proof/Word.lean ====
section
/-!
DEFINITION. The words of the machine (spec/00_scope.md R1, R2): bit vectors for what the manual treats as bits, and the
plainest arithmetic on natural numbers read as little-endian bit strings.
-/
namespace Sys2Proof

/-- One byte of memory or of tile storage. -/
abbrev Byte := BitVec 8

/-- A 32-bit register image: a vector register in one lane (R58), or a mask of the 32 lanes. -/
abbrev Word32 := BitVec 32

/-- A 64-bit register image: a scalar register (R58), a virtual address. -/
abbrev Word64 := BitVec 64

/-- Bits [lo + w - 1 : lo] of n, as a number (R2). -/
def bitsOf (n lo w : Nat) : Nat := n / 2 ^ lo % 2 ^ w

/-- The bit at place i of n. -/
def bitAt (n i : Nat) : Bool := n / 2 ^ i % 2 == 1

/-- One bit as a number. -/
def b2n (b : Bool) : Nat := if b then 1 else 0

end Sys2Proof
end

