-- ==== Sys2Proof/Syntax.lean ====
section
/-!
DEFINITION. The instructions of ONS5 and the steps of the device: one constructor of Instr per row of
spec/opcode_table.json. Operands are names, never raw encodings; the encodings stand in Decode.lean.
-/
namespace Sys2Proof

/-- The TYPE codes of R84. -/
inductive Ty where
  | u32 | s32 | u64 | s64 | u16 | s16 | u8 | s8 | f32 | f64 | f16 | bf16 | t8 | t6 | f16x2 | bf16x2
deriving DecidableEq, Repr

/-- The rounding modes of R84. -/
inductive Rm where
  | rne | rz | ru | rd
deriving DecidableEq, Repr

/-- The width codes of the memory group (R84); a reserved code keeps its number and is refused by WellFormed. -/
inductive Width where
  | b32 | b64 | b16 | s16 | b8 | s8 | b128
  | rsv (code : Nat)
deriving DecidableEq, Repr

/-- The guard of R82: predicate p, complemented when neg. -/
structure Guard where
  neg : Bool
  p : Nat
deriving DecidableEq, Repr

/-- An operand: a specifier of R83, one of the names that only replacement-store code has (R98), or an immediate
by the form that carries it (R85). A specifier the table reserves keeps its number and is refused by WellFormed. -/
inductive Opd where
  | v (n : Nat)
  | s (n : Nat)
  | zero | one | lane | ones
  | x (n : Nat)
  | hole (n : Nat)
  | rsv (n : Nat)
  | imm16 (n : Nat)
  | imm32 (n : Nat)
  | imm64 (n : Nat)
deriving DecidableEq, Repr

/-- Operands of a one-source operation. -/
structure A1 where
  g : Guard
  ty : Ty
  d : Opd
  a : Opd
deriving DecidableEq, Repr

/-- Operands of a two-source operation. -/
structure A2 where
  g : Guard
  ty : Ty
  d : Opd
  a : Opd
  b : Opd
deriving DecidableEq, Repr

/-- Operands of a three-source operation. -/
structure A3 where
  g : Guard
  ty : Ty
  d : Opd
  a : Opd
  b : Opd
  c : Opd
deriving DecidableEq, Repr

/-- The condition of ICMP (R327); codes 6 to 15 keep their number and are refused. -/
inductive ICond where
  | eq | ne | lt | le | gt | ge
  | rsv (n : Nat)
deriving DecidableEq, Repr

/-- The condition of FCMP (R307); codes 13 to 15 keep their number and are refused. -/
inductive FCond where
  | eq | ne | lt | le | gt | ge | num | nan | ltu | leu | gtu | geu | equ
  | rsv (n : Nat)
deriving DecidableEq, Repr

/-- The third input of PLOP (R347): a predicate, or the lane's bit of a scalar register. -/
inductive PlopC where
  | pred (n : Nat)
  | sreg (o : Opd)
deriving DecidableEq, Repr

/-- A memory operand (R10): scale is the log2 of the index scale; off is none in the 64-bit form and the raw 32-bit
offset in the longer forms. -/
structure MemOp where
  base : Opd
  index : Opd
  scale : Nat
  off : Option Nat
deriving DecidableEq, Repr

/-- The operation of ATOM and RED (R279); codes 7 to 255 keep their number and are refused. -/
inductive AtomOp where
  | add | min | max | and | or | xor | exch
  | rsv (n : Nat)
deriving DecidableEq, Repr

/-- The timeout of WAITA (R377): field B under TSRC 000, 001 and 010; another TSRC is refused. -/
inductive Tmo where
  | reg (o : Opd)
  | cycles (n : Nat)
  | units (n : Nat)
  | rsv (tsrc n : Nat)
deriving DecidableEq, Repr

/-- The count of WAKE (R379): field B under TSRC 000, or the 16-bit immediate under TSRC 001. -/
inductive WakeN where
  | reg (o : Opd)
  | imm (n : Nat)
  | rsv (tsrc b c : Nat)
deriving DecidableEq, Repr

/-- The modes of SHFL (R363). -/
inductive ShflMode where
  | lane | off | rot | bfly
deriving DecidableEq, Repr

/-- The modes of VOTE (R376); 6 and 7 are refused. -/
inductive VoteMode where
  | mask | count | first | some | every | agree
  | rsv (n : Nat)
deriving DecidableEq, Repr

/-- The destination of VOTE: a register under .mask, .count and .first, a predicate otherwise (R376). -/
inductive VoteD where
  | reg (o : Opd)
  | pred (n : Nat)
deriving DecidableEq, Repr

/-- The reductions of LRED (R339); other codes are refused. -/
inductive LredOp where
  | add | min | max
  | rsv (n : Nat)
deriving DecidableEq, Repr

/-- A tile coordinate's row or column (R89): a register or constant, or a 12-bit immediate. -/
inductive CoordSrc where
  | reg (o : Opd)
  | imm (n : Nat)
deriving DecidableEq, Repr

/-- A tile coordinate hN[row, col] (R13, R89). -/
structure Coord where
  h : Nat
  row : CoordSrc
  col : CoordSrc
deriving DecidableEq, Repr

/-- The storage levels of R70. -/
inductive Level where
  | t | a | w | q
deriving DecidableEq, Repr

/-- The palette modifier of the MMA family (R164, R340); code 3 is refused. -/
inductive Pal where
  | plain | p4 | p6
  | rsv
deriving DecidableEq, Repr

/-- The collectives of R292. -/
inductive CollOp where
  | allred | redscat | allgat | bcast
deriving DecidableEq, Repr

/-- The reductions of COLL (R292); code 3 is refused. -/
inductive CollRed where
  | add | max | min
  | rsv
deriving DecidableEq, Repr

/-- The direction and domain of INV (R92). -/
inductive InvKind where
  | upF32 | upI32 | dnF32 | dnI32
deriving DecidableEq, Repr

/-- The fields of a bracket register that BGET names (R190); selectors 5 to 7 are refused. -/
inductive BrkSel where
  | lo | hi | ylo | yhi | st
  | rsv (n : Nat)
deriving DecidableEq, Repr

/-- The three lengths of an instruction (R77). -/
inductive Len where
  | l64 | l96 | l128
deriving DecidableEq, Repr

/-- The hint bits of the branch format (R88): they change only fetch and scheduling. -/
structure Hints where
  rc : Bool
  dl : Bool
  tl : Bool
deriving DecidableEq, Repr

/-- The operands of CPY (R294). When t2t, the copy runs between tiles: row2 and col2 name the source place in hs, and
a is absent; otherwise a names the memory address register and pitch is in units of 16 bytes. -/
structure CpyArgs where
  g : Guard
  tok : Opd
  dirMem : Bool
  ht : Nat
  hs : Nat
  rows1 : Nat
  rb1 : Nat
  row : Nat
  col16 : Nat
  x : Nat
  a : Opd
deriving DecidableEq, Repr

/-- The operands of CPYG (R294). -/
structure CpygArgs where
  g : Guard
  tok : Opd
  ht : Nat
  rows1 : Nat
  rb1 : Nat
  row : Nat
  col16 : Nat
  x : Nat
  a : Opd
  i : Opd
deriving DecidableEq, Repr

/-- The operands of COLL (R292); the start condition's registers stand in cond when WHEN is set. -/
structure CollArgs where
  g : Guard
  tok : Opd
  op : CollOp
  red : CollRed
  ty : Ty
  c : Opd
  src : Opd
  dst : Opd
  n : Opd
  cond : Option (Opd × Opd)
deriving DecidableEq, Repr

/-- The operands of MMA and MMAS (R340). -/
structure MmaArgs where
  g : Guard
  ty : Ty
  pal : Pal
  nzc : Bool
  hc : Nat
  hw : Nat
  row0 : Nat
  cb : Nat
  a : Opd
deriving DecidableEq, Repr

/-- The operands of INV (R92). -/
structure InvArgs where
  g : Guard
  kind : InvKind
  cap1 : Nat
  nlen1 : Nat
  tol : Nat
  brk : Nat
  x : Opd
  t : Opd
  d : Opd
deriving DecidableEq, Repr

/-- The instructions of ONS5 and the steps of the device, in the order of spec/opcode_table.json. The operands of a
device step are the choices and inputs it takes from outside the machine. -/
inductive Instr where
  /-- ACCCHK (R275) -/
  | accchk (g : Guard) (b64 : Bool) (h : Nat)
  /-- ACCRD (R273) -/
  | accrd (g : Guard) (b64 : Bool) (d : Opd) (at_ : Coord)
  /-- ACCRD.md (R273) -/
  | accrdMd (g : Guard) (d : Opd) (at_ : Coord)
  /-- ACCWR (R274) -/
  | accwr (g : Guard) (b64 : Bool) (at_ : Coord) (c : Opd)
  /-- ACCZ (R275) -/
  | accz (g : Guard) (b64 : Bool) (h : Nat)
  /-- AND (R277) -/
  | and (o : A2)
  /-- ANDN (R277) -/
  | andn (o : A2)
  /-- ATOM (R278) -/
  | atom (g : Guard) (ty : Ty) (op : AtomOp) (sys : Bool) (d : Opd) (m : MemOp) (b : Opd)
  /-- BAR (R281) -/
  | bar (g : Guard) (n : Nat) (cnt1 : Option Nat)
  /-- BAR.arrive (R281) -/
  | barArrive (g : Guard) (n : Nat) (cnt1 : Option Nat)
  /-- BFI (R284) -/
  | bfi (o : A3)
  /-- BFX (R284) -/
  | bfx (o : A2)
  /-- BGET (R190) -/
  | bget (g : Guard) (sel : BrkSel) (d : Opd) (b : Nat)
  /-- BSET (R189) -/
  | bset (g : Guard) (n : Nat) (a b : Opd)
  /-- BRA (R286) -/
  | bra (g : Guard) (h : Hints) (off : Nat)
  /-- CALL (R286) -/
  | call (g : Guard) (h : Hints) (off : Nat)
  /-- BRX (R288) -/
  | brx (g : Guard) (h : Hints) (t : Opd) (off : Nat)
  /-- CALLX (R288) -/
  | callx (g : Guard) (h : Hints) (t : Opd) (off : Nat)
  /-- RET (R354) -/
  | ret (g : Guard) (h : Hints)
  /-- R47: a spilled split of the slot of warp key w that has waited long enough swaps with a resident one -/
  | spillSwap (w : Nat)
  /-- BREV (R287) -/
  | brev (o : A1)
  /-- CLZ (R287) -/
  | clz (o : A1)
  /-- BSCL (R289) -/
  | bscl (o : A1)
  /-- CAS (R290) -/
  | cas (g : Guard) (b64 : Bool) (sys : Bool) (d : Opd) (m : MemOp) (e n : Opd)
  /-- CFLUSH (R291) -/
  | cflush (g : Guard) (loc : Bool) (m : MemOp)
  /-- COLL (R292) -/
  | coll (o : CollArgs)
  /-- R176: the Halley engine rereads the start word of command c -/
  | collStartPoll (c : Nat)
  /-- R177: collective c finishes; peers are the other members' contributions by rank, as little-endian bytes, and bad is
  a status of R173 found as it ran (0x43, 0x44), or 0 -/
  | collComplete (c : Nat) (peers : List (Nat × List Nat)) (bad : Nat)
  /-- CPY (R294) -/
  | cpy (o : CpyArgs)
  /-- CPYG (R294) -/
  | cpyg (o : CpygArgs)
  /-- CPYQ (R294) -/
  | cpyq (g : Guard) (tok : Opd) (h : Nat) (n1 : Nat) (a : Opd)
  /-- R171: command c appends one further entry to its queue -/
  | cpyqAppend (c : Nat)
  /-- WLOAD (R381) -/
  | wload (g : Guard) (tok : Opd) (h : Nat) (a : Opd)
  /-- DICT (R300) -/
  | dict (g : Guard) (p6 : Bool) (tok : Opd) (h : Nat) (cb0 : Nat) (n1 : Nat) (a : Opd)
  /-- R23: ready command c is taken by a free copy engine of its partition -/
  | engineDispatch (c : Nat)
  /-- R173: command c finishes -/
  | engineCommandComplete (c : Nat)
  /-- CVT (R297); b is present for the packed destinations only -/
  | cvt (g : Guard) (dty sty : Ty) (rm : Rm) (d a : Opd) (b : Option Opd)
  /-- EXIT (R302) -/
  | exit (g : Guard)
  /-- R74, R302: workgroup w, whose warps have all exited, is freed -/
  | workgroupRelease (w : Nat)
  /-- FADD (R303) -/
  | fadd (o : A2) (rm : Rm)
  /-- FSUB (R303) -/
  | fsub (o : A2) (rm : Rm)
  /-- FMUL (R303) -/
  | fmul (o : A2) (rm : Rm)
  /-- FFMA (R303) -/
  | ffma (o : A3) (rm : Rm)
  /-- FBAR (R178, R180) -/
  | fbar (g : Guard) (m : Nat)
  /-- FCLASS, vector form (R306) -/
  | fclass (o : A1)
  /-- FCLASS, predicate form (R306) -/
  | fclassPred (g : Guard) (ty : Ty) (p : Nat) (a : Opd) (mask : Nat)
  /-- FCMP (R307) -/
  | fcmp (g : Guard) (ty : Ty) (cond : FCond) (p : Nat) (a b : Opd)
  /-- FEXP2 (R308) -/
  | fexp2 (o : A1)
  /-- FLOG2 (R308) -/
  | flog2 (o : A1)
  /-- FSIN (R308) -/
  | fsin (o : A1)
  /-- FCOS (R308) -/
  | fcos (o : A1)
  /-- FDIV (R314) -/
  | fdiv (o : A2) (rm : Rm)
  /-- FRCP (R314) -/
  | frcp (o : A1) (rm : Rm)
  /-- FRSQ (R314) -/
  | frsq (o : A1) (rm : Rm)
  /-- FSQRT (R314) -/
  | fsqrt (o : A1) (rm : Rm)
  /-- FDOT (R315) -/
  | fdot (o : A3)
  /-- FENCE (R317) -/
  | fence (g : Guard) (sys : Bool)
  /-- FGETEXP (R318) -/
  | fgetexp (o : A1)
  /-- FSCALE (R319) -/
  | fscale (o : A2) (rm : Rm)
  /-- FMAX (R320) -/
  | fmax (o : A2)
  /-- FMIN (R320) -/
  | fmin (o : A2)
  /-- FRRED (R321) -/
  | frred (o : A1) (rm : Rm)
  /-- GETSR (R323) -/
  | getsr (g : Guard) (b64 : Bool) (d : Opd) (num : Nat)
  /-- IABS (R324) -/
  | iabs (o : A1)
  /-- IMAX (R324) -/
  | imax (o : A2)
  /-- IMIN (R324) -/
  | imin (o : A2)
  /-- IADD (R325); ci and co are the carry predicates -/
  | iadd (o : A2) (ci co : Option Nat)
  /-- ISUB (R325) -/
  | isub (o : A2) (ci co : Option Nat)
  /-- ICMP (R327) -/
  | icmp (g : Guard) (ty : Ty) (cond : ICond) (p : Nat) (a b : Opd)
  /-- IDIV (R328) -/
  | idiv (o : A2) (rem : Bool)
  /-- ILOCK (R329) -/
  | ilock (g : Guard) (p : Nat) (a n : Opd)
  /-- IUNLOCK (R329) -/
  | iunlock (g : Guard) (a n : Opd)
  /-- IMAD (R331) -/
  | imad (o : A3)
  /-- IMUL (R331) -/
  | imul (o : A2)
  /-- IMULH (R331) -/
  | imulh (o : A2)
  /-- INV (R92, R181) -/
  | inv (o : InvArgs)
  /-- LANERD (R193) -/
  | lanerd (g : Guard) (d a l : Opd)
  /-- LANEWR (R193) -/
  | lanewr (g : Guard) (d l a : Opd)
  /-- LAUNCH (R334) -/
  | launch (g : Guard) (tok a q : Opd)
  /-- R55: the enqueue of LAUNCH command c finishes -/
  | launchTokenComplete (c : Nat)
  /-- LD (R335) -/
  | ld (g : Guard) (w : Width) (strong sys loc : Bool) (d : Opd) (m : MemOp)
  /-- R50: the oldest outstanding load of fibre f returns; lost, when given, is a 32-byte sector of host physical memory whose
  data met an uncorrectable error twice -/
  | loadDataReturn (f : Nat) (lost : Option Nat)
  /-- LEA (R337) -/
  | lea (g : Guard) (loc pcrel : Bool) (d : Opd) (m : MemOp)
  /-- LOADM (R338) -/
  | loadm (g : Guard) (p n : Opd) (cnt1 : Nat)
  /-- LRED (R339) -/
  | lred (o : A1) (op : LredOp)
  /-- MMA (R340) -/
  | mma (o : MmaArgs)
  /-- MMAS (R340) -/
  | mmas (o : MmaArgs) (hq : Nat)
  /-- MMAG (R340) -/
  | mmag (g : Guard) (ty : Ty) (pal : Pal) (nzc : Bool) (hc hw ng1 : Nat) (a n : Opd)
  /-- MOV (R343) -/
  | mov (o : A1)
  /-- MOVI (R344) -/
  | movi (g : Guard) (ty : Ty) (d imm : Opd) (pcrel : Bool)
  /-- NOP (R345) -/
  | nop (g : Guard) (len : Len)
  /-- OR (R346) -/
  | or (o : A2)
  /-- PLOP (R347) -/
  | plop (g : Guard) (tab d a b : Nat) (c : PlopC)
  /-- POPC (R348) -/
  | popc (o : A1)
  /-- PPT (R214) -/
  | ppt (vmask smask roff tcnt tlo : Nat)
  /-- PREF (R351) -/
  | pref (g : Guard) (loc : Bool) (m : MemOp)
  /-- RED (R352) -/
  | red (g : Guard) (ty : Ty) (op : AtomOp) (sys : Bool) (m : MemOp) (b : Opd)
  /-- RFT (R194) -/
  | rft
  /-- RFT.skip (R194) -/
  | rftSkip
  /-- ROT (R356) -/
  | rot (o : A2)
  /-- SAR (R356) -/
  | sar (o : A2)
  /-- SHL (R356) -/
  | shl (o : A2)
  /-- SHR (R356) -/
  | shr (o : A2)
  /-- RQNT (R357) -/
  | rqnt (g : Guard) (dty sty : Ty) (d a so sn : Opd)
  /-- SAVEM (R359) -/
  | savem (g : Guard) (p n : Opd) (cnt1 : Nat)
  /-- SEL (R360) -/
  | sel (g : Guard) (ty : Ty) (d a b : Opd) (p : Nat)
  /-- SETSR (R361) -/
  | setsr (g : Guard) (b64 : Bool) (num : Nat) (b : Opd)
  /-- R207: a write of TQSTAT of slice sl with value v -/
  | tqstatWrite (sl : Nat) (v : Nat)
  /-- SHFL (R363); p is the predicate of field C -/
  | shfl (g : Guard) (mode : ShflMode) (seg : Nat) (ty : Ty) (d a b : Opd) (p : Nat)
  /-- SOS (R91) -/
  | sos
  /-- ST (R366) -/
  | st (g : Guard) (w : Width) (strong sys loc : Bool) (m : MemOp) (c : Opd)
  /-- TALLOC (R369) -/
  | talloc (g : Guard) (lvl : Nat) (h rows1 rb1 : Nat)
  /-- TFENCE (R191) -/
  | tfence (g : Guard)
  /-- TFREE (R371) -/
  | tfree (g : Guard) (h : Nat)
  /-- TZERO (R371) -/
  | tzero (g : Guard) (h : Nat)
  /-- TLD (R372) -/
  | tld (g : Guard) (w : Width) (d : Opd) (at_ : Coord)
  /-- TST (R372) -/
  | tst (g : Guard) (w : Width) (at_ : Coord) (c : Opd)
  /-- TOKQ (R374) -/
  | tokq (g : Guard) (p : Nat) (tok : Opd)
  /-- TRAP (R375) -/
  | trap (g : Guard) (imm : Nat)
  /-- VOTE (R376) -/
  | vote (g : Guard) (mode : VoteMode) (neg : Bool) (d : VoteD) (a : Nat)
  /-- WAITA (R377) -/
  | waita (g : Guard) (b64 sys : Bool) (d base : Opd) (off : Option Nat) (e : Opd) (tmo : Tmo)
  /-- R154: the timeout of the split sp of fibre f, which is parked, lapses -/
  | waitaTimeout (f sp : Nat)
  /-- R154: the device wakes the parked split sp of fibre f by its own choice -/
  | spuriousWake (f sp : Nat)
  /-- WAKE (R379) -/
  | wake (g : Guard) (sys : Bool) (base : Opd) (off : Option Nat) (n : WakeN)
  /-- WGTAKE (R380) -/
  | wgtake (g : Guard) (d : Opd)
  /-- R56: the distributor answers WGTAKE command c -/
  | wgtakeAnswer (c : Nat)
  /-- XOR (R382) -/
  | xor (o : A2)
  /-- YIELD (R383) -/
  | yield_ (g : Guard)
  /-- XIMM (R98) -/
  | ximm (g : Guard) (d : Opd)
  /-- XFLD (R98) -/
  | xfld (g : Guard) (d : Opd) (pos len1 : Nat)
  /-- R98: the word at the current split's PC, matched by table entry e, executes as its substitute sequence -/
  | substituteSequence (e : Nat)
  /-- R101: firmware reloads the table and store of core c of slice sl with the images given as bytes; signed tells
  whether the image's signature verifies -/
  | tableReload (sl c : Nat) (table store : List Nat) (signed : Bool)
  /-- R48, R49: the choice of the next split to issue; pick, when given, is the slot (a warp key) chosen among the
  issuable ones, and how many evaluations of an INV may run before the slot passes (0 for all, R188) -/
  | slotSelect (pick : Option (Nat × Nat))
  /-- R48: the slot of warp key w, issuable for 16 cycles, issues before any younger slot -/
  | slotAgeExpiry (w : Nat)
  /-- R45: the held split sp of fibre f is overdue and may issue once -/
  | heldSplitOverdue (f sp : Nat)
  /-- R49: the current split, stalled without SOS, passes its slot on -/
  | stallRelease
  /-- R252: function p writes value v to the tail of its i-th queue -/
  | qtailWrite (p i v : Nat)
  /-- R252: function p writes value v to QHEAD of its i-th queue -/
  | qheadWrite (p i v : Nat)
  /-- R252: function p writes the 8-byte value v at BAR0 offset off -/
  | mmioRegisterWrite (p off v : Nat)
  /-- R385: the distributor reads and checks the record at the head of queue q -/
  | launchHeadCheck (q : Nat)
  /-- R35: the distributor rereads the dependence word of launch l -/
  | dependenceReread (l : Nat)
  /-- R36: the distributor places the next workgroup of launch l on core c of slice sl -/
  | workgroupPlace (l sl c : Nat)
  /-- R37: launch l, passed over, rises one level -/
  | priorityPromotion (l : Nat)
  /-- R40: the waiting workgroup of launch l reserves a core -/
  | coreReservation (l : Nat)
  /-- R76: a core is given the configuration that launch l needs -/
  | coreStoreChange (l : Nat)
  /-- R32: launch l has ended and its completion word is written -/
  | completionWordWrite (l : Nat)
  /-- R209: slice sl writes its oldest waiting fault into its trap ring -/
  | trapQueueRecordWrite (sl : Nat)
  /-- R210: a strong store to the RESP word of record i of slice sl with value v -/
  | respWrite (sl i v : Nat)
  /-- R205: a pre-emption has waited 1,000,000 cycles for the handler of fibre f -/
  | handlerWatchdog (f : Nat)
  /-- R249: the quantum of partition p lapses -/
  | quantumEnd (p : Nat)
  /-- R218: a pre-empt request for workgroup w reaches the context engine -/
  | preemptRequest (w : Nat)
  /-- R218: fibre f reached no PPT within 16,384 cycles -/
  | forwardBoundLapse (f : Nat)
  /-- R219: the stopped workgroup w is written to a save area -/
  | contextSave (w : Nat)
  /-- R223: saved workgroup w is restored on core c of slice sl -/
  | contextRestore (w sl c : Nat)
  /-- R227: the shadow of warp w disagrees with the leading warp at address a -/
  | shadowMismatch (k a : Nat)
  /-- R227: the test of suspect core c of slice sl ends -/
  | coreTestResult (sl c : Nat) (passed : Bool)
  /-- R228: an error of slice sl was retried: it is gone (none), or lasts, so that an L2 way or the HBM row at a is retired and the
  sectors given are lost -/
  | errorRetirement (sl : Nat) (row : Bool) (a way : Nat) (lost : Option (List Nat))
  /-- R130, R174: setup of a communicator by a Charon core; offered are the members' sets -/
  | communicatorSetup (p commid nranks rank home members recAt : Nat) (offered : List Nat)
  /-- R230: a member of communicator commid of partition p is fenced -/
  | memberLost (p commid : Nat)
  /-- R25: the receiver on a fabric port refuses a flit: its number, and how many flits have been sent -/
  | flitRefuse (port : Nat) (flit : Nat × Nat)
  /-- R248: a request of b bytes at address a arrives at the memory controller of its home slice from a stream of partition p (kind 0
  tenant, 1 Halley, 2 host); c is the COLL that a Halley request belongs to -/
  | sfqArrival (a kind p b c : Nat)
  /-- R248: memory controller m begins its next request -/
  | sfqServe (m : Nat)
  /-- R149: a host access to device memory at address a: a load, or a store of the bytes given -/
  | hostCxlMemAccess (a : Nat) (store : Option (List Nat))
  /-- R149: a host store of bytes to host memory at address a is observed -/
  | hostStoreObserved (a : Nat) (bytes : List Nat)
  /-- R245: a strong store of v to GEN -/
  | genCommit (v : Nat)
  /-- R246: a strong store of v to SGEN of partition p -/
  | sgenCommit (p v : Nat)
  /-- R247: a strong store of v to CANCEL of partition p -/
  | cancel (p v : Nat)
  /-- R253: a write of the 64 bytes given, as a number, to key slot k -/
  | keySlotWrite (k v : Nat)
  /-- R255: a write to 0x0120 of function 0 -/
  | attestationRequest
  /-- R254: a reset; bits 0 to 3 of verified tell whether the record, the S and H firmware and the match-and-replace image verify, and why
  is the cause placed in DSTAT when the boot fails -/
  | reset (verified why : Nat)
  /-- R256: a 100 ms window ends with the average power given in watts -/
  | powerWindow (watts : Nat)
  /-- R256: a die junction reaches 115 degrees Celsius -/
  | thermalTrip
deriving DecidableEq, Repr

end Sys2Proof
end

