-- ==== Sys2Proof/Machine/Legal.lean ====
section
/-!
DEFINITION. What makes an instruction legal as a word: the conditions whose breach is cause 0x02 (shapeOk: types, codes and
field ranges) and those whose breach is cause 0x07 (regsOk: operand kinds, register alignment), each as the reference
entry of the instruction states them. The window check of R62 needs the fibre and stands in Operands.lean.
-/
namespace Sys2Proof

/-- The width in bits of a TYPE (R84, R103); a packed type fills a 32-bit register. -/
def Ty.w : Ty → Nat
  | .u32 | .s32 | .f32 | .f16x2 | .bf16x2 => 32
  | .u64 | .s64 | .f64 => 64
  | .u16 | .s16 | .f16 | .bf16 => 16
  | .u8 | .s8 | .t8 => 8
  | .t6 => 6

/-- The integer codes 0x0 to 0x7 of R84. -/
def Ty.isInt : Ty → Bool
  | .u32 | .s32 | .u64 | .s64 | .u16 | .s16 | .u8 | .s8 => true
  | _ => false

/-- The signed integer codes. -/
def Ty.signed : Ty → Bool
  | .s32 | .s64 | .s16 | .s8 => true
  | _ => false

/-- The four IEEE-style scalar formats (R102). -/
def Ty.isIeee : Ty → Bool
  | .f32 | .f64 | .f16 | .bf16 => true
  | _ => false

/-- The packed float types. -/
def Ty.isPacked : Ty → Bool
  | .f16x2 | .bf16x2 => true
  | _ => false

/-- The tapered formats (R110). -/
def Ty.isTaper : Ty → Bool
  | .t8 | .t6 => true
  | _ => false

/-- The width in bytes of a memory width (R84). -/
def Width.bytes : Width → Nat
  | .b32 => 4
  | .b64 => 8
  | .b16 | .s16 => 2
  | .b8 | .s8 => 1
  | .b128 => 16
  | .rsv _ => 1

/-- How many registers a value of w bits takes in a vector operand (R59). -/
def regsFor (w : Nat) : Nat := if w ≤ 32 then 1 else if w ≤ 64 then 2 else if w ≤ 128 then 4 else if w ≤ 256 then 8 else 16

/-- An immediate lies in the range its form holds (R85). -/
def Opd.immOk : Opd → Bool
  | .imm16 n => n < 2 ^ 16
  | .imm32 n => n < 2 ^ 32
  | .imm64 n => n < 2 ^ 64
  | _ => true

/-- The operand is an immediate. -/
def Opd.isImm : Opd → Bool
  | .imm16 _ | .imm32 _ | .imm64 _ => true
  | _ => false

/-- A scalar register s0 to s63. -/
def Opd.isScalar : Opd → Bool
  | .s n => n < 64
  | _ => false

/-- A constant specifier of R83. -/
def Opd.isConst : Opd → Bool
  | .zero | .one | .lane | .ones => true
  | _ => false

/-- A vector register, or a scratch register of replacement-store code, aligned for a value of w bits (R59, R98). -/
def Opd.isVec (sub : Bool) (w : Nat) : Opd → Bool
  | .v n => n < 256 && n % regsFor w == 0
  | .x n => sub && n < 8 && n % regsFor w == 0
  | _ => false

/-- The operand is per lane, so a scalar destination may not read it (R60). -/
def Opd.isLaneReg : Opd → Bool
  | .v _ | .x _ => true
  | _ => false

/-- A legal source of w bits: a register, a constant or an immediate (R83, R85). -/
def Opd.srcOk (sub : Bool) (w : Nat) (o : Opd) : Bool :=
  o.isVec sub w || o.isScalar || o.isConst || o.isImm

/-- A legal destination of w bits: a register, or zero, which discards (R83). -/
def Opd.dstOk (sub : Bool) (w : Nat) (o : Opd) : Bool :=
  o.isVec sub w || o.isScalar || o == .zero

/-- R60: an instruction with a scalar destination reads no vector register. -/
def uniformOk (d : Opd) (srcs : List Opd) : Bool :=
  !d.isScalar || srcs.all (fun o => !o.isLaneReg)

/-- The guard names p0 to p7 and is not (!p7) (R82). -/
def Guard.ok (g : Guard) : Bool := g.p < 8 && !(g.neg && g.p == 7)

/-- The always-true guard p7. -/
def Guard.always : Guard := ⟨false, 7⟩

/-- The immediate forms an operand b may take (R85): none, 16 or 32 bits, and 64 bits for a 64-bit type. -/
def bImmOk (ty : Ty) (o : Opd) : Bool :=
  match o with
  | .imm64 _ => ty.w == 64 && o.immOk
  | _ => o.immOk

/-- Shape of a one-source operation: no immediate. -/
def A1.shape (o : A1) (tys : Ty → Bool) : Bool := o.g.ok && tys o.ty && !o.d.isImm && !o.a.isImm

/-- Shape of a two-source operation whose b may be an immediate. -/
def A2.shape (o : A2) (tys : Ty → Bool) : Bool :=
  o.g.ok && tys o.ty && !o.d.isImm && !o.a.isImm && bImmOk o.ty o.b

/-- Shape of a three-source operation: b may be an immediate, or c in the 96-bit form; in the 64-bit immediate form c
reads as zero (R85). -/
def A3.shape (o : A3) (tys : Ty → Bool) : Bool :=
  o.g.ok && tys o.ty && !o.d.isImm && !o.a.isImm && bImmOk o.ty o.b &&
    (match o.b, o.c with
     | .imm16 _, c => c == .zero
     | b, .imm32 n => !b.isImm && n < 2 ^ 32
     | _, c => !c.isImm)

/-- Register kinds of a one-source operation at widths wd and wa. -/
def A1.regs (o : A1) (sub : Bool) (wd wa : Nat) : Bool :=
  o.d.dstOk sub wd && o.a.srcOk sub wa && uniformOk o.d [o.a]

/-- Register kinds of a two-source operation at width w. -/
def A2.regs (o : A2) (sub : Bool) (w : Nat) : Bool :=
  o.d.dstOk sub w && o.a.srcOk sub w && o.b.srcOk sub w && uniformOk o.d [o.a, o.b]

/-- Register kinds of a three-source operation at width w. -/
def A3.regs (o : A3) (sub : Bool) (w : Nat) : Bool :=
  o.d.dstOk sub w && o.a.srcOk sub w && o.b.srcOk sub w && o.c.srcOk sub w && uniformOk o.d [o.a, o.b, o.c]

/-- FADD and its kin: the IEEE-style and packed types (R303). -/
def Ty.isFloat (t : Ty) : Bool := t.isIeee || t.isPacked

/-- FDIV and its kin (R314). -/
def Ty.isDivTy : Ty → Bool
  | .f32 | .f64 | .f16 => true
  | _ => false

/-- Width, in range. -/
def Width.ok : Width → Bool
  | .rsv _ => false
  | _ => true

/-- An unsigned or signless width, as ST and TST take (R366, R372). -/
def Width.storeOk : Width → Bool
  | .b32 | .b64 | .b16 | .b8 | .b128 => true
  | _ => false

/-- Shape of a memory operand (R10, R84): a scale code, an offset of 32 bits, no immediates. -/
def MemOp.shape (m : MemOp) : Bool :=
  m.scale < 8 && !m.base.isImm && !m.index.isImm && (match m.off with | some n => n < 2 ^ 32 | none => true) &&
    (m.index != .zero || m.scale == 0)

/-- Register kinds of a memory operand (R335); under .loc the base is one vector register or a scalar register. -/
def MemOp.regs (m : MemOp) (sub loc : Bool) : Bool :=
  (if loc then m.base.isVec sub 32 || m.base.isScalar
   else m.base.isVec sub 64 || m.base.isScalar || m.base == .zero) &&
  (m.index.isVec sub 32 || m.index.isScalar || m.index == .lane || m.index == .zero)

/-- Register kinds of an atomic's memory operand (R278): its base is no constant. -/
def MemOp.atomRegs (m : MemOp) (sub : Bool) : Bool := m.regs sub false && m.base != .zero

/-- The address is uniform: no vector register takes part (R335). -/
def MemOp.uniform (m : MemOp) : Bool :=
  !m.base.isLaneReg && !m.index.isLaneReg

/-- The types and operations that ATOM pairs (R279). -/
def atomPair (ty : Ty) (op : AtomOp) : Bool :=
  match op with
  | .add | .min | .max | .exch => ty == .u32 || ty == .s32 || ty == .u64 || ty == .s64 || ty == .f32
  | .and | .or | .xor => ty == .u32 || ty == .s32 || ty == .u64 || ty == .s64
  | .rsv _ => false

/-- Shape of a tile coordinate (R89). -/
def Coord.shape (c : Coord) : Bool :=
  c.h < 64 &&
  (match c.row with | .reg o => !o.isImm | .imm n => n < 4096) &&
  (match c.col with | .reg o => !o.isImm | .imm n => n < 4096)

/-- A coordinate register is a vector or scalar register or a constant specifier (R83, R89). -/
def CoordSrc.regs (sub : Bool) : CoordSrc → Bool
  | .reg o => o.isVec sub 32 || o.isScalar || o.isConst
  | .imm _ => true

/-- Register kinds of a tile coordinate. -/
def Coord.regs (c : Coord) (sub : Bool) : Bool := c.row.regs sub && c.col.regs sub

/-- The coordinate's operand is the same in every lane: an immediate or a scalar register (R372). -/
def CoordSrc.uniform : CoordSrc → Bool
  | .reg o => o.isScalar
  | .imm _ => true

/-- Shape of the MMA family's common operands (R340). -/
def MmaArgs.shape (o : MmaArgs) (tys : Ty → Bool) : Bool :=
  o.g.ok && tys o.ty && o.hc < 64 && o.hw < 64 && o.row0 < 4096 && o.cb < 256 && !o.a.isImm && o.pal != .rsv &&
    !(o.pal != .plain && (o.ty == .f32 || o.ty == .f64))

/-- vA of the MMA family is a vector register, a multiple of 8 (R159). -/
def mmaVaOk : Opd → Bool
  | .v n => n < 256 && n % 8 == 0
  | _ => false

/-- The types of MMA and MMAG (R340). -/
def Ty.isMma : Ty → Bool
  | .f32 | .f64 | .f16 | .bf16 | .t8 | .t6 => true
  | _ => false

/-- The types of MMAS (R340). -/
def Ty.isMmas : Ty → Bool
  | .f16 | .bf16 | .t8 | .t6 => true
  | _ => false

/-- CVT's pairs of R298: every pair of integer, float and tapered formats; a packed destination from .f32, and .f32 from
a packed source. -/
def cvtPair (dty sty : Ty) : Bool :=
  match dty.isPacked, sty.isPacked with
  | false, false => true
  | true, false => sty == .f32
  | false, true => dty == .f32
  | true, true => dty == sty

/-- How wide a register file place FDOT's groups take: the alignment of vA and vB (R315). -/
def fdotAlign : Ty → Nat
  | .t8 | .t6 => 4
  | _ => 8

/-- The format width of FDOT's addend and result (R315). -/
def fdotW (ty : Ty) : Nat := if ty == .f64 then 64 else 32

/-- A vector register, or a scratch register of replacement-store code, that starts a group aligned to k (R98). -/
def Opd.vecMul (sub : Bool) (k : Nat) : Opd → Bool
  | .v n => n < 256 && n % k == 0
  | .x n => sub && n < 8 && n % k == 0
  | _ => false

/-- One vector register. -/
def Opd.isV : Opd → Bool
  | .v n => n < 256
  | _ => false

/-- The number names a special register (R64). -/
def srNamed (n : Nat) : Bool :=
  decide (n ≤ 0x00A) || (decide (0x010 ≤ n) && decide (n ≤ 0x027)) || (decide (0x030 ≤ n) && decide (n ≤ 0x037)) ||
    n == 0x040 || n == 0x041 || n == 0x048 || n == 0x050 || n == 0x051 || n == 0x058 || n == 0x059

/-- Some level may write the special register (R64, R65). -/
def srWritten (n : Nat) : Bool :=
  (decide (0x030 ≤ n) && decide (n ≤ 0x037)) || n == 0x040 || n == 0x041 || n == 0x048 || n == 0x050 || n == 0x051

/-- The special register has a value for each lane: LANE and FLAGS (R64). -/
def srPerLane (n : Nat) : Bool := n == 0x000 || n == 0x030

/-- Shape: the conditions whose breach is cause 0x02. A device step has no word and no shape. -/
def Instr.shapeOk : Instr → Bool
  | .accchk g _ h => g.ok && h < 512
  | .accrd g _ d c => g.ok && !d.isImm && c.shape
  | .accrdMd g d c => g.ok && !d.isImm && c.shape && (match c.col with | .imm _ => true | .reg _ => false)
  | .accwr g _ c s => g.ok && !s.isImm && c.shape
  | .accz g _ h => g.ok && h < 512
  | .and o | .andn o | .or o | .xor o | .shl o | .shr o | .sar o | .rot o | .bfx o => o.shape Ty.isInt
  | .bfi o => o.shape Ty.isInt
  | .brev o | .clz o | .popc o => o.shape Ty.isInt
  | .atom g ty op _ d m b =>
    g.ok && atomPair ty op && !d.isImm && !b.isImm && m.shape && m.off.isSome
  | .red g ty op _ m b => g.ok && atomPair ty op && op != .exch && !b.isImm && m.shape && m.off.isSome
  | .cas g _ _ d m e n => g.ok && !d.isImm && !e.isImm && !n.isImm && m.shape && m.off.isSome
  | .bar g n c | .barArrive g n c => g.ok && n < 16 && (match c with | some k => k < 256 | none => true)
  | .bget g f d b => g.ok && !d.isImm && b < 512 && (match f with | .rsv _ => false | _ => true)
  | .bset g n a b => g.ok && n < 512 && !a.isImm && b.immOk && (match b with | .imm64 _ => false | _ => true)
  | .bra g _ off | .call g _ off => g.ok && off < 2 ^ 24
  | .brx g _ t off | .callx g _ t off => g.ok && off < 2 ^ 24 && !t.isImm
  | .ret g _ => g.ok
  | .bscl o => o.shape (fun t => t == .t8 || t == .t6 || t == .s8)
  | .cflush g _ m | .pref g _ m => g.ok && m.shape
  | .coll o => o.g.ok && !o.tok.isImm && !o.c.isImm && !o.src.isImm && !o.dst.isImm && !o.n.isImm &&
      (o.ty == .u32 || o.ty == .s32 || o.ty == .f32 || o.ty == .f64 || o.ty == .f16 || o.ty == .bf16) &&
      o.red != .rsv && ((o.op == .allred || o.op == .redscat) || o.red == .add) &&
      (match o.cond with | some (w, v) => !w.isImm && !v.isImm | none => true)
  | .cpy o => o.g.ok && !o.tok.isImm && !o.a.isImm && o.ht < 64 && o.hs < 64 && o.rows1 < 4096 && o.rb1 < 512 &&
      o.row < 4096 && o.col16 < 512 && o.x < 2 ^ 21 && (o.a == .zero || o.hs == 0)
  | .cpyg o => o.g.ok && !o.tok.isImm && !o.a.isImm && !o.i.isImm && o.ht < 64 && o.rows1 < 4096 && o.rb1 < 512 &&
      o.row < 4096 && o.col16 < 512 && o.x < 2 ^ 21
  | .cpyq g t h n a => g.ok && !t.isImm && !a.isImm && h < 64 && n < 64
  | .wload g t h a => g.ok && !t.isImm && !a.isImm && h < 64
  | .dict g _ t h cb n a => g.ok && !t.isImm && !a.isImm && h < 64 && cb < 256 && n < 128
  | .cvt g dty sty rm d a b => g.ok && cvtPair dty sty && !d.isImm && !a.isImm &&
      (!dty.isTaper || rm == .rne) &&
      (match b with
       | some o => dty.isPacked && !sty.isPacked && (match o with | .imm64 _ => false | _ => o.immOk)
       | none => !(dty.isPacked && !sty.isPacked))
  | .exit g | .tfence g | .yield_ g => g.ok
  | .fadd o _ | .fsub o _ | .fmul o _ => o.shape Ty.isFloat
  | .ffma o _ => o.shape Ty.isFloat
  | .fmin o | .fmax o => o.shape Ty.isFloat
  | .fbar g m => g.ok && 0 < m && m < 16
  | .fclass o => o.shape (fun t => t.isIeee || t.isTaper)
  | .fclassPred g ty p a mask => g.ok && (ty.isIeee || ty.isTaper) && p < 512 && !a.isImm && mask < 2 ^ 10
  | .fcmp g ty cond p a b => g.ok && ty.isIeee && p < 512 && !a.isImm && bImmOk ty b &&
      (match cond with | .rsv _ => false | _ => true)
  | .fexp2 o | .flog2 o | .fsin o | .fcos o => o.shape (fun t => t == .f32)
  | .fdiv o _ => o.shape Ty.isDivTy
  | .frcp o _ | .frsq o _ | .fsqrt o _ => o.shape Ty.isDivTy
  | .fdot o => o.g.ok && (o.ty.isIeee || o.ty.isTaper) && !o.d.isImm && !o.a.isImm && !o.b.isImm &&
      (match o.c with | .imm32 n => n < 2 ^ 32 | c => !c.isImm)
  | .fence g _ => g.ok
  | .fgetexp o => o.shape Ty.isIeee
  | .fscale o _ => o.shape Ty.isIeee && (match o.b with | .imm64 _ => false | _ => true)
  | .frred o _ => o.shape (fun t => t == .f32 || t == .f64)
  | .getsr g _ d num => g.ok && !d.isImm && srNamed num
  | .setsr g _ num b => g.ok && srWritten num && b.immOk && (match b with | .imm64 _ => false | _ => true)
  | .iabs o => o.shape Ty.signed
  | .imax o | .imin o | .imul o | .imulh o => o.shape Ty.isInt
  | .idiv o _ => o.shape Ty.isInt
  | .imad o => o.shape Ty.isInt
  | .iadd o ci co | .isub o ci co => o.shape Ty.isInt &&
      (match ci with | some k => k < 8 | none => true) && (match co with | some k => k < 8 | none => true) &&
      (match o.b with | .imm16 _ | .imm64 _ => ci.isNone && co.isNone | _ => true)
  | .icmp g ty cond p a b => g.ok && ty.isInt && p < 512 && !a.isImm && bImmOk ty b &&
      (match cond with | .rsv _ => false | _ => true)
  | .ilock g p a n => g.ok && p < 512 && !a.isImm && !n.isImm
  | .iunlock g a n => g.ok && !a.isImm && !n.isImm
  | .inv o => o.g.ok && o.cap1 < 64 && o.nlen1 < 16 && o.tol < 256 && o.brk < 8 && !o.x.isImm && !o.t.isImm &&
      !o.d.isImm
  | .lanerd g d a l => g.ok && !d.isImm && !a.isImm && !l.isImm
  | .lanewr g d l a => g.ok && !d.isImm && !a.isImm && !l.isImm
  | .launch g t a q => g.ok && !t.isImm && !a.isImm && !q.isImm
  | .ld g w _ _ _ d m => g.ok && w.ok && !d.isImm && m.shape
  | .st g w _ _ _ m c => g.ok && w.storeOk && !c.isImm && m.shape
  | .lea g loc pcrel d m => g.ok && !d.isImm && m.shape && !(pcrel && loc) && (!pcrel || m.off.isSome) &&
      (!pcrel || m.base == .zero)
  | .loadm g p n c | .savem g p n c => g.ok && !p.isImm && !n.isImm && c < 32
  | .lred o op => o.shape (fun t => t == .u32 || t == .s32 || t == .u64 || t == .s64 || t.isIeee) &&
      (match op with | .rsv _ => false | _ => true)
  | .mma o => o.shape Ty.isMma
  | .mmas o hq => o.shape Ty.isMmas && hq < 64
  | .mmag g ty pal _ hc hw ng1 a n => g.ok && ty.isMma && hc < 64 && hw < 64 && ng1 < 8 && !a.isImm && !n.isImm &&
      pal != .rsv && !(pal != .plain && (ty == .f32 || ty == .f64))
  | .mov o => o.shape Ty.isInt
  | .movi g ty d imm pcrel => g.ok && !d.isImm && imm.isImm && bImmOk ty imm &&
      (!pcrel || ((ty == .u64 || ty == .s64) && (match imm with | .imm32 _ => true | _ => false)))
  | .nop g _ => g.ok
  | .plop g tab d a b c => g.ok && tab < 256 && d < 512 && a < 512 && b < 512 &&
      (match c with | .pred n => n < 512 | .sreg o => !o.isImm)
  | .ppt vm sm roff tcnt tlo => vm < 2 ^ 64 && sm < 2 ^ 8 && roff < 2 ^ 20 && tcnt ≤ 64 && tlo < 64 && tlo + tcnt ≤ 64
  | .rqnt g dty sty d a so sn => g.ok && (dty == .t8 || dty == .t6 || dty == .s8) && !d.isImm && !a.isImm &&
      (sty == .t8 || sty == .t6 || sty == .s8 || sty == .f32 || sty == .f16 || sty == .bf16) &&
      (so.immOk && (match so with | .imm64 _ => false | _ => true)) &&
      ((sty == .t8 || sty == .t6 || sty == .s8) || so == .zero) &&
      (match so, sn with
       | .imm16 _, c => c == .zero
       | b, .imm32 n => !b.isImm && n < 2 ^ 32
       | _, c => !c.isImm)
  | .sel g ty d a b p => g.ok && !d.isImm && !a.isImm && bImmOk ty b && p < 512 &&
      (match b with | .imm16 _ => false | .imm64 _ => false | _ => true)
  | .shfl g _ seg ty d a b p => g.ok && 1 ≤ seg && seg ≤ 5 && (ty == .u32 || ty == .u64) && !d.isImm && !a.isImm &&
      b.immOk && (match b with | .imm16 _ => p == 7 | .imm64 _ => false | _ => p < 512)
  | .talloc g lvl h r b => g.ok && lvl < 4 && h < 512 && r < 4096 && b < 512
  | .tfree g h | .tzero g h => g.ok && h < 512
  | .tld g w d c => g.ok && w.ok && !d.isImm && c.shape
  | .tst g w c s => g.ok && w.storeOk && !s.isImm && c.shape
  | .tokq g p t => g.ok && p < 512 && !t.isImm
  | .trap g imm => g.ok && imm < 2 ^ 16
  | .vote g mode _ d a => g.ok && a < 512 &&
      (match mode, d with
       | .mask, .reg o | .count, .reg o | .first, .reg o => !o.isImm
       | .some, .pred p | .every, .pred p | .agree, .pred p => p < 512
       | _, _ => false)
  | .waita g _ _ d base off e tmo => g.ok && !d.isImm && !base.isImm && !e.isImm &&
      (match off with | some n => n < 2 ^ 32 | none => true) &&
      (match tmo with | .reg o => !o.isImm | .cycles n => n < 512 | .units n => n < 512 | .rsv _ _ => false)
  | .wake g _ base off n => g.ok && !base.isImm && (match off with | some k => k < 2 ^ 32 | none => true) &&
      (match n with | .reg o => !o.isImm | .imm k => k < 2 ^ 16 | .rsv _ _ _ => false)
  | .wgtake g d => g.ok && !d.isImm
  | .ximm g d => g.ok && !d.isImm
  | .xfld g d pos len1 => g.ok && !d.isImm && pos < 64 && len1 < 64
  | .rft | .rftSkip | .sos => true
  | _ => false

/-- Registers: the conditions whose breach is cause 0x07. sub tells whether the word stands in the replacement store, where
the scratch registers have names (R98). -/
def Instr.regsOk (sub : Bool) : Instr → Bool
  | .accchk _ _ h | .accz _ _ h => h < 64
  | .accrd _ b64 d c => c.regs sub && (d.isVec sub (if b64 then 64 else 32) || d == .zero)
  | .accrdMd _ d c => c.regs sub && (d.isVec sub 32 || d == .zero)
  | .accwr _ b64 c s => c.regs sub && s.isVec sub (if b64 then 64 else 32)
  | .and o | .andn o | .or o | .xor o | .shl o | .shr o | .sar o | .rot o | .bfx o => o.regs sub o.ty.w
  | .bfi o => o.regs sub o.ty.w
  | .brev o | .clz o | .popc o => o.regs sub o.ty.w o.ty.w
  | .atom _ ty _ _ d m b => m.atomRegs sub && d.dstOk sub ty.w && b.srcOk sub ty.w &&
      (!d.isScalar || (m.uniform && !b.isLaneReg))
  | .red _ ty _ _ m b => m.atomRegs sub && b.srcOk sub ty.w
  | .cas _ b64 _ d m e n =>
      let w := if b64 then 64 else 32
      m.atomRegs sub && d.dstOk sub w && e.srcOk sub w && n.srcOk sub w &&
      (!d.isScalar || (m.uniform && !e.isLaneReg && !n.isLaneReg))
  | .bar _ _ _ | .barArrive _ _ _ => true
  | .bget _ _ d b => d.isVec sub 32 && b < 8
  | .bset _ n a b => n < 8 && a.srcOk sub 32 && b.srcOk sub 32
  | .bra _ _ _ | .call _ _ _ | .ret _ _ => true
  | .brx _ _ t _ | .callx _ _ t _ => t.isVec sub 64 || t.isScalar
  | .bscl o => o.d.dstOk sub 32 && o.a.isVec sub 32
  | .cflush _ loc m | .pref _ loc m => m.regs sub loc
  | .coll o => o.tok.isScalar && o.c.isScalar && o.src.isScalar && o.dst.isScalar && o.n.isScalar &&
      (match o.cond with | some (w, v) => w.isScalar && v.isScalar | none => true)
  | .cpy o => o.tok.isScalar && (o.a.isScalar || (o.a == .zero && !o.dirMem))
  | .cpyg o => o.tok.isScalar && o.a.isScalar && o.i.isScalar
  | .cpyq _ t _ _ a | .wload _ t _ a | .dict _ _ t _ _ _ a => t.isScalar && a.isScalar
  | .cvt _ dty sty _ d a b =>
      if sty.isPacked && !dty.isPacked then (d.isVec sub 64 || d == .zero) && a.srcOk sub 32
      else d.dstOk sub dty.w && a.srcOk sub sty.w && (match b with | some o => o.srcOk sub sty.w | none => true) &&
        uniformOk d (a :: b.toList)
  | .exit _ | .tfence _ | .yield_ _ | .fence _ _ | .fbar _ _ | .nop _ _ | .trap _ _ => true
  | .fadd o _ | .fsub o _ | .fmul o _ | .fdiv o _ => o.regs sub o.ty.w
  | .ffma o _ => o.regs sub o.ty.w
  | .fmin o | .fmax o => o.regs sub o.ty.w
  | .fclass o => o.regs sub 32 o.ty.w
  | .fclassPred _ ty p a _ => p < 8 && a.srcOk sub ty.w
  | .fcmp _ ty _ p a b => p < 8 && a.srcOk sub ty.w && b.srcOk sub ty.w
  | .fexp2 o | .flog2 o | .fsin o | .fcos o => o.regs sub 32 32
  | .frcp o _ | .frsq o _ | .fsqrt o _ => o.regs sub o.ty.w o.ty.w
  | .fdot o => o.a.vecMul sub (fdotAlign o.ty) && o.b.vecMul sub (fdotAlign o.ty) &&
      (o.d.isVec sub (fdotW o.ty) || o.d == .zero) &&
      (o.c.isVec sub (fdotW o.ty) || o.c.isScalar || o.c == .zero || o.c.isImm)
  | .fgetexp o => o.regs sub 32 o.ty.w
  | .fscale o _ => o.d.dstOk sub o.ty.w && o.a.srcOk sub o.ty.w && o.b.srcOk sub 32 && uniformOk o.d [o.a, o.b]
  | .frred o _ => o.d.vecMul sub (if o.ty == .f64 then 4 else 2) && o.a.srcOk sub o.ty.w
  | .getsr _ b64 d num => d.dstOk sub (if b64 then 64 else 32) && !(srPerLane num && d.isScalar)
  | .setsr _ b64 _ b => b.srcOk sub (if b64 then 64 else 32)
  | .iabs o => o.regs sub o.ty.w o.ty.w
  | .imax o | .imin o | .imul o | .imulh o => o.regs sub o.ty.w
  | .idiv o _ => o.regs sub o.ty.w
  | .imad o => o.regs sub o.ty.w
  | .iadd o _ _ | .isub o _ _ => o.regs sub o.ty.w
  | .icmp _ ty _ p a b => p < 8 && a.srcOk sub ty.w && b.srcOk sub ty.w
  | .ilock _ p a n => p < 8 && a.isScalar && n.isScalar
  | .iunlock _ a n => a.isScalar && n.isScalar
  | .inv o => o.d.isV && o.x.isV && (o.t.isV || o.t.isScalar)
  | .lanerd _ d a l => d.isScalar && a.isV && l.isScalar
  | .lanewr _ d l a => d.isV && l.isScalar && (a.isScalar || a.isConst)
  | .launch _ t a q => t.isScalar && a.isScalar && q.isScalar
  | .ld _ w _ _ loc d m => m.regs sub loc &&
      (d.isVec sub (8 * w.bytes) || (d.isScalar && w != .b128 && m.uniform) || d == .zero)
  | .st _ w _ _ loc m c => m.regs sub loc &&
      (c.isVec sub (8 * w.bytes) || ((c.isScalar && w != .b128) || c.isConst))
  | .lea _ loc pcrel d m =>
      (if pcrel then m.index.isVec sub 32 || m.index.isScalar || m.index == .lane || m.index == .zero
       else m.regs sub loc) &&
      (d.isVec sub 64 || (d.isScalar && m.uniform) || d == .zero)
  | .loadm _ p n c | .savem _ p n c =>
      (match p, n with
       | .v pn, .v nn => pn < 256 && nn + c < 256 && !(nn ≤ pn && pn ≤ nn + c)
       | _, _ => false)
  | .lred o _ => (o.d.dstOk sub (if o.ty == .f16 || o.ty == .bf16 then 32 else o.ty.w)) && o.a.isVec sub o.ty.w
  | .mma o => mmaVaOk o.a
  | .mmas o _ => mmaVaOk o.a
  | .mmag _ _ _ _ _ hw ng1 a n => mmaVaOk a && hw + ng1 ≤ 63 &&
      (match n with | .s k => k + ng1 ≤ 63 | _ => false)
  | .mov o => o.regs sub o.ty.w o.ty.w
  | .movi _ ty d _ _ => d.dstOk sub ty.w
  | .plop _ _ d a b c => d < 8 && a < 8 && b < 8 && (match c with | .pred n => n < 8 | .sreg o => o.isScalar)
  | .ppt _ _ _ _ _ | .rft | .rftSkip | .sos => true
  | .rqnt _ dty sty d a so sn => (d.isVec sub dty.w || d == .zero) && a.isVec sub sty.w && so.srcOk sub 32 && sn.srcOk sub 32
  | .sel _ ty d a b p => p < 8 && (d.isVec sub ty.w || d == .zero) && a.srcOk sub ty.w && b.srcOk sub ty.w
  | .shfl _ _ _ ty d a b p => p < 8 && (d.isVec sub ty.w || d == .zero) && a.srcOk sub ty.w && b.srcOk sub 32
  | .talloc _ _ h _ _ | .tfree _ h | .tzero _ h => h < 64
  | .tld _ w d c => c.regs sub &&
      (d.isVec sub (8 * w.bytes) || (d.isScalar && w != .b128 && c.row.uniform && c.col.uniform) || d == .zero)
  | .tst _ w c s => c.regs sub && (s.isVec sub (8 * w.bytes) || ((s.isScalar && w != .b128) || s.isConst))
  | .tokq _ p t => p < 8 && t.isScalar
  | .vote _ _ _ d a => a < 8 && (match d with | .reg o => o.dstOk sub 32 | .pred p => p < 8)
  | .waita _ b64 _ d base _ e tmo =>
      let w := if b64 then 64 else 32
      (base.isVec sub 64 || base.isScalar || base == .zero) && e.srcOk sub w &&
      (d.isVec sub w || (d.isScalar && !base.isLaneReg && !e.isLaneReg) || d == .zero) &&
      (match tmo with | .reg o => o.isScalar || o.isConst | _ => true)
  | .wake _ _ base _ n => (base.isScalar || base == .zero) &&
      (match n with | .reg o => o.isScalar || o.isConst | _ => true)
  | .wgtake _ d => (match d with | .s n => n < 64 && n % 2 == 0 | _ => false)
  | .ximm _ d => d.dstOk sub 32
  | .xfld _ d _ len1 => d.dstOk sub (if len1 < 32 then 32 else 64)
  | _ => false

/-! ### Holes of replacement-store code (R98) -/

/-- A one-source operation's operands under f. -/
def A1.mapOpd (f : Opd → Opd) (o : A1) : A1 := { o with d := f o.d, a := f o.a }
/-- A two-source operation's operands under f. -/
def A2.mapOpd (f : Opd → Opd) (o : A2) : A2 := { o with d := f o.d, a := f o.a, b := f o.b }
/-- A three-source operation's operands under f. -/
def A3.mapOpd (f : Opd → Opd) (o : A3) : A3 := { o with d := f o.d, a := f o.a, b := f o.b, c := f o.c }
/-- A memory operand's registers under f. -/
def MemOp.mapOpd (f : Opd → Opd) (m : MemOp) : MemOp := { m with base := f m.base, index := f m.index }
/-- A coordinate's register under f. -/
def CoordSrc.mapOpd (f : Opd → Opd) : CoordSrc → CoordSrc
  | .reg o => .reg (f o)
  | .imm n => .imm n
/-- A tile coordinate's registers under f. -/
def Coord.mapOpd (f : Opd → Opd) (c : Coord) : Coord := { c with row := c.row.mapOpd f, col := c.col.mapOpd f }

/-- An instruction with every register operand under f and every predicate, bracket and handle in a specifier's place under k. What no
substitute sequence may hold (R99) stays as it is. -/
def Instr.mapOpd (f : Opd → Opd) (k : Nat → Nat) : Instr → Instr
  | .accchk g b64 h => .accchk g b64 (k h)
  | .accz g b64 h => .accz g b64 (k h)
  | .accrd g b64 d c => .accrd g b64 (f d) (c.mapOpd f)
  | .accrdMd g d c => .accrdMd g (f d) (c.mapOpd f)
  | .accwr g b64 c s => .accwr g b64 (c.mapOpd f) (f s)
  | .and o => .and (o.mapOpd f)
  | .andn o => .andn (o.mapOpd f)
  | .atom g ty op sys d m b => .atom g ty op sys (f d) (m.mapOpd f) (f b)
  | .bfi o => .bfi (o.mapOpd f)
  | .bfx o => .bfx (o.mapOpd f)
  | .bget g sl d b => .bget g sl (f d) (k b)
  | .bset g n a b => .bset g (k n) (f a) (f b)
  | .brev o => .brev (o.mapOpd f)
  | .clz o => .clz (o.mapOpd f)
  | .bscl o => .bscl (o.mapOpd f)
  | .cas g b64 sys d m e n => .cas g b64 sys (f d) (m.mapOpd f) (f e) (f n)
  | .cflush g loc m => .cflush g loc (m.mapOpd f)
  | .cvt g dty sty rm d a b => .cvt g dty sty rm (f d) (f a) (b.map f)
  | .fadd o rm => .fadd (o.mapOpd f) rm
  | .fsub o rm => .fsub (o.mapOpd f) rm
  | .fmul o rm => .fmul (o.mapOpd f) rm
  | .ffma o rm => .ffma (o.mapOpd f) rm
  | .fclass o => .fclass (o.mapOpd f)
  | .fclassPred g ty p a mask => .fclassPred g ty (k p) (f a) mask
  | .fcmp g ty cond p a b => .fcmp g ty cond (k p) (f a) (f b)
  | .fexp2 o => .fexp2 (o.mapOpd f)
  | .flog2 o => .flog2 (o.mapOpd f)
  | .fsin o => .fsin (o.mapOpd f)
  | .fcos o => .fcos (o.mapOpd f)
  | .fdiv o rm => .fdiv (o.mapOpd f) rm
  | .frcp o rm => .frcp (o.mapOpd f) rm
  | .frsq o rm => .frsq (o.mapOpd f) rm
  | .fsqrt o rm => .fsqrt (o.mapOpd f) rm
  | .fdot o => .fdot (o.mapOpd f)
  | .fgetexp o => .fgetexp (o.mapOpd f)
  | .fscale o rm => .fscale (o.mapOpd f) rm
  | .fmax o => .fmax (o.mapOpd f)
  | .fmin o => .fmin (o.mapOpd f)
  | .frred o rm => .frred (o.mapOpd f) rm
  | .getsr g b64 d num => .getsr g b64 (f d) num
  | .iabs o => .iabs (o.mapOpd f)
  | .imax o => .imax (o.mapOpd f)
  | .imin o => .imin (o.mapOpd f)
  | .iadd o ci co => .iadd (o.mapOpd f) ci co
  | .isub o ci co => .isub (o.mapOpd f) ci co
  | .icmp g ty cond p a b => .icmp g ty cond (k p) (f a) (f b)
  | .idiv o rem => .idiv (o.mapOpd f) rem
  | .ilock g p a n => .ilock g (k p) (f a) (f n)
  | .iunlock g a n => .iunlock g (f a) (f n)
  | .imad o => .imad (o.mapOpd f)
  | .imul o => .imul (o.mapOpd f)
  | .imulh o => .imulh (o.mapOpd f)
  | .lanerd g d a l => .lanerd g (f d) (f a) (f l)
  | .lanewr g d l a => .lanewr g (f d) (f l) (f a)
  | .ld g w strong sys loc d m => .ld g w strong sys loc (f d) (m.mapOpd f)
  | .lea g loc pcrel d m => .lea g loc pcrel (f d) (m.mapOpd f)
  | .loadm g p n cnt1 => .loadm g (f p) (f n) cnt1
  | .lred o op => .lred (o.mapOpd f) op
  | .mma o => .mma { o with a := f o.a }
  | .mmas o hq => .mmas { o with a := f o.a } hq
  | .mmag g ty pal nzc hc hw ng1 a n => .mmag g ty pal nzc hc hw ng1 (f a) (f n)
  | .mov o => .mov (o.mapOpd f)
  | .movi g ty d imm pcrel => .movi g ty (f d) imm pcrel
  | .or o => .or (o.mapOpd f)
  | .plop g tab d a b c => .plop g tab (k d) (k a) (k b) (match c with | .pred n => .pred (k n) | .sreg o => .sreg (f o))
  | .popc o => .popc (o.mapOpd f)
  | .pref g loc m => .pref g loc (m.mapOpd f)
  | .red g ty op sys m b => .red g ty op sys (m.mapOpd f) (f b)
  | .rot o => .rot (o.mapOpd f)
  | .sar o => .sar (o.mapOpd f)
  | .shl o => .shl (o.mapOpd f)
  | .shr o => .shr (o.mapOpd f)
  | .rqnt g dty sty d a so sn => .rqnt g dty sty (f d) (f a) (f so) (f sn)
  | .savem g p n cnt1 => .savem g (f p) (f n) cnt1
  | .sel g ty d a b p => .sel g ty (f d) (f a) (f b) (k p)
  | .setsr g b64 num b => .setsr g b64 num (f b)
  | .shfl g mode seg ty d a b p => .shfl g mode seg ty (f d) (f a) (f b) (k p)
  | .st g w strong sys loc m c => .st g w strong sys loc (m.mapOpd f) (f c)
  | .tld g w d c => .tld g w (f d) (c.mapOpd f)
  | .tst g w c s => .tst g w (c.mapOpd f) (f s)
  | .tokq g p t => .tokq g (k p) (f t)
  | .talloc g lvl h r b => .talloc g lvl (k h) r b
  | .tfree g h => .tfree g (k h)
  | .tzero g h => .tzero g (k h)
  | .vote g mode neg d a => .vote g mode neg (match d with | .reg o => .reg (f o) | .pred p => .pred (k p)) (k a)
  | .wake g sys base off n => .wake g sys (f base) off (match n with | .reg o => .reg (f o) | n => n)
  | .xor o => .xor (o.mapOpd f)
  | .ximm g d => .ximm g (f d)
  | .xfld g d pos len1 => .xfld g (f d) pos len1
  | i => i

/-- Whether an operand is a hole is seen by filling it with zero. -/
def Opd.unhole : Opd → Opd
  | .hole _ => .zero
  | o => o

/-- The same of a field that holds a number: the specifiers 0x1F8 to 0x1FB are holes (R98). -/
def unholeNum (n : Nat) : Nat := if 504 ≤ n ∧ n ≤ 507 then 0 else n

/-- Some operand is a hole, so that the registers of the instruction are known when the sequence runs (R98). -/
def Instr.hasHole (i : Instr) : Bool := decide (i.mapOpd Opd.unhole unholeNum ≠ i)

/-- The instruction's registers are legal, as far as the replacement store tells. -/
def Instr.regsLegal (sub : Bool) (i : Instr) : Bool := i.regsOk sub || (sub && i.hasHole)

end Sys2Proof
end

