-- ==== Sys2Proof/WellFormed.lean ====
section
/-!
DEFINITION. Well-formed instructions: the terms that are words of ONS5 code, or of the replacement store when sub is true
(R98). A device step has no word and is not well-formed in this sense.
-/
namespace Sys2Proof

/-- The opcodes that are legal only in the replacement store (R94). -/
def Instr.substituteOnly : Instr → Bool
  | .ximm _ _ | .xfld _ _ _ _ => true
  | _ => false

/-- What the decoder asks of the instruction it reads. -/
def Instr.wellFormed (sub : Bool) (i : Instr) : Bool := i.shapeOk && i.regsLegal sub && (sub || !i.substituteOnly)

/-- The instruction is the meaning of some word that an ordinary fetch may meet. -/
abbrev WellFormed (i : Instr) : Prop := i.wellFormed false = true

end Sys2Proof
end

