-- ==== Sys2Proof/Decode.lean ====
section
/-!
DEFINITION. From words to instructions and back (spec/05_encoding.md and the encoding of each reference entry). A word is a
number, bit 0 its least significant bit (R1). The reading of a word takes its fields apart once; a word is legal when the
instruction so read passes the checks of WellFormed and encodes to that very word, so that every reserved bit must be zero (R3).
-/
namespace Sys2Proof

/-- Why a word is no instruction: the decode faults of R95 that belong to the word itself. -/
inductive DecodeError where
  | illegalLength
  | illegalOpcode
  | sosMisuse
  | reservedField
  | illegalRegister
deriving DecidableEq, Repr

/-- The cause code of a decode error (R95, R197). -/
def DecodeError.cause : DecodeError → Nat
  | .illegalLength => 0x00
  | .illegalOpcode => 0x01
  | .sosMisuse => 0x04
  | .reservedField => 0x02
  | .illegalRegister => 0x07

/-- The fields of a word: the layout of R81, and ext, the bits above 64. -/
structure Raw where
  len : Nat
  opc : Nat
  guard : Nat
  d : Nat
  a : Nat
  b : Nat
  c : Nat
  mod : Nat
  ext : Nat
deriving DecidableEq, Repr

/-- Fields, each a width and a value, laid side by side from bit 0 up. -/
def packBits : List (Nat × Nat) → Nat
  | [] => 0
  | (w, v) :: r => v % 2 ^ w + 2 ^ w * packBits r

/-- The field list of R81. -/
def Raw.fields (r : Raw) : List (Nat × Nat) :=
  [(2, r.len), (10, r.opc), (4, r.guard), (9, r.d), (9, r.a), (9, r.b), (9, r.c), (12, r.mod), (64, r.ext)]

/-- The word of the fields. -/
def Raw.word (r : Raw) : Nat := packBits r.fields

/-- The fields of the word (R81). -/
def Raw.ofWord (w : Nat) : Raw :=
  { len := bitsOf w 0 2, opc := bitsOf w 2 10, guard := bitsOf w 12 4, d := bitsOf w 16 9, a := bitsOf w 25 9,
    b := bitsOf w 34 9, c := bitsOf w 43 9, mod := bitsOf w 52 12, ext := bitsOf w 64 64 }

/-- The bytes of a word by its length code (R77). -/
def lenBytes (len : Nat) : Nat := if len = 1 then 8 else if len = 2 then 12 else if len = 3 then 16 else 0

/-! ### Codes -/

/-- TYPE codes (R84). -/
def Ty.code : Ty → Nat
  | .u32 => 0 | .s32 => 1 | .u64 => 2 | .s64 => 3 | .u16 => 4 | .s16 => 5 | .u8 => 6 | .s8 => 7
  | .f32 => 8 | .f64 => 9 | .f16 => 10 | .bf16 => 11 | .t8 => 12 | .t6 => 13 | .f16x2 => 14 | .bf16x2 => 15

/-- The TYPE of a code. -/
def Ty.ofCode (n : Nat) : Ty :=
  match n % 16 with
  | 0 => .u32 | 1 => .s32 | 2 => .u64 | 3 => .s64 | 4 => .u16 | 5 => .s16 | 6 => .u8 | 7 => .s8
  | 8 => .f32 | 9 => .f64 | 10 => .f16 | 11 => .bf16 | 12 => .t8 | 13 => .t6 | 14 => .f16x2 | _ => .bf16x2

/-- RM codes (R84). -/
def Rm.code : Rm → Nat
  | .rne => 0 | .rz => 1 | .ru => 2 | .rd => 3

/-- The rounding mode of a code. -/
def Rm.ofCode (n : Nat) : Rm :=
  match n % 4 with
  | 0 => .rne | 1 => .rz | 2 => .ru | _ => .rd

/-- Width codes of the memory group (R84). -/
def Width.code : Width → Nat
  | .b32 => 0 | .b64 => 2 | .b16 => 4 | .s16 => 5 | .b8 => 6 | .s8 => 7 | .b128 => 14 | .rsv n => n

/-- The width of a code. -/
def Width.ofCode (n : Nat) : Width :=
  match n % 16 with
  | 0 => .b32 | 2 => .b64 | 4 => .b16 | 5 => .s16 | 6 => .b8 | 7 => .s8 | 14 => .b128 | k => .rsv k

/-- The specifier of an operand (R83, R98); an immediate leaves its field zero (R85). -/
def Opd.spec : Opd → Nat
  | .v n => n
  | .s n => 256 + n
  | .zero => 320 | .one => 321 | .lane => 322 | .ones => 323
  | .x n => 496 + n
  | .hole n => 504 + n
  | .rsv n => n
  | .imm16 _ | .imm32 _ | .imm64 _ => 0

/-- The operand of a specifier (R83, R98). -/
def Opd.ofSpec (n : Nat) : Opd :=
  if n < 256 then .v n
  else if n < 320 then .s (n - 256)
  else if n = 320 then .zero
  else if n = 321 then .one
  else if n = 322 then .lane
  else if n = 323 then .ones
  else if 496 ≤ n ∧ n < 504 then .x (n - 496)
  else if 504 ≤ n ∧ n < 508 then .hole (n - 504)
  else .rsv n

/-- The GUARD field (R82). -/
def Guard.code (g : Guard) : Nat := g.p + 8 * b2n g.neg

/-- The guard of a field. -/
def Guard.ofCode (n : Nat) : Guard := ⟨bitAt n 3, n % 8⟩

/-- ICMP conditions (R327). -/
def ICond.code : ICond → Nat
  | .eq => 0 | .ne => 1 | .lt => 2 | .le => 3 | .gt => 4 | .ge => 5 | .rsv n => n

/-- The ICMP condition of a code. -/
def ICond.ofCode (n : Nat) : ICond :=
  match n % 16 with
  | 0 => .eq | 1 => .ne | 2 => .lt | 3 => .le | 4 => .gt | 5 => .ge | k => .rsv k

/-- FCMP conditions (R307). -/
def FCond.code : FCond → Nat
  | .eq => 0 | .ne => 1 | .lt => 2 | .le => 3 | .gt => 4 | .ge => 5 | .num => 6 | .nan => 7 | .ltu => 8
  | .leu => 9 | .gtu => 10 | .geu => 11 | .equ => 12 | .rsv n => n

/-- The FCMP condition of a code. -/
def FCond.ofCode (n : Nat) : FCond :=
  match n % 16 with
  | 0 => .eq | 1 => .ne | 2 => .lt | 3 => .le | 4 => .gt | 5 => .ge | 6 => .num | 7 => .nan | 8 => .ltu
  | 9 => .leu | 10 => .gtu | 11 => .geu | 12 => .equ | k => .rsv k

/-- ATOM operations (R279). -/
def AtomOp.code : AtomOp → Nat
  | .add => 0 | .min => 1 | .max => 2 | .and => 3 | .or => 4 | .xor => 5 | .exch => 6 | .rsv n => n

/-- The ATOM operation of a code. -/
def AtomOp.ofCode (n : Nat) : AtomOp :=
  match n % 256 with
  | 0 => .add | 1 => .min | 2 => .max | 3 => .and | 4 => .or | 5 => .xor | 6 => .exch | k => .rsv k

/-- LRED operations (R339). -/
def LredOp.code : LredOp → Nat
  | .add => 0 | .min => 1 | .max => 2 | .rsv n => n

/-- The LRED operation of a code. -/
def LredOp.ofCode (n : Nat) : LredOp :=
  match n % 16 with
  | 0 => .add | 1 => .min | 2 => .max | k => .rsv k

/-- SHFL modes (R363). -/
def ShflMode.code : ShflMode → Nat
  | .lane => 0 | .off => 1 | .rot => 2 | .bfly => 3

/-- The SHFL mode of a code. -/
def ShflMode.ofCode (n : Nat) : ShflMode :=
  match n % 4 with
  | 0 => .lane | 1 => .off | 2 => .rot | _ => .bfly

/-- VOTE modes (R376). -/
def VoteMode.code : VoteMode → Nat
  | .mask => 0 | .count => 1 | .first => 2 | .some => 3 | .every => 4 | .agree => 5 | .rsv n => n

/-- The VOTE mode of a code. -/
def VoteMode.ofCode (n : Nat) : VoteMode :=
  match n % 8 with
  | 0 => .mask | 1 => .count | 2 => .first | 3 => .some | 4 => .every | 5 => .agree | k => .rsv k

/-- Palette codes (R340). -/
def Pal.code : Pal → Nat
  | .plain => 0 | .p4 => 1 | .p6 => 2 | .rsv => 3

/-- The palette of a code. -/
def Pal.ofCode (n : Nat) : Pal :=
  match n % 4 with
  | 0 => .plain | 1 => .p4 | 2 => .p6 | _ => .rsv

/-- COLL operations (R292). -/
def CollOp.code : CollOp → Nat
  | .allred => 0 | .redscat => 1 | .allgat => 2 | .bcast => 3

/-- The COLL operation of a code. -/
def CollOp.ofCode (n : Nat) : CollOp :=
  match n % 4 with
  | 0 => .allred | 1 => .redscat | 2 => .allgat | _ => .bcast

/-- COLL reductions (R292). -/
def CollRed.code : CollRed → Nat
  | .add => 0 | .max => 1 | .min => 2 | .rsv => 3

/-- The COLL reduction of a code. -/
def CollRed.ofCode (n : Nat) : CollRed :=
  match n % 4 with
  | 0 => .add | 1 => .max | 2 => .min | _ => .rsv

/-- BGET selectors (R190). -/
def BrkSel.code : BrkSel → Nat
  | .lo => 0 | .hi => 1 | .ylo => 2 | .yhi => 3 | .st => 4 | .rsv n => n

/-- The BGET selector of a code. -/
def BrkSel.ofCode (n : Nat) : BrkSel :=
  match n % 8 with
  | 0 => .lo | 1 => .hi | 2 => .ylo | 3 => .yhi | 4 => .st | k => .rsv k

/-- The low bits of the INV opcode (R92). -/
def InvKind.code : InvKind → Nat
  | .upF32 => 0 | .upI32 => 1 | .dnF32 => 2 | .dnI32 => 3

/-- Length codes (R77). -/
def Len.code : Len → Nat
  | .l64 => 1 | .l96 => 2 | .l128 => 3

/-! ### Encoder -/

/-- A word of the integer, float or lane layout (R84, R85): MOD without its IMM field is m; b and c may be immediates. -/
def aluRaw (opc : Nat) (g : Guard) (m d a : Nat) (b c : Opd) : Raw :=
  match b with
  | .imm16 n => ⟨1, opc, g.code, d, a, n % 512, n / 512, m + 1, 0⟩
  | .imm32 n => ⟨2, opc, g.code, d, a, 0, c.spec, m + 1, n⟩
  | .imm64 n => ⟨3, opc, g.code, d, a, 0, c.spec, m + 1, n⟩
  | b =>
    match c with
    | .imm32 n => ⟨2, opc, g.code, d, a, b.spec, 0, m + 2, n⟩
    | c => ⟨1, opc, g.code, d, a, b.spec, c.spec, m, 0⟩

/-- The absent operand: its field is zero. -/
def Opd.none_ : Opd := .v 0

/-- MOD of TYPE, RM and the opcode-specific bits [57:54] (R84). -/
def aluMod (ty : Ty) (rm sub : Nat) : Nat := ty.code * 256 + rm * 64 + sub * 4

/-- One-source word. -/
def A1.raw (o : A1) (opc rm sub : Nat) : Raw :=
  aluRaw opc o.g (aluMod o.ty rm sub) o.d.spec o.a.spec .none_ .none_

/-- Two-source word. -/
def A2.raw (o : A2) (opc rm sub : Nat) : Raw :=
  aluRaw opc o.g (aluMod o.ty rm sub) o.d.spec o.a.spec o.b .none_

/-- Three-source word. -/
def A3.raw (o : A3) (opc rm sub : Nat) : Raw :=
  aluRaw opc o.g (aluMod o.ty rm sub) o.d.spec o.a.spec o.b o.c

/-- A word of the memory layout (R84) in the 64- or 96-bit form. -/
def memRaw (opc : Nat) (g : Guard) (w : Nat) (strong sys loc : Bool) (scale d a b c : Nat) (off : Option Nat) : Raw :=
  let m := w * 256 + b2n strong * 128 + b2n sys * 64 + scale * 8 + b2n loc * 4
  match off with
  | none => ⟨1, opc, g.code, d, a, b, c, m, 0⟩
  | some n => ⟨2, opc, g.code, d, a, b, c, m, n⟩

/-- A word of the memory layout in the 128-bit form of R278; hi lies above the offset. -/
def atomRaw (opc : Nat) (g : Guard) (w : Nat) (sys : Bool) (d : Nat) (m : MemOp) (c hi : Nat) : Raw :=
  ⟨3, opc, g.code, d, m.base.spec, m.index.spec, c, w * 256 + 128 + b2n sys * 64 + m.scale * 8,
    m.off.getD 0 + 2 ^ 32 * hi⟩

/-- The width code of an ATOM type (R278). -/
def atomWidth (ty : Ty) : Nat := if ty.w = 64 then 2 else 0

/-- Format B (R88). -/
def branchRaw (opc : Nat) (g : Guard) (h : Hints) (tgt off : Nat) : Raw :=
  ⟨1, opc, g.code, off % 512, off / 512 % 512, off / 2 ^ 18 % 64 + b2n h.tl * 64 + b2n h.dl * 128 + b2n h.rc * 256,
    tgt, 0, 0⟩

/-- The register field of a coordinate: its specifier, or zero (R89). -/
def CoordSrc.spec : CoordSrc → Nat
  | .reg o => o.spec
  | .imm _ => 0

/-- The immediate of a coordinate, or zero. -/
def CoordSrc.immOf : CoordSrc → Nat
  | .reg _ => 0
  | .imm n => n

/-- ROWREG or COLREG. -/
def CoordSrc.isReg : CoordSrc → Bool
  | .reg _ => true
  | .imm _ => false

/-- Format T (R89). -/
def tileRaw (opc : Nat) (g : Guard) (m d c : Nat) (t : Coord) : Raw :=
  ⟨2, opc, g.code, d, t.row.spec, t.col.spec, c, m,
    packBits [(1, b2n t.row.isReg), (1, b2n t.col.isReg), (12, t.col.immOf), (12, t.row.immOf), (6, t.h)]⟩

/-- The barrier word of R281. -/
def barRaw (g : Guard) (arrive : Nat) (n : Nat) (cnt1 : Option Nat) : Raw :=
  let k := cnt1.getD 0
  ⟨1, 0x254, g.code, 0, 0, n + 16 * (k % 32), k / 32 + 8 * b2n cnt1.isSome, arrive, 0⟩

/-- A 64-bit word with register fields only. -/
def plainRaw (opc : Nat) (g : Guard) (m d a b c : Nat) : Raw := ⟨1, opc, g.code, d, a, b, c, m, 0⟩

/-- A 128-bit E word (R90). -/
def engineRaw (opc : Nat) (g : Guard) (m d a b c : Nat) (ext : List (Nat × Nat)) : Raw :=
  ⟨3, opc, g.code, d, a, b, c, m, packBits ext⟩

/-- MOD of the MMA family (R340). -/
def mmaMod (ty : Ty) (pal : Pal) (nzc : Bool) : Nat := ty.code * 256 + pal.code * 64 + b2n nzc * 32

/-- The fields of an instruction's word; a device step has none. -/
def Instr.raw : Instr → Option Raw
  | .iadd o ci co => some (aluRaw 0x000 o.g (aluMod o.ty (2 * b2n ci.isSome + b2n co.isSome) 0) o.d.spec o.a.spec o.b
      (.rsv (ci.getD 0 + 16 * co.getD 0)))
  | .isub o ci co => some (aluRaw 0x001 o.g (aluMod o.ty (2 * b2n ci.isSome + b2n co.isSome) 0) o.d.spec o.a.spec o.b
      (.rsv (ci.getD 0 + 16 * co.getD 0)))
  | .imul o => some (o.raw 0x002 0 0)
  | .imulh o => some (o.raw 0x003 0 0)
  | .imad o => some (o.raw 0x004 0 0)
  | .idiv o rem => some (o.raw 0x005 0 (8 * b2n rem))
  | .imin o => some (o.raw 0x006 0 0)
  | .imax o => some (o.raw 0x007 0 0)
  | .iabs o => some (o.raw 0x008 0 0)
  | .and o => some (o.raw 0x010 0 0)
  | .andn o => some (o.raw 0x011 0 0)
  | .or o => some (o.raw 0x012 0 0)
  | .xor o => some (o.raw 0x013 0 0)
  | .shl o => some (o.raw 0x018 0 0)
  | .shr o => some (o.raw 0x019 0 0)
  | .sar o => some (o.raw 0x01A 0 0)
  | .rot o => some (o.raw 0x01B 0 0)
  | .popc o => some (o.raw 0x020 0 0)
  | .clz o => some (o.raw 0x021 0 0)
  | .brev o => some (o.raw 0x022 0 0)
  | .bfx o => some (o.raw 0x023 0 0)
  | .bfi o => some (o.raw 0x024 0 0)
  | .icmp g ty cond p a b => some (aluRaw 0x028 g (aluMod ty 0 cond.code) p a.spec b .none_)
  | .plop g tab d a b c =>
    some (plainRaw 0x029 g (tab * 16 + (match c with | .pred _ => 0 | .sreg _ => 8)) d a b
      (match c with | .pred n => n | .sreg o => o.spec))
  | .sel g ty d a b p => some (aluRaw 0x030 g (aluMod ty 0 0) d.spec a.spec b (.rsv p))
  | .lea g loc pcrel d m =>
    let md := 2 * 256 + m.scale * 8 + b2n loc * 4 + b2n pcrel * 2
    some (match m.off with
      | none => ⟨1, 0x031, g.code, d.spec, m.base.spec, m.index.spec, 0, md, 0⟩
      | some n => ⟨2, 0x031, g.code, d.spec, m.base.spec, m.index.spec, 0, md, n⟩)
  | .mov o => some (o.raw 0x032 0 0)
  | .movi g ty d imm pcrel => some (aluRaw 0x033 g (aluMod ty 0 (8 * b2n pcrel)) d.spec 0 imm .none_)
  | .fadd o rm => some (o.raw 0x080 rm.code 0)
  | .fsub o rm => some (o.raw 0x081 rm.code 0)
  | .fmul o rm => some (o.raw 0x082 rm.code 0)
  | .ffma o rm => some (o.raw 0x083 rm.code 0)
  | .fmin o => some (o.raw 0x084 0 0)
  | .fmax o => some (o.raw 0x085 0 0)
  | .fcmp g ty cond p a b => some (aluRaw 0x088 g (aluMod ty 0 cond.code) p a.spec b .none_)
  | .fclass o => some (o.raw 0x089 0 0)
  | .fclassPred g ty p a mask => some (aluRaw 0x089 g (aluMod ty 0 8) p a.spec (.imm16 mask) .none_)
  | .frcp o rm => some (o.raw 0x090 rm.code 0)
  | .frsq o rm => some (o.raw 0x091 rm.code 0)
  | .fsqrt o rm => some (o.raw 0x092 rm.code 0)
  | .fdiv o rm => some (o.raw 0x093 rm.code 0)
  | .fexp2 o => some (o.raw 0x098 0 0)
  | .flog2 o => some (o.raw 0x099 0 0)
  | .fsin o => some (o.raw 0x09A 0 0)
  | .fcos o => some (o.raw 0x09B 0 0)
  | .frred o rm => some (o.raw 0x09C rm.code 0)
  | .fscale o rm => some (o.raw 0x0A0 rm.code 0)
  | .fgetexp o => some (o.raw 0x0A1 0 0)
  | .fdot o => some (o.raw 0x0A8 0 0)
  | .cvt g dty sty rm d a b => some (aluRaw 0x0B0 g (aluMod dty rm.code sty.code) d.spec a.spec (b.getD .none_) .none_)
  | .rqnt g dty sty d a so sn => some (aluRaw 0x0B8 g (aluMod dty 0 sty.code) d.spec a.spec so sn)
  | .bscl o => some (o.raw 0x0B9 0 0)
  | .shfl g mode seg ty d a b p => some (aluRaw 0x100 g (ty.code * 256 + mode.code * 64 + seg * 8) d.spec a.spec b (.rsv p))
  | .vote g mode neg d a =>
    some (plainRaw 0x108 g (b2n neg * 32 + mode.code * 4) (match d with | .reg o => o.spec | .pred p => p) a 0 0)
  | .lred o op => some (o.raw 0x110 0 op.code)
  | .ld g w strong sys loc d m =>
    some (memRaw 0x140 g w.code strong sys loc m.scale d.spec m.base.spec m.index.spec 0 m.off)
  | .st g w strong sys loc m c =>
    some (memRaw 0x141 g w.code strong sys loc m.scale 0 m.base.spec m.index.spec c.spec m.off)
  | .atom g ty op sys d m b => some (atomRaw 0x148 g (atomWidth ty) sys d.spec m b.spec (op.code + 256 * ty.code))
  | .cas g b64 sys d m e n => some (atomRaw 0x149 g (2 * b2n b64) sys d.spec m e.spec n.spec)
  | .red g ty op sys m b => some (atomRaw 0x14A g (atomWidth ty) sys 0 m b.spec (op.code + 256 * ty.code))
  | .waita g b64 sys d base off e tmo =>
    some (memRaw 0x150 g (2 * b2n b64) true sys false
      (match tmo with | .reg _ => 0 | .cycles _ => 1 | .units _ => 2 | .rsv t _ => t) d.spec base.spec
      (match tmo with | .reg o => o.spec | .cycles n => n | .units n => n | .rsv _ n => n) e.spec off)
  | .wake g sys base off n =>
    some (memRaw 0x151 g 0 true sys false (match n with | .reg _ => 0 | .imm _ => 1 | .rsv t _ _ => t) 0 base.spec
      (match n with | .reg o => o.spec | .imm k => k % 512 | .rsv _ b _ => b)
      (match n with | .reg _ => 0 | .imm k => k / 512 | .rsv _ _ c => c) off)
  | .fence g sys => some (memRaw 0x158 g 0 false sys false 0 0 0 0 0 none)
  | .pref g loc m => some (memRaw 0x160 g 0 false false loc m.scale 0 m.base.spec m.index.spec 0 m.off)
  | .cflush g loc m => some (memRaw 0x161 g 0 false false loc m.scale 0 m.base.spec m.index.spec 0 m.off)
  | .ilock g p a n => some (plainRaw 0x168 g 0 p a.spec n.spec 0)
  | .iunlock g a n => some (plainRaw 0x169 g 0 0 a.spec n.spec 0)
  | .talloc g lvl h rows1 rb1 =>
    some (plainRaw 0x1C0 g (lvl * 32 + rb1 / 64) h 0 (rows1 % 512) (rows1 / 512 + 8 * (rb1 % 64)))
  | .tfree g h => some (plainRaw 0x1C1 g 0 h 0 0 0)
  | .tld g w d c => some (tileRaw 0x1C2 g (w.code * 256) d.spec 0 c)
  | .tst g w c s => some (tileRaw 0x1C3 g (w.code * 256) 0 s.spec c)
  | .tzero g h => some (plainRaw 0x1C4 g 0 h 0 0 0)
  | .cpy o =>
    some (engineRaw 0x1D0 o.g (b2n o.dirMem + 2 * (o.x / 1024)) o.tok.spec o.a.spec 0 0
      [(10, o.x % 1024), (9, o.col16), (12, o.row), (9, o.rb1), (12, o.rows1), (6, o.hs), (6, o.ht)])
  | .cpyg o =>
    some (engineRaw 0x1D1 o.g (2 * (o.x / 1024)) o.tok.spec o.a.spec o.i.spec 0
      [(10, o.x % 1024), (9, o.col16), (12, o.row), (9, o.rb1), (12, o.rows1), (6, 0), (6, o.ht)])
  | .cpyq g t h n a => some (engineRaw 0x1D2 g 0 t.spec a.spec 0 0 [(6, n), (46, 0), (6, 0), (6, h)])
  | .wload g t h a => some (engineRaw 0x1D3 g 0 t.spec a.spec 0 0 [(52, 0), (6, 0), (6, h)])
  | .dict g p6 t h cb n a => some (engineRaw 0x1D4 g (b2n p6) t.spec a.spec 0 0 [(37, 0), (7, n), (8, cb), (6, 0), (6, h)])
  | .coll o =>
    some (engineRaw 0x1D8 o.g (o.ty.code * 256 + o.red.code * 4 + o.op.code) o.tok.spec o.c.spec o.src.spec o.dst.spec
      [(9, o.n.spec), (9, (o.cond.map (fun p => p.1.spec)).getD 0), (9, (o.cond.map (fun p => p.2.spec)).getD 0),
       (1, b2n o.cond.isSome)])
  | .tokq g p t => some (plainRaw 0x1DC g 0 p t.spec 0 0)
  | .mma o => some (engineRaw 0x200 o.g (mmaMod o.ty o.pal o.nzc) 0 o.a.spec 0 0
      [(32, 0), (8, o.cb), (12, o.row0), (6, o.hw), (6, o.hc)])
  | .mmas o hq => some (engineRaw 0x201 o.g (mmaMod o.ty o.pal o.nzc) 0 o.a.spec 0 0
      [(26, 0), (6, hq), (8, o.cb), (12, o.row0), (6, o.hw), (6, o.hc)])
  | .mmag g ty pal nzc hc hw ng1 a n => some (engineRaw 0x202 g (mmaMod ty pal nzc) 0 a.spec n.spec 0
      [(3, ng1), (49, 0), (6, hw), (6, hc)])
  | .accrd g b64 d c => some (tileRaw 0x210 g (2 * b2n b64 * 256) d.spec 0 c)
  | .accrdMd g d c => some (tileRaw 0x210 g 1 d.spec 0 c)
  | .accwr g b64 c s => some (tileRaw 0x211 g (2 * b2n b64 * 256) 0 s.spec c)
  | .accz g b64 h => some (plainRaw 0x212 g (2 * b2n b64 * 256) 0 h 0 0)
  | .accchk g b64 h => some (plainRaw 0x213 g (2 * b2n b64 * 256) 0 h 0 0)
  | .bra g h off => some (branchRaw 0x240 g h 0 off)
  | .brx g h t off => some (branchRaw 0x241 g h t.spec off)
  | .call g h off => some (branchRaw 0x242 g h 0 off)
  | .callx g h t off => some (branchRaw 0x243 g h t.spec off)
  | .ret g h => some (branchRaw 0x244 g h 0 0)
  | .exit g => some (plainRaw 0x248 g 0 0 0 0 0)
  | .nop g len => some ⟨len.code, 0x249, g.code, 0, 0, 0, 0, 0, 0⟩
  | .yield_ g => some (plainRaw 0x24A g 0 0 0 0 0)
  | .ppt vm sm roff tcnt tlo =>
    some ⟨3, 0x250, 7, sm % 4 * 128, sm / 4 + tlo % 8 * 64, tlo / 8 + tcnt % 64 * 8, tcnt / 64 + roff % 256 * 2,
      roff / 256, vm⟩
  | .bar g n c => some (barRaw g 0 n c)
  | .barArrive g n c => some (barRaw g 1 n c)
  | .fbar g m => some (plainRaw 0x255 g 0 0 0 m 0)
  | .sos => some (plainRaw 0x25C .always 0 0 0 0 0)
  | .inv o => some ⟨1, 0x260 + o.kind.code, o.g.code, o.d.spec, o.t.spec, o.x.spec, o.brk + 8 * (o.tol % 64),
      o.tol / 64 + o.nlen1 * 4 + o.cap1 * 64, 0⟩
  | .bset g n a b => some (aluRaw 0x268 g 0 n a.spec b .none_)
  | .bget g sl d b => some (plainRaw 0x269 g sl.code d.spec b 0 0)
  | .launch g t a q => some (plainRaw 0x270 g 0 t.spec a.spec q.spec 0)
  | .wgtake g d => some (plainRaw 0x271 g 0 d.spec 0 0 0)
  | .getsr g b64 d num => some (plainRaw 0x280 g (2 * b2n b64 * 256) d.spec num 0 0)
  | .setsr g b64 num b => some (aluRaw 0x281 g (2 * b2n b64 * 256) num 0 b .none_)
  | .trap g imm => some (aluRaw 0x288 g 0 0 0 (.imm16 imm) .none_)
  | .tfence g => some (plainRaw 0x289 g 0 0 0 0 0)
  | .rft => some (plainRaw 0x28A .always 0 0 0 0 0)
  | .rftSkip => some (plainRaw 0x28A .always 1 0 0 0 0)
  | .lanerd g d a l => some (plainRaw 0x290 g 0 d.spec a.spec l.spec 0)
  | .lanewr g d l a => some (plainRaw 0x291 g 0 d.spec l.spec a.spec 0)
  | .savem g p n c => some (plainRaw 0x298 g c n.spec p.spec 0 0)
  | .loadm g p n c => some (plainRaw 0x299 g c n.spec p.spec 0 0)
  | .ximm g d => some (plainRaw 0x3F0 g 0 d.spec 0 0 0)
  | .xfld g d pos len1 => some (plainRaw 0x3F1 g (pos * 64 + len1) d.spec 0 0 0)
  | _ => none

/-- The word of an instruction, as a number, and its length code; none for a device step. -/
def encode (i : Instr) : Option (Nat × Nat) := i.raw.map (fun r => (r.len, r.word))

/-! ### Decoder -/

/-- Operand b of the integer, float or lane layout (R85). -/
def Raw.bOpd (r : Raw) : Opd :=
  if r.mod % 4 = 1 then
    if r.len = 1 then .imm16 (r.b + 512 * r.c) else if r.len = 2 then .imm32 r.ext else .imm64 r.ext
  else .ofSpec r.b

/-- Operand c of the layout: zero in the 64-bit immediate form (R85). -/
def Raw.cOpd (r : Raw) : Opd :=
  if r.mod % 4 = 1 ∧ r.len = 1 then .zero
  else if r.mod % 4 = 2 then .imm32 r.ext
  else .ofSpec r.c

/-- TYPE. -/
def Raw.ty (r : Raw) : Ty := .ofCode (r.mod / 256)

/-- RM. -/
def Raw.rm (r : Raw) : Rm := .ofCode (r.mod / 64)

/-- MOD[57:54]. -/
def Raw.sub (r : Raw) : Nat := r.mod / 4 % 16

/-- The guard. -/
def Raw.g (r : Raw) : Guard := .ofCode r.guard

/-- One-source operands. -/
def Raw.a1 (r : Raw) : A1 := ⟨r.g, r.ty, .ofSpec r.d, .ofSpec r.a⟩

/-- Two-source operands. -/
def Raw.a2 (r : Raw) : A2 := ⟨r.g, r.ty, .ofSpec r.d, .ofSpec r.a, r.bOpd⟩

/-- Three-source operands. -/
def Raw.a3 (r : Raw) : A3 := ⟨r.g, r.ty, .ofSpec r.d, .ofSpec r.a, r.bOpd, r.cOpd⟩

/-- The offset of the memory group. -/
def Raw.off (r : Raw) : Option Nat := if r.len = 1 then none else some (r.ext % 2 ^ 32)

/-- The memory operand. -/
def Raw.memOp (r : Raw) : MemOp := ⟨.ofSpec r.a, .ofSpec r.b, r.mod / 8 % 8, r.off⟩

/-- The memory operand of a 128-bit atomic word. -/
def Raw.atomOp (r : Raw) : MemOp := ⟨.ofSpec r.a, .ofSpec r.b, r.mod / 8 % 8, some (r.ext % 2 ^ 32)⟩

/-- S, SYS and LOC. -/
def Raw.strong (r : Raw) : Bool := bitAt r.mod 7
/-- SYS. -/
def Raw.sys (r : Raw) : Bool := bitAt r.mod 6
/-- LOC. -/
def Raw.loc (r : Raw) : Bool := bitAt r.mod 2
/-- The .b64 bit of width codes 0 and 2. -/
def Raw.b64 (r : Raw) : Bool := bitAt r.mod 9
/-- The memory width. -/
def Raw.width (r : Raw) : Width := .ofCode (r.mod / 256)

/-- Carry predicates (R325). -/
def Raw.ci (r : Raw) : Option Nat := if bitAt r.mod 7 then some (r.c % 8) else none
/-- The carry-out predicate. -/
def Raw.co (r : Raw) : Option Nat := if bitAt r.mod 6 then some (r.c / 16 % 8) else none

/-- Hints (R88). -/
def Raw.hints (r : Raw) : Hints := ⟨bitAt r.b 8, bitAt r.b 7, bitAt r.b 6⟩
/-- OFF (R88). -/
def Raw.broff (r : Raw) : Nat := r.d + 512 * r.a + 2 ^ 18 * (r.b % 64)

/-- The tile coordinate (R89). -/
def Raw.coord (r : Raw) : Coord :=
  { h := r.ext / 2 ^ 26 % 64,
    row := if bitAt r.ext 0 then .reg (.ofSpec r.a) else .imm (r.ext / 2 ^ 14 % 4096),
    col := if bitAt r.ext 1 then .reg (.ofSpec r.b) else .imm (r.ext / 4 % 4096) }

/-- cnt − 1 of a barrier (R281). -/
def Raw.barCnt (r : Raw) : Option Nat := if bitAt r.c 3 then some (r.b / 16 % 32 + 32 * (r.c % 8)) else none

/-- The common operands of MMA and MMAS (R340). -/
def Raw.mmaArgs (r : Raw) : MmaArgs :=
  { g := r.g, ty := r.ty, pal := .ofCode (r.mod / 64), nzc := bitAt r.mod 5, hc := r.ext / 2 ^ 58 % 64,
    hw := r.ext / 2 ^ 52 % 64, row0 := r.ext / 2 ^ 40 % 4096, cb := r.ext / 2 ^ 32 % 256, a := .ofSpec r.a }

/-- X of R294. -/
def Raw.x21 (r : Raw) : Nat := r.ext % 1024 + 1024 * (r.mod / 2 % 2048)

/-- The INV operands (R92). -/
def Raw.invArgs (r : Raw) (k : InvKind) : InvArgs :=
  { g := r.g, kind := k, cap1 := r.mod / 64, nlen1 := r.mod / 4 % 16, tol := r.c / 8 + 64 * (r.mod % 4),
    brk := r.c % 8, x := .ofSpec r.b, t := .ofSpec r.a, d := .ofSpec r.d }

/-- The instruction that the fields name, before any check but that of the opcode (R93). -/
def Raw.parse (r : Raw) : Option Instr :=
  match r.opc with
  | 0x000 => some (.iadd r.a2 r.ci r.co)
  | 0x001 => some (.isub r.a2 r.ci r.co)
  | 0x002 => some (.imul r.a2)
  | 0x003 => some (.imulh r.a2)
  | 0x004 => some (.imad r.a3)
  | 0x005 => some (.idiv r.a2 (bitAt r.mod 5))
  | 0x006 => some (.imin r.a2)
  | 0x007 => some (.imax r.a2)
  | 0x008 => some (.iabs r.a1)
  | 0x010 => some (.and r.a2)
  | 0x011 => some (.andn r.a2)
  | 0x012 => some (.or r.a2)
  | 0x013 => some (.xor r.a2)
  | 0x018 => some (.shl r.a2)
  | 0x019 => some (.shr r.a2)
  | 0x01A => some (.sar r.a2)
  | 0x01B => some (.rot r.a2)
  | 0x020 => some (.popc r.a1)
  | 0x021 => some (.clz r.a1)
  | 0x022 => some (.brev r.a1)
  | 0x023 => some (.bfx r.a2)
  | 0x024 => some (.bfi r.a3)
  | 0x028 => some (.icmp r.g r.ty (.ofCode r.sub) r.d (.ofSpec r.a) r.bOpd)
  | 0x029 => some (.plop r.g (r.mod / 16) r.d r.a r.b (if bitAt r.mod 3 then .sreg (.ofSpec r.c) else .pred r.c))
  | 0x030 => some (.sel r.g r.ty (.ofSpec r.d) (.ofSpec r.a) r.bOpd r.c)
  | 0x031 => some (.lea r.g r.loc (bitAt r.mod 1) (.ofSpec r.d) r.memOp)
  | 0x032 => some (.mov r.a1)
  | 0x033 => some (.movi r.g r.ty (.ofSpec r.d) r.bOpd (bitAt r.mod 5))
  | 0x080 => some (.fadd r.a2 r.rm)
  | 0x081 => some (.fsub r.a2 r.rm)
  | 0x082 => some (.fmul r.a2 r.rm)
  | 0x083 => some (.ffma r.a3 r.rm)
  | 0x084 => some (.fmin r.a2)
  | 0x085 => some (.fmax r.a2)
  | 0x088 => some (.fcmp r.g r.ty (.ofCode r.sub) r.d (.ofSpec r.a) r.bOpd)
  | 0x089 => some (if bitAt r.mod 5 then .fclassPred r.g r.ty r.d (.ofSpec r.a) (r.b + 512 * r.c) else .fclass r.a1)
  | 0x090 => some (.frcp r.a1 r.rm)
  | 0x091 => some (.frsq r.a1 r.rm)
  | 0x092 => some (.fsqrt r.a1 r.rm)
  | 0x093 => some (.fdiv r.a2 r.rm)
  | 0x098 => some (.fexp2 r.a1)
  | 0x099 => some (.flog2 r.a1)
  | 0x09A => some (.fsin r.a1)
  | 0x09B => some (.fcos r.a1)
  | 0x09C => some (.frred r.a1 r.rm)
  | 0x0A0 => some (.fscale r.a2 r.rm)
  | 0x0A1 => some (.fgetexp r.a1)
  | 0x0A8 => some (.fdot r.a3)
  | 0x0B0 =>
    let sty := Ty.ofCode r.sub
    some (.cvt r.g r.ty sty r.rm (.ofSpec r.d) (.ofSpec r.a)
      (if r.ty.isPacked && !sty.isPacked then some r.bOpd else none))
  | 0x0B8 => some (.rqnt r.g r.ty (.ofCode r.sub) (.ofSpec r.d) (.ofSpec r.a) r.bOpd r.cOpd)
  | 0x0B9 => some (.bscl r.a1)
  | 0x100 => some (.shfl r.g (.ofCode (r.mod / 64)) (r.mod / 8 % 8) r.ty (.ofSpec r.d) (.ofSpec r.a) r.bOpd
      (if r.mod % 4 = 1 ∧ r.len = 1 then 7 else r.c))
  | 0x108 =>
    let m := VoteMode.ofCode (r.mod / 4)
    some (.vote r.g m (bitAt r.mod 5)
      (match m with
       | .mask | .count | .first => .reg (.ofSpec r.d)
       | _ => .pred r.d) r.a)
  | 0x110 => some (.lred r.a1 (.ofCode r.sub))
  | 0x140 => some (.ld r.g r.width r.strong r.sys r.loc (.ofSpec r.d) r.memOp)
  | 0x141 => some (.st r.g r.width r.strong r.sys r.loc r.memOp (.ofSpec r.c))
  | 0x148 => some (.atom r.g (.ofCode (r.ext / 2 ^ 40)) (.ofCode (r.ext / 2 ^ 32)) r.sys (.ofSpec r.d) r.atomOp (.ofSpec r.c))
  | 0x149 => some (.cas r.g r.b64 r.sys (.ofSpec r.d) r.atomOp (.ofSpec r.c) (.ofSpec (r.ext / 2 ^ 32 % 512)))
  | 0x14A => some (.red r.g (.ofCode (r.ext / 2 ^ 40)) (.ofCode (r.ext / 2 ^ 32)) r.sys r.atomOp (.ofSpec r.c))
  | 0x150 => some (.waita r.g r.b64 r.sys (.ofSpec r.d) (.ofSpec r.a) r.off (.ofSpec r.c)
      (match r.mod / 8 % 8 with
       | 0 => .reg (.ofSpec r.b) | 1 => .cycles r.b | 2 => .units r.b | t => .rsv t r.b))
  | 0x151 => some (.wake r.g r.sys (.ofSpec r.a) r.off
      (match r.mod / 8 % 8 with
       | 0 => .reg (.ofSpec r.b) | 1 => .imm (r.b + 512 * r.c) | t => .rsv t r.b r.c))
  | 0x158 => some (.fence r.g r.sys)
  | 0x160 => some (.pref r.g r.loc r.memOp)
  | 0x161 => some (.cflush r.g r.loc r.memOp)
  | 0x168 => some (.ilock r.g r.d (.ofSpec r.a) (.ofSpec r.b))
  | 0x169 => some (.iunlock r.g (.ofSpec r.a) (.ofSpec r.b))
  | 0x1C0 => some (.talloc r.g (r.mod / 32 % 8) r.d (r.b + 512 * (r.c % 8)) (r.c / 8 + 64 * (r.mod % 8)))
  | 0x1C1 => some (.tfree r.g r.d)
  | 0x1C2 => some (.tld r.g r.width (.ofSpec r.d) r.coord)
  | 0x1C3 => some (.tst r.g r.width r.coord (.ofSpec r.c))
  | 0x1C4 => some (.tzero r.g r.d)
  | 0x1D0 => some (.cpy
      { g := r.g, tok := .ofSpec r.d, dirMem := bitAt r.mod 0, ht := r.ext / 2 ^ 58 % 64,
        hs := r.ext / 2 ^ 52 % 64, rows1 := r.ext / 2 ^ 40 % 4096, rb1 := r.ext / 2 ^ 31 % 512,
        row := r.ext / 2 ^ 19 % 4096, col16 := r.ext / 2 ^ 10 % 512, x := r.x21, a := .ofSpec r.a })
  | 0x1D1 => some (.cpyg
      { g := r.g, tok := .ofSpec r.d, ht := r.ext / 2 ^ 58 % 64, rows1 := r.ext / 2 ^ 40 % 4096,
        rb1 := r.ext / 2 ^ 31 % 512, row := r.ext / 2 ^ 19 % 4096, col16 := r.ext / 2 ^ 10 % 512, x := r.x21,
        a := .ofSpec r.a, i := .ofSpec r.b })
  | 0x1D2 => some (.cpyq r.g (.ofSpec r.d) (r.ext / 2 ^ 58 % 64) (r.ext % 64) (.ofSpec r.a))
  | 0x1D3 => some (.wload r.g (.ofSpec r.d) (r.ext / 2 ^ 58 % 64) (.ofSpec r.a))
  | 0x1D4 => some (.dict r.g (bitAt r.mod 0) (.ofSpec r.d) (r.ext / 2 ^ 58 % 64) (r.ext / 2 ^ 44 % 256)
      (r.ext / 2 ^ 37 % 128) (.ofSpec r.a))
  | 0x1D8 => some (.coll
      { g := r.g, tok := .ofSpec r.d, op := .ofCode r.mod, red := .ofCode (r.mod / 4), ty := r.ty,
        c := .ofSpec r.a, src := .ofSpec r.b, dst := .ofSpec r.c, n := .ofSpec (r.ext % 512),
        cond := if bitAt r.ext 27 then some (.ofSpec (r.ext / 2 ^ 9 % 512), .ofSpec (r.ext / 2 ^ 18 % 512)) else none })
  | 0x1DC => some (.tokq r.g r.d (.ofSpec r.a))
  | 0x200 => some (.mma r.mmaArgs)
  | 0x201 => some (.mmas r.mmaArgs (r.ext / 2 ^ 26 % 64))
  | 0x202 => some (.mmag r.g r.ty (.ofCode (r.mod / 64)) (bitAt r.mod 5) (r.ext / 2 ^ 58 % 64) (r.ext / 2 ^ 52 % 64)
      (r.ext % 8) (.ofSpec r.a) (.ofSpec r.b))
  | 0x210 => some (if bitAt r.mod 0 then .accrdMd r.g (.ofSpec r.d) r.coord else .accrd r.g r.b64 (.ofSpec r.d) r.coord)
  | 0x211 => some (.accwr r.g r.b64 r.coord (.ofSpec r.c))
  | 0x212 => some (.accz r.g r.b64 r.a)
  | 0x213 => some (.accchk r.g r.b64 r.a)
  | 0x240 => some (.bra r.g r.hints r.broff)
  | 0x241 => some (.brx r.g r.hints (.ofSpec r.c) r.broff)
  | 0x242 => some (.call r.g r.hints r.broff)
  | 0x243 => some (.callx r.g r.hints (.ofSpec r.c) r.broff)
  | 0x244 => some (.ret r.g r.hints)
  | 0x248 => some (.exit r.g)
  | 0x249 => some (.nop r.g (match r.len with | 1 => .l64 | 2 => .l96 | _ => .l128))
  | 0x24A => some (.yield_ r.g)
  | 0x250 => some (.ppt r.ext (r.d / 128 + 4 * (r.a % 64)) (r.c / 2 + 256 * r.mod) (r.b / 8 + 64 * (r.c % 2))
      (r.a / 64 + 8 * (r.b % 8)))
  | 0x254 => some (if bitAt r.mod 0 then .barArrive r.g (r.b % 16) r.barCnt else .bar r.g (r.b % 16) r.barCnt)
  | 0x255 => some (.fbar r.g (r.b % 16))
  | 0x25C => some .sos
  | 0x260 => some (.inv (r.invArgs .upF32))
  | 0x261 => some (.inv (r.invArgs .upI32))
  | 0x262 => some (.inv (r.invArgs .dnF32))
  | 0x263 => some (.inv (r.invArgs .dnI32))
  | 0x268 => some (.bset r.g r.d (.ofSpec r.a) r.bOpd)
  | 0x269 => some (.bget r.g (.ofCode r.mod) (.ofSpec r.d) r.a)
  | 0x270 => some (.launch r.g (.ofSpec r.d) (.ofSpec r.a) (.ofSpec r.b))
  | 0x271 => some (.wgtake r.g (.ofSpec r.d))
  | 0x280 => some (.getsr r.g r.b64 (.ofSpec r.d) r.a)
  | 0x281 => some (.setsr r.g r.b64 r.d r.bOpd)
  | 0x288 => some (.trap r.g (r.b + 512 * r.c))
  | 0x289 => some (.tfence r.g)
  | 0x28A => some (if bitAt r.mod 0 then .rftSkip else .rft)
  | 0x290 => some (.lanerd r.g (.ofSpec r.d) (.ofSpec r.a) (.ofSpec r.b))
  | 0x291 => some (.lanewr r.g (.ofSpec r.d) (.ofSpec r.a) (.ofSpec r.b))
  | 0x298 => some (.savem r.g (.ofSpec r.a) (.ofSpec r.d) (r.mod % 32))
  | 0x299 => some (.loadm r.g (.ofSpec r.a) (.ofSpec r.d) (r.mod % 32))
  | 0x3F0 => some (.ximm r.g (.ofSpec r.d))
  | 0x3F1 => some (.xfld r.g (.ofSpec r.d) (r.mod / 64) (r.mod % 64))
  | _ => none

/-- The instruction of the fields, or the first decode error in the order of R95. sub tells whether the word comes from the
replacement store, the only place where the substitute-only opcodes are legal (R94). -/
def Raw.decode (sub : Bool) (r : Raw) : Except DecodeError Instr :=
  if r.len = 0 then .error .illegalLength
  else
    match r.parse with
    | none => .error .illegalOpcode
    | some i =>
      if (decide (0x3F0 ≤ r.opc)) && !sub then .error .illegalOpcode
      else if r.opc = 0x25C ∧ i.raw ≠ some r then .error .sosMisuse
      else if !(i.shapeOk && decide (i.raw = some r)) then .error .reservedField
      else if !(i.regsLegal sub) then .error .illegalRegister
      else .ok i

/-- Decodes a word of as many bytes as its length code gives; higher bits are dropped. -/
def decodeWord (sub : Bool) (w : Nat) : Except DecodeError Instr :=
  Raw.decode sub (Raw.ofWord (w % 2 ^ (8 * lenBytes (w % 4))))

/-- The number that bytes read from the lowest address up make (R1). -/
def leNat : List Byte → Nat
  | [] => 0
  | b :: r => b.toNat + 256 * leNat r

/-- The bytes of a number, the lowest first (R1). -/
def leBytes : Nat → Nat → List Byte
  | 0, _ => []
  | k + 1, n => BitVec.ofNat 8 n :: leBytes k (n / 256)

/-- The decoder over bytes as they lie in memory: an instruction and the bytes that follow it. -/
def decodeBytes (sub : Bool) (bs : List Byte) : Except DecodeError (Instr × List Byte) :=
  let w := leNat (bs.take 16)
  match decodeWord sub w with
  | .ok i => .ok (i, bs.drop (lenBytes (w % 4)))
  | .error e => .error e

/-- The length in bytes of an instruction: that of its word; a device step has none. -/
def Instr.bytes (i : Instr) : Nat := (i.raw.map (fun r => lenBytes r.len)).getD 0

/-- What the decoder reads from an instruction of nbits bits numbered as spec/opcode_table.json numbers them, laid out in
memory as bytes; words of the replacement store are tried when an ordinary fetch refuses the opcode. -/
def decodeTableWord (nbits w : Nat) : Option Instr :=
  let bs := leBytes 16 (w % 2 ^ nbits)
  match decodeBytes false bs with
  | .ok (i, _) => some i
  | .error _ =>
    match decodeBytes true bs with
    | .ok (i, _) => some i
    | .error _ => none

end Sys2Proof
end

