-- ==== Sys2Proof/Machine/Numbers.lean ====
section
/-!
DEFINITION. Number formats to the last bit (spec/06_numbers.md) and the summation rule (spec/07_contracts.md R124). A result is
its bits with the sticky flags it sets (R67): values are taken exactly as ±m × 2^e and rounded once.
-/
namespace Sys2Proof

/-! ### Flags (R67) -/

/-- IV. -/
def flagIV : Nat := 1
/-- DZ. -/
def flagDZ : Nat := 2
/-- OF. -/
def flagOF : Nat := 4
/-- UF. -/
def flagUF : Nat := 8
/-- NX. -/
def flagNX : Nat := 16
/-- MONO. -/
def flagMONO : Nat := 32
/-- OUTB. -/
def flagOUTB : Nat := 64
/-- STAMP. -/
def flagSTAMP : Nat := 128

/-- f when b. -/
def flagIf (b : Bool) (f : Nat) : Nat := if b then f else 0

/-! ### Values -/

/-- An IEEE-style format (R102): precision, exponent bits, bias. -/
structure Fmt where
  p : Nat
  eb : Nat
  bias : Nat
deriving DecidableEq, Repr

/-- FP64. -/
def fp64 : Fmt := ⟨53, 11, 1023⟩
/-- FP32. -/
def fp32 : Fmt := ⟨24, 8, 127⟩
/-- FP16. -/
def fp16 : Fmt := ⟨11, 5, 15⟩
/-- BF16. -/
def fpb16 : Fmt := ⟨8, 8, 127⟩

/-- Width in bits. -/
def Fmt.w (f : Fmt) : Nat := f.p + f.eb

/-- The exponent of the smallest normal number. -/
def Fmt.emin (f : Fmt) : Int := 1 - (f.bias : Int)

/-- The bits of +Inf. -/
def Fmt.infBits (f : Fmt) : Nat := (2 ^ f.eb - 1) * 2 ^ (f.p - 1)

/-- The sign bit. -/
def Fmt.signBit (f : Fmt) : Nat := 2 ^ (f.p + f.eb - 1)

/-- canonical_nan(F): positive and quiet (R105). -/
def Fmt.nan (f : Fmt) : Nat := f.infBits + 2 ^ (f.p - 2)

/-- The bits of a sign and a magnitude. -/
def Fmt.withSign (f : Fmt) (neg : Bool) (mag : Nat) : Nat := if neg then f.signBit + mag else mag

/-- The format of a TYPE; tapered operands are FP16 values from operand fetch on (R112). -/
def Ty.fmt : Ty → Fmt
  | .f64 => fp64
  | .f16 | .f16x2 | .t8 | .t6 => fp16
  | .bf16 | .bf16x2 => fpb16
  | _ => fp32

/-- An exact value: ±m × 2^e, an infinity, or a NaN that tells whether it is signalling. -/
inductive FVal where
  | nan (sig : Bool)
  | inf (neg : Bool)
  | fin (neg : Bool) (m : Nat) (e : Int)
deriving DecidableEq, Repr

/-- The sign of a value; a NaN has none. -/
def FVal.neg : FVal → Bool
  | .nan _ => false
  | .inf n => n
  | .fin n _ _ => n

/-- The value with the other sign. -/
def FVal.negate : FVal → FVal
  | .nan s => .nan s
  | .inf n => .inf (!n)
  | .fin n m e => .fin (!n) m e

/-- A NaN. -/
def FVal.isNan : FVal → Bool
  | .nan _ => true
  | _ => false

/-- A signalling NaN. -/
def FVal.isSig : FVal → Bool
  | .nan s => s
  | _ => false

/-- An infinity. -/
def FVal.isInf : FVal → Bool
  | .inf _ => true
  | _ => false

/-- A zero of either sign. -/
def FVal.isZero : FVal → Bool
  | .fin _ m _ => m == 0
  | _ => false

/-- An integer as an exact value; zero is +0. -/
def FVal.ofInt (i : Int) : FVal := .fin (decide (i < 0)) i.natAbs 0

/-- The value a bit pattern of format F stands for (R102). -/
def Fmt.decode (f : Fmt) (x : Nat) : FVal :=
  let neg := decide (x / f.signBit % 2 = 1)
  let ex := x / 2 ^ (f.p - 1) % 2 ^ f.eb
  let fr := x % 2 ^ (f.p - 1)
  if ex = 2 ^ f.eb - 1 then (if fr = 0 then .inf neg else .nan (decide (fr < 2 ^ (f.p - 2))))
  else if ex = 0 then .fin neg fr (f.emin - (f.p - 1 : Nat))
  else .fin neg (fr + 2 ^ (f.p - 1)) (f.emin + (ex : Int) - 1 - (f.p - 1 : Nat))

/-- m × 2^e as a number of units of 2^q, rounded by rm; the second part tells whether it is inexact. -/
def roundUnits (rm : Rm) (neg : Bool) (m : Nat) (e q : Int) : Nat × Bool :=
  if q ≤ e then (m * 2 ^ (e - q).toNat, false)
  else
    let s := (q - e).toNat
    let k := m / 2 ^ s
    let r := m % 2 ^ s
    if r = 0 then (k, false)
    else
      let up := match rm with
        | .rne => decide (2 ^ s < 2 * r) || (decide (2 * r = 2 ^ s) && k % 2 == 1)
        | .rz => false
        | .ru => !neg
        | .rd => neg
      (if up then k + 1 else k, true)

/-- round(x, F, rm) with its flags (R106, R107). -/
def Fmt.round (f : Fmt) (rm : Rm) : FVal → Nat × Nat
  | .nan _ => (f.nan, 0)
  | .inf neg => (f.withSign neg f.infBits, 0)
  | .fin neg m e =>
    if m = 0 then (f.withSign neg 0, 0)
    else
      let lead : Int := (Nat.log2 m : Int) + e
      let low : Int := f.emin - (f.p - 1 : Nat)
      let q := max (lead - (f.p - 1 : Nat)) low
      let (k, nx) := roundUnits rm neg m e q
      let mag := (q - low).toNat * 2 ^ (f.p - 1) + k
      if f.infBits ≤ mag then
        let toInf := match rm with
          | .rne => true
          | .rz => false
          | .ru => !neg
          | .rd => neg
        (f.withSign neg (if toInf then f.infBits else f.infBits - 1), flagOF ||| flagNX)
      else
        let tiny := decide (lead < f.emin) &&
          (decide (lead < f.emin - 1) || decide ((roundUnits rm neg m e (lead - (f.p - 1 : Nat))).1 < 2 ^ f.p))
        (f.withSign neg mag, flagIf nx flagNX ||| flagIf (nx && tiny) flagUF)

/-- A bit pattern is subnormal in F. -/
def Fmt.subnormal (f : Fmt) (x : Nat) : Bool :=
  x / 2 ^ (f.p - 1) % 2 ^ f.eb == 0 && x % 2 ^ (f.p - 1) != 0

/-- The record's SUBN parts (R120, R121). -/
def recIn (rec : Nat) : Bool := bitAt rec 21
/-- SUBN product part. -/
def recProd (rec : Nat) : Bool := bitAt rec 20
/-- SUBN output part. -/
def recOut (rec : Nat) : Bool := bitAt rec 19

/-- flush_in (R108), on bits. -/
def Fmt.flushIn (f : Fmt) (rec x : Nat) : Nat :=
  if recIn rec && f.subnormal x then x / f.signBit % 2 * f.signBit else x

/-- flush_prod (R108) of an exact product of two operands of format F. -/
def Fmt.flushProd (f : Fmt) (rec : Nat) (v : FVal) : FVal :=
  match v with
  | .fin neg m e =>
    if recProd rec && m != 0 && decide ((Nat.log2 m : Int) + e < f.emin) then .fin neg 0 0 else v
  | _ => v

/-- flush_out (R108), on rounded bits, with the flags so far. -/
def Fmt.flushOut (f : Fmt) (rec : Nat) (r : Nat × Nat) : Nat × Nat :=
  if recOut rec && f.subnormal r.1 then (r.1 / f.signBit % 2 * f.signBit, r.2 ||| flagUF ||| flagNX) else r

/-- A source operand: flushed and taken exactly. -/
def Fmt.operand (f : Fmt) (rec x : Nat) : FVal := f.decode (f.flushIn rec x)

/-- The result of an operation: rounded once, flushed, with the operation's own flags. -/
def Fmt.result (f : Fmt) (rec : Nat) (rm : Rm) (v : FVal × Nat) : Nat × Nat :=
  let r := f.flushOut rec (f.round rm v.1)
  (r.1, r.2 ||| v.2)

/-! ### Exact operations -/

/-- The flag for reading a signalling NaN (R105) (DEDUCED, assumption 34). -/
def sigFlag (l : List FVal) : Nat := flagIf (l.any FVal.isSig) flagIV

/-- A signed mantissa. -/
def signed (neg : Bool) (m : Nat) : Int := if neg then -(m : Int) else m

/-- Exact sum; rm decides the sign of a zero sum of terms of opposite sign (R106). -/
def FVal.add (rm : Rm) (a b : FVal) : FVal × Nat :=
  match a, b with
  | .nan s, y => (.nan false, flagIf (s || y.isSig) flagIV)
  | _, .nan s => (.nan false, flagIf s flagIV)
  | .inf x, .inf y => if x = y then (.inf x, 0) else (.nan false, flagIV)
  | .inf x, _ => (.inf x, 0)
  | _, .inf y => (.inf y, 0)
  | .fin x m e, .fin y n g =>
    let q := min e g
    let t := signed x (m * 2 ^ (e - q).toNat) + signed y (n * 2 ^ (g - q).toNat)
    if t = 0 then
      (.fin (if m = 0 ∧ n = 0 ∧ x = y then x else decide (rm = .rd)) 0 0, 0)
    else (.fin (decide (t < 0)) t.natAbs q, 0)

/-- Exact product. -/
def FVal.mul (a b : FVal) : FVal × Nat :=
  match a, b with
  | .nan s, y => (.nan false, flagIf (s || y.isSig) flagIV)
  | _, .nan s => (.nan false, flagIf s flagIV)
  | .inf x, y => if y.isZero then (.nan false, flagIV) else (.inf (x != y.neg), 0)
  | x, .inf y => if x.isZero then (.nan false, flagIV) else (.inf (x.neg != y), 0)
  | .fin x m e, .fin y n g => (.fin (x != y) (m * n) (e + g), 0)

/-- a × b + c, exact. -/
def FVal.fma (rm : Rm) (a b c : FVal) : FVal × Nat :=
  let p := a.mul b
  let s := p.1.add rm c
  (s.1, p.2 ||| s.2 ||| flagIf c.isSig flagIV)

/-- A quotient m / n to k further bits; an odd last bit stands for a remainder. -/
def stickyDiv (m n k : Nat) : Nat := m * 2 ^ k / n * 2 + (if m * 2 ^ k % n = 0 then 0 else 1)

/-- Quotient, with as many bits as any format needs (R314). -/
def FVal.div (a b : FVal) : FVal × Nat :=
  match a, b with
  | .nan s, y => (.nan false, flagIf (s || y.isSig) flagIV)
  | _, .nan s => (.nan false, flagIf s flagIV)
  | .inf _, .inf _ => (.nan false, flagIV)
  | .inf x, y => (.inf (x != y.neg), 0)
  | x, .inf y => (.fin (x.neg != y) 0 0, 0)
  | .fin x m e, .fin y n g =>
    if n = 0 then (if m = 0 then (.nan false, flagIV) else (.inf (x != y), flagDZ))
    else if m = 0 then (.fin (x != y) 0 0, 0)
    else
      let k := 64 + Nat.log2 n
      (.fin (x != y) (stickyDiv m n k) (e - g - k - 1), 0)

/-- Floor of the square root of n, by bisection over as many bits as fuel. -/
def isqrtFrom (n : Nat) : (fuel r : Nat) → Nat
  | 0, r => r
  | k + 1, r => if (r + 2 ^ k) * (r + 2 ^ k) ≤ n then isqrtFrom n k (r + 2 ^ k) else isqrtFrom n k r

/-- Floor of the square root. -/
def isqrt (n : Nat) : Nat := isqrtFrom n (Nat.log2 n / 2 + 1) 0

/-- Square root (R314): the mantissa is widened to at least 130 bits with an even exponent. -/
def FVal.sqrt (a : FVal) : FVal × Nat :=
  match a with
  | .nan s => (.nan false, flagIf s flagIV)
  | .inf true => (.nan false, flagIV)
  | .inf false => (.inf false, 0)
  | .fin neg m e =>
    if m = 0 then (.fin neg 0 0, 0)
    else if neg then (.nan false, flagIV)
    else
      let k := 130 + (e % 2).toNat
      let n := m * 2 ^ k
      let r := isqrt n
      (.fin false (r * 2 + (if r * r = n then 0 else 1)) ((e - k) / 2 - 1), 0)

/-- Reciprocal square root of a finite positive value: floor(sqrt(2^k / m)) with a remainder bit. -/
def rsqrtFin (m : Nat) (e : Int) : FVal :=
  let k := 2 * (Nat.log2 m + 70) + ((e % 2).toNat)
  let r := isqrt (2 ^ k / m)
  let exact := decide (r * r * m = 2 ^ k)
  .fin false (r * 2 + (if exact then 0 else 1)) ((-e - (k : Int)) / 2 - 1)

/-- FRSQ's exact value (R314). -/
def FVal.rsqrt (a : FVal) : FVal × Nat :=
  match a with
  | .nan s => (.nan false, flagIf s flagIV)
  | .inf true => (.nan false, flagIV)
  | .inf false => (.fin false 0 0, 0)
  | .fin neg m e =>
    if m = 0 then (.inf neg, flagDZ) else if neg then (.nan false, flagIV) else (rsqrtFin m e, 0)

/-- Compares two values that are no NaNs. -/
def FVal.cmp (a b : FVal) : Ordering :=
  match a, b with
  | .inf x, .inf y => if x = y then .eq else if x then .lt else .gt
  | .inf x, _ => if x then .lt else .gt
  | _, .inf y => if y then .gt else .lt
  | .fin x m e, .fin y n g =>
    let q := min e g
    compare (signed x (m * 2 ^ (e - q).toNat)) (signed y (n * 2 ^ (g - q).toNat))
  | _, _ => .eq

/-- Rounds a finite value to an integer by rm; the second part tells whether it is inexact. -/
def finToInt (rm : Rm) (neg : Bool) (m : Nat) (e : Int) : Int × Bool :=
  let (k, nx) := roundUnits rm neg m e 0
  (signed neg k, nx)

/-- A conversion to an integer type of range [lo, hi] (R114). -/
def FVal.toInt (rm : Rm) (lo hi : Int) : FVal → Int × Nat
  | .nan _ => (0, flagIV)
  | .inf neg => (if neg then lo else hi, flagIV)
  | .fin neg m e =>
    let (i, nx) := finToInt rm neg m e
    if hi < i then (hi, flagIV) else if i < lo then (lo, flagIV) else (i, flagIf nx flagNX)

/-! ### Integers -/

/-- x read as a two's complement number of w bits (R104). -/
def toSigned (w x : Nat) : Int := if x % 2 ^ w < 2 ^ (w - 1) then (x % 2 ^ w : Int) else (x % 2 ^ w : Int) - 2 ^ w

/-- An integer modulo 2^w. -/
def ofInt (w : Nat) (i : Int) : Nat := (i % (2 ^ w : Int)).toNat

/-- The value of a register under an integer TYPE. -/
def Ty.intVal (t : Ty) (x : Nat) : Int := if t.signed then toSigned t.w x else (x % 2 ^ t.w : Int)

/-- The range of an integer TYPE. -/
def Ty.intRange (t : Ty) : Int × Int :=
  if t.signed then (-(2 ^ (t.w - 1) : Int), 2 ^ (t.w - 1) - 1) else (0, 2 ^ t.w - 1)

/-- A result of TYPE t as it lies in registers: the bits above a narrow signed value are its sign, above any other zero
(R103). -/
def Ty.place (t : Ty) (x : Nat) : Nat :=
  if t.signed && decide (t.w < 32) then ofInt 32 (toSigned t.w x) else x % 2 ^ t.w

/-! ### Tapered formats and block scales -/

/-- How many bits from place i downward equal lead. -/
def runLength (m : Nat) (lead : Bool) : Nat → Nat
  | 0 => 0
  | i + 1 => if bitAt m i == lead then runLength m lead i + 1 else 0

/-- The magnitude of a positive tapered code m of n bits as mantissa and exponent (R110). -/
def taperMag (m n es : Nat) : Nat × Int :=
  let lead := bitAt m (n - 2)
  let run := runLength m lead (n - 1)
  let k : Int := if lead then (run : Int) - 1 else -(run : Int)
  let nrest := n - 2 - run
  let e : Nat := if es = 1 ∧ 1 ≤ nrest then b2n (bitAt m (nrest - 1)) else 0
  let nf := if es = 1 ∧ 1 ≤ nrest then nrest - 1 else nrest
  (2 ^ nf + m % 2 ^ nf, ((es : Int) + 1) * k + e - nf)

/-- decode_taper (R110). -/
def decodeTaper (c n es : Nat) : FVal :=
  let c := c % 2 ^ n
  if c = 0 then .fin false 0 0
  else if c = 2 ^ (n - 1) then .nan false
  else
    let neg := bitAt c (n - 1)
    let (m, e) := taperMag (if neg then 2 ^ n - c else c) n es
    .fin neg m e

/-- decode_T8. -/
def decodeT8 (c : Nat) : FVal := decodeTaper c 8 1

/-- decode_T6. -/
def decodeT6 (c : Nat) : FVal := decodeTaper c 6 0

/-- The largest code from 1 to k whose value is at most a; 1 when none is. -/
def taperFloor (n es : Nat) (a : FVal) : (k : Nat) → Nat
  | 0 => 1
  | k + 1 => if (decodeTaper (k + 1) n es).cmp a != .gt then k + 1 else taperFloor n es a k

/-- round_taper (R113). -/
def roundTaper (n es : Nat) : FVal → Nat × Nat
  | .nan _ => (2 ^ (n - 1), flagIV)
  | .inf _ => (2 ^ (n - 1), flagIV)
  | .fin neg m e =>
    if m = 0 then (0, 0)
    else
      let a := FVal.fin false m e
      let maxc := 2 ^ (n - 1) - 1
      let (q, fl) :=
        match a.cmp (decodeTaper maxc n es), a.cmp (decodeTaper 1 n es) with
        | .gt, _ => (maxc, flagOF ||| flagNX)
        | .eq, _ => (maxc, 0)
        | .lt, .lt => (1, flagUF ||| flagNX)
        | .lt, .eq => (1, 0)
        | .lt, .gt =>
          let lo := taperFloor n es a maxc
          let mid := (((decodeTaper lo n es).add .rne (decodeTaper (lo + 1) n es)).1.mul (.fin false 1 (-1))).1
          let q := match a.cmp mid with
            | .lt => lo
            | .gt => lo + 1
            | .eq => if lo % 2 = 0 then lo else lo + 1
          (q, flagIf ((decodeTaper q n es).cmp a != .eq) flagNX)
      (if neg then 2 ^ n - q else q, fl)

/-- decode_BS16 (R116). -/
def decodeBS16 (s : Nat) : FVal :=
  let e := s / 256 % 256
  let f := s % 256
  if e = 0 then .fin false 0 0 else if e = 255 then .nan false else .fin false (256 + f) ((e : Int) - 127 - 8)

/-- The exact value of an operand of TYPE t as a float operation reads it, flushed (R108, R112). -/
def Ty.operand (t : Ty) (rec x : Nat) : FVal :=
  match t with
  | .t8 => decodeT8 x
  | .t6 => decodeT6 x
  | t => t.fmt.operand rec (x % 2 ^ t.fmt.w)

/-- The exact value of a source of TYPE t in a conversion (R114, R115); integers are exact. -/
def Ty.source (t : Ty) (rec x : Nat) : FVal :=
  if t.isInt then .ofInt (t.intVal x) else t.operand rec x

/-- A value brought into TYPE t, with flags: the conversions of R113 to R115. -/
def Ty.convert (t : Ty) (rec : Nat) (rm : Rm) (v : FVal) : Nat × Nat :=
  match t with
  | .t8 => roundTaper 8 1 v
  | .t6 => roundTaper 6 0 v
  | t =>
    if t.isInt then
      let (i, fl) := v.toInt rm t.intRange.1 t.intRange.2
      (t.place (ofInt t.w i), fl)
    else t.fmt.result rec rm (v, flagIf v.isSig flagIV)

/-! ### The summation rule (R124) -/

/-- G of a record (R120); the reserved codes count as 32, and reserved values of ALIGN and FTREV are taken as the numbers that they are
(DESIGN CHOICE, assumption 96). -/
def recGroup (rec : Nat) : Nat :=
  match rec / 2 ^ 10 % 8 with
  | 0 => 1 | 1 => 4 | 2 => 8 | 3 => 16 | _ => 32

/-- A for terms summed in F: none is exact (R120, R124). -/
def recAlign (rec : Nat) (f : Fmt) : Option Nat :=
  let a := rec / 2 ^ 13 % 32
  if a = 0 then none else some (if f = fp64 then a + 29 else a)

/-- RPOINT (R120): true for one rounding per instruction. -/
def recPoint (rec : Nat) : Bool := bitAt rec 18

/-- RMODE. -/
def recRm (rec : Nat) : Rm :=
  match rec / 2 ^ 22 % 4 with
  | 0 => .rne | 1 => .rz | 2 => .ru | _ => .rd

/-- The exponent of the largest magnitude among finite terms; none when all are zero. -/
def maxLead : List FVal → Option Int
  | [] => none
  | .fin _ m e :: r =>
    if m = 0 then maxLead r
    else
      let x : Int := (Nat.log2 m : Int) + e
      some (match maxLead r with | some y => max x y | none => x)
  | _ :: r => maxLead r

/-- A term cut to multiples of 2^q toward zero, and whether that changed it. -/
def cutTerm (q : Int) : FVal → FVal × Bool
  | .fin neg m e =>
    if q ≤ e then (.fin neg m e, false)
    else
      let s := (q - e).toNat
      (.fin neg (m / 2 ^ s) q, m % 2 ^ s != 0)
  | v => (v, false)

/-- The exact sum of terms without NaN or Inf. -/
def sumExact (rm : Rm) : List FVal → FVal
  | [] => .fin true 0 0
  | [v] => v
  | v :: r => (v.add rm (sumExact rm r)).1

/-- S of one group (R124), with its flags. -/
def groupSum (rec : Nat) (f : Fmt) (q : List FVal) : FVal × Nat :=
  if q.any FVal.isNan then (.nan false, 0)
  else if q.any (fun v => v == .inf false) && q.any (fun v => v == .inf true) then (.nan false, flagIV)
  else if q.any FVal.isInf then (.inf (q.any (fun v => v == .inf true)), 0)
  else
    match maxLead q with
    | none => (.fin (q.all FVal.neg) 0 0, 0)
    | some e =>
      match recAlign rec f with
      | none => (sumExact (recRm rec) q, 0)
      | some a =>
        let cut := q.map (cutTerm (e + 1 - a))
        (sumExact (recRm rec) (cut.map (·.1)), flagIf (cut.any (·.2)) flagNX)

/-- A list in pieces of k; n bounds their number. -/
def chunks {α : Type} (k : Nat) : (n : Nat) → List α → List (List α)
  | 0, _ => []
  | n + 1, l => if l.isEmpty then [] else l.take k :: chunks k n (l.drop k)

/-- The groups under RPOINT group: c is rounded after each (R124). -/
def sumByGroup (rec : Nat) (f : Fmt) : List (List FVal) → FVal → Nat → FVal × Nat
  | [], c, fl => (c, fl)
  | q :: r, c, fl =>
    let s := groupSum rec f q
    let t := c.add (recRm rec) s.1
    let x := f.round (recRm rec) t.1
    sumByGroup rec f r (f.decode x.1) (fl ||| s.2 ||| t.2 ||| x.2)

/-- The groups under RPOINT instruction: an exact total (R124). -/
def sumTotal (rec : Nat) (f : Fmt) : List (List FVal) → FVal → Nat → FVal × Nat
  | [], t, fl => (t, fl)
  | q :: r, t, fl =>
    let s := groupSum rec f q
    let u := t.add (recRm rec) s.1
    sumTotal rec f r u.1 (fl ||| s.2 ||| u.2)

/-- contract_sum (R124): the bits in F and the flags. -/
def contractSum (rec : Nat) (f : Fmt) (p : List FVal) (c : FVal) : Nat × Nat :=
  let groups := chunks (recGroup rec) p.length p
  if recPoint rec then
    let t := sumTotal rec f groups (.fin true 0 0) 0
    let u := c.add (recRm rec) t.1
    let x := f.flushOut rec (f.round (recRm rec) u.1)
    (x.1, x.2 ||| t.2 ||| u.2)
  else
    let t := sumByGroup rec f groups c 0
    let x := f.flushOut rec (f.round (recRm rec) t.1)
    (x.1, x.2 ||| t.2)

end Sys2Proof
end

