-- ==== Sys2Proof/Config.lean ====
section
/-!
DEFINITION. What an implementation of Efavik fixes and what the spec leaves open: constants with no body, so that nothing can
evaluate them and a claim holds whatever they are. Each takes the running number freeCount of Machine/State.lean, which every
use advances, so that each use has a value of its own.
-/
namespace Sys2Proof.Config

/-- How many arithmetic-clock cycles pass in a step (R28): timing is not modelled, so any number may. -/
opaque freeCycles : Nat → Nat

/-- What lane l of scratch register r holds when a substitute sequence starts (R98: scratch registers start undefined). -/
opaque freeScratch : (n r l : Nat) → Word32

/-- What byte a of device memory reads as under a key other than that of the store, before a commit has written the line back, or after a
store under another key (R250, R253: the time of a write-back is not stated). -/
opaque otherKey : (n a : Nat) → Byte

/-- What a byte of a changed run holds after a commit that does not relocate it (R257: an undefined value). -/
opaque freeByte : (n a : Nat) → Byte

/-- The rank of item k in the order that the device takes where the spec gives none: lanes of one atomic (R279), bytes of one
store that overlap (R368). -/
opaque freeOrder : (n k : Nat) → Nat

/-- The digest of the image that measurement register i takes at reset (R254: the images are not in the spec). -/
opaque imageDigest : Nat → Nat

/-- Byte i of the digest of the device's identity public key (R255). -/
opaque identityDigest : Nat → Byte

/-- Byte i of the signature over report number n (R255). -/
opaque reportSignature : (n i : Nat) → Byte

/-- The reference a device assigns to a carried COLL in a save area (R220). -/
opaque engineReference : Nat → Nat

end Sys2Proof.Config
end

