-- ==== Sys2Proof/Machine/Table.lean ====
section
/-!
DEFINITION. Finite maps as plain data: lists of pairs with rising keys that never list the default value, so that equal maps
are equal lists. Memory is such a map from addresses to bytes.
-/
namespace Sys2Proof.Machine

/-- A map from numbers to α in canonical form. -/
abbrev Tab (α : Type) := List (Nat × α)

/-- The entry listed at key k. -/
def Tab.find {α : Type} : Tab α → Nat → Option α
  | [], _ => none
  | (j, x) :: r, k => if j = k then some x else Tab.find r k

/-- The map without key k. -/
def Tab.del {α : Type} (m : Tab α) (k : Nat) : Tab α := m.filter (fun p => p.1 != k)

/-- Inserts a pair before the first larger key. -/
def Tab.ins {α : Type} (k : Nat) (x : α) : Tab α → Tab α
  | [] => [(k, x)]
  | (j, y) :: r => if k < j then (k, x) :: (j, y) :: r else (j, y) :: Tab.ins k x r

/-- Lists x at key k, in place of what was listed there. -/
def Tab.put {α : Type} (m : Tab α) (k : Nat) (x : α) : Tab α := Tab.ins k x (Tab.del m k)

/-- What the map holds at k when an unlisted key holds d. -/
def Tab.get {α : Type} (d : α) (m : Tab α) (k : Nat) : α := (Tab.find m k).getD d

/-- Stores x at k; storing the default removes the entry. -/
def Tab.set {α : Type} [DecidableEq α] (d : α) (m : Tab α) (k : Nat) (x : α) : Tab α :=
  if x = d then Tab.del m k else Tab.put m k x

/-- Applies f to the entry at k, if it is listed. -/
def Tab.upd {α : Type} (m : Tab α) (k : Nat) (f : α → α) : Tab α :=
  match Tab.find m k with
  | some x => Tab.put m k (f x)
  | none => m

/-- The values of the map, keys rising. -/
def Tab.vals {α : Type} (m : Tab α) : List α := m.map (·.2)

/-- The least number not below lo that is no key of the map; n bounds the search. -/
def Tab.fresh {α : Type} (m : Tab α) : (n lo : Nat) → Nat
  | 0, lo => lo
  | n + 1, lo => if (Tab.find m lo).isSome then Tab.fresh m n (lo + 1) else lo

/-! ### Memory -/

/-- Memory: addresses and bytes, addresses strictly rising, no entry equal to what an unlisted address reads as. -/
abbrev Memory := List Host.Cell

/-- What an unlisted byte of memory reads as. DESIGN CHOICE (assumption 2): the spec gives no power-on contents. -/
def Memory.unlisted : Byte := 0

/-- The byte at a physical address. -/
def Memory.read (m : Memory) (a : Nat) : Byte := Tab.get Memory.unlisted m a

/-- Stores one byte. -/
def Memory.write (m : Memory) (a : Nat) (b : Byte) : Memory := Tab.set Memory.unlisted m a b

/-- The number that n bytes from a make, the lowest address lowest (R1). -/
def Memory.readNat (m : Memory) : (n a : Nat) → Nat
  | 0, _ => 0
  | n + 1, a => (m.read a).toNat + 256 * Memory.readNat m n (a + 1)

/-- Stores the low 8n bits of x, the lowest byte at a (R1). -/
def Memory.writeNat (m : Memory) : (n a x : Nat) → Memory
  | 0, _, _ => m
  | n + 1, a, x => Memory.writeNat (m.write a (BitVec.ofNat 8 x)) n (a + 1) (x / 256)

/-- Stores a list of bytes from a up. -/
def Memory.writeBytes (m : Memory) (a : Nat) : List Byte → Memory
  | [] => m
  | b :: r => Memory.writeBytes (m.write a b) (a + 1) r

/-- The canonical form of a map with default d. -/
def Tab.wf {α : Type} [DecidableEq α] (d : α) : Tab α → Bool
  | [] => true
  | [(_, x)] => x != d
  | (j, x) :: (k, y) :: r => decide (j < k) && x != d && Tab.wf d ((k, y) :: r)

/-- Memory in canonical form. -/
def Memory.wf (m : Memory) : Bool := Tab.wf Memory.unlisted m

end Sys2Proof.Machine
end

