-- ==== Sys2Proof/Machine/State.lean ====
section
/-!
DEFINITION. The state of the device as plain data: everything the spec names (INVENTORY.md, State). The split that issues, its
fibre, its warp and its workgroup are held apart from the tables of the others (State.cur tells whose they are), so that each
piece of state has one home. State.reset is the device right after reset.
-/
namespace Sys2Proof.Machine

/-- Privilege levels (R5). -/
inductive Priv where
  | u | s | h
deriving DecidableEq, Repr

/-- What an instruction can wait for (R12, R50, R63, R152, R166). -/
inductive Dep where
  /-- scalar register n of fibre f, pending as a token or awaiting load data -/
  | sreg (f n : Nat)
  /-- physical register n of warp w, awaiting load data -/
  | vreg (w n : Nat)
  /-- the engine commands that write handle h of workgroup g -/
  | writers (g h : Nat)
  /-- the engine commands that name handle h of workgroup g -/
  | users (g h : Nat)
  /-- an entry in metadata queue h of workgroup g -/
  | entry (g h : Nat)
  /-- the shadow of warp w: that it has come to the same instruction, or, for room, that its queue has room (R226) -/
  | shadow (w : Nat) (room : Bool)
deriving DecidableEq, Repr

/-- A parked WAITA (R153): the lanes that wait, the address of each, and when its timeout lapses. seq orders the lists of
R154. -/
structure Park where
  seq : Nat
  lanes : Word32
  addr : Tab Nat
  lines : List Nat
  deadline : Nat
deriving DecidableEq, Repr

/-- The states of a split (R51) besides running, which State.cur tells, and frozen, which the fibre tells. -/
inductive SplitState where
  | ready
  /-- stalled; sos tells whether an SOS governs the instruction, since the cycle at which the stall began, reload that the instruction
  is the WAITA of a park that is over, as woken tells it -/
  | stalled (sos : Bool) (deps : List Dep) (since : Nat) (reload : Option (Option Park))
  | parked (p : Park)
  /-- woken from a park; its WAITA reloads at the next issue (R153); none when the park was saved and restored (R223) -/
  | woken (p : Option Park)
  /-- waiting at BAR n; lanes were active at the BAR, which stands 8 bytes before pc -/
  | barWait (n : Nat) (lanes : Word32)
  /-- waiting at FBAR m, likewise -/
  | fbarWait (m : Nat) (lanes : Word32)
deriving DecidableEq, Repr

/-- What a split that stalled is when the stall is over (R51): ready, to reload where its park is over (R153). -/
def SplitState.afterStall : SplitState → SplitState
  | .stalled _ _ _ none => .ready
  | .stalled _ _ _ (some p) => .woken p
  | x => x

/-- An entry of the split table (R43), without its id, which is its key. parent 63 is none. sos: the word at pc is governed by
the SOS before it. last: the issue opportunity of the slot at which the split last issued (R49). wait and unheld: the opportunity
since which it has been ready without issuing, and ready and not held, noted by slotSelect (R45, R50). -/
structure SplitSt where
  parent : Nat
  pc : Word64
  mask : Word32
  st : SplitState
  sos : Bool
  last : Nat
  wait : Option Nat
  unheld : Option Nat := none
deriving DecidableEq, Repr

/-- One lane of a bracket register (R183). -/
structure Bracket where
  lo : Word32
  hi : Word32
  ylo : Word32
  yhi : Word32
  st : Word32
deriving DecidableEq, Repr

/-- A bracket register's initial value (R58). -/
def Bracket.zero : Bracket := ⟨0, 0, 0, 0, 0⟩

/-- The trap frame (R199). -/
structure Frame where
  tcause : Word64
  tpc : Word64
  tmask : Word64
  taddr : Word64
  tinfo : Word64
  tsplit : Word64
deriving DecidableEq, Repr

/-- The trap that a fibre's handler serves. -/
structure TrapSt where
  cause : Nat
  tpc : Word64
  id : Nat
deriving DecidableEq, Repr

/-- A rewind point (R215). -/
structure Rewind where
  addr : Word64
  vmask : Nat
  smask : Nat
  roff : Nat
  tcnt : Nat
  tlo : Nat
  id : Nat
  mask : Word32
  preds : Tab Word32
deriving DecidableEq, Repr

/-- The resumption mark of an interrupted INV (R186): its address, the lanes still evaluating, the evaluation at which it
stopped, and the split that it belongs to. -/
structure InvMark where
  addr : Word64
  lanes : Word32
  eval : Nat
  id : Nat
deriving DecidableEq, Repr

/-- An outstanding load of a fibre of the warp (R50): the physical vector registers and the scalar registers of the fibre that
wait for its data, and its bytes: lane, virtual address, physical address; and the lanes with a byte that carried a poison mark in memory
when it was read, each with its mark (R206). -/
structure Outstanding where
  fib : Nat
  v : List Nat
  s : List Nat
  bytes : List (Nat × Nat × Nat)
  marked : List (Nat × Nat)
deriving DecidableEq, Repr

/-- A spilled split (R46): its PC and mask stand in the record in memory that index names; id and parent are kept here too, the issue
opportunity at which it was spilled and how many splits of its slot were spilled before it, the split as it stood then (DESIGN CHOICE,
assumption 67), and where a return from its trap sends it (R194, R201). -/
structure Spilled where
  index : Nat
  since : Nat
  order : Nat
  id : Nat
  parent : Nat
  was : SplitSt
  goesTo : Option Word64
deriving DecidableEq, Repr

/-- Why the context engine has stopped a fibre (R218), with the PC that the save records for it, or that it runs forward. -/
inductive StopState where
  | forward (since : Nat)
  | stopped (kind pc : Nat)
deriving DecidableEq, Repr

/-- A fibre (R41, R51, R58), without the split that issues when it is the current one. -/
structure Fib where
  splits : Tab SplitSt
  /-- the parents of the ids that are only parents (R43) -/
  tree : Tab Nat
  spilled : List Spilled
  s : Tab Word64
  /-- tokens: pending scalar registers and the command that completes each (R12) -/
  pend : Tab Nat
  preds : Tab Word32
  brk : Tab Bracket
  flags : Tab Byte
  trapen : Byte
  frame : Frame
  lwbase : Word64
  lwsize : Word64
  priv : Priv
  entry : Word64
  /-- the trap that a handler serves (R192, R204): its cause, its TPC and the id of the trapped split -/
  trapped : Option TrapSt
  handler : Option SplitSt
  /-- frozen until the fault service answers (R210) -/
  inService : Bool
  stop : Option StopState
  exited : Bool
  rewind : Option Rewind
  /-- while recipe code runs, the address of the PPT that it ends at (R223) -/
  recipe : Option Word64
  /-- the dirty record: blocks of four v registers, of eight s registers, any bracket written since the rewind point -/
  wroteV : Nat
  wroteS : Nat
  wroteB : Bool
  pinned : Bool
  /-- the marks of interrupted INVs, one for each split that stands at one (R186) -/
  marks : List InvMark
  poisonS : Tab Nat
  /-- the place of the area that the next spilled split takes (R46) -/
  spillAt : Nat
deriving DecidableEq, Repr

/-- Where a warp stands: slice, core, sub-core, slot, first register group (R38, R39); for a guarded launch also the slot
and groups of its shadow (R225). -/
structure Place where
  slice : Nat
  core : Nat
  sub : Nat
  slot : Nat
  group : Nat
  shadow : Option (Nat × Nat)
deriving DecidableEq, Repr

/-- A retry of a fibre after a first shadow mismatch (R227): the fibre, the address of its retry PPT, and whether that PPT has run
again. -/
structure Retry where
  fib : Nat
  addr : Word64
  rerun : Bool
deriving DecidableEq, Repr

/-- The registers of a fibre that a shadow holds, the places of its splits (PC and mask) and of its handler split among them (R225). -/
structure ShadowFib where
  splits : Tab (Word64 × Word32)
  handler : Option (Word64 × Word32)
  s : Tab Word64
  preds : Tab Word32
  brk : Tab Bracket
  flags : Tab Byte
deriving DecidableEq, Repr

/-- An instruction that the leading warp has issued and its shadow has not, or a token's status that has come meanwhile (R225, R226): the
fibre, what it and the warp's vector registers hold behind it, and the entries that stand in the queue for it. -/
structure ShadowStep where
  fib : Nat
  after : ShadowFib
  v : Tab Word32
  entries : Nat
deriving DecidableEq, Repr

/-- The shadow of a guarded warp (R225, R226): its own registers, the instructions by which it trails, oldest first, and since when its
slot has been issuable, plus one (DESIGN CHOICE, assumption 28). -/
structure Shadow where
  v : Tab Word32
  fibs : Tab ShadowFib
  trail : List ShadowStep
  issuableSince : Nat
deriving DecidableEq, Repr

/-- A warp. -/
structure Warp where
  n : Nat
  p : List Nat
  shared : Nat
  /-- registers by physical number × 32 + lane (R58, R62) -/
  v : Tab Word32
  /-- poisoned registers, the same keys: the sector plus one (R206) -/
  poison : Tab Nat
  /-- outstanding loads of the warp's fibres, oldest first -/
  out : List Outstanding
  /-- pending FBAR barriers: the arrived set of each mask (R178) -/
  fbars : Tab Nat
  place : Place
  /-- the slot's current split: fibre, split id (64 when it has left), and whether it is the handler split; kept while the warp
  stands in the device's table -/
  cur : Option (Nat × Nat × Bool)
  /-- the current split has yielded, so another qualifying split goes first (R54) -/
  pass : Bool
  /-- blocks of the shared window written since each fibre's rewind point (R216) -/
  shWrote : Tab Nat
  /-- issue opportunities of the slot so far (R50) -/
  opps : Nat
  /-- splits of the slot that have been spilled so far (R46) -/
  spills : Nat
  issuableSince : Nat
  /-- the retries of its fibres, one for each (R227) -/
  retries : List Retry
  /-- of a guarded warp (R225) -/
  shadow : Option Shadow
deriving DecidableEq, Repr

/-- A named barrier's open phase (R282); absent when none is open. -/
structure BarPhase where
  count : Nat
  expected : Nat
  arrived : List Nat
deriving DecidableEq, Repr

/-- The levels a bound handle may have (R70). -/
structure Tile where
  lvl : Level
  rows : Nat
  rb : Nat
  /-- rows as little-endian numbers -/
  data : Tab Nat
  /-- accumulator row metadata (R168) -/
  md : Tab Nat
  /-- entries of a metadata queue, the head first -/
  queue : List Nat
  /-- dictionaries by column block: whether 64 entries, and the entries as one number (R164, R165) -/
  dicts : Tab (Bool × Nat)
  /-- poisoned bytes by row × 8192 + byte (R206); the dictionary of column block n counts as row 4096 + n -/
  poison : Tab Nat
deriving DecidableEq, Repr

/-- A save asked for (R218, R249): cause 0x58 or 0x59, or 0 for the move of a guarded warp alone (R227); the cycle of the request. -/
structure Saving where
  cause : Nat
  since : Nat
  /-- its record has been raised -/
  told : Bool
  /-- the guarded warp whose lasting fault moves the workgroup to another core (R227) -/
  move : Option Nat
  /-- the page of the area whose fault waits for an answer, and since which cycle (R222) -/
  asked : Option Nat
  waited : Option Nat
  /-- the quantum has ended while another save was under way: a record 0x58 is due besides its own (R249) -/
  quantumDue : Bool
  /-- the core that the move leaves has meanwhile been retired (R17) -/
  coreGone : Bool := false
deriving DecidableEq, Repr

/-- A lock range of the instruction cache (R329): its address, its bytes, and the lines of 128 bytes that it has held since it was
granted, by physical number. -/
structure Lock where
  addr : Nat
  bytes : Nat
  lines : List Nat
deriving DecidableEq, Repr

/-- A workgroup that is placed or saved. -/
structure Wg where
  launch : Option Nat
  part : Nat
  x : Nat
  y : Nat
  z : Nat
  contract : Nat
  config : Nat
  slice : Nat
  core : Nat
  nwarps : Nat
  nfibs : Nat
  bars : Tab BarPhase
  tiles : Tab Tile
  /-- instruction-cache lock ranges (R329, R330) -/
  locks : List Lock
  saving : Option Saving
deriving DecidableEq, Repr

/-- A kernel descriptor as read at the head of the queue (R240). -/
structure Desc where
  nset : Nat
  contract : Nat
  fibres : Nat
  config : Nat
  guard : Bool
  regs : Nat
  shared : Nat
  p : List Nat
  lwsize : Nat
  entry : List Word64
  handler : Word64
  tiles : List (Nat × Level × Nat × Nat)
deriving DecidableEq, Repr

/-- A launch that has left its queue and has not ended (R30 to R41). -/
structure Launch where
  queue : Nat
  pos : Nat
  part : Nat
  /-- the launch read from the queue before it (R35) -/
  prev : Option Nat
  s1root : Nat
  descAddr : Nat
  desc : Desc
  gx : Nat
  gy : Nat
  gz : Nat
  warps : Nat
  serial : Bool
  done : Nat
  dep : Nat
  depval : Nat
  args : List Word64
  depMet : Bool
  /-- the next workgroup by linear number, and how many were placed or withdrawn and have finished -/
  nextWg : Nat
  finished : Nat
  /-- its effective priority, and the partition's priority cap when its record was read (R36, R245) -/
  prio : Nat
  cap : Nat
  /-- since which cycle no workgroup was placed nor the launch promoted, and the cycle of the last placement of a higher one (R37) -/
  waitFrom : Nat
  higher : Option Nat
  /-- since which cycle its next workgroup has fitted no core, noted by slotSelect, and the core kept for that workgroup (R40, R76) -/
  fitFrom : Option Nat
  reserved : Option (Nat × Nat)
  /-- every workgroup of it is placed before any of another launch of its partition (R156) -/
  hold : Bool
  /-- the status that its completion word will carry, and whether a fatal record ended it -/
  status : Nat
  ending : Bool
  /-- a CANCEL waits for the completion word (R247) -/
  answer : Bool
deriving DecidableEq, Repr

/-- The registers of a launch queue (R34, R252) and the launch last read from it. -/
structure Queue where
  head : Nat
  tail : Nat
  lost : Bool
  overrun : Bool
  last : Option Nat
  turn : Nat
deriving DecidableEq, Repr

/-- A queue that nothing has written. -/
def Queue.zero : Queue := ⟨0, 0, false, false, none, 0⟩

/-- The applied part of a partition table entry (R244). -/
structure Entry where
  first : Nat
  nsl : Nat
  tshare : Bool
  pcap : Nat
  ceng : Nat
  sfqw : Nat
  collw : Nat
  keyix : Nat
  qfirst : Nat
  qquota : Nat
  cmask : Nat
  quantum : Nat
  waymask : Nat
  s2root : Nat
  sblock : Nat
deriving DecidableEq, Repr

/-- An applied queue descriptor (R246). -/
structure QDesc where
  base : Nat
  s1root : Nat
  log2n : Nat
  prio : Nat
  valid : Bool
deriving DecidableEq, Repr

/-- The applied supervisor block of a partition (R246). -/
structure SBlock where
  lwBase : Nat
  lwSize : Nat
  ctxBase : Nat
  ctxSize : Nat
  fpBase : Nat
  fpSize : Nat
  dmap : List (Nat × Nat)
  queues : Tab QDesc
deriving DecidableEq, Repr

/-- Nothing applied. -/
def SBlock.zero : SBlock := ⟨0, 0, 0, 0, 0, 0, [], []⟩

/-- A partition: its applied entry, its supervisor block and its registers. -/
structure Part where
  entry : Entry
  block : SBlock
  sgen : Nat
  /-- a weak store has changed SGEN since the last commit (R245, R246) -/
  sgenWeak : Bool
  sfqw : Nat
  collw : Nat
  /-- positions whose launches are cancelled when read: queue and position (R247) -/
  cancelled : List (Nat × Nat)
  /-- cycles by which a save outlasted the quantum (R249) -/
  debt : Nat
  /-- frames of FPOOL already used -/
  framesUsed : Nat
deriving DecidableEq, Repr

/-- The data of a trap record (R208). -/
structure RecData where
  pc : Nat
  addr : Nat
  info : Nat
  mask : Nat
  split : Nat
  cause : Nat
  /-- 1 replayable, 2 fatal, 4 notice -/
  kind : Nat
  loc : Nat
  lid : Nat
  part : Nat
deriving DecidableEq, Repr

/-- A fault waiting in the slice or a record in the ring: its data, the recorded fibre, which a record of an engine or of the device has
not, those that have joined it (R142), the launch a fatal record ends, and whether RESP was acted on. -/
structure Rec where
  data : RecData
  fibre : Option Nat
  joined : List Nat
  launch : Option Nat
  answered : Bool
deriving DecidableEq, Repr

/-- The fibres of a record, the recorded one first. -/
def Rec.fibs (r : Rec) : List Nat := r.fibre.toList ++ r.joined

/-- A slice: its trap queue (R207 to R211). live lists the records not freed, by ring index. -/
structure Slice where
  /-- errors found transient since the last notice 0x54, L2 ways out of replacement as a mask, and rows of HBM that were remapped (R228,
  R229) -/
  transients : Nat
  ways : Nat
  rows : List Nat
  drop : Bool
  overwrote : Bool
  base : Nat
  head : Nat
  tail : Nat
  full : Bool
  seq : Nat
  waiting : List Rec
  live : Tab Rec
  spareUsed : Bool
deriving DecidableEq, Repr

/-- A slice right after reset. -/
def Slice.zero : Slice := ⟨0, 0, [], false, false, 0, 0, 0, false, 0, [], [], false⟩

/-- A core (R19, R75, R97, R100, R227). The images are bytes by offset, zero where unlisted. retiring: it has a lasting fault, and its
workgroups are being moved off it before its number passes on (R17). -/
structure CoreSt where
  config : Nat
  table : Tab Byte
  store : Tab Byte
  generation : Nat
  suspect : Bool
  retiring : Bool
  retired : Bool
  disagreements : Nat
deriving DecidableEq, Repr

/-- The stages of an engine or distributor command. -/
inductive Stage where
  /-- not taken by an engine yet (R23) -/
  | waiting
  | running
  /-- a carried command of a saved workgroup (R220) -/
  | carried
  /-- a command that has ended and whose status waits: for the restore of its workgroup (R220), or for room in the queue to the shadow
  of its warp (R226) -/
  | finished
deriving DecidableEq, Repr

/-- What a command does, with the operands it read at issue (R55, R56, R165, R171, R175). -/
inductive CmdKind where
  | toTile (h row col rows rb pitch : Nat) (addr : Nat)
  | toMem (h row col rows rb pitch : Nat) (addr : Nat)
  | tiles (hd rowd cold hs rows2 cols2 rows rb : Nat)
  | gather (h row col rows rb pitch : Nat) (addr idx : Nat)
  | entries (h : Nat) (left : Nat) (addr : Nat)
  | weights (h : Nat) (addr : Nat)
  | dict (h : Nat) (p6 : Bool) (cb n : Nat) (addr : Nat)
  | coll (op : CollOp) (red : CollRed) (ty : Ty) (commid src dst count root : Nat) (cond : Option (Nat × Nat))
      (started : Bool) (collw : Nat)
  | enqueue (addr : Nat) (q : Nat)
  | take
deriving DecidableEq, Repr

/-- A command in flight (R12, R172): whose it is, its token register, what precedes it, the status found so far. after lists
the commands of the tile and token waits (R152, R172). -/
structure Cmd where
  wg : Nat
  fib : Nat
  tok : Nat
  lanes : Word32
  launch : Option Nat
  part : Nat
  s1root : Nat
  priv : Priv
  contract : Nat
  slice : Nat
  core : Nat
  kind : CmdKind
  after : List Nat
  stage : Stage
  status : Nat
  stamp : Bool
  /-- the page that the command last asked the fault service for (R142), and the stage-1 root under which it did (R55) -/
  asked : Option Nat
  askedRoot : Nat := 0
deriving DecidableEq, Repr

/-- A member's view of a communicator (R174). -/
structure Comm where
  nranks : Nat
  rank : Nat
  home : Nat
  record : Nat
  contract : Nat
  status : Nat
deriving DecidableEq, Repr

/-- A fair-queueing request (R248): the stream (kind and partition), its start as numerator and denominator, arrival order. -/
structure SfqReq where
  kind : Nat
  part : Nat
  bytes : Nat
  num : Nat
  den : Nat
  seq : Nat
deriving DecidableEq, Repr

/-- The fair queue of a memory controller: V and the F of each stream (kind × 16 + partition), as exact fractions. -/
structure Sfq where
  vnum : Nat
  vden : Nat
  f : Tab (Nat × Nat)
  reqs : List SfqReq
  /-- the request that the controller began last -/
  last : Option SfqReq
deriving DecidableEq, Repr

/-- A controller right after reset. -/
def Sfq.zero : Sfq := ⟨0, 1, [], [], none⟩

/-- A workgroup saved out (R219, R221): where its save area lies and what the device keeps of it. -/
structure Saved where
  wg : Wg
  area : Nat
  bytes : Nat
  carried : List Nat
  /-- since which cycle it has had room on no core, noted by slotSelect, and the core kept for it (R40, R223) -/
  since : Option Nat
  reserved : Option (Nat × Nat)
  /-- the page of the area whose fault waits for an answer, and since which cycle (R222) -/
  asked : Option Nat
  waited : Option Nat
  /-- its fibres and warps as they stood -/
  fibs : Tab Fib
  warps : Tab Warp
deriving DecidableEq, Repr

/-- A turn of a time-shared run (R249, R258), by the run's first slice: its length, the partition whose turn it is, the cycle at which it
ends, whether it is ending, and whether workgroups were then to be saved. -/
structure Turn where
  nsl : Nat
  part : Nat
  ends : Nat
  ending : Bool
  saves : Bool
deriving DecidableEq, Repr

/-- Where a firmware image starts on the Charon core of a slice (R5, R18): the level it runs at, its partition and its first word
(DESIGN CHOICE, assumption 57). -/
structure Boot where
  slice : Nat
  priv : Priv
  part : Nat
  entry : Word64
deriving DecidableEq, Repr

/-- What the configuration record in package flash fixes (R27, R244, R257): the contract records, where the manager area lies, the
match-and-replace image, the firmware regions and what starts in them, the retired cores and the numbers that spares hold. -/
structure Flash where
  contracts : List Nat
  managerArea : Nat
  table : Tab Byte
  store : Tab Byte
  firmware : List (Nat × Nat)
  boots : List Boot
  retired : List (Nat × Nat)
  spares : List (Nat × Nat)
deriving DecidableEq, Repr

/-- How a line of device memory is sealed (R253). tag tells the key of the last store under a key, own the bytes that such stores wrote
and that only this key reads, lost the bytes that a store under another key destroyed, wrote the bytes that stand as a commit has written
the line back; all three are masks by byte of the line. line is what device memory then holds for the line, encrypted, and slots, by mask,
the slots that have taken their key since, so that the L2 holds no older copy of the line for them (DESIGN CHOICE, assumption 29). -/
structure Seal where
  tag : Nat
  own : Nat
  lost : Nat
  wrote : Nat
  line : Nat
  slots : Nat
deriving DecidableEq, Repr

/-- A commit that changed runs (R257): the number of its free values, the slices of the changed runs, and the ranges that kept their
bytes. -/
structure Blank where
  n : Nat
  slices : List Nat
  kept : List (Nat × Nat)
deriving DecidableEq, Repr

/-- A fabric port (R25): the flits before taken have been delivered to the receiving Halley engine, those from taken on, before sent, stand
in the sender's retransmission buffer; of these the ones before next are on their way, and those from next on are to be sent again. -/
structure Port where
  taken : Nat
  sent : Nat
  next : Nat
deriving DecidableEq, Repr

/-- A line that no access under a key has stored to. -/
def Seal.zero : Seal := ⟨0, 0, 0, 0, 0, 0⟩

/-- Everything that is not the issuing split, its fibre, its warp or its workgroup. -/
structure Dev where
  mem : Memory
  /-- commits that changed runs: memory holds bytes there as the difference from the free value (DESIGN CHOICE, assumption 79) -/
  blanks : List Blank
  /-- physical sectors whose data are lost to an uncorrectable error (R206) -/
  bad : List Nat
  /-- physical bytes that carry a poison mark: an engine wrote them from lost data (R206) -/
  marked : List Nat
  cycles : Word64
  /-- the model's own counter of free values used (assumption 1) -/
  freeCount : Nat
  /-- the model's own list of inputs and choices that come before the machine's own next step (assumption 3) -/
  agenda : List Instr
  /-- the model's own mark that slotSelect has chosen, so that the next step is the chosen split's (assumption 4) -/
  chosen : Bool
  nextId : Nat
  flash : Flash
  fibs : Tab Fib
  warps : Tab Warp
  wgs : Tab Wg
  saved : Tab Saved
  launches : Tab Launch
  queues : Tab Queue
  parts : Tab Part
  /-- GEN at the last commit, whether a weak store has changed it since, HOSTW as applied (R245) -/
  gen : Nat
  genWeak : Bool
  hostw : Nat
  /-- the partition table as last applied, bytes by offset (R245, R255) -/
  applied : Tab Byte
  turns : Tab Turn
  slices : Tab Slice
  cores : Tab CoreSt
  cmds : Tab Cmd
  comms : Tab Comm
  /-- keys: loaded slots and the values written to take effect at the next commit (R253) -/
  keyLoaded : Tab Bool
  keyPending : Tab Nat
  keys : Tab Nat
  /-- how the lines of device memory are sealed, by line number (R253) -/
  seals : Tab Seal
  sfq : Tab Sfq
  ready : Bool
  thermal : Bool
  dcause : Nat
  nonce : Nat
  reportDone : Bool
  report : Tab Byte
  reports : Nat
  mr : Tab Nat
  /-- the arithmetic clock in steps of 125 MHz (R256) -/
  clock : Nat
  /-- the fabric ports (R25) -/
  ports : Tab Port
  /-- by sub-core (core key × 4 + sub-core), the slot that issued last, plus one; and the sub-core that issued last (R48) -/
  lastSlot : Tab Nat
  lastSub : Nat
  /-- evaluations an INV may run before the slot passes; 0 for all (R188) -/
  evals : Nat
deriving DecidableEq, Repr

/-- Whose split, fibre, warp and workgroup stand in the current fields: the fibre's key (workgroup × 256 + warp × 4 + fibre),
the split's id, and whether it is the handler split. -/
structure Cur where
  key : Nat
  id : Nat
  handler : Bool
deriving DecidableEq, Repr

/-- How an instruction runs when it is an element of an INV body or of a substitute sequence (R98, R185). tpc is the address
of the word that stands for all of it, elem that of the element itself. lanes are those that evaluate. hit tells that an element trapped or had to wait, wait
what it has to wait for. word is the intercepted word, fresh the number of the free values that the scratch registers start with, poison
the marks that scratch registers carry, by the same keys (R206). -/
structure Inner where
  body : Bool
  tpc : Word64
  elem : Word64
  lanes : Word32
  hit : Bool
  wait : List Dep
  index : Nat
  eval : Nat
  word : Nat
  scratch : Tab Word32
  fresh : Nat
  poison : Tab Nat
deriving DecidableEq, Repr

/-- The whole machine. inner is some only within the step that runs an INV or a substitute sequence. -/
structure State where
  cur : Option Cur
  split : SplitSt
  fib : Fib
  warp : Warp
  wg : Wg
  inner : Option Inner
  dev : Dev
deriving DecidableEq, Repr

/-- Why the machine stops with a fault. -/
inductive Fault where
  /-- raised by every instruction executed while no split issues: only a call of exec outside step can meet it. Safe: the
  machine never does so by itself. -/
  | noIssuer
  /-- raised by a step after the thermal trip (R256: every clock is stopped and only a reset resumes the device). Safe. -/
  | clocksStopped
deriving DecidableEq, Repr

/-- Why an instruction is refused. -/
inductive Refusal where
  /-- raised by Dispatch for an instruction that has no meaning yet. Safe. -/
  | notModelled (mnemonic : String)
deriving DecidableEq, Repr

/-! ### Reset -/

/-- A split that stands nowhere. -/
def SplitSt.zero : SplitSt := ⟨63, 0, 0, .ready, false, 0, none, none⟩

/-- The frame at reset (R199). -/
def Frame.zero : Frame := ⟨0, 0, 0, 0, 0, 0⟩

/-- A fibre with every register zero (R58) (DESIGN CHOICE, assumption 64). -/
def Fib.zero : Fib :=
  { splits := [], tree := [], spilled := [], s := [], pend := [], preds := [], brk := [], flags := [], trapen := 0,
    frame := .zero, lwbase := 0, lwsize := 0, priv := .u, entry := 0, trapped := none, handler := none,
    inService := false, stop := none, exited := false, rewind := none, recipe := none, wroteV := 0, wroteS := 0, wroteB := false,
    pinned := false, marks := [], poisonS := [], spillAt := 0 }

/-- A warp with no registers. -/
def Warp.zero : Warp :=
  { n := 0, p := [], shared := 0, v := [], poison := [], out := [], fbars := [], place := ⟨0, 0, 0, 0, 0, none⟩, cur := none, pass := false, shWrote := [], opps := 0, spills := 0,
    issuableSince := 0, retries := [], shadow := none }

/-- A workgroup with nothing bound. -/
def Wg.zero : Wg :=
  { launch := none, part := 0, x := 0, y := 0, z := 0, contract := 6, config := 0, slice := 0, core := 0, nwarps := 0,
    nfibs := 0, bars := [], tiles := [], locks := [], saving := none }

/-- The contract records the device carries (R125). -/
def carriedContracts : List Nat :=
  [0x87000000, 0x893B0401, 0x890B2802, 0x8E036C03, 0x8E000C04, 0x8F077005, 0x8F041006]

/-- The configuration record: the contracts of R125; the manager area where 20_program_hypervisor.md puts it (assumption 6),
no table entry, no firmware, no core retired (assumption 6). -/
def Flash.default : Flash :=
  { contracts := carriedContracts, managerArea := 0x08000000, table := [], store := [], firmware := [], boots := [],
    retired := [], spares := [] }

/-- Entry 1 as the device behaves before the first commit (R245); SBLOCK is DESIGN CHOICE (assumption 7). -/
def Entry.beforeCommit : Entry :=
  { first := 0, nsl := 12, tshare := false, pcap := 3, ceng := 48, sfqw := 8, collw := 8, keyix := 0, qfirst := 0,
    qquota := 256, cmask := 0x007F, quantum := 0, waymask := 0xFFFFFFFF, s2root := 0, sblock := 0 }

/-- The bytes of a partition table that holds Entry.beforeCommit as entry 1 (R244, R245). -/
def tableBeforeCommit : Tab Byte :=
  [(0x41, 12), (0x42, 1), (0x43, 3), (0x44, 48), (0x45, 8), (0x46, 8), (0x4B, 1), (0x4C, 0x7F), (0x54, 0xFF), (0x55, 0xFF),
   (0x56, 0xFF), (0x57, 0xFF)]

/-- A partition whose entry has just become valid (R245, R66). -/
def Part.start (e : Entry) : Part :=
  { entry := e, block := .zero, sgen := 0, sgenWeak := false, sfqw := e.sfqw, collw := e.collw, cancelled := [], debt := 0,
    framesUsed := 0 }

/-- A core right after reset, with the images of the configuration record, in core store configuration 0 (DESIGN CHOICE, assumption 6). -/
def CoreSt.start (f : Flash) : CoreSt := ⟨0, f.table, f.store, 0, false, false, false, 0⟩

/-- The number of a retired core of a slice that its spare has taken (R17): the one the record names, else, where the record lists retired
cores of the slice and no spare in use, the first of them (DESIGN CHOICE, assumption 122). -/
def Flash.spareFor (f : Flash) (sl : Nat) : Option Nat :=
  ((f.spares ++ f.retired).find? (fun x => x.1 == sl)).map (·.2)

/-- The slices right after reset: a spare that has taken a number is in use (R17, R27). -/
def Flash.slices (f : Flash) : Tab Slice :=
  ((List.range 12).filter (fun sl => (f.spareFor sl).isSome)).map (fun sl => (sl, { Slice.zero with spareUsed := true }))

/-- The number of the Charon core of a slice (R18). -/
def charon : Nat := 24

/-- Firmware number i of the record stands at its first word on its Charon core, under contract 6 (R5, R18, R122): one warp of one fibre
with 256 registers, every register zero, s0 to s7 and v31 too, and no local window (DESIGN CHOICE, assumption 57). -/
def Dev.startBoot (d : Dev) (b : Boot × Nat) : Dev :=
  let i := b.2
  { d with
    fibs := d.fibs.put (i * 256) { Fib.zero with
      priv := b.1.priv, entry := b.1.entry,
      splits := [(0, { SplitSt.zero with pc := b.1.entry, mask := BitVec.allOnes 32 })] }
    warps := d.warps.put (i * 64) { Warp.zero with
      n := 256, p := [256], place := ⟨b.1.slice, charon, i % 4, i / 4, i / 4 * 8, none⟩ }
    wgs := d.wgs.put i { Wg.zero with part := b.1.part, slice := b.1.slice, core := charon, nwarps := 1, nfibs := 1 } }

/-- The firmware of the record starts (R254). -/
def Dev.startFirmware (d : Dev) : Dev :=
  let e := d.flash.boots.zipIdx.foldl Dev.startBoot d
  { e with nextId := d.flash.boots.length }

/-- The device right after a successful reset and boot (R254) with the given configuration record and memory, before its firmware starts;
m0 to m3 are the measurement registers (DESIGN CHOICE, assumption 66). -/
def Dev.boot (f : Flash) (mem : Memory) (m0 m1 m2 m3 : Nat) : Dev :=
  { mem := mem, blanks := [], bad := [], marked := [], cycles := 0, freeCount := 0, agenda := [], chosen := false, nextId := 0, flash := f, fibs := [], warps := [],
    wgs := [], saved := [], launches := [], queues := [], parts := [(1, Part.start .beforeCommit)], gen := 0,
    genWeak := false, hostw := 8, applied := tableBeforeCommit, turns := [], slices := f.slices, cores := [], cmds := [], comms := [],
    keyLoaded := [(0, true)], keyPending := [], keys := [], seals := [], sfq := [], ready := true, thermal := false, dcause := 0, nonce := 0,
    reportDone := false, report := [], reports := 0, mr := [(0, m0), (1, m1), (2, m2), (3, m3)], clock := 20, ports := [],
    lastSlot := [], lastSub := 0, evals := 0 }

/-- The machine right after reset: booted, nothing placed, memory with nothing listed (assumption 5). The measurement registers
are zero here (DESIGN CHOICE, assumption 8): the images they measure are not in the spec. -/
def State.reset : State :=
  { cur := none, split := .zero, fib := .zero, warp := .zero, wg := .zero, inner := none,
    dev := .boot .default [] 0 0 0 0 }

end Sys2Proof.Machine
end

