-- ==== Sys2Proof/Machine/Splits.lean ====
section
/-!
DEFINITION. Splits of a fibre: which are siblings, how they fuse, how a lone child takes its parent's place, which ids are free
(R43, R44, R45). The functions here see a fibre's splits as a plain table; memory takes part only in Ops.lean (R46).
-/
namespace Sys2Proof.Machine

/-- Where a spilled split stands: at the SOS before its word when one governs it. -/
def Spilled.pc (r : Spilled) : Word64 := r.goesTo.getD (if r.was.sos then r.was.pc - 8 else r.was.pc)

/-- A fibre's splits while they are rearranged, with the marks of interrupted INVs; cur follows one of them through renaming. -/
structure Nest where
  splits : Tab SplitSt
  tree : Tab Nat
  spilled : List Spilled
  marks : List InvMark
  cur : Nat
deriving DecidableEq, Repr

/-- The ids a fibre holds (R43): those of splits, resident or spilled, and those that are parents. -/
def Nest.held (n : Nest) : List Nat := n.splits.map (·.1) ++ n.spilled.map (·.id) ++ n.tree.map (·.1)

/-- The smallest id from lo up that the fibre does not hold. -/
def Nest.freeId (n : Nest) (used : List Nat) : (fuel lo : Nat) → Nat
  | 0, lo => lo
  | k + 1, lo => if (n.held ++ used).contains lo then Nest.freeId n used k (lo + 1) else lo

/-- The first k free ids from 1 up (R43). -/
def Nest.freeIds (n : Nest) : (k : Nat) → (used : List Nat) → List Nat
  | 0, _ => []
  | k + 1, used =>
    let i := n.freeId used 63 1
    i :: Nest.freeIds n k (i :: used)

/-- The children of a: splits, spilled splits and parents whose parent is a. -/
def Nest.children (n : Nest) (a : Nat) : List Nat :=
  (n.splits.filter (fun p => p.2.parent == a)).map (·.1) ++ (n.spilled.filter (fun p => p.parent == a)).map (·.id) ++
    (n.tree.filter (fun p => p.2 == a)).map (·.1)

/-- A split may fuse: it has not begun its instruction, and is neither parked nor waiting (R44). -/
def SplitSt.fusable (x : SplitSt) : Bool :=
  !x.sos && (match x.st with
    | .ready => true
    | .stalled sos _ _ r => !sos && r.isNone
    | _ => false)

/-- The earlier of two opportunities that may be noted. -/
def earlier : Option Nat → Option Nat → Option Nat
  | some a, some b => some (min a b)
  | some a, none => some a
  | none, b => b

/-- Two splits fuse into one with the union of the masks (R44); it has waited as long as the one that has waited longer. -/
def SplitSt.fuse (x y : SplitSt) : SplitSt :=
  { x with mask := x.mask ||| y.mask, st := .ready, last := max x.last y.last, wait := earlier x.wait y.wait,
           unheld := earlier x.unheld y.unheld }

/-- A later sibling of split i that stands at the same PC and may fuse with it. -/
def Nest.partner (n : Nest) (x : SplitSt) (i : Nat) : Option (Nat × SplitSt) :=
  n.splits.find? (fun p => decide (i < p.1) && p.2.parent == x.parent && p.2.pc == x.pc && p.2.fusable)

/-- Split i stands at an INV that it has begun (R186). -/
def Nest.marked (n : Nest) (i : Nat) : Bool := n.marks.any (fun m => m.id == i)

/-- The first pair of siblings that must fuse: the one with the smaller id and its partner. A split that an interrupted INV holds may
not fuse. -/
def Nest.pair (n : Nest) : Option ((Nat × SplitSt) × (Nat × SplitSt)) :=
  n.splits.findSome? (fun p =>
    if p.2.fusable && p.2.parent != 63 && !n.marked p.1 then
      (Nest.partner { n with splits := n.splits.filter (fun q => !n.marked q.1) } p.2 p.1).map (fun q => (p, q))
    else none)

/-- Renames child c of a: it takes id a and parent p (R44). Where c is spilled, its record in memory stays as it was written, and the new id
and parent are kept beside it (DESIGN CHOICE, assumption 112). -/
def Nest.rename (n : Nest) (c a p : Nat) : Nest :=
  match Tab.find n.splits c with
  | some x =>
    { n with splits := (n.splits.del c).put a { x with parent := p }, tree := n.tree.del a,
             marks := n.marks.map (fun m => if m.id = c then { m with id := a } else m),
             cur := if n.cur = c then a else n.cur }
  | none =>
    if n.spilled.any (·.id == c) then
      { n with spilled := n.spilled.map (fun r => if r.id = c then { r with id := a, parent := p } else r),
               tree := n.tree.del a,
               marks := n.marks.map (fun m => if m.id = c then { m with id := a } else m) }
    else
      { n with splits := n.splits.map (fun q => if q.2.parent = c then (q.1, { q.2 with parent := a }) else q),
               spilled := n.spilled.map (fun r => if r.parent = c then { r with parent := a } else r),
               tree := (n.tree.del c).map (fun q => if q.2 = c then (q.1, a) else q) }

/-- The first parent that has at most one child. -/
def Nest.lone (n : Nest) : Option (Nat × Nat × List Nat) :=
  n.tree.findSome? (fun p =>
    match n.children p.1 with
    | [] => some (p.1, p.2, [])
    | [c] => some (p.1, p.2, [c])
    | _ => none)

/-- One rearrangement: a lone child takes its parent's place, else two siblings at one PC fuse. -/
def Nest.step (n : Nest) : Option Nest :=
  match n.lone with
  | some (a, _, []) => some { n with tree := n.tree.del a }
  | some (a, p, c :: _) => some (n.rename c a p)
  | none =>
    match n.pair with
    | some ((i, x), (j, y)) =>
      some { n with splits := (n.splits.del j).put i (x.fuse y), cur := if n.cur = j then i else n.cur }
    | none => none

/-- Rearranges until nothing more fuses (R44). -/
def Nest.settle : (fuel : Nat) → Nest → Nest
  | 0, n => n
  | k + 1, n =>
    match n.step with
    | some m => Nest.settle k m
    | none => n

/-- Enough for any fibre: every step removes a split or a parent, and there are at most 63 ids. -/
def settleFuel : Nat := 130

/-- A fibre's splits as a nest that follows split c. -/
def Fib.nest (f : Fib) (c : Nat) : Nest := ⟨f.splits, f.tree, f.spilled, f.marks, c⟩

/-- A fibre with its splits rearranged. -/
def Fib.ofNest (f : Fib) (n : Nest) : Fib := { f with splits := n.splits, tree := n.tree, spilled := n.spilled, marks := n.marks }

/-- The context engine has stopped the fibre (R218). -/
def Fib.hasStopped (f : Fib) : Bool :=
  match f.stop with
  | some (.stopped _ _) => true
  | _ => false

/-- A trap is pending, so that the fibre's splits are frozen: they keep masks and ids (R51, R52). -/
def Fib.frozen (f : Fib) : Bool := f.inService || f.trapped.isSome

/-- Rearranges the splits of fibre k, which stands in its table, unless they are frozen; the slot's current split is followed (R44). -/
def Dev.settleFib (d : Dev) (k : Nat) : Dev :=
  match Tab.find d.fibs k with
  | some f =>
    if f.frozen then d
    else
      let c := match (Tab.find d.warps (k / 4)).bind (·.cur) with
        | some (n, i, false) => if n = k % 4 then i else 64
        | _ => 64
      let n := Nest.settle settleFuel (f.nest c)
      { d with
        fibs := d.fibs.put k (f.ofNest n),
        warps := if c = 64 then d.warps else d.warps.upd (k / 4) (fun w => { w with cur := some (k % 4, n.cur, false) }) }
  | none => d

/-- Split a leaves the table and becomes the parent of its children, one for each place and mask in order (R44). -/
def Nest.diverge (n : Nest) (a : Nat) (x : SplitSt) (places : List (Word64 × Word32)) : List (Nat × SplitSt) × Nest :=
  let ids := n.freeIds places.length []
  let kids := (ids.zip places).map (fun p =>
    (p.1, ({ parent := a, pc := p.2.1, mask := p.2.2, st := .ready, sos := false, last := x.last, wait := none } : SplitSt)))
  (kids, { n with splits := n.splits.del a, tree := n.tree.put a x.parent })

/-- The split counts as ready for R45. -/
def SplitSt.isReady (x : SplitSt) : Bool :=
  match x.st with
  | .ready | .woken _ => true
  | _ => false

/-- The split is held: a ready sibling has a lower PC (R45). Of ready siblings at one lowest PC that may not fuse none is held (DESIGN CHOICE,
assumption 124). -/
def heldIn (splits : Tab SplitSt) (i : Nat) (x : SplitSt) : Bool :=
  x.parent != 63 &&
    splits.any (fun p => p.1 != i && p.2.parent == x.parent && p.2.isReady && decide (p.2.pc.toNat < x.pc.toNat))

end Sys2Proof.Machine
end

