-- ==== Sys2Proof/Machine/Cipher.lean ====
section
/-!
DEFINITION. AES-256-XTS, with which lines of device memory are encrypted (spec/19_partitions_host.md R253, spec/02_device.md R29). The spec
names the cipher and does not print it: the tables and rounds are those of FIPS 197, the mode that of IEEE 1619 (PRESUMED, assumption 121).
-/
namespace Sys2Proof.Machine

/-! ### AES-256 -/

/-- The S-box, sixteen entries a number, the first lowest. -/
def aesS : List Nat :=
  [0x76ABD7FE2B670130C56F6BF27B777C63, 0xC072A49CAFA2D4ADF04759FA7DC982CA,
   0x1531D871F1E5A534CCF73F362693FDB7, 0x75B227EBE28012079A059618C323C704,
   0x842FE329B3D63B52A05A6E1B1A2C8309, 0xCF584C4A39BECB6A5BB1FC20ED00D153,
   0xA89F3C507F02F94585334D43FBAAEFD0, 0xD2F3FF1021DAB6BCF5389D928F40A351,
   0x73195D643D7EA7C41744975FEC130CCD, 0xDB0B5EDE14B8EE4688902A22DC4F8160,
   0x79E4959162ACD3C25C2406490A3A32E0, 0x08AE7A65EAF4566CA94ED58D6D37C8E7,
   0x8A8BBD4B1F74DDE8C6B4A61C2E2578BA, 0x9E1DC186B95735610EF6034866B53E70,
   0xDF2855CEE9871E9B948ED9691198F8E1, 0x16BB54B00F2D99416842E6BF0D89A18C]

/-- The inverse S-box. -/
def aesSInv : List Nat :=
  [0xFBD7F3819EA340BF38A53630D56A0952, 0xCBE9DEC444438E3487FF2F9B8239E37C,
   0x4EC3FA420B954CEE3D23C2A632947B54, 0x25D18B6D49A25B76B224D92866A12E08,
   0x92B6655DCC5CA4D41698688664F6F872, 0x849D8DA75746155EDAB9EDFD5048706C,
   0x0645B3B80558E4F70AD3BC8C00ABD890, 0x6B8A130103BDAFC1020F3FCA8F1E2CD0,
   0x73E6B4F0CECFF297EADC674F4111913A, 0x6EDF751CE837F9E28535ADE72274AC96,
   0x1BBE18AA0E62B76F89C5291D711AF147, 0xF45ACD78FEC0DB9A2079D2C64B3E56FC,
   0x5FEC8027591012B131C7078833A8DD1F, 0xEF9CC9939F7AE52D0D4AB519A97F5160,
   0x619953833CBBEBC8B0F52AAE4D3BE0A0, 0x7D0C2155631469E126D677BA7E042B17]

/-- Entry x of an S-box. -/
def aesSub (t : List Nat) (x : Nat) : Nat := t.getD (x / 16) 0 / 256 ^ (x % 16) % 256

/-- Every byte of a block times x in the field of 256 elements. -/
def aesDouble (x : Nat) : Nat :=
  ((x &&& 0x7F7F7F7F7F7F7F7F7F7F7F7F7F7F7F7F) * 2) ^^^ ((x / 128 &&& 0x01010101010101010101010101010101) * 0x1B)

/-- Every column of a block turned by one byte: byte r takes the place of byte r − 1. -/
def aesTurn (x : Nat) : Nat :=
  (x / 256 &&& 0x00FFFFFF00FFFFFF00FFFFFF00FFFFFF) + (x &&& 0x000000FF000000FF000000FF000000FF) * 2 ^ 24

/-- Byte i of a number, the lowest first. -/
def aesByte (x i : Nat) : Nat := x / 256 ^ i % 256

/-- The number whose n bytes f tells, the lowest first. -/
def aesPack (n : Nat) (f : Nat → Nat) : Nat := (List.range n).foldr (fun i x => f i + 256 * x) 0

/-- The four bytes of a word through the S-box. -/
def aesSubWord (w : Nat) : Nat := aesPack 4 (fun i => aesSub aesS (aesByte w i))

/-- The bytes of a block through an S-box and their rows moved: byte r of column c comes from column c + k r. -/
def aesSubShift (t : List Nat) (k x : Nat) : Nat :=
  aesPack 16 (fun i => aesSub t (aesByte x (i % 4 + 4 * ((i / 4 + k * (i % 4)) % 4))))

/-- The columns of a block mixed: 2, 3, 1, 1. -/
def aesMix (x : Nat) : Nat :=
  let d := aesDouble x
  let y := aesTurn x
  d ^^^ aesTurn d ^^^ y ^^^ aesTurn (y ^^^ aesTurn y)

/-- The columns of a block unmixed: 14, 11, 13, 9. -/
def aesUnmix (x : Nat) : Nat :=
  let d := aesDouble x
  let q := aesDouble d
  let e := aesDouble q
  (e ^^^ q ^^^ d) ^^^ aesTurn ((e ^^^ d ^^^ x) ^^^ aesTurn ((e ^^^ q ^^^ x) ^^^ aesTurn (e ^^^ x)))

/-- The next word of the key schedule, number i, from the last one and the eighth last; a word's first byte is its lowest. -/
def aesNextWord (i p w : Nat) : Nat :=
  w ^^^
    (if i % 8 = 0 then aesSubWord (p / 256 + p % 256 * 2 ^ 24) ^^^ 2 ^ (i / 8 - 1)
     else if i % 8 = 4 then aesSubWord p
     else p)

/-- k words of the key schedule from number i on; the window holds the last eight, the newest first. -/
def aesSchedule : (k i : Nat) → List Nat → List Nat
  | 0, _, _ => []
  | k + 1, i, win =>
    let w := aesNextWord i (win.headD 0) (win.getD 7 0)
    w :: aesSchedule k (i + 1) (w :: win.take 7)

/-- Words joined four and four to n round keys. -/
def aesRoundKeys : (n : Nat) → List Nat → List Nat
  | 0, _ => []
  | n + 1, ws => (ws.take 4).foldr (fun w x => w + 2 ^ 32 * x) 0 :: aesRoundKeys n (ws.drop 4)

/-- The fifteen round keys of a key of 256 bits. -/
def aesKeys (key : Nat) : List Nat :=
  let ws := (List.range 8).map (fun i => key / 2 ^ (32 * i) % 2 ^ 32)
  aesRoundKeys 15 (ws ++ aesSchedule 52 8 ws.reverse)

/-- The rounds of encryption under the remaining round keys; the last does not mix. -/
def aesRounds : List Nat → Nat → Nat
  | [], x => x
  | [k], x => aesSubShift aesS 1 x ^^^ k
  | k :: ks, x => aesRounds ks (aesMix (aesSubShift aesS 1 x) ^^^ k)

/-- The rounds of decryption under the remaining round keys, the last first. -/
def aesUnrounds : List Nat → Nat → Nat
  | [], x => x
  | [k], x => aesSubShift aesSInv 3 x ^^^ k
  | k :: ks, x => aesUnrounds ks (aesUnmix (aesSubShift aesSInv 3 x ^^^ k))

/-- A block of 128 bits, a number, encrypted under round keys. -/
def aesEncrypt (ks : List Nat) (x : Nat) : Nat := aesRounds ks.tail (x ^^^ ks.headD 0)

/-- A block decrypted. -/
def aesDecrypt (ks : List Nat) (x : Nat) : Nat := aesUnrounds ks.reverse.tail (x ^^^ ks.reverse.headD 0)

/-! ### XTS -/

/-- The tweak of the next block of a data unit. -/
def xtsDouble (t : Nat) : Nat := if t < 2 ^ 127 then 2 * t else (2 * t) % 2 ^ 128 ^^^ 0x87

/-- n blocks of a data unit through f, the first under tweak t. -/
def xtsBlocks (f : Nat → Nat) : (n t x : Nat) → Nat
  | 0, _, _ => 0
  | n + 1, t, x => (f (x % 2 ^ 128 ^^^ t) ^^^ t) + 2 ^ 128 * xtsBlocks f n (xtsDouble t) (x / 2 ^ 128)

/-- The tweak of the line at physical address a, under the tweak key of a slot's value (R253). -/
def xtsTweak (key a : Nat) : Nat := aesEncrypt (aesKeys (key / 2 ^ 256)) a

/-- What device memory holds for the 64 bytes x of the line at physical address a, under a slot's value: a data key, then a tweak key (R253).
The address stands in the tweak as a number of 16 bytes, the lowest first (PRESUMED, assumption 121). -/
def xtsEncrypt (key a x : Nat) : Nat := xtsBlocks (aesEncrypt (aesKeys (key % 2 ^ 256))) 4 (xtsTweak key a) x

/-- What a read under a slot's value makes of the 64 bytes x that device memory holds for the line at physical address a (R253). -/
def xtsDecrypt (key a x : Nat) : Nat := xtsBlocks (aesDecrypt (aesKeys (key % 2 ^ 256))) 4 (xtsTweak key a) x

end Sys2Proof.Machine
end

