-- ==== Sys2Proof/Machine/Translate.lean ====
section
/-!
DEFINITION. Translation (spec/09_memory.md R134 to R142, R384; spec/19_partitions_host.md R244): from a virtual address and
the address space of the access to a host physical address, or the fault. Walks read memory as it stands, so translation is
coherent with page-table memory (R141).
-/
namespace Sys2Proof.Machine

/-- What an access needs of a page (R138). -/
inductive Access where
  | load | store | rmw | fetch
deriving DecidableEq, Repr

/-- Faults of translation and rights. -/
inductive XErr where
  | notPresent | permission | stage2 | key
deriving DecidableEq, Repr

/-- The cause code of a translation fault (R142). -/
def XErr.cause : XErr → Nat
  | .notPresent => 0x10
  | .permission => 0x11
  | .stage2 => 0x12
  | .key => 0x18

/-- The address space that an access uses (R136, R139, R244, R384). -/
structure Space where
  part : Nat
  s1root : Nat
  priv : Priv
deriving DecidableEq, Repr

/-- A translated address: host physical, with the stamp of the page (R129) and the key slot of the access (R140, R253); none in host
memory and for the host's own accesses, which select no key. -/
structure Phys where
  pa : Nat
  stamp : Nat
  slot : Option Nat
deriving DecidableEq, Repr

/-- The end of device memory (R22, R138). -/
def deviceEnd : Nat := 0xC000000000

/-- Where host memory begins (R138). -/
def hostStart : Nat := 0x10000000000

/-- Device memory. -/
def isDevice (a : Nat) : Bool := decide (a < deviceEnd)

/-- Host memory. -/
def isHost (a : Nat) : Bool := decide (hostStart ≤ a)

/-- OA of an entry (R137). -/
def pteOA (e : Nat) : Nat := bitsOf e 12 40 * 4096

/-- POL of an entry (R137). -/
def ptePol (e : Nat) : Nat := bitsOf e 5 2

/-- A non-leaf entry uses only V, LEAF and OA (R137). -/
def pteTableOk (e : Nat) : Bool := bitAt e 0 && !bitAt e 1 && bitsOf e 2 10 == 0 && bitsOf e 52 12 == 0

/-- POL suits the output range (R138). -/
def polSuits (e : Nat) : Bool :=
  if ptePol e = 2 then isHost (pteOA e) else decide (ptePol e < 2) && isDevice (pteOA e)

/-- A leaf of 2^sh bytes is valid at its stage (R137); DK and KEY of a stage-2 leaf for host memory are ignored (R253); suit asks for the check of POL against the output range (R140). -/
def pteLeafOk (stage2 suit : Bool) (sh e : Nat) : Bool :=
  bitAt e 0 && bitAt e 1 && bitsOf e 8 4 == 0 && ptePol e != 3 && pteOA e % 2 ^ sh == 0 &&
    (bitAt e 7 == decide (sh = 16)) &&
    (if stage2 then bitsOf e 60 4 == 0 && (ptePol e == 2 || !(bitAt e 52 && bitsOf e 53 7 != 0)) else bitsOf e 53 7 == 0) &&
    (!suit || polSuits e)

/-- A walk over the levels whose lowest address bits are listed, from the table at root: the leaf and the log2 of its page, or
none where an entry is not valid (R136, R137). read fetches a table entry. -/
def walk (read : Nat → Except XErr Nat) (stage2 suit : Bool) (va : Nat) :
    List Nat → Nat → Except XErr (Option (Nat × Nat))
  | [], _ => .ok none
  | [sh], root =>
    let i := va / 2 ^ sh % 512
    match read (root + 8 * (i / 16 * 16)), read (root + 8 * i) with
    | .error x, _ => .error x
    | _, .error x => .error x
    | .ok e0, .ok e =>
      if bitAt e0 7 then .ok (if pteLeafOk stage2 suit 16 e0 then some (e0, 16) else none)
      else .ok (if pteLeafOk stage2 suit sh e then some (e, sh) else none)
  | sh :: rest, root =>
    match read (root + 8 * (va / 2 ^ sh % 512)) with
    | .error x => .error x
    | .ok e =>
      if bitAt e 1 then .ok (if decide (sh ≤ 30) && pteLeafOk stage2 suit sh e then some (e, sh) else none)
      else if pteTableOk e then walk read stage2 suit va rest (pteOA e)
      else .ok none

/-- The lowest address bit that each level indexes (R136). -/
def walkLevels : List Nat := [48, 39, 30, 21, 12]

/-- The right bits of R138: RD, WR and EX as the access needs them. -/
def pteRights (acc : Access) (e : Nat) : Bool :=
  match acc with
  | .load => bitAt e 2
  | .store => bitAt e 3
  | .rmw => bitAt e 2 && bitAt e 3
  | .fetch => bitAt e 4

/-- The partition's applied entry; a partition that is not valid has none. -/
def Dev.entry (d : Dev) (p : Nat) : Option Entry := (Tab.find d.parts p).map (·.entry)

/-- The stage-2 root of a partition (R136); 0 is none. -/
def Dev.s2root (d : Dev) (p : Nat) : Nat := ((d.entry p).map (·.s2root)).getD 0

/-- A key slot is loaded (R253). -/
def Dev.keyOk (d : Dev) (slot : Nat) : Bool := Tab.get false d.keyLoaded slot

/-- The partition's own key slot. -/
def Dev.keyix (d : Dev) (p : Nat) : Nat := ((d.entry p).map (·.keyix)).getD 0

/-! ### Memory under keys (R250, R253) -/

/-- What tells the key of an access: the slot and the value it holds. -/
def Dev.keyTag (d : Dev) (slot : Nat) : Nat := 1 + slot + 128 * Tab.get 0 d.keys slot

/-- The slot that a key's tag names. -/
def tagSlot (t : Nat) : Nat := (t - 1) % 128

/-- What an access under a key finds at byte i of a line: what memory lists, a value that the spec does not fix, or what the cipher makes
of the line as it was written back (R253). -/
inductive SealRead where
  | plain
  | unknown
  | ciphered
deriving DecidableEq, Repr

/-- Under key t the line can be filled as it stands: no byte stands under another key, nor, written back, out of the slot's reach. -/
def Seal.takes (x : Seal) (t : Nat) : Bool := x.tag == t || (x.own == 0 && (x.wrote == 0 || x.slots.testBit (tagSlot t)))

/-- How byte i of a line reads under the key t, or for the host: another key's store has destroyed it; it stands under another key; or it was
written back under another key, and the slot has no older copy of it in the L2. -/
def Seal.reads (x : Seal) (i : Nat) (t : Option Nat) : SealRead :=
  if x.lost.testBit i then .unknown
  else
    match t with
    | none => .plain
    | some t =>
      if x.own.testBit i then (if x.tag = t then .plain else .unknown)
      else if x.wrote.testBit i then (if x.takes t && x.slots.testBit (tagSlot t) then .ciphered else .unknown)
      else .plain

/-- A mask without bit i. -/
def clearBit (m i : Nat) : Nat := if m.testBit i then m ^^^ 2 ^ i else m

/-- A store to byte i of a line under a key, or by the host. -/
def Seal.store (x : Seal) (i : Nat) : Option Nat → Seal
  | none =>
    let own := clearBit x.own i
    let wrote := clearBit x.wrote i
    if own = 0 ∧ wrote = 0 then ⟨0, 0, clearBit x.lost i, 0, 0, 0⟩ else { x with own := own, lost := clearBit x.lost i, wrote := wrote }
  | some t =>
    if x.takes t then
      let wrote := clearBit x.wrote i
      { tag := t, own := x.own ||| 2 ^ i, lost := clearBit x.lost i, wrote := wrote,
        line := if wrote = 0 then 0 else x.line, slots := if wrote = 0 then 0 else x.slots &&& 2 ^ tagSlot t }
    else ⟨t, 2 ^ i, clearBit (x.lost ||| x.own ||| x.wrote) i, 0, 0, 0⟩

/-- The seal of the line that an address lies in. -/
def Dev.sealOf (d : Dev) (a : Nat) : Seal := Tab.get .zero d.seals (a / 64)

/-- How an access reads an address; host memory has no seals. -/
def Dev.readsAs (d : Dev) (p : Phys) : SealRead :=
  if isDevice p.pa then (d.sealOf p.pa).reads (p.pa % 64) (p.slot.map d.keyTag) else .plain

/-- A range holds an address. -/
def inRange (a : Nat) (r : Nat × Nat) : Bool := decide (r.1 ≤ a ∧ a < r.1 + r.2)

/-- The free value of a commit at an address, where it gave one (R257). -/
def Blank.at (b : Blank) (a : Nat) : Byte :=
  if isDevice a && b.slices.contains (a / 2 ^ 36) && !b.kept.any (inRange a) then Config.freeByte b.n a else 0

/-- What the commits that changed runs make of an address that memory does not list (R257). -/
def Dev.blank (d : Dev) (a : Nat) : Byte := d.blanks.foldr (fun b x => b.at a ^^^ x) 0

/-- What an access reads at an address. -/
def Dev.readByte (d : Dev) (p : Phys) : Byte :=
  match d.readsAs p with
  | .plain => d.mem.read p.pa ^^^ d.blank p.pa
  | .unknown => Config.otherKey d.freeCount p.pa
  | .ciphered =>
    let x := xtsDecrypt (Tab.get 0 d.keys (p.slot.getD 0)) (p.pa / 64 * 64) (d.sealOf p.pa).line
    BitVec.ofNat 8 (x / 256 ^ (p.pa % 64))

/-- The data of the byte at a physical address are lost (R206). -/
def Dev.lost (d : Dev) (pa : Nat) : Bool := d.bad.contains (pa / 32) || d.marked.contains pa

/-- The mark of a byte whose data are lost: the virtual address of its sector plus one, with bit 64 for host memory (R206, R197). -/
def lostMark (va pa : Nat) : Nat := va / 32 * 32 + 1 + (if isHost pa then 2 ^ 64 else 0)

/-- The bytes whose data are lost, by place, with the virtual address of their sector plus one (R206). -/
def Dev.lostBytes (d : Dev) (a : Nat) (ps : List Phys) : List (Nat × Nat) :=
  if d.bad.isEmpty && d.marked.isEmpty then []
  else (ps.zipIdx.filter (fun p => d.lost p.1.pa)).map (fun p => (p.2, lostMark (a + p.2) p.1.pa))

/-- The cause that consuming a mark raises: 0x1D for host memory over CXL.cache, else 0x17 (R197, R206) (DEDUCED, assumption 30). -/
def markCause (x : Nat) : Nat := if 2 ^ 64 < x then 0x1D else 0x17

/-- The address that a mark tells. -/
def markAddr (x : Nat) : Nat := (x - 1) % 2 ^ 64

/-! ### Where memory lies (R22) -/

/-- The stack that holds the byte at offset o of a run of n slices from slice f, and its offset there (R22). -/
def stackOf (f n o : Nat) : Nat × Nat := (f + o / 4096 % n, o / (4096 * n) * 4096 + o % 4096)

/-- The run that holds slice s: first slice and length (R22, R243). -/
def runAt (es : List Entry) (s : Nat) : Option (Nat × Nat) :=
  (es.find? (fun e => decide (e.first ≤ s ∧ s < e.first + e.nsl))).map (fun e => (e.first, e.nsl))

/-- The run of slices that holds the bytes of the 64 GiB of slice s (R22): with no table loaded the one run of twelve. A table without a
valid entry counts as none loaded (DESIGN CHOICE, assumption 91). -/
def runHolding (es : List Entry) (s : Nat) : Option (Nat × Nat) := if es.isEmpty then some (0, 12) else runAt es s

/-- The home slice of a byte of device memory and its offset in the slice's stack (R22), by the run that holds it. A byte outside every run
of a loaded table has no home (DESIGN CHOICE, assumption 91). -/
def Dev.home (d : Dev) (a : Nat) : Option (Nat × Nat) :=
  if !isDevice a then none
  else (runHolding (d.parts.map (fun p => p.2.entry)) (a / 2 ^ 36)).map (fun r => stackOf r.1 r.2 (a - r.1 * 2 ^ 36))

/-- The number that the bytes at a list of physical addresses make, the first lowest. -/
def Dev.gather (d : Dev) : List Phys → Nat
  | [] => 0
  | a :: r => (d.readByte a).toNat + 256 * Dev.gather d r

/-- n bytes from physical address a on, under a key slot. -/
def physRange (slot : Option Nat) (a n : Nat) : List Phys := (List.range n).map (fun i => ⟨a + i, 15, slot⟩)

/-- What the device itself reads from n bytes at a under its own key, slot 0 (R253). -/
def Dev.readOwn (d : Dev) (n a : Nat) : Nat := d.gather (physRange (some 0) a n)

/-- Stage 2 (R136, R138, R140): guest physical to host physical, with the leaf's POL. Its tables are read under
the device key (DEDUCED, assumption 29: R244, R253). -/
def Dev.stage2 (d : Dev) (p : Nat) (acc : Access) (gpa : Nat) : Except XErr (Phys × Nat) :=
  if gpa / 2 ^ 52 ≠ 0 then .error .stage2
  else
    match walk (fun a => .ok (d.readOwn 8 a)) true true gpa walkLevels (d.s2root p) with
    | .error x => .error x
    | .ok none => .error .stage2
    | .ok (some (e, sh)) =>
      if !pteRights acc e then .error .stage2
      else
        let slot := if bitAt e 52 then 0 else if bitsOf e 53 7 = 0 then d.keyix p else bitsOf e 53 7
        if ptePol e ≠ 2 ∧ !d.keyOk slot then .error .key
        else .ok (⟨pteOA e + gpa % 2 ^ sh, 15, if ptePol e = 2 then none else some slot⟩, ptePol e)

/-- A guest physical address used without stage 2 (R139, R140, R384). -/
def Dev.direct (d : Dev) (p : Nat) (a : Nat) : Except XErr Phys :=
  if isDevice a then (if d.keyOk (d.keyix p) then .ok ⟨a, 15, some (d.keyix p)⟩ else .error .key)
  else if isHost a then .ok ⟨a, 15, none⟩
  else .error .notPresent

/-- Guest physical to host physical for an access without stage 1 (R139, R384). -/
def Dev.guest (d : Dev) (p : Nat) (acc : Access) (gpa : Nat) : Except XErr Phys :=
  if d.s2root p = 0 then d.direct p gpa else (d.stage2 p acc gpa).map (·.1)

/-- A read of a stage-1 table entry (R136), under the key of its page; without stage 2, the partition's own (R140). Under a key that is not
loaded, the first is a stage-2 fault, and the second reads as memory does under that key (DESIGN CHOICE, assumption 97). -/
def Dev.readPte (d : Dev) (p : Nat) (a : Nat) : Except XErr Nat :=
  if d.s2root p = 0 then .ok (d.gather (physRange (if isHost a then none else some (d.keyix p)) a 8))
  else
    match d.stage2 p .load a with
    | .ok (q, _) => .ok (d.gather (physRange q.slot q.pa 8))
    | .error _ => .error .stage2

/-- Both stages for an access at privilege U of a launch with a stage-1 root (R136 to R140). A key of the stage-2 leaf that is not loaded
comes before a policy that does not match (DESIGN CHOICE, assumption 106). -/
def Dev.twoStage (d : Dev) (p root : Nat) (acc : Access) (va : Nat) : Except XErr Phys :=
  match walk (d.readPte p) false (d.s2root p == 0) va walkLevels root with
  | .error x => .error x
  | .ok none => .error .notPresent
  | .ok (some (e, sh)) =>
    if !(bitAt e 52 && pteRights acc e) then .error .permission
    else
      let gpa := pteOA e + va % 2 ^ sh
      let stamp := bitsOf e 60 4
      if d.s2root p = 0 then
        if ptePol e ≠ 2 ∧ !d.keyOk (d.keyix p) then .error .key
        else .ok ⟨gpa, stamp, if ptePol e = 2 then none else some (d.keyix p)⟩
      else
        match d.stage2 p acc gpa with
        | .error x => .error x
        | .ok (q, pol) =>
          if decide (ptePol e = 2) != decide (pol = 2) then .error .stage2 else .ok { q with stamp := stamp }

/-- The translation of one byte's address. At privilege H, of device memory alone (DEDUCED, assumption 27). -/
def Dev.translate (d : Dev) (sp : Space) (acc : Access) (va : Nat) : Except XErr Phys :=
  if va / 2 ^ 57 ≠ 0 then .error .notPresent
  else
    match sp.priv with
    | .h => if isDevice va then .ok ⟨va, 15, some 0⟩ else .error .notPresent
    | .s => d.guest sp.part acc va
    | .u =>
      if sp.s1root = 0 then d.guest sp.part acc va else d.twoStage sp.part sp.s1root acc va

/-- The translation of n bytes from va; the error carries the first byte that fails. Addresses count modulo 2^64. -/
def Dev.translateRange (d : Dev) (sp : Space) (acc : Access) : (n va : Nat) → Except (XErr × Nat) (List Phys)
  | 0, _ => .ok []
  | n + 1, va =>
    match d.translate sp acc (va % 2 ^ 64) with
    | .error x => .error (x, va % 2 ^ 64)
    | .ok ph =>
      if va % 4096 + n < 4096 then .ok ((List.range (n + 1)).map (fun i => { ph with pa := ph.pa + i }))
      else
        match Dev.translateRange d sp acc n (va + 1) with
        | .error x => .error x
        | .ok r => .ok (ph :: r)

end Sys2Proof.Machine
end

