-- ==== Sys2Proof/Machine/Operands.lean ====
section
/-!
DEFINITION. Registers and operands: the windows (R62), reading and writing every kind of register with its special behaviour in
one place (p7, zero, poison, the dirty record), immediates (R85 to R87), and addresses (R10).
-/
namespace Sys2Proof.Machine

/-! ### Lanes -/

/-- The lanes of a mask in increasing number. -/
def lanesOf (m : Word32) : List Nat := (List.range 32).filter (fun l => m.getLsbD l)

/-- The mask of one lane. -/
def laneBit (l : Nat) : Word32 := BitVec.ofNat 32 (2 ^ l)

/-- The mask of a list of lanes. -/
def maskOf (ls : List Nat) : Word32 := ls.foldl (fun m l => m ||| laneBit l) 0

/-- The lowest lane of a mask; 0 when it is empty. -/
def lowest (m : Word32) : Nat := (lanesOf m).headD 0

/-! ### Where the issuing split stands -/

/-- Key of the current fibre. -/
def State.key (s : State) : Nat := (s.cur.map (·.key)).getD 0
/-- Number of the current fibre within its warp. -/
def State.fibNo (s : State) : Nat := s.key % 4
/-- Number of the current warp within its workgroup. -/
def State.warpNo (s : State) : Nat := s.key / 4 % 64
/-- Key of the current warp. -/
def State.warpKey (s : State) : Nat := s.key / 4
/-- Key of the current workgroup. -/
def State.wgKey (s : State) : Nat := s.key / 256
/-- Id of the current split. -/
def State.splitId (s : State) : Nat := (s.cur.map (·.id)).getD 0
/-- The current split is its fibre's handler split (R192). -/
def State.inHandler (s : State) : Bool := (s.cur.map (·.handler)).getD false
/-- The launch of the current workgroup. -/
def State.launch (s : State) : Option Launch := s.wg.launch.bind (Tab.find s.dev.launches)
/-- The address space of the current fibre (R136, R139). -/
def State.space (s : State) : Space := ⟨s.wg.part, (s.launch.map (·.s1root)).getD 0, s.fib.priv⟩
/-- The record of the running contract (R120 to R122); an entry that is not loaded reads zero. -/
def State.record (s : State) : Nat := s.dev.flash.contracts.getD s.wg.contract 0

/-! ### Vector registers -/

/-- First physical register of fibre f's private window (R62). -/
def Warp.base (w : Warp) (f : Nat) : Nat := (w.p.take f).sum

/-- The physical number of the first of k registers from v n of fibre f, when they all lie in one window (R59, R62). -/
def Warp.phys (w : Warp) (f n k : Nat) : Option Nat :=
  if n + k ≤ w.p.getD f 0 then some (w.base f + n)
  else if 256 - w.shared ≤ n ∧ n + k ≤ 256 then some (w.p.sum + (n - (256 - w.shared)))
  else none

/-- One physical register in one lane. -/
def Warp.reg (w : Warp) (p l : Nat) : Word32 := Tab.get 0 w.v (p * 32 + l)

/-- k registers from physical p in lane l as one number, the lowest register lowest (R59). -/
def Warp.regs (w : Warp) : (k p l : Nat) → Nat
  | 0, _, _ => 0
  | k + 1, p, l => (w.reg p l).toNat + 2 ^ 32 * Warp.regs w k (p + 1) l

/-- Writes one physical register in one lane with a clean value (R206). -/
def Warp.setReg (w : Warp) (p l : Nat) (x : Word32) : Warp :=
  { w with v := Tab.set 0 w.v (p * 32 + l) x, poison := Tab.set 0 w.poison (p * 32 + l) 0 }

/-- Writes k registers from physical p in lane l. -/
def Warp.setRegs (w : Warp) : (k p l x : Nat) → Warp
  | 0, _, _, _ => w
  | k + 1, p, l, x => Warp.setRegs (w.setReg p l (BitVec.ofNat 32 x)) k (p + 1) l (x / 2 ^ 32)

/-- Where k registers from v n of the current fibre lie; the first register where the window check has failed. -/
def State.phys (s : State) (n k : Nat) : Nat := (s.warp.phys s.fibNo n k).getD 0

/-- The k registers from v n in lane l. -/
def State.getV (s : State) (n k l : Nat) : Nat := s.warp.regs k (s.phys n k) l

/-- Marks the blocks of four v registers that n and the k − 1 after it lie in as written since the rewind point (R216); a
register of the shared window for every fibre of the warp. -/
def State.dirtyV (s : State) (n k : Nat) : State :=
  let bits := 2 ^ (n / 4) ||| 2 ^ ((n + k - 1) / 4)
  if n + k ≤ s.warp.p.getD s.fibNo 0 then { s with fib := { s.fib with wroteV := s.fib.wroteV ||| bits } }
  else { s with warp := { s.warp with
    shWrote := [0, 1, 2, 3].foldl (fun t f => Tab.set 0 t f (Tab.get 0 t f ||| bits)) s.warp.shWrote } }

/-- Writes the k registers from v n in lane l. -/
def State.setV (s : State) (n k l x : Nat) : State :=
  let t := s.dirtyV n k
  { t with warp := t.warp.setRegs k (s.phys n k) l x }

/-! ### Scalar registers, predicates, brackets -/

/-- A scalar register (R58). -/
def State.getS (s : State) (n : Nat) : Nat := (Tab.get 0 s.fib.s n).toNat

/-- Writes a scalar register with a clean value. -/
def State.setS (s : State) (n x : Nat) : State :=
  { s with fib := { s.fib with
      s := Tab.set 0 s.fib.s n (BitVec.ofNat 64 x), poisonS := Tab.set 0 s.fib.poisonS n 0,
      wroteS := s.fib.wroteS ||| 2 ^ (n / 8) } }

/-- A predicate's mask; p7 is true in every lane (R58, R61). -/
def Fib.pred (f : Fib) (n : Nat) : Word32 := if n = 7 then BitVec.allOnes 32 else Tab.get 0 f.preds n

/-- Predicate n in lane l. -/
def State.getP (s : State) (n l : Nat) : Bool := (s.fib.pred n).getLsbD l

/-- Writes predicate n in lane l; p7 discards (R61). -/
def State.setP (s : State) (n l : Nat) (b : Bool) : State :=
  if n = 7 then s
  else
    let m : Word32 := Tab.get 0 s.fib.preds n
    { s with fib := { s.fib with
        preds := Tab.set 0 s.fib.preds n (if b then m ||| laneBit l else m &&& ~~~ laneBit l) } }

/-- Bracket register b in lane l (R183). -/
def State.getB (s : State) (b l : Nat) : Bracket := Tab.get .zero s.fib.brk (b * 32 + l)

/-- Writes bracket register b in lane l. -/
def State.setB (s : State) (b l : Nat) (x : Bracket) : State :=
  { s with fib := { s.fib with brk := Tab.set .zero s.fib.brk (b * 32 + l) x, wroteB := true } }

/-! ### Immediates and operands -/

/-- How an operation reads an immediate or the constant one (R83, R86, R87). -/
inductive ImmCls where
  | arith
  | logic
  | float (ty : Ty)
deriving DecidableEq, Repr

/-- Both halves of a packed type, or the value itself. -/
def halves (t : Ty) (x : Nat) : Nat := if t.isPacked then x + 2 ^ 16 * x else x

/-- A float immediate of format F brought to the operation type in one step, without flags (R87). -/
def floatImm (t : Ty) (f : Fmt) (x : Nat) : Nat :=
  halves t (match t with
    | .t8 => (roundTaper 8 1 (f.decode x)).1
    | .t6 => (roundTaper 6 0 (f.decode x)).1
    | t => (t.fmt.round .rne (f.decode x)).1)

/-- The constant one in a float format (R83). -/
def floatOne (t : Ty) : Nat :=
  match t with
  | .t8 => 0x40
  | .t6 => 0x10
  | t => halves t (t.fmt.round .rne (.fin false 1 0)).1

/-- An immediate of bits b as the operation reads it at width w. -/
def immValue (cls : ImmCls) (w bits n : Nat) : Nat :=
  match cls with
  | .arith => ofInt w (toSigned bits n)
  | .logic => n % 2 ^ w
  | .float t => floatImm t (if bits = 16 then fp16 else if bits = 32 then fp32 else fp64) n

/-- k scratch registers from x n in lane l as one number, the lowest register lowest (R98). -/
def scratchGet (t : Tab Word32) (l : Nat) : (k n : Nat) → Nat
  | 0, _ => 0
  | k + 1, n => (Tab.get 0 t (n * 32 + l)).toNat + 2 ^ 32 * scratchGet t l k (n + 1)

/-- Writes k scratch registers from x n in lane l. -/
def scratchPut (t : Tab Word32) (l : Nat) : (k n x : Nat) → Tab Word32
  | 0, _, _ => t
  | k + 1, n, x => scratchPut (Tab.put t (n * 32 + l) (BitVec.ofNat 32 x)) l k (n + 1) (x / 2 ^ 32)

/-- The marks of scratch registers, once k of them from x n in lane l carry mark m; 0 is none (R206). -/
def scratchMark (t : Tab Nat) (l k n m : Nat) : Tab Nat := (List.range k).foldl (fun p j => Tab.set 0 p ((n + j) * 32 + l) m) t

/-- The value of an operand of w bits in lane l (R60, R83). -/
def State.get (s : State) (cls : ImmCls) (w : Nat) (o : Opd) (l : Nat) : Nat :=
  match o with
  | .v n => s.getV n (regsFor w) l % 2 ^ w
  | .s n => s.getS n % 2 ^ w
  | .zero => 0
  | .one => match cls with | .float t => floatOne t | _ => 1
  | .lane => l
  | .ones => 2 ^ w - 1
  | .x n => match s.inner with
    | some i => scratchGet i.scratch l (regsFor w) n % 2 ^ w
    | none => 0
  | .imm16 n => immValue cls w 16 n
  | .imm32 n => immValue cls w 32 n
  | .imm64 n => immValue cls w 64 n
  | .hole _ | .rsv _ => 0

/-- Writes a result of w bits, placed under R103, to a destination in lane l (R60, R83); zero discards. -/
def State.put (s : State) (w : Nat) (o : Opd) (l x : Nat) : State :=
  match o with
  | .v n => s.setV n (regsFor w) l x
  | .s n => s.setS n (x % 2 ^ (if w ≤ 32 then 32 else 64))
  | .x n => match s.inner with
    | some i => { s with inner := some { i with
        scratch := scratchPut i.scratch l (regsFor w) n x, poison := scratchMark i.poison l (regsFor w) n 0 } }
    | none => s
  | _ => s

/-- The destination is a scalar register, so that the result is one for all lanes. -/
def isScalarDest (o : Opd) : Bool :=
  match o with
  | .s _ => true
  | _ => false

/-! ### Addresses -/

/-- A signed byte offset (R10). -/
def memOffset (m : MemOp) : Int := toSigned 32 (m.off.getD 0)

/-- The flat address that a memory operand forms in lane l, modulo 2^64 (R10, R336). -/
def State.address (s : State) (m : MemOp) (l : Nat) : Nat :=
  ofInt 64 ((s.get .arith 64 m.base l : Int) + (s.get .arith 32 m.index l : Int) * 2 ^ m.scale + memOffset m)

/-- The local address that a memory operand forms in lane l, modulo 2^32 (R69, R336). -/
def State.localAddress (s : State) (m : MemOp) (l : Nat) : Nat :=
  ofInt 32 ((s.get .arith 32 m.base l : Int) + (s.get .arith 32 m.index l : Int) * 2 ^ m.scale + memOffset m)

/-- The flat address of local address a of lane l (R69). -/
def Fib.flat (f : Fib) (a l : Nat) : Nat := f.lwbase.toNat + a / 4 * 128 + 4 * l + a % 4

end Sys2Proof.Machine
end

