-- ==== Sys2Proof/Machine/Flags.lean ====
section
/-!
DEFINITION. The sticky flags of a lane (R67): an instruction sets bits and never clears one. The flags that each operation
computes stand with the operation: in Numbers.lean for the rounding helpers (R107), in the families for IV and DZ.
-/
namespace Sys2Proof.Machine

/-- FLAGS of lane l. -/
def State.getFlags (s : State) (l : Nat) : Byte := Tab.get 0 s.fib.flags l

/-- Sets flag bits in lane l. -/
def State.addFlags (s : State) (l fl : Nat) : State :=
  { s with fib := { s.fib with flags := Tab.set 0 s.fib.flags l (s.getFlags l ||| BitVec.ofNat 8 fl) } }

/-- Sets flag bits in each of the lanes. -/
def State.addFlagsAll (s : State) (ls : List Nat) (fl : Nat) : State := ls.foldl (fun t l => t.addFlags l fl) s

/-- Writes FLAGS of lane l whole, as SETSR does (R65). -/
def State.setFlags (s : State) (l x : Nat) : State :=
  { s with fib := { s.fib with flags := Tab.set 0 s.fib.flags l (BitVec.ofNat 8 x) } }

end Sys2Proof.Machine
end

