-- ==== Sys2Proof/Machine/Ops.lean ====
section
/-!
DEFINITION. The operations that every instruction is made of: the device's tables, moving the current fibre in and out of them,
storing to memory with what a strong store wakes, taking a trap and returning from one, checking the accesses of all lanes
before any is performed, moving and dividing splits, and issuing an instruction.
-/
namespace Sys2Proof.Machine

/-! ### Tables of the device -/

/-- A slice. -/
def Dev.slice (d : Dev) (n : Nat) : Slice := Tab.get .zero d.slices n
/-- Stores a slice. -/
def Dev.setSlice (d : Dev) (n : Nat) (x : Slice) : Dev := { d with slices := Tab.set .zero d.slices n x }
/-- A core's key. -/
def coreKey (sl c : Nat) : Nat := sl * 32 + c
/-- A core (R19). -/
def Dev.core (d : Dev) (sl c : Nat) : CoreSt := Tab.get (.start d.flash) d.cores (coreKey sl c)
/-- Stores a core. -/
def Dev.setCore (d : Dev) (sl c : Nat) (x : CoreSt) : Dev :=
  { d with cores := Tab.set (.start d.flash) d.cores (coreKey sl c) x }
/-- A launch queue's registers. -/
def Dev.queue (d : Dev) (q : Nat) : Queue := Tab.get .zero d.queues q
/-- Stores a launch queue's registers. -/
def Dev.setQueue (d : Dev) (q : Nat) (x : Queue) : Dev := { d with queues := Tab.set .zero d.queues q x }

/-! ### The current fibre and the tables -/

/-- A fibre with split x put where c says. -/
def Fib.putBack (f : Fib) (c : Cur) (x : SplitSt) : Fib :=
  if c.handler then { f with handler := some x } else { f with splits := f.splits.put c.id x }

/-- The split that c names and the fibre without it. -/
def Fib.take (f : Fib) (c : Cur) : Option (SplitSt × Fib) :=
  if c.handler then f.handler.map (fun x => (x, { f with handler := none }))
  else (Tab.find f.splits c.id).map (fun x => (x, { f with splits := f.splits.del c.id }))

/-- The key of a sub-core. -/
def Place.subKey (p : Place) : Nat := coreKey p.slice p.core * 4 + p.sub

/-- Puts the current split, fibre, warp and workgroup into the tables. -/
def State.flush (s : State) : State :=
  match s.cur with
  | none => s
  | some c =>
    { s with
      cur := none, split := .zero, fib := .zero, warp := .zero, wg := .zero,
      dev := { s.dev with
        fibs := s.dev.fibs.put c.key (s.fib.putBack c s.split),
        warps := s.dev.warps.put (c.key / 4) { s.warp with cur := some (c.key % 4, c.id, c.handler) },
        wgs := s.dev.wgs.put (c.key / 256) s.wg } }

/-- Takes the split that c names out of the tables, when it is there. -/
def State.load (s : State) (c : Cur) : State :=
  match (Tab.find s.dev.fibs c.key).bind (fun f => f.take c), Tab.find s.dev.warps (c.key / 4),
      Tab.find s.dev.wgs (c.key / 256) with
  | some (x, f), some w, some g =>
    { s with
      cur := some c, split := x, fib := f, warp := w, wg := g,
      dev := { s.dev with
        fibs := s.dev.fibs.del c.key, warps := s.dev.warps.del (c.key / 4), wgs := s.dev.wgs.del (c.key / 256) } }
  | _, _, _ => s

/-- The current split c as the tables name it now: its id may have changed, as its warp tells. -/
def Dev.renamed (d : Dev) (c : Cur) : Cur :=
  match (Tab.find d.warps (c.key / 4)).bind (·.cur) with
  | some (n, i, h) => if n = c.key % 4 ∧ h = c.handler then { c with id := i } else c
  | none => c

/-- Runs f with everything in the tables. -/
def State.across (s : State) (f : State → State) : State :=
  match s.cur with
  | none => f s
  | some c => let t := f s.flush; t.load (t.dev.renamed c)

/-- Applies f to every fibre, with its key. -/
def State.mapFibs (s : State) (f : Nat → Fib → Fib) : State :=
  { s with
    fib := match s.cur with | some c => f c.key s.fib | none => s.fib,
    dev := { s.dev with fibs := s.dev.fibs.map (fun p => (p.1, f p.1 p.2)) } }

/-- Applies f to every split of a fibre that stands in its table, and to a handler split that stands there. -/
def Fib.mapSplits (fb : Fib) (f : SplitSt → SplitSt) : Fib :=
  { fb with splits := fb.splits.map (fun p => (p.1, f p.2)), handler := fb.handler.map f }

/-- A fresh identity: a number no command, launch or workgroup has had. -/
def State.fresh (s : State) : Nat × State := (s.dev.nextId, { s with dev := { s.dev with nextId := s.dev.nextId + 1 } })

/-- The number of the next free value, which this use takes. -/
def State.free (s : State) : Nat × State := (s.dev.freeCount, { s with dev := { s.dev with freeCount := s.dev.freeCount + 1 } })

/-! ### Shadows (R225, R226) -/

/-- What a shadow holds of a fibre. -/
def Fib.shadowed (f : Fib) : ShadowFib :=
  ⟨f.splits.map (fun p => (p.1, p.2.pc, p.2.mask)), f.handler.map (fun x => (x.pc, x.mask)), f.s, f.preds, f.brk, f.flags⟩

/-- A shadow at the same place as its leading warp, whose fibres, by number, are given (R225). -/
def Shadow.at (v : Tab Word32) (fibs : Tab Fib) : Shadow := ⟨v, fibs.map (fun p => (p.1, p.2.shadowed)), [], 0⟩

/-- The instructions by which a warp's shadow trails. -/
def Warp.trail (w : Warp) : List ShadowStep := (w.shadow.map (·.trail)).getD []

/-- The shadow trails. -/
def Warp.trails (w : Warp) : Bool := !w.trail.isEmpty

/-- The entries in the queue to the shadow. -/
def Warp.queued (w : Warp) : Nat := (w.trail.map (·.entries)).sum

/-- The queue of 64 entries has room (R226). -/
def Warp.hasRoom (w : Warp) : Bool := decide (w.queued < 64)

/-- The shadow trails by one instruction more of fibre n, for which k entries stand in the queue; a warp without a shadow stays. -/
def Warp.pushStep (w : Warp) (n : Nat) (f : ShadowFib) (k : Nat) : Warp :=
  { w with shadow := w.shadow.map (fun h => { h with trail := h.trail ++ [⟨n, f, w.v, k⟩] }) }

/-- A token's status reaches fibre n: it stands in the queue to a shadow that trails, and in the registers of one that does not (R226). -/
def Warp.receive (w : Warp) (n : Nat) (f : ShadowFib) : Warp :=
  if w.trails then w.pushStep n f 1 else { w with shadow := w.shadow.map (fun h => { h with fibs := h.fibs.put n f }) }

/-- The shadow issues the oldest instruction by which it trails, and takes its entries. -/
def Shadow.issue (h : Shadow) : Shadow :=
  match h.trail with
  | x :: r => { h with v := x.v, fibs := h.fibs.put x.fib x.after, trail := r }
  | [] => h

/-- The current fibre passes k entries on to the shadow with the instruction that it issues. -/
def State.pushStep (s : State) (k : Nat) : State :=
  match s.cur with
  | some c => { s with warp := s.warp.pushStep s.fibNo (s.fib.putBack c s.split).shadowed k }
  | none => s

/-! ### Changing what stands in the tables -/

/-- Changes a fibre, of a placed workgroup or of a saved one. -/
def Dev.updFib (d : Dev) (k : Nat) (f : Fib → Fib) : Dev :=
  { d with fibs := d.fibs.upd k f, saved := d.saved.upd (k / 256) (fun x => { x with fibs := x.fibs.upd k f }) }
/-- A fibre of a placed workgroup or of a saved one. -/
def Dev.fibHome (d : Dev) (k : Nat) : Option Fib :=
  match Tab.find d.fibs k with
  | some f => some f
  | none => (Tab.find d.saved (k / 256)).bind (fun x => Tab.find x.fibs k)
/-- Changes a warp. -/
def Dev.updWarp (d : Dev) (k : Nat) (f : Warp → Warp) : Dev := { d with warps := d.warps.upd k f }
/-- Changes a workgroup. -/
def Dev.updWg (d : Dev) (k : Nat) (f : Wg → Wg) : Dev := { d with wgs := d.wgs.upd k f }
/-- Changes a launch. -/
def Dev.updLaunch (d : Dev) (k : Nat) (f : Launch → Launch) : Dev := { d with launches := d.launches.upd k f }
/-- Changes a partition. -/
def Dev.updPart (d : Dev) (k : Nat) (f : Part → Part) : Dev := { d with parts := d.parts.upd k f }
/-- A command that waits for no page (R142). -/
def Cmd.goesOn (k : Cmd) : Cmd := { k with asked := none, askedRoot := 0 }
/-- Changes a command. -/
def Dev.updCmd (d : Dev) (k : Nat) (f : Cmd → Cmd) : Dev := { d with cmds := d.cmds.upd k f }

/-! ### Tokens (R12, R172) -/

/-- A register receives a token's value; it no longer waits. -/
def Fib.settle (f : Fib) (n x : Nat) : Fib :=
  { f with
    s := Tab.set 0 f.s n (BitVec.ofNat 64 x), pend := f.pend.del n, poisonS := Tab.set 0 f.poisonS n 0,
    wroteS := f.wroteS ||| 2 ^ (n / 8) }

/-- Register n receives command c's value, unless another command has marked it since (R172). -/
def Fib.settleFrom (f : Fib) (c n x : Nat) : Fib := if Tab.find f.pend n = some c then f.settle n x else f

/-- FLAGS bits of the lanes given. -/
def Fib.addFlags (f : Fib) (lanes : List Nat) (fl : Nat) : Fib :=
  { f with flags := lanes.foldl (fun t l => Tab.set 0 t l (Tab.get 0 t l ||| BitVec.ofNat 8 fl)) f.flags }

/-- The queue from the warp of fibre key to its shadow has room, if it has a shadow (R226). -/
def Dev.queueRoom (d : Dev) (key : Nat) : Bool :=
  match Tab.find d.warps (key / 4) with
  | some w => w.hasRoom
  | none => true

/-- A token's value has reached fibre key, and its shadow is to have it (R226). -/
def Dev.receive (d : Dev) (key : Nat) : Dev :=
  match Tab.find d.fibs key with
  | some f => d.updWarp (key / 4) (fun w => w.receive (key % 4) f.shadowed)
  | none => d

/-- Command c is gone and its token readable, with FLAGS.STAMP where it met a foreign stamp (R129, R173). -/
def Dev.settleCmd (d : Dev) (c : Nat) (k : Cmd) (st : Nat) : Dev :=
  ({ d with cmds := d.cmds.del c }.updFib k.fib (fun f =>
    (f.settleFrom c k.tok st).addFlags (if k.stamp then lanesOf k.lanes else []) flagSTAMP)).receive k.fib

/-- Command c ends with a status: its token becomes readable, with FLAGS.STAMP where it met a foreign stamp (R129, R173). A
carried command of a saved workgroup keeps its status until the restore (R220), and one of a guarded warp until the queue to the shadow
has room (R226). -/
def Dev.complete (d : Dev) (c st : Nat) : Dev :=
  match Tab.find d.cmds c with
  | none => d
  | some k =>
    if k.stage = .finished then d
    else if k.stage = .carried ∨ d.queueRoom k.fib = false then d.updCmd c (fun k => { k with stage := .finished, status := st })
    else d.settleCmd c k st

/-- The status of a command that has ended reaches its token, where nothing keeps it back any more (R220, R226). -/
def Dev.deliver (d : Dev) (c : Nat) : Dev :=
  match Tab.find d.cmds c with
  | none => d
  | some k => if k.stage = .finished ∧ d.queueRoom k.fib = true then d.settleCmd c k k.status else d

/-- Statuses that have waited for room in the queue to warp w's shadow reach their tokens (R226). -/
def Dev.deliverTo (d : Dev) (w : Nat) : Dev := ((d.cmds.filter (fun c => c.2.fib / 4 == w)).map (·.1)).foldl Dev.deliver d

/-- The shadow of warp w stands where its leading warp stands, with the queue empty (R225, R227). -/
def Dev.pairUp (d : Dev) (w : Nat) : Dev :=
  (d.updWarp w (fun x => { x with
    shadow := x.shadow.map (fun _ => Shadow.at x.v ((d.fibs.filter (fun p => p.1 / 4 == w)).map (fun p => (p.1 % 4, p.2)))) })).deliverTo w

/-! ### Waking parked splits (R154, R155, R158) -/

/-- The park of a parked split. -/
def SplitSt.park (x : SplitSt) : Option Park :=
  match x.st with
  | .parked p => some p
  | _ => none

/-- A parked split for which p holds becomes ready, to reload at its next issue. -/
def SplitSt.wakeIf (p : Park → Bool) (x : SplitSt) : SplitSt :=
  match x.st with
  | .parked k => if p k then { x with st := .woken (some k) } else x
  | _ => x

/-- The parks of a fibre's splits. -/
def Fib.parks (f : Fib) : List Park :=
  f.splits.filterMap (fun p => p.2.park) ++ (f.handler.bind SplitSt.park).toList

/-- The parks of every fibre of the device, those of saved workgroups too, which no event has woken (R158). -/
def State.parks (s : State) : List Park :=
  s.fib.parks ++ (s.dev.fibs.map (fun p => p.2.parks)).flatten ++
    (s.dev.saved.map (fun x => (x.2.fibs.map (fun p => p.2.parks)).flatten)).flatten

/-- Wakes the parked splits for which p holds, those of saved workgroups too (R158). -/
def State.wake (s : State) (p : Park → Bool) : State :=
  let t := s.mapFibs (fun _ f => f.mapSplits (SplitSt.wakeIf p))
  { t with dev := { t.dev with saved := t.dev.saved.map (fun x =>
      (x.1, { x.2 with fibs := x.2.fibs.map (fun f => (f.1, f.2.mapSplits (SplitSt.wakeIf p))) })) } }

/-- A strong write wakes the splits parked on the lines it touches (R154). -/
def State.wakeLines (s : State) (lines : List Nat) : State := s.wake (fun k => k.lines.any lines.contains)

/-- Inserts x into a list that rises by key. -/
def insertBy (key : Nat → Nat) (x : Nat) : List Nat → List Nat
  | [] => [x]
  | y :: r => if key x ≤ key y then x :: y :: r else y :: insertBy key x r

/-- A list in rising order of key. -/
def sortBy (key : Nat → Nat) : List Nat → List Nat
  | [] => []
  | x :: r => insertBy key x (sortBy key r)

/-- WAKE: the first n splits in the line's list, all when n is 0 (R155, R158). -/
def State.wakeFirst (s : State) (line n : Nat) : State :=
  let seqs := sortBy id ((s.parks.filter (fun k => k.lines.contains line)).map (·.seq))
  let chosen := if n = 0 then seqs else seqs.take n
  s.wake (fun k => chosen.contains k.seq)

/-! ### Stores -/

/-- Where GEN lies (R244). -/
def Dev.genAddr (d : Dev) : Nat := d.flash.managerArea + 0x400

/-- The address lies in the key table (R244, R253). -/
def Dev.inKeys (d : Dev) (a : Nat) : Bool :=
  decide (d.flash.managerArea + 0x1000 ≤ a ∧ a < d.flash.managerArea + 0x3000)

/-- One of the addresses lies in [a, a + n). -/
def touches (pas : List Phys) (a n : Nat) : Bool := pas.any (fun p => decide (a ≤ p.pa ∧ p.pa < a + n))

/-- Replaces byte i of a little-endian number. -/
def setByte (x i b : Nat) : Nat := x % 2 ^ (8 * i) + 2 ^ (8 * i) * b + 2 ^ (8 * (i + 1)) * (x / 2 ^ (8 * (i + 1)))

/-- A byte written to the key table waits for the next commit; slot 0 ignores it (R253). -/
def Dev.writeKey (d : Dev) (a : Nat) (b : Byte) : Dev :=
  let o := a - (d.flash.managerArea + 0x1000)
  let k := o / 64
  if k = 0 then d
  else
    let old := (Tab.find d.keyPending k).getD (Tab.get 0 d.keys k)
    { d with keyPending := d.keyPending.put k (setByte old (o % 64) b.toNat) }

/-- The line of p after a store there under its key (R253); host memory has no seals. -/
def Dev.seal (d : Dev) (p : Phys) : Tab Seal :=
  if isDevice p.pa then
    Tab.set .zero d.seals (p.pa / 64) ((d.sealOf p.pa).store (p.pa % 64) (p.slot.map d.keyTag))
  else d.seals

/-- One byte reaches memory or the key table; in memory it is a clean value (R206) (DEDUCED, assumption 10). -/
def Dev.writeByte (d : Dev) (p : Phys) (b : Byte) : Dev :=
  if d.inKeys p.pa then d.writeKey p.pa b
  else { d with mem := d.mem.write p.pa (b ^^^ d.blank p.pa), seals := d.seal p, marked := d.marked.filter (· != p.pa) }

/-- Physical bytes take a poison mark (R206). -/
def Dev.mark (d : Dev) (pas : List Nat) : Dev := { d with marked := (d.marked ++ pas).eraseDups }

/-- The bytes of a number reach a list of addresses. -/
def Dev.scatter (d : Dev) : List Phys → Nat → Dev
  | [], _ => d
  | a :: r, x => Dev.scatter (d.writeByte a (BitVec.ofNat 8 x)) r (x / 256)

/-- Where a partition's supervisor block lies, when stage 2 reaches it (R246). -/
def Dev.sblockAt (d : Dev) (p off : Nat) : Option Phys :=
  match d.entry p with
  | some e => match d.guest p .load (e.sblock + off) with | .ok a => some a | .error _ => none
  | none => none

/-- The device's own steps that a strong store brings about: commits of GEN and SGEN (R245, R246), CANCEL (R247), RESP
(R210). -/
def Dev.watch (d : Dev) (pas : List Phys) : List Instr :=
  (if touches pas d.genAddr 8 then [.genCommit (d.readOwn 8 d.genAddr)] else []) ++
  (d.parts.map (fun p =>
    (match d.sblockAt p.1 0 with
      | some a => if touches pas a.pa 8 then [Instr.sgenCommit p.1 (d.gather (physRange a.slot a.pa 8))] else []
      | none => []) ++
    (match d.sblockAt p.1 0x50 with
      | some a => if touches pas a.pa 8 then [Instr.cancel p.1 (d.gather (physRange a.slot a.pa 8))] else []
      | none => []))).flatten ++
  (d.slices.map (fun p =>
    (p.2.live.filterMap (fun r =>
      let a := p.2.base * 2 ^ 16 + 64 * r.1 + 0x30
      if touches pas a 8 then some (Instr.respWrite p.1 r.1 (d.readOwn 8 a)) else none)))).flatten

/-- Notes a weak store that changes GEN or a partition's SGEN (R245, R246). -/
def Dev.noteWeak (d e : Dev) (pas : List Phys) : Dev :=
  { e with
    genWeak := e.genWeak || (touches pas d.genAddr 8 && d.readOwn 8 d.genAddr != e.readOwn 8 d.genAddr),
    parts := e.parts.map (fun p =>
      match d.sblockAt p.1 0 with
      | some a =>
        let bytes := physRange a.slot a.pa 8
        if touches pas a.pa 8 && d.gather bytes != e.gather bytes then (p.1, { p.2 with sgenWeak := true }) else p
      | none => p) }

/-- The lines of 64 bytes that addresses lie in. -/
def linesOf (pas : List Phys) : List Nat := pas.map (fun a => a.pa / 64)

/-- A step that a strong store has brought about, and that has yet to happen. -/
def isAct : Instr → Bool
  | .genCommit _ | .sgenCommit _ _ | .cancel _ _ | .respWrite _ _ _ => true
  | _ => false

/-- The agenda with what a store brings about: behind what earlier stores have, before all else (R245 to R247: in the order of the stores
in T). -/
def withActs (acts agenda : List Instr) : List Instr := agenda.takeWhile isAct ++ acts ++ agenda.dropWhile isAct

/-- Stores the bytes of x at the addresses. A strong store wakes the line's parked splits and brings about the device's own
steps that watch the place (DEDUCED, assumption 37). -/
def State.store (s : State) (pas : List Phys) (x : Nat) (strong : Bool) : State :=
  let d := s.dev.scatter pas x
  if strong then
    { s with dev := { d with agenda := withActs (d.watch pas) d.agenda } }.wakeLines (linesOf pas)
  else { s with dev := s.dev.noteWeak d pas }

/-! ### Traps -/

/-- The routes of R197. -/
inductive Route where
  | handler | record | fatal
deriving DecidableEq, Repr

/-- The route of a cause a fibre can raise (R197). -/
def routeOf (cause : Nat) : Route :=
  if cause = 0x10 ∨ cause = 0x12 ∨ cause = 0x13 ∨ cause = 0x5A ∨ cause = 0x5B then .record
  else if cause = 0x4B ∨ cause = 0x55 ∨ cause = 0x5C ∨ cause = 0x5D then .fatal
  else .handler

/-- A memory-class cause (R197, R203). -/
def isMemoryCause (c : Nat) : Bool := decide (0x10 ≤ c ∧ c ≤ 0x1D)

/-- What a trap reports: TMASK, TADDR's byte address, TINFO, TPC and the trapped split's id and parent (DEDUCED, assumption 30). -/
structure TrapIn where
  cause : Nat
  lanes : Word32
  addr : Nat
  info : Nat
  tpc : Word64
  id : Nat
  parent : Nat

/-- The frame that a trap writes (R199). -/
def TrapIn.frame (t : TrapIn) : Frame :=
  { tcause := BitVec.ofNat 64 t.cause, tpc := BitVec.ofNat 64 (t.tpc.toNat % 2 ^ 57),
    tmask := BitVec.ofNat 64 t.lanes.toNat, taddr := BitVec.ofNat 64 (t.addr % 2 ^ 57 / 32 * 32),
    tinfo := BitVec.ofNat 64 t.info, tsplit := BitVec.ofNat 64 (t.id + 64 * t.parent) }

/-- LOC of a record (R208). -/
def Place.loc (p : Place) (fib part : Nat) : Nat :=
  p.slice + p.core * 2 ^ 4 + p.sub * 2 ^ 9 + p.slot * 2 ^ 11 + fib * 2 ^ 15 + part * 2 ^ 17

/-- LID of a record (R208). -/
def Dev.lid (d : Dev) (l : Option Nat) : Nat :=
  match l.bind (Tab.find d.launches) with
  | some x => x.queue + 2 ^ 8 * (x.pos % 2 ^ 32)
  | none => 0

/-- The page of a faulting address (R208). -/
def pageOf (a : Nat) : Nat := a / 4096 * 4096

/-- A pending record that a fault of the same page, cause and partition joins (R142). -/
def Rec.joins (r new : Rec) : Bool :=
  r.data.kind == 1 && !r.answered && r.data.cause == new.data.cause && r.data.addr == new.data.addr &&
    r.data.part == new.data.part

/-- Adds fibres to the first record of a list that new joins; none when none does. -/
def joinRec (new : Rec) : List Rec → Option (List Rec)
  | [] => none
  | r :: rest =>
    if r.joins new then some ({ r with joined := r.joined ++ new.fibs } :: rest) else (joinRec new rest).map (r :: ·)

/-- The same in a slice: the faults still inside it, then the live records. -/
def Slice.join (x : Slice) (new : Rec) : Option Slice :=
  match joinRec new x.waiting with
  | some w => some { x with waiting := w }
  | none =>
    match joinRec new (x.live.map (·.2)) with
    | some l => some { x with live := (x.live.map (·.1)).zip l }
    | none => none

/-- Where record i of a slice lies (R207, R208). -/
def Slice.recordAt (x : Slice) (i : Nat) : Nat := x.base * 2 ^ 16 + 64 * i

/-- JOINED of the record that fibres have just joined, in the ring in memory: x is the slice before, y after (R142, R208). -/
def Dev.noteJoined (d : Dev) (x y : Slice) : Dev :=
  match (x.live.zip y.live).find? (fun p => p.1.2.joined != p.2.2.joined) with
  | some (_, (i, r)) => d.scatter (physRange (some 0) (y.recordAt i + 0x24) 2) (r.joined.length % 2 ^ 16)
  | none => d

/-- Hands a fault to a slice's trap queue (R142, R211): it joins a pending record of any slice or waits for its own (DEDUCED,
assumption 26). -/
def Dev.raise (d : Dev) (sl : Nat) (r : Rec) : Dev :=
  let alone := d.setSlice sl { d.slice sl with waiting := (d.slice sl).waiting ++ [r] }
  if r.data.kind = 1 ∧ routeOf r.data.cause = .record then
    match d.slices.findSome? (fun p => (p.2.join r).map (fun x => (p.1, p.2, x))) with
    | some (n, x, y) => (d.setSlice n y).noteJoined x y
    | none => alone
  else alone

/-- The record of a trap (R208). -/
def TrapIn.recData (t : TrapIn) (split kind loc lid part : Nat) : RecData :=
  { pc := t.tpc.toNat % 2 ^ 57,
    addr := if t.cause = 0x10 ∨ t.cause = 0x12 ∨ t.cause = 0x13 then pageOf (t.addr % 2 ^ 57)
      else if isMemoryCause t.cause then t.addr % 2 ^ 57 / 32 * 32 else 0,
    info := t.info, mask := t.lanes.toNat, split := split, cause := t.cause, kind := kind, loc := loc, lid := lid,
    part := part }

/-- Taking a trap (R192, R196 to R206) by the given route: the shared operation. f is the trapping fibre with its splits in it except the one that
issues; inH tells that its handler split traps. The frame is written, the fibre freezes, and by route the handler split
starts, or a record goes to the slice's trap queue (DEDUCED, assumption 25). -/
def Dev.takeTrapBy (d : Dev) (route : Route) (key : Nat) (g : Wg) (w : Warp) (f : Fib) (inH : Bool) (t : TrapIn) : Dev × Fib :=
  let loc := w.place.loc (key % 4) g.part
  let lid := d.lid g.launch
  let target : Word64 := ((g.launch.bind (Tab.find d.launches)).map (·.desc.handler)).getD 0
  match route, inH with
  | .record, true =>
    (d.raise g.slice ⟨t.recData f.frame.tsplit.toNat 1 loc lid g.part, some key, [], g.launch, false⟩,
      { f with inService := true, pinned := true })
  | .record, false =>
    let fr := t.frame
    (d.raise g.slice ⟨t.recData fr.tsplit.toNat 1 loc lid g.part, some key, [], g.launch, false⟩,
      { f with frame := fr, inService := true, pinned := true })
  | _, true =>
    let first := f.trapped.getD ⟨0, 0, 0⟩
    let info := t.cause + first.cause * 2 ^ 32 + first.tpc.toNat % 2 ^ 25 * 2 ^ 39
    (d.raise g.slice
      ⟨{ t with cause := 0x5C, info := info }.recData f.frame.tsplit.toNat 2 loc lid g.part, some key, [], g.launch, false⟩,
      { f with inService := true })
  | .handler, false =>
    if target = 0 then
      (d.raise g.slice ⟨t.recData t.frame.tsplit.toNat 2 loc lid g.part, some key, [], g.launch, false⟩,
        { f with frame := t.frame, inService := true })
    else
      (d, { f with
        frame := t.frame, trapped := some ⟨t.cause, t.tpc, t.id⟩,
        handler := some { parent := 63, pc := target, mask := laneBit (lowest t.lanes), st := .ready, sos := false, last := 0, wait := none } })
  | .fatal, false =>
    (d.raise g.slice ⟨t.recData t.frame.tsplit.toNat 2 loc lid g.part, some key, [], g.launch, false⟩,
      { f with frame := t.frame, inService := true })

/-- Taking a trap by the route of its cause (R197). -/
def Dev.takeTrap (d : Dev) (key : Nat) (g : Wg) (w : Warp) (f : Fib) (inH : Bool) (t : TrapIn) : Dev × Fib :=
  d.takeTrapBy (routeOf t.cause) key g w f inH t

/-- TPC of a trap of the issuing instruction: the word, the SOS that governs it (R91), or the word that stands for an inner
element (R98, R187). -/
def State.tpc (s : State) : Word64 :=
  match s.inner with
  | some i => i.tpc
  | none => if s.split.sos then s.split.pc - 8 else s.split.pc

/-- The address of the word that executes. -/
def State.wordPc (s : State) : Word64 :=
  match s.inner with
  | some i => i.elem
  | none => s.split.pc

/-- TINFO bits of a fault inside an INV body (R187). -/
def State.innerInfo (s : State) : Nat :=
  match s.inner with
  | some i => if i.body then 2 ^ 16 + i.index * 2 ^ 8 + i.eval else 0
  | none => 0

/-- The split runs recipe code (R223). -/
def State.inRecipe (s : State) : Bool := s.fib.recipe.isSome && !s.inHandler

/-- What the issuing instruction's trap is taken as: a trap that the fault service serves is a pinning event, which in recipe code raises
cause 0x02 (R216, R223) (DEDUCED, assumption 74). -/
def State.trapTaken (s : State) (cause : Nat) (lanes : Word32) (addr info : Nat) : TrapIn :=
  let pinned := s.inRecipe && routeOf cause == .record
  if pinned then ⟨0x02, s.split.mask, 0, s.innerInfo, s.tpc, s.splitId, s.split.parent⟩
  else ⟨cause, lanes, addr, info + s.innerInfo, s.tpc, s.splitId, s.split.parent⟩

/-- The issuing instruction traps: its fibre freezes and it has no effect (R196). -/
def State.trap (s : State) (cause : Nat) (lanes : Word32) (addr info : Nat) : State :=
  let pc := s.tpc
  let t := s.trapTaken cause lanes addr info
  let r := s.dev.takeTrap s.key s.wg s.warp s.fib s.inHandler t
  { s with
    dev := r.1, fib := r.2, split := { s.split with pc := pc, st := .ready, sos := false },
    inner := s.inner.map (fun i => { i with hit := true }) }

/-! ### Accesses of all lanes (R142, R198) -/

/-- A lane's fault: its cause, the byte address for TADDR, and whether stage 2 failed. -/
structure LaneFault where
  cause : Nat
  addr : Nat

/-- The pieces of a local access (R69): one flat address for each 4-byte unit. -/
def Fib.localPieces (f : Fib) (a l : Nat) : (w : Nat) → List Nat
  | 0 => []
  | w + 1 => Fib.localPieces f a l w ++ [f.flat ((a + w) % 2 ^ 32) l]

/-- Translates a list of single bytes. -/
def Dev.translateBytes (d : Dev) (sp : Space) (acc : Access) : List Nat → Except LaneFault (List Phys)
  | [] => .ok []
  | a :: r =>
    match d.translate sp acc (a % 2 ^ 64) with
    | .error x => .error ⟨x.cause, a % 2 ^ 64⟩
    | .ok p => match Dev.translateBytes d sp acc r with
      | .error x => .error x
      | .ok ps => .ok (p :: ps)

/-- A flat access of w bytes: alignment when it must be aligned, then translation (R142). -/
def State.flatAccess (s : State) (acc : Access) (aligned : Bool) (w a : Nat) : Except LaneFault (List Phys) :=
  if aligned ∧ a % w ≠ 0 then .error ⟨0x14, a⟩
  else
    match s.dev.translateRange s.space acc w a with
    | .error x => .error ⟨x.1.cause, x.2⟩
    | .ok p => .ok p

/-- A local access of w bytes at local address a of lane l (R69, R142): across a 4-byte unit it must be naturally aligned, and within one
only a strong access must, which aligned tells (R135) (DEDUCED, assumption 85). -/
def State.localAccess (s : State) (acc : Access) (aligned : Bool) (w a l : Nat) : Except LaneFault (List Phys) :=
  let at_ := s.fib.flat a l
  if a % w ≠ 0 ∧ (aligned ∨ 4 < a % 4 + w) then .error ⟨0x14, at_⟩
  else if s.fib.lwsize.toNat / 32 < a + w then .error ⟨0x13, at_⟩
  else s.dev.translateBytes s.space acc (s.fib.localPieces a l w)

/-- The faults among the lanes' checks. -/
def faultsOf {α : Type} (r : List (Nat × Except LaneFault α)) : List (Nat × LaneFault) :=
  r.filterMap (fun p => match p.2 with | .error x => some (p.1, x) | .ok _ => none)

/-- What the lanes without a fault may access. -/
def granted {α : Type} (r : List (Nat × Except LaneFault α)) : List (Nat × α) :=
  r.filterMap (fun p => match p.2 with | .ok x => some (p.1, x) | .error _ => none)

/-- TINFO of a memory-class fault (R200): access kind, STAGE2, MIXED. -/
def memInfo (kind : Nat) (faults : List (Nat × LaneFault)) : Nat :=
  match faults with
  | [] => kind * 2 ^ 20
  | (_, x) :: r =>
    kind * 2 ^ 20 + (if x.cause = 0x12 then 2 ^ 24 else 0) + (if r.any (fun p => p.2.cause != x.cause) then 2 ^ 25 else 0)

/-- Raises the trap of the lowest faulting lane (R198); whole names all of these lanes when the access is one for all
(R145). -/
def State.trapLanes (s : State) (kind : Nat) (whole : Option Word32) (faults : List (Nat × LaneFault)) : State :=
  match faults with
  | [] => s
  | (_, x) :: _ => s.trap x.cause (whole.getD (maskOf (faults.map (·.1)))) x.addr (memInfo kind faults)

/-! ### Moving splits (R43 to R47) -/

/-- Residents of the slot's split table apart from the current split (R43). -/
def State.residents (s : State) : Nat :=
  s.fib.splits.length +
    ((s.dev.fibs.filter (fun p => p.1 / 4 == s.warpKey)).map (fun p => p.2.splits.length)).sum

/-- The flat address of record i of the split-spill area (R46). -/
def Fib.spillAddr (f : Fib) (i : Nat) : Nat := f.lwbase.toNat + f.lwsize.toNat - 512 + 16 * i

/-- The code of a split's state in a record (R46); one whose park is over stands as parked until its reload has issued, so that it reloads
when it is restored (DEDUCED, assumption 22). -/
def SplitState.code : SplitState → Nat × Nat
  | .ready => (0, 0)
  | .stalled _ _ _ none => (1, 0)
  | .stalled _ _ _ (some _) | .parked _ | .woken _ => (2, 0)
  | .barWait n _ => (3, n)
  | .fbarWait m _ => (4, m)

/-- What a spilled split keeps of its state: one whose park is over reloads when it is back, any other is ready (R46, R51, R153). -/
def SplitState.whenBack (x : SplitState) : SplitState :=
  match x.afterStall with
  | .woken p => .woken p
  | _ => .ready

/-- A split's record of 16 bytes (R46). -/
def SplitSt.record (x : SplitSt) (id : Nat) : Nat :=
  let c := x.st.code
  (if x.sos then x.pc - 8 else x.pc).toNat % 2 ^ 57 + 2 ^ 64 * (x.mask.toNat + 2 ^ 32 * (id + 2 ^ 8 * (x.parent + 2 ^ 8 * (c.1 + 2 ^ 8 * c.2))))

/-- The space of a fibre that is not current. -/
def Dev.spaceOf (d : Dev) (g : Wg) (f : Fib) : Space :=
  ⟨g.part, ((g.launch.bind (Tab.find d.launches)).map (·.s1root)).getD 0, f.priv⟩

/-- A split's record in the spill area, where a woken split counts as ready, or as stalled while its reload waits (R46, R51). -/
def SplitSt.spillRecord (x : SplitSt) (id : Nat) : Nat :=
  SplitSt.record { x with st := match x.st with
    | .woken _ => .ready
    | .stalled o ds c _ => .stalled o ds c none
    | st => st } id

/-- Where the slot's current split is one of fibre f, which freezes, the slot passes (R49). -/
def Warp.passFrom (w : Warp) (f : Nat) : Warp := { w with pass := w.pass || (w.cur.map (·.1) == some f) }

/-- Fibre k, which stands in the tables, takes trap t of a split that does not issue; the warp's shadow comes up before a record of it
(R226) (DESIGN CHOICE, assumption 28). -/
def State.trapFib (s : State) (k : Nat) (t : TrapIn) : State :=
  let d := if routeOf t.cause = .record then s.dev.pairUp (k / 4) else s.dev
  match Tab.find d.fibs k, Tab.find d.wgs (k / 256), Tab.find d.warps (k / 4) with
  | some f, some g, some w =>
    let q := d.takeTrap k g w f f.handler.isSome t
    { s with dev := ({ q.1 with fibs := q.1.fibs.put k q.2 } : Dev).updWarp (k / 4) (·.passFrom (k % 4)) }
  | _, _, _ => s

/-- Fills a free entry from the split of warp w that spilled first, apart from those of frozen fibres, which wait until their fibre runs
(R46, R52) (DESIGN CHOICE, assumption 86); it fuses with a sibling at its PC (R44). A fault is a trap of its fibre (R47), which reports
the lanes and the PC that the split had when it was spilled (DESIGN CHOICE, assumption 67). Everything stands in the tables. -/
def State.fillOne (s : State) (w : Nat) : State :=
  let mine := s.dev.fibs.filter (fun p => p.1 / 4 == w)
  let used := (mine.map (fun p => p.2.splits.length)).sum
  let cands := mine.filterMap (fun p =>
    match p.2.spilled with
    | r :: _ => if p.2.frozen then none else some (p.1, p.2, r)
    | [] => none)
  let best := cands.foldl (fun (b : Option (Nat × Fib × Spilled)) c =>
    match b with
    | some x => if c.2.2.order < x.2.2.order then some c else b
    | none => some c) none
  match best with
  | none => s
  | some (k, f, r) =>
    if 32 ≤ used then s
    else
      match Tab.find s.dev.wgs (k / 256) with
      | some g =>
        let va := f.spillAddr r.index
        match s.dev.translateRange (s.dev.spaceOf g f) .load 16 va with
        | .error x =>
          s.trapFib k ⟨x.1.cause, r.was.mask, x.2, memInfo 6 [(0, ⟨x.1.cause, x.2⟩)], r.pc, r.id, r.parent⟩
        | .ok pas =>
          let v := s.dev.gather pas
          let x : SplitSt :=
            { r.was with
              parent := r.parent, pc := r.goesTo.getD (BitVec.ofNat 64 (v % 2 ^ 57)), mask := BitVec.ofNat 32 (v / 2 ^ 64),
              st := r.was.st.whenBack, sos := false, wait := none, unheld := none }
          { s with dev := Dev.settleFib { s.dev with
            fibs := s.dev.fibs.put k { f with splits := f.splits.put r.id x, spilled := f.spilled.tail } } k }
      | none => s

/-- Fills while entries are free; n bounds the fills. -/
def State.fillMany (w : Nat) : (n : Nat) → State → State
  | 0, s => s
  | n + 1, s => State.fillMany w n (s.fillOne w)

/-- Some fibre of the current warp has a spilled split. -/
def State.anySpilled (s : State) : Bool :=
  !s.fib.spilled.isEmpty || s.dev.fibs.any (fun p => p.1 / 4 == s.warpKey && !p.2.spilled.isEmpty)

/-- Fills the slot's free entries (R46). -/
def State.fillSlot (s : State) : State :=
  if s.anySpilled then s.across (State.fillMany s.warpKey 32) else s

/-- Takes up a rearranged nest as the current fibre's splits. -/
def State.takeNest (s : State) (n : Nest) : State :=
  match Tab.find n.splits n.cur with
  | some y =>
    { s with
      cur := s.cur.map (fun c => { c with id := n.cur }), split := y,
      fib := s.fib.ofNest { n with splits := n.splits.del n.cur } }
  | none => s

/-- The current fibre's splits with x as the current one. -/
def State.nest (s : State) (x : SplitSt) : Nest :=
  ⟨s.fib.splits.put s.splitId x, s.fib.tree, s.fib.spilled, s.fib.marks, s.splitId⟩

/-- The current split becomes x; siblings that now stand together fuse (R44). -/
def State.arrive (s : State) (x : SplitSt) : State :=
  if s.inHandler || (s.fib.splits.isEmpty && s.fib.tree.isEmpty) then { s with split := x }
  else (s.takeNest (Nest.settle settleFuel (s.nest x))).fillSlot

/-- The current split goes on at pc. -/
def State.goto (s : State) (pc : Word64) : State := s.arrive { s.split with pc := pc, st := .ready, sos := false }

/-- The instruction is over: the split goes on behind its word; an inner element leaves the split where it is. -/
def State.advance (s : State) (len : Nat) : State :=
  if s.inner.isSome then s else s.goto (s.split.pc + BitVec.ofNat 64 len)

/-- Split i of a fibre joins its spilled splits, behind those of the whole slot that have spilled before it (R46). -/
def Fib.spill (f : Fib) (w : Warp) (i : Nat) (x : SplitSt) : Fib :=
  { f with spilled := f.spilled ++ [⟨f.spillAt, w.opps, w.spills, i, x.parent, x, none⟩], spillAt := (f.spillAt + 1) % 32 }

/-- Writes the records of splits that find no entry, one after another (R46). -/
def State.spillAll (s : State) (kids : List (Nat × SplitSt)) : State :=
  kids.foldl (fun t k =>
    match t.dev.translateRange t.space .store 16 (t.fib.spillAddr t.fib.spillAt) with
    | .ok pas =>
      let u := t.store pas (k.2.spillRecord k.1) false
      { u with
        fib := u.fib.spill u.warp k.1 k.2,
        warp := { u.warp with spills := u.warp.spills + 1 } }
    | .error _ => t) s

/-- The first fault among the records that kids would be spilled to. -/
def State.spillFault (s : State) (k : Nat) : Option LaneFault :=
  (List.range k).findSome? (fun i =>
    match s.dev.translateRange s.space .store 16 (s.fib.spillAddr ((s.fib.spillAt + i) % 32)) with
    | .ok _ => none
    | .error x => some ⟨x.1.cause, x.2⟩)

/-- The split among kids with the lowest PC. -/
def lowestKid (kids : List (Nat × SplitSt)) : Option (Nat × SplitSt) :=
  kids.foldl (fun b k => match b with
    | some x => if k.2.pc.toNat < x.2.pc.toNat then some k else b
    | none => some k) none

/-- A branch, call or return of the current split: its lanes go to places, in the order of R43, one group each; active lanes
issued it, and pre is what it writes besides. One place moves the split; several divide it, and those that stand together fuse
(R44, R46) (DEDUCED, assumption 23) (DEDUCED, assumption 62). -/
def State.branch (s : State) (active : Word32) (pre : State → State) (places : List (Word64 × Word32)) : State :=
  match places with
  | [] => s
  | (pc, _) :: rest =>
  if rest.all (fun p => p.1 == pc) then (pre s).goto pc
  else
    let (kids, n) := (s.nest s.split).diverge s.splitId s.split places
    let room := 32 - s.residents
    let inTable := kids.take room
    let out := kids.drop room
    match s.spillFault out.length with
    | some x => s.trap x.cause active x.addr (memInfo 6 [(0, x)])
    | none =>
      match lowestKid inTable with
      | none => s
      | some (i, x) =>
        let table := (inTable.foldl (fun t k => Tab.put t k.1 k.2) n.splits).del i
        let t := pre s
        let u : State :=
          { t with cur := t.cur.map (fun c => { c with id := i }), split := x,
                   fib := { t.fib with splits := table, tree := n.tree } }
        let v := u.spillAll out
        v.arrive v.split

/-- The current split is gone; the others of its fibre settle, and nothing is current (R44). -/
def State.leave (s : State) : State :=
  let t := { s with fib := s.fib.ofNest (Nest.settle settleFuel (s.fib.nest 64)) }
  let f := t.flush
  let u := match s.cur with
    | some c =>
      { f with dev := { f.dev with fibs := f.dev.fibs.put c.key t.fib, warps := f.dev.warps.upd (c.key / 4) (fun w => { w with cur := some (c.key % 4, 64, false) }) } }
    | none => f
  u.fillMany s.warpKey 32

/-- The handler ends (R194, R201): the handler split leaves, the trapped split goes on at pc, and the fibre's other splits
return to their states (DEDUCED, assumption 24). keep is the address of the INV at which the trapped split's mark stays (R186). -/
def State.returnFromTrap (s : State) (pc : Word64) (keep : Option Word64) : State :=
  match s.cur, s.fib.trapped with
  | some c, some t =>
    match Tab.find s.fib.splits t.id with
    | some x =>
      { s with
        cur := some { c with id := t.id, handler := false },
        split := { x with pc := pc, st := .ready, sos := false },
        fib := { s.fib with
          splits := s.fib.splits.del t.id, trapped := none, handler := none,
          marks := s.fib.marks.filter (fun m => m.id != t.id || keep == some m.addr) } }
    | none =>
      { s with fib := { s.fib with
          spilled := s.fib.spilled.map (fun (r : Spilled) => if r.id = t.id then { r with goesTo := some pc } else r),
          trapped := none, handler := none,
          marks := s.fib.marks.filter (fun m => m.id != t.id || keep == some m.addr) } }.leave
  | _, _ => s

/-! ### Issue -/

/-- What an instruction reads and writes, with the width of each in bits, and what its word says beyond operands. -/
structure Pre where
  /-- the guard -/
  g : Guard
  /-- bytes of the word -/
  len : Nat
  reads : List (Opd × Nat)
  writes : List (Opd × Nat)
  /-- runs of registers named whole: first register and count -/
  runs : List (Nat × Nat)
  /-- predicates and others aside, the word is illegal where it stands: cause 0x02 -/
  illegal : Bool
  /-- it names a register of the wrong kind where it stands: cause 0x07 -/
  badReg : Bool
  /-- the level is too low: cause 0x06 -/
  lacksPriv : Bool
  /-- what it waits for besides its registers -/
  deps : List Dep
  /-- it does not clear the mark of an interrupted INV: the INV itself (R186) -/
  keepMark : Bool
  /-- its effect is a pinning event (R216), which recipe code may not have (R223) -/
  pins : Bool
  /-- its access kind in TINFO[23:20] (R200) -/
  access : Nat
  /-- where an operand is poisoned, the memory faults of the active lanes (first) in which none is (second): each lane's fault, and
  what TINFO holds of it besides (R198) -/
  faults : State → Word32 → Word32 → List (Nat × LaneFault × Nat)

/-- An instruction with a guard and a length. -/
def Pre.of (g : Guard) (len : Nat) : Pre := ⟨g, len, [], [], [], false, false, false, [], false, false, 0, fun _ _ _ => []⟩

/-- The faults of lanes that each make an access of their own, or, when one is set, a single access for all that the lowest active lane
makes. -/
def accessFaults {α : Type} (one : Bool) (act clean : Word32) (f : Nat → Except LaneFault α) : List (Nat × LaneFault × Nat) :=
  if one then
    match clean.getLsbD (lowest act), f (lowest act) with
    | true, .error x => (lanesOf clean).map (fun l => (l, x, 0))
    | _, _ => []
  else (faultsOf ((lanesOf clean).map (fun l => (l, f l)))).map (fun x => (x.1, x.2, 0))

/-- The registers that an operand names: the first and how many. -/
def runOf (o : Opd × Nat) : Option (Nat × Nat) :=
  match o.1 with
  | .v n => some (n, regsFor o.2)
  | _ => none

/-- The vector registers named, each as a run. -/
def Pre.regRuns (p : Pre) : List (Nat × Nat) := (p.reads ++ p.writes).filterMap runOf ++ p.runs

/-- The scalar registers named. -/
def scalarRegs (os : List (Opd × Nat)) : List Nat :=
  os.filterMap (fun o => match o.1 with | .s n => some n | _ => none)

/-- Every run lies in one window (R59, R62). -/
def State.windowsOk (s : State) (p : Pre) : Bool := p.regRuns.all (fun r => (s.warp.phys s.fibNo r.1 r.2).isSome)

/-- The physical registers named. -/
def State.physAll (s : State) (rs : List (Nat × Nat)) : List Nat :=
  (rs.map (fun r => (List.range r.2).map (fun i => s.phys r.1 r.2 + i))).flatten

/-- Handles that a command writes (R152, R165). -/
def cmdWrites : CmdKind → List Nat
  | .toTile h _ _ _ _ _ _ | .gather h _ _ _ _ _ _ _ | .entries h _ _ | .weights h _ | .dict h _ _ _ _ => [h]
  | .tiles hd _ _ _ _ _ _ _ => [hd]
  | .toMem _ _ _ _ _ _ _ | .coll _ _ _ _ _ _ _ _ _ _ _ | .enqueue _ _ | .take => []

/-- Handles that a command reads (R152). -/
def cmdReads : CmdKind → List Nat
  | .toMem h _ _ _ _ _ _ => [h]
  | .tiles _ _ _ hs _ _ _ _ => [hs]
  | .toTile _ _ _ _ _ _ _ | .gather _ _ _ _ _ _ _ _ | .entries _ _ _ | .weights _ _ | .dict _ _ _ _ _
  | .coll _ _ _ _ _ _ _ _ _ _ _ | .enqueue _ _ | .take => []

/-- The fibre with a key, current or not. -/
def State.fibAt (s : State) (k : Nat) : Option Fib :=
  if s.cur.isSome ∧ k = s.key then some s.fib else Tab.find s.dev.fibs k

/-- The warp with a key. -/
def State.warpAt (s : State) (k : Nat) : Option Warp :=
  if s.cur.isSome ∧ k = s.warpKey then some s.warp else Tab.find s.dev.warps k

/-- The workgroup with a key. -/
def State.wgAt (s : State) (k : Nat) : Option Wg :=
  if s.cur.isSome ∧ k = s.wgKey then some s.wg else Tab.find s.dev.wgs k

/-- A wait is over. -/
def State.depMet (s : State) : Dep → Bool
  | .sreg f n =>
    (match s.fibAt f with | some x => (Tab.find x.pend n).isNone | none => true) &&
    (match s.warpAt (f / 4) with | some y => !y.out.any (fun o => o.fib == f % 4 && o.s.contains n) | none => true)
  | .vreg wk p => match s.warpAt wk with | some y => !y.out.any (fun o => o.v.contains p) | none => true
  | .writers g h => !s.dev.cmds.any (fun c => c.2.wg == g && c.2.stage != .finished && (cmdWrites c.2.kind).contains h)
  | .users g h =>
    !s.dev.cmds.any (fun c => c.2.wg == g && c.2.stage != .finished && (cmdWrites c.2.kind ++ cmdReads c.2.kind).contains h)
  | .entry g h =>
    match s.wgAt g with
    | some x => match Tab.find x.tiles h with | some t => !t.queue.isEmpty | none => true
    | none => true
  | .shadow wk room => match s.warpAt wk with | some y => if room then y.hasRoom else !y.trails | none => true

/-- What the instruction has to wait for (R50, R172): its registers, and what p adds. -/
def State.unmet (s : State) (p : Pre) : List Dep :=
  (((scalarRegs (p.reads ++ p.writes)).map (Dep.sreg s.key)) ++ ((s.physAll p.regRuns).map (Dep.vreg s.warpKey)) ++
    p.deps).filter (fun d => !s.depMet d)

/-- The lanes that issue: the split's, or those of the inner sequence. -/
def State.lanes (s : State) : Word32 :=
  match s.inner with
  | some i => i.lanes
  | none => s.split.mask

/-- The lanes in which the guard is true (R82). -/
def State.guardMask (s : State) (g : Guard) : Word32 := if g.neg then ~~~ s.fib.pred g.p else s.fib.pred g.p

/-- The active lanes (R4). -/
def State.active (s : State) (g : Guard) : Word32 := s.lanes &&& s.guardMask g

/-- The mark of a scratch register that operands name, in lane l; 0 when there is none. -/
def State.scratchPoison (s : State) (os : List (Opd × Nat)) (l : Nat) : Nat :=
  match s.inner with
  | some i =>
    (os.map (fun o => match o.1 with
      | .x n => (List.range (regsFor o.2)).map (fun j => Tab.get 0 i.poison ((n + j) * 32 + l))
      | _ => [])).flatten.foldl (fun x y => if x = 0 then y else x) 0
  | none => 0

/-- Poisoned registers read: each lane with the sector plus one (R206). -/
def State.poisoned (s : State) (p : Pre) (active : Word32) : List (Nat × Nat) :=
  let sc := ((scalarRegs p.reads).map (fun n => Tab.get 0 s.fib.poisonS n)).filter (fun x => x != 0)
  let vs := s.physAll (p.reads.filterMap runOf)
  (lanesOf active).filterMap (fun l =>
    match vs.findSome? (fun r => let x := Tab.get 0 s.warp.poison (r * 32 + l); if x = 0 then none else some x), sc with
    | some x, _ => some (l, x)
    | none, x :: _ => some (l, x)
    | none, [] => let x := s.scratchPoison p.reads l; if x = 0 then none else some (l, x))

/-- The trap of an instruction with a poisoned operand: the lanes that read it, each with its mark, and the other active lanes in which
the instruction faults; the lowest of all gives the cause (R198, R206). -/
def State.trapPoison (s : State) (p : Pre) (active : Word32) (bad : List (Nat × Nat)) : State :=
  let clean := active &&& ~~~ maskOf (bad.map (·.1))
  let fs := bad.map (fun x => (x.1, (⟨markCause x.2, markAddr x.2⟩ : LaneFault), 0)) ++ p.faults s active clean
  let all := (List.range 32).filterMap (fun l => fs.find? (fun x => x.1 == l))
  match all with
  | [] => s
  | x :: _ =>
    s.trap x.2.1.cause (maskOf (all.map (·.1))) x.2.1.addr (memInfo p.access (all.map (fun y => (y.1, y.2.1))) + x.2.2)

/-- How a resumption mark names the current split; 64 stands for the handler split, which bears no id (R192). -/
def State.markId (s : State) : Nat := if s.inHandler then 64 else s.splitId

/-- The current split's mark is gone. -/
def State.dropMark (s : State) : State :=
  { s with fib := { s.fib with marks := s.fib.marks.filter (fun m => m.id != s.markId) } }

/-- Any issue of the split other than the INV at the mark clears the mark (R186). -/
def State.clearMark (s : State) : State :=
  if s.inner.isNone && s.fib.marks.any (fun m => m.id == s.markId) then s.dropMark else s

/-- The split stalls (R49, R51); one that is to reload after a park does so when the stall is over. Within an inner sequence the whole of it
has to wait. -/
def State.stall (s : State) (ds : List Dep) : State :=
  match s.inner with
  | some i => { s with inner := some { i with hit := true, wait := ds } }
  | none =>
    match s.split.st with
    | .stalled _ _ c r => { s with split := { s.split with st := .stalled s.split.sos ds c r } }
    | .woken p => { s with split := { s.split with st := .stalled s.split.sos ds s.dev.cycles.toNat (some p) } }
    | _ => { s with split := { s.split with st := .stalled s.split.sos ds s.dev.cycles.toNat none } }

/-- Issues an instruction (R4, R95, R206): the faults of its word, then, in the active lanes, waits, poison and its effect. With
no active lane it does nothing but pass. -/
def State.issue (s : State) (p : Pre) (body : Word32 → State → State) : Host.Outcome State Fault Refusal :=
  match s.cur with
  | none => .fault .noIssuer
  | some _ =>
    .next (
      if p.illegal then s.trap 0x02 s.split.mask 0 0
      else if p.badReg || !s.windowsOk p then s.trap 0x07 s.split.mask 0 0
      else if p.lacksPriv then s.trap 0x06 s.split.mask 0 0
      else
        let t := if p.keepMark then s else s.clearMark
        let active := s.active p.g
        if active = 0 then t.advance p.len
        else if p.pins && s.inRecipe then s.trap 0x02 s.split.mask 0 0
        else
          match s.unmet p with
          | d :: ds => t.stall (d :: ds)
          | [] =>
            match s.poisoned p active with
            | x :: r => t.trapPoison p active (x :: r)
            | [] => body active t)

/-- A result for each active lane, with flags: a vector destination takes each lane's own, a scalar destination that of the
lowest active lane with its flags in every active lane (R60), and zero discards the result (DEDUCED, assumption 33). -/
def State.perLane (s : State) (active : Word32) (d : Opd) (w : Nat) (f : Nat → Nat × Nat) : State :=
  if isScalarDest d then
    let r := f (lowest active)
    (s.put w d 0 r.1).addFlagsAll (lanesOf active) r.2
  else (lanesOf active).foldl (fun t l => (t.put w d l (f l).1).addFlags l (f l).2) s

/-- A predicate result for each active lane. -/
def State.perLanePred (s : State) (active : Word32) (p : Nat) (f : Nat → Bool × Nat) : State :=
  (lanesOf active).foldl (fun t l => (t.setP p l (f l).1).addFlags l (f l).2) s

/-- The event is a pinning event of the current fibre (R216). -/
def State.pin (s : State) : State := { s with fib := { s.fib with pinned := true } }

end Sys2Proof.Machine
end

