-- ==== Sys2Proof/Machine/Integer.lean ====
section
/-!
DEFINITION. Integer and logic instructions (spec/22_ref_a_c.md R271, R277, R284, R287; spec/24_ref_g_p.md R322 to R348;
spec/25_ref_r_z.md R356, R360, R382). Each works at its TYPE width; narrow results are placed under R103.
-/
namespace Sys2Proof.Machine

/-! ### Shared shapes -/

/-- A one-source operation: reads wa bits, writes wd bits, in each active lane. -/
def alu1 (i : Instr) (o : A1) (cls : ImmCls) (wd wa : Nat) (f : Nat → Nat × Nat) (s : State) :
    Host.Outcome State Fault Refusal :=
  s.issue { Pre.of o.g i.bytes with reads := [(o.a, wa)], writes := [(o.d, wd)] } (fun act t =>
    (t.perLane act o.d wd (fun l => f (t.get cls wa o.a l))).advance i.bytes)

/-- A two-source operation at width w; b is read at width wb. -/
def alu2 (i : Instr) (o : A2) (cls : ImmCls) (w wb : Nat) (f : Nat → Nat → Nat × Nat) (s : State) :
    Host.Outcome State Fault Refusal :=
  s.issue { Pre.of o.g i.bytes with reads := [(o.a, w), (o.b, wb)], writes := [(o.d, w)] } (fun act t =>
    (t.perLane act o.d w (fun l => f (t.get cls w o.a l) (t.get cls wb o.b l))).advance i.bytes)

/-- A three-source operation at width w, whose b is read at width wb. -/
def alu3 (i : Instr) (o : A3) (cls : ImmCls) (w wb : Nat) (f : Nat → Nat → Nat → Nat × Nat) (s : State) :
    Host.Outcome State Fault Refusal :=
  s.issue { Pre.of o.g i.bytes with reads := [(o.a, w), (o.b, wb), (o.c, w)], writes := [(o.d, w)] } (fun act t =>
    (t.perLane act o.d w (fun l => f (t.get cls w o.a l) (t.get cls wb o.b l) (t.get cls w o.c l))).advance i.bytes)

/-- A result of TYPE ty without flags. -/
def plainInt (ty : Ty) (x : Nat) : Nat × Nat := (ty.place x, 0)

/-! ### Values -/

/-- Number of set bits among the low w. -/
def popCount (x : Nat) : (w : Nat) → Nat
  | 0 => 0
  | w + 1 => b2n (bitAt x w) + popCount x w

/-- Number of leading zero bits at width w. -/
def leadZeros (x : Nat) : (w : Nat) → Nat
  | 0 => 0
  | w + 1 => if bitAt x w then 0 else leadZeros x w + 1

/-- The low w bits in reverse order. -/
def revBits (x : Nat) : (w : Nat) → Nat
  | 0 => 0
  | w + 1 => b2n (bitAt x 0) * 2 ^ w + revBits (x / 2) w

/-- Bits of a at width w that are clear in b. -/
def andNot (w a b : Nat) : Nat := a &&& (2 ^ w - 1 - b % 2 ^ w)

/-- POS and the effective length of a control operand (R284). -/
def fieldOf (w b : Nat) : Nat × Nat := (b % 256, min (b / 256 % 256) (w - b % 256))

/-- BFX (R284). -/
def bfxValue (ty : Ty) (a b : Nat) : Nat :=
  let (pos, len) := fieldOf ty.w b
  if len = 0 then 0
  else
    let x := a / 2 ^ pos % 2 ^ len
    if ty.signed then ofInt ty.w (toSigned len x) else x

/-- BFI (R284). -/
def bfiValue (w a b c : Nat) : Nat :=
  let (pos, len) := fieldOf w b
  c % 2 ^ pos + 2 ^ pos * (a % 2 ^ len) + 2 ^ (pos + len) * (c / 2 ^ (pos + len))

/-- SHL (R356). -/
def shlValue (w a b : Nat) : Nat := if b % 256 < w then a * 2 ^ (b % 256) % 2 ^ w else 0
/-- SHR (R356). -/
def shrValue (w a b : Nat) : Nat := if b % 256 < w then a / 2 ^ (b % 256) else 0
/-- SAR (R356). -/
def sarValue (w a b : Nat) : Nat := ofInt w (toSigned w a / 2 ^ (min (b % 256) w))
/-- ROT (R356). -/
def rotValue (w a b : Nat) : Nat :=
  let c := b % 256 % w
  (a * 2 ^ c + a / 2 ^ (w - c)) % 2 ^ w

/-- IDIV with its flags (R328). -/
def idivValue (ty : Ty) (rem : Bool) (a b : Nat) : Nat × Nat :=
  let w := ty.w
  let x := ty.intVal a
  let y := ty.intVal b
  if y = 0 then (ty.place (2 ^ w - 1), flagDZ)
  else if ty.signed ∧ x = -(2 ^ (w - 1) : Int) ∧ y = -1 then
    (ty.place (if rem then 0 else a), if rem then 0 else flagOF)
  else
    let q := x.tdiv y
    (ty.place (ofInt w (if rem then x - q * y else q)), 0)

/-- IABS with its flag (R324). -/
def iabsValue (ty : Ty) (a : Nat) : Nat × Nat :=
  let x := ty.intVal a
  (ty.place (ofInt ty.w x.natAbs), flagIf (decide (x = -(2 ^ (ty.w - 1) : Int))) flagOF)

/-- The truth of a condition (R327). -/
def icondHolds (c : ICond) (x y : Int) : Bool :=
  match c with
  | .eq => x == y
  | .ne => x != y
  | .lt => decide (x < y)
  | .le => decide (x ≤ y)
  | .gt => decide (y < x)
  | .ge => decide (y ≤ x)
  | .rsv _ => false

/-! ### Arithmetic -/

/-- IADD and ISUB (R326): the exact sum or difference with the carry of lane l. -/
def addExact (sub : Bool) (a b c : Nat) : Int := if sub then (a : Int) - b - c else (a : Int) + b + c

/-- IADD or ISUB with its carries (R325, R326): i is the instruction, sub tells ISUB. -/
def addSub (i : Instr) (o : A2) (ci co : Option Nat) (sub : Bool) (s : State) : Host.Outcome State Fault Refusal :=
  let w := o.ty.w
  s.issue { Pre.of o.g i.bytes with reads := [(o.a, w), (o.b, w)], writes := [(o.d, w)] } (fun act t =>
    let one := isScalarDest o.d
    let carry := fun l => match ci with
      | some p => b2n (t.getP p (if one then lowest act else l))
      | none => 0
    let sum := fun l =>
      let k := if one then lowest act else l
      addExact sub (t.get .arith w o.a k) (t.get .arith w o.b k) (carry l)
    let u := t.perLane act o.d w (fun l => plainInt o.ty (ofInt w (sum l)))
    let v := match co with
      | some p => u.perLanePred act p (fun l => (if sub then decide (sum l < 0) else decide ((2 ^ w : Int) ≤ sum l), 0))
      | none => u
    v.advance i.bytes)

/-- IADD (R325, R326). -/
def execIadd (o : A2) (ci co : Option Nat) (s : State) := addSub (.iadd o ci co) o ci co false s
/-- ISUB (R325, R326). -/
def execIsub (o : A2) (ci co : Option Nat) (s : State) := addSub (.isub o ci co) o ci co true s
/-- IMUL (R331). -/
def execImul (o : A2) (s : State) := alu2 (.imul o) o .arith o.ty.w o.ty.w (fun a b => plainInt o.ty (a * b)) s
/-- IMULH (R331). -/
def execImulh (o : A2) (s : State) :=
  alu2 (.imulh o) o .arith o.ty.w o.ty.w (fun a b =>
    plainInt o.ty (ofInt o.ty.w (o.ty.intVal a * o.ty.intVal b / 2 ^ o.ty.w))) s
/-- IMAD (R331). -/
def execImad (o : A3) (s : State) := alu3 (.imad o) o .arith o.ty.w o.ty.w (fun a b c => plainInt o.ty (a * b + c)) s
/-- IDIV (R328). -/
def execIdiv (o : A2) (rem : Bool) (s : State) := alu2 (.idiv o rem) o .arith o.ty.w o.ty.w (idivValue o.ty rem) s
/-- IMIN (R324). -/
def execImin (o : A2) (s : State) :=
  alu2 (.imin o) o .arith o.ty.w o.ty.w (fun a b =>
    plainInt o.ty (if o.ty.intVal a ≤ o.ty.intVal b then a else b)) s
/-- IMAX (R324). -/
def execImax (o : A2) (s : State) :=
  alu2 (.imax o) o .arith o.ty.w o.ty.w (fun a b =>
    plainInt o.ty (if o.ty.intVal b ≤ o.ty.intVal a then a else b)) s
/-- IABS (R324). -/
def execIabs (o : A1) (s : State) := alu1 (.iabs o) o .arith o.ty.w o.ty.w (iabsValue o.ty) s

/-! ### Logic, shifts and bits -/

/-- AND (R277). -/
def execAnd (o : A2) (s : State) := alu2 (.and o) o .logic o.ty.w o.ty.w (fun a b => plainInt o.ty (a &&& b)) s
/-- ANDN (R277). -/
def execAndn (o : A2) (s : State) := alu2 (.andn o) o .logic o.ty.w o.ty.w (fun a b => plainInt o.ty (andNot o.ty.w a b)) s
/-- OR (R346). -/
def execOr (o : A2) (s : State) := alu2 (.or o) o .logic o.ty.w o.ty.w (fun a b => plainInt o.ty (a ||| b)) s
/-- XOR (R382). -/
def execXor (o : A2) (s : State) := alu2 (.xor o) o .logic o.ty.w o.ty.w (fun a b => plainInt o.ty (a ^^^ b)) s
/-- SHL (R356). -/
def execShl (o : A2) (s : State) := alu2 (.shl o) o .logic o.ty.w o.ty.w (fun a b => plainInt o.ty (shlValue o.ty.w a b)) s
/-- SHR (R356). -/
def execShr (o : A2) (s : State) := alu2 (.shr o) o .logic o.ty.w o.ty.w (fun a b => plainInt o.ty (shrValue o.ty.w a b)) s
/-- SAR (R356). -/
def execSar (o : A2) (s : State) := alu2 (.sar o) o .logic o.ty.w o.ty.w (fun a b => plainInt o.ty (sarValue o.ty.w a b)) s
/-- ROT (R356). -/
def execRot (o : A2) (s : State) := alu2 (.rot o) o .logic o.ty.w o.ty.w (fun a b => plainInt o.ty (rotValue o.ty.w a b)) s
/-- POPC (R348). -/
def execPopc (o : A1) (s : State) := alu1 (.popc o) o .logic o.ty.w o.ty.w (fun a => plainInt o.ty (popCount a o.ty.w)) s
/-- CLZ (R287). -/
def execClz (o : A1) (s : State) := alu1 (.clz o) o .logic o.ty.w o.ty.w (fun a => plainInt o.ty (leadZeros a o.ty.w)) s
/-- BREV (R287). -/
def execBrev (o : A1) (s : State) := alu1 (.brev o) o .logic o.ty.w o.ty.w (fun a => plainInt o.ty (revBits a o.ty.w)) s
/-- BFX (R284): b holds POS and LEN in 16 bits, at an 8-bit TYPE too. -/
def execBfx (o : A2) (s : State) := alu2 (.bfx o) o .logic o.ty.w (max o.ty.w 16) (fun a b => plainInt o.ty (bfxValue o.ty a b)) s
/-- BFI (R284): as in BFX, b is read in 16 bits at least. -/
def execBfi (o : A3) (s : State) :=
  alu3 (.bfi o) o .logic o.ty.w (max o.ty.w 16) (fun a b c => plainInt o.ty (bfiValue o.ty.w a b c)) s

/-! ### Comparison, selection, moves -/

/-- ICMP (R327). -/
def execIcmp (g : Guard) (ty : Ty) (cond : ICond) (p : Nat) (a b : Opd) (s : State) : Host.Outcome State Fault Refusal :=
  let len := (Instr.icmp g ty cond p a b).bytes
  s.issue { Pre.of g len with reads := [(a, ty.w), (b, ty.w)] } (fun act t =>
    (t.perLanePred act p (fun l =>
      (icondHolds cond (ty.intVal (t.get .arith ty.w a l)) (ty.intVal (t.get .arith ty.w b l)), 0))).advance len)

/-- The third input of PLOP in lane l (R347). -/
def PlopC.bit (c : PlopC) (s : State) (l : Nat) : Bool :=
  match c with
  | .pred n => s.getP n l
  | .sreg o => bitAt (s.get .logic 32 o l) l

/-- PLOP (R347). -/
def execPlop (g : Guard) (tab d a b : Nat) (c : PlopC) (s : State) : Host.Outcome State Fault Refusal :=
  let len := (Instr.plop g tab d a b c).bytes
  s.issue { Pre.of g len with reads := (match c with | .pred _ => [] | .sreg o => [(o, 32)]) } (fun act t =>
    (t.perLanePred act d (fun l =>
      (bitAt tab (b2n (t.getP a l) + 2 * b2n (t.getP b l) + 4 * b2n (PlopC.bit c t l)), 0))).advance len)

/-- How a TYPE reads an immediate in SEL and MOVI (R86, R87); that SEL sign-extends an integer one is the model's (DESIGN CHOICE, assumption
78). -/
def clsOf (ty : Ty) : ImmCls := if ty.isInt then .arith else .float ty

/-- SEL (R360). The constant one of a float TYPE is +1.0 in it (DEDUCED, assumption 126). -/
def execSel (g : Guard) (ty : Ty) (d a b : Opd) (p : Nat) (s : State) : Host.Outcome State Fault Refusal :=
  let len := (Instr.sel g ty d a b p).bytes
  s.issue { Pre.of g len with reads := [(a, ty.w), (b, ty.w)], writes := [(d, ty.w)] } (fun act t =>
    (t.perLane act d ty.w (fun l =>
      (ty.place (if t.getP p l then t.get (clsOf ty) ty.w a l else t.get (clsOf ty) ty.w b l), 0))).advance len)

/-- MOV (R343). -/
def execMov (o : A1) (s : State) := alu1 (.mov o) o .arith o.ty.w o.ty.w (fun a => plainInt o.ty a) s

/-- MOVI (R344). -/
def execMovi (g : Guard) (ty : Ty) (d imm : Opd) (pcrel : Bool) (s : State) : Host.Outcome State Fault Refusal :=
  let len := (Instr.movi g ty d imm pcrel).bytes
  s.issue { Pre.of g len with writes := [(d, ty.w)] } (fun act t =>
    (t.perLane act d ty.w (fun l =>
      let x := t.get (clsOf ty) ty.w imm l
      (ty.place (if pcrel then x + t.wordPc.toNat else x), 0))).advance len)

/-- LEA (R337). -/
def execLea (g : Guard) (loc pcrel : Bool) (d : Opd) (m : MemOp) (s : State) : Host.Outcome State Fault Refusal :=
  let len := (Instr.lea g loc pcrel d m).bytes
  s.issue { Pre.of g len with
      reads := [(m.base, if loc then 32 else 64), (m.index, 32)], writes := [(d, 64)] } (fun act t =>
    (t.perLane act d 64 (fun l =>
      ((if loc then t.fib.flat (t.localAddress m l) l
        else t.address m l + (if pcrel then t.wordPc.toNat else 0)) % 2 ^ 64, 0))).advance len)

/-- NOP (R345). -/
def execNop (g : Guard) (len : Len) (s : State) : Host.Outcome State Fault Refusal :=
  s.issue (Pre.of g (Instr.nop g len).bytes) (fun _ t => t.advance (Instr.nop g len).bytes)

end Sys2Proof.Machine
end

