-- ==== Sys2Proof/Machine/Float.lean ====
section
/-!
DEFINITION. Floating-point instructions (spec/23_ref_d_f.md R299 to R321; spec/22_ref_a_c.md R289, R297, R298;
spec/25_ref_r_z.md R357, R358). Every value is exact until its one rounding; the helpers stand in Numbers.lean.
-/
namespace Sys2Proof.Machine

/-! ### Shared shapes -/

/-- A one-source function on the elements of a type: the two halves of a packed type are computed alone and their flags ORed
(R104). -/
def halves1 (ty : Ty) (f : Nat → Nat × Nat) (a : Nat) : Nat × Nat :=
  if ty.isPacked then
    let x := f (a % 2 ^ 16)
    let y := f (a / 2 ^ 16 % 2 ^ 16)
    (x.1 + 2 ^ 16 * y.1, x.2 ||| y.2)
  else f a

/-- The same for two sources. -/
def halves2 (ty : Ty) (f : Nat → Nat → Nat × Nat) (a b : Nat) : Nat × Nat :=
  if ty.isPacked then
    let x := f (a % 2 ^ 16) (b % 2 ^ 16)
    let y := f (a / 2 ^ 16 % 2 ^ 16) (b / 2 ^ 16 % 2 ^ 16)
    (x.1 + 2 ^ 16 * y.1, x.2 ||| y.2)
  else f a b

/-- The same for three sources. -/
def halves3 (ty : Ty) (f : Nat → Nat → Nat → Nat × Nat) (a b c : Nat) : Nat × Nat :=
  if ty.isPacked then
    let x := f (a % 2 ^ 16) (b % 2 ^ 16) (c % 2 ^ 16)
    let y := f (a / 2 ^ 16 % 2 ^ 16) (b / 2 ^ 16 % 2 ^ 16) (c / 2 ^ 16 % 2 ^ 16)
    (x.1 + 2 ^ 16 * y.1, x.2 ||| y.2)
  else f a b c

/-- A correctly rounded function of one operand (R108, R299). -/
def fp1 (ty : Ty) (rec : Nat) (rm : Rm) (f : FVal → FVal × Nat) : Nat → Nat × Nat :=
  halves1 ty (fun a => ty.fmt.result rec rm (f (ty.fmt.operand rec a)))

/-- A correctly rounded function of two operands. -/
def fp2 (ty : Ty) (rec : Nat) (rm : Rm) (f : FVal → FVal → FVal × Nat) : Nat → Nat → Nat × Nat :=
  halves2 ty (fun a b => ty.fmt.result rec rm (f (ty.fmt.operand rec a) (ty.fmt.operand rec b)))

/-- A correctly rounded function of three operands. -/
def fp3 (ty : Ty) (rec : Nat) (rm : Rm) (f : FVal → FVal → FVal → FVal × Nat) : Nat → Nat → Nat → Nat × Nat :=
  halves3 ty (fun a b c =>
    ty.fmt.result rec rm (f (ty.fmt.operand rec a) (ty.fmt.operand rec b) (ty.fmt.operand rec c)))

/-! ### Addition, multiplication (R303, R304) -/

/-- FADD. -/
def execFadd (o : A2) (rm : Rm) (s : State) :=
  alu2 (.fadd o rm) o (.float o.ty) o.ty.w o.ty.w (fp2 o.ty s.record rm (FVal.add rm)) s

/-- FSUB. -/
def execFsub (o : A2) (rm : Rm) (s : State) :=
  alu2 (.fsub o rm) o (.float o.ty) o.ty.w o.ty.w (fp2 o.ty s.record rm (fun a b => a.add rm b.negate)) s

/-- FMUL. -/
def execFmul (o : A2) (rm : Rm) (s : State) :=
  alu2 (.fmul o rm) o (.float o.ty) o.ty.w o.ty.w (fp2 o.ty s.record rm FVal.mul) s

/-- FFMA. -/
def execFfma (o : A3) (rm : Rm) (s : State) :=
  alu3 (.ffma o rm) o (.float o.ty) o.ty.w o.ty.w (fp3 o.ty s.record rm (FVal.fma rm)) s

/-! ### Division and roots (R314) -/

/-- FDIV. -/
def execFdiv (o : A2) (rm : Rm) (s : State) :=
  alu2 (.fdiv o rm) o (.float o.ty) o.ty.w o.ty.w (fp2 o.ty s.record rm FVal.div) s

/-- FRCP. -/
def execFrcp (o : A1) (rm : Rm) (s : State) :=
  alu1 (.frcp o rm) o (.float o.ty) o.ty.w o.ty.w (fp1 o.ty s.record rm (fun a => (FVal.ofInt 1).div a)) s

/-- FSQRT. -/
def execFsqrt (o : A1) (rm : Rm) (s : State) :=
  alu1 (.fsqrt o rm) o (.float o.ty) o.ty.w o.ty.w (fp1 o.ty s.record rm FVal.sqrt) s

/-- FRSQ. -/
def execFrsq (o : A1) (rm : Rm) (s : State) :=
  alu1 (.frsq o rm) o (.float o.ty) o.ty.w o.ty.w (fp1 o.ty s.record rm FVal.rsqrt) s

/-! ### Least and greatest (R320) -/

/-- x comes before y, where -0 comes before +0. -/
def FBefore (x y : FVal) : Bool :=
  match x.cmp y with
  | .lt => true
  | .gt => false
  | .eq => x.neg && !y.neg

/-- FMIN and FMAX of two flushed operands. -/
def fminmax (greatest : Bool) (x y : FVal) : FVal × Nat :=
  let v :=
    if x.isNan then y
    else if y.isNan then x
    else if FBefore x y then (if greatest then y else x) else (if greatest then x else y)
  (v, sigFlag [x, y])

/-- FMIN (R320). Where flush_out() flushes the result, UF and NX are set (R108) (DEDUCED, assumption 127). -/
def execFmin (o : A2) (s : State) :=
  alu2 (.fmin o) o (.float o.ty) o.ty.w o.ty.w (fp2 o.ty s.record .rne (fminmax false)) s

/-- FMAX (R320), with the flags of FMIN (DEDUCED, assumption 127). -/
def execFmax (o : A2) (s : State) :=
  alu2 (.fmax o) o (.float o.ty) o.ty.w o.ty.w (fp2 o.ty s.record .rne (fminmax true)) s

/-! ### Comparison and classes (R306, R307) -/

/-- The truth of a condition and its IV (R307). -/
def fcondHolds (c : FCond) (x y : FVal) : Bool × Nat :=
  let un := x.isNan || y.isNan
  let o := x.cmp y
  let lt := !un && o == .lt
  let eq := !un && o == .eq
  let gt := !un && o == .gt
  let quiet := sigFlag [x, y]
  let loud := flagIf un flagIV
  match c with
  | .eq => (eq, quiet)
  | .ne => (!eq, quiet)
  | .lt => (lt, loud)
  | .le => (lt || eq, loud)
  | .gt => (gt, loud)
  | .ge => (gt || eq, loud)
  | .num => (!un, quiet)
  | .nan => (un, quiet)
  | .ltu => (lt || un, quiet)
  | .leu => (lt || eq || un, quiet)
  | .gtu => (gt || un, quiet)
  | .geu => (gt || eq || un, quiet)
  | .equ => (eq || un, quiet)
  | .rsv _ => (false, 0)

/-- FCMP. -/
def execFcmp (g : Guard) (ty : Ty) (cond : FCond) (p : Nat) (a b : Opd) (s : State) : Host.Outcome State Fault Refusal :=
  let len := (Instr.fcmp g ty cond p a b).bytes
  s.issue { Pre.of g len with reads := [(a, ty.w), (b, ty.w)] } (fun act t =>
    (t.perLanePred act p (fun l =>
      fcondHolds cond (ty.operand s.record (t.get (.float ty) ty.w a l))
        (ty.operand s.record (t.get (.float ty) ty.w b l)))).advance len)

/-- The bit of FCLASS's class word that is set (R306). -/
def fclassBit (ty : Ty) (x : Nat) : Nat :=
  let v := ty.operand 0 x
  match v with
  | .nan sig => if sig && !ty.isTaper then 8 else 9
  | .inf neg => if neg then 0 else 7
  | .fin neg m _ =>
    if m = 0 then (if neg then 3 else 4)
    else if !ty.isTaper && ty.fmt.subnormal x then (if neg then 2 else 5)
    else if neg then 1 else 6

/-- FCLASS, vector form. -/
def execFclass (o : A1) (s : State) :=
  alu1 (.fclass o) o (.float o.ty) 32 o.ty.w (fun a => (2 ^ fclassBit o.ty a, 0)) s

/-- FCLASS, predicate form. -/
def execFclassPred (g : Guard) (ty : Ty) (p : Nat) (a : Opd) (mask : Nat) (s : State) : Host.Outcome State Fault Refusal :=
  let len := (Instr.fclassPred g ty p a mask).bytes
  s.issue { Pre.of g len with reads := [(a, ty.w)] } (fun act t =>
    (t.perLanePred act p (fun l => (bitAt mask (fclassBit ty (t.get (.float ty) ty.w a l)), 0))).advance len)

/-! ### Exponents (R318, R319) -/

/-- FGETEXP. -/
def fgetexpValue (ty : Ty) (rec a : Nat) : Nat × Nat :=
  match ty.operand rec a with
  | .fin _ m e => if m = 0 then (0x80000000, flagDZ) else (ofInt 32 ((Nat.log2 m : Int) + e), 0)
  | _ => (0x7FFFFFFF, flagIV)

/-- FGETEXP. -/
def execFgetexp (o : A1) (s : State) :=
  alu1 (.fgetexp o) o (.float o.ty) 32 o.ty.w (fgetexpValue o.ty s.record) s

/-- a × 2^b. -/
def fscaled (a : FVal) (b : Int) : FVal :=
  match a with
  | .fin neg m e => .fin neg m (e + b)
  | v => v

/-- FSCALE; b is an integer in every form. -/
def execFscale (o : A2) (rm : Rm) (s : State) : Host.Outcome State Fault Refusal :=
  let len := (Instr.fscale o rm).bytes
  s.issue { Pre.of o.g len with reads := [(o.a, o.ty.w), (o.b, 32)], writes := [(o.d, o.ty.w)] } (fun act t =>
    (t.perLane act o.d o.ty.w (fun l =>
      let x := o.ty.operand s.record (t.get (.float o.ty) o.ty.w o.a l)
      o.ty.fmt.result s.record rm (fscaled x (toSigned 32 (t.get .arith 32 o.b l)), flagIf x.isSig flagIV))).advance len)

/-! ### Argument reduction (R321) -/

/-- π × 2^1600, rounded down: more bits than any finite FP64 operand needs for one correct rounding of the difference. -/
def piBits : Nat :=
  0x3243F6A8885A308D3 * 2 ^ 1536 +
  0x13198A2E03707344A4093822299F31D0082EFA98EC4E6C89452821E638D01377 * 2 ^ 1280 +
  0xBE5466CF34E90C6CC0AC29B7C97C50DD3F84D5B5B54709179216D5D98979FB1B * 2 ^ 1024 +
  0xD1310BA698DFB5AC2FFD72DBD01ADFB7B8E1AFED6A267E96BA7C9045F12C7F99 * 2 ^ 768 +
  0x24A19947B3916CF70801F2E2858EFC16636920D871574E69A458FEA3F4933D7E * 2 ^ 512 +
  0x0D95748F728EB658718BCD5882154AEE7B54A41DC25A59B59C30D5392AF26013 * 2 ^ 256 +
  0xC5D1B023286085F0CA417918B8DB38EF8E79DCB0603A180E6C9E0E8BB01E8A3E

/-- The integer nearest m × 2^e × 2 / π. -/
def quarterTurns (m : Nat) (e : Int) : Nat :=
  -- 2 × m × 2^e / (P / 2^1600), rounded to nearest
  let num := m * 2 ^ (e + 1602).toNat
  (num + piBits) / (2 * piBits)

/-- FRRED of a flushed operand: r as an exact value, k modulo 4, and the flags that are not the rounding's. -/
def frredExact (x : FVal) : FVal × Nat × Nat :=
  match x with
  | .nan sig => (.nan false, 0, flagIf sig flagIV)
  | .inf _ => (.nan false, 0, flagIV)
  | .fin neg m e =>
    let k := quarterTurns m e
    if k = 0 then (x, 0, 0)
    else
      -- m × 2^e − k × π / 2 in units of 2^-1601
      let d : Int := (m * 2 ^ (e + 1601).toNat : Nat) - (k * piBits : Nat)
      (.fin (neg != decide (d < 0)) d.natAbs (-1601), (if neg then 4 - k % 4 else k) % 4, 0)

/-- FRRED: r's bits, k modulo 4 and the flags. -/
def frredValue (f : Fmt) (rec : Nat) (rm : Rm) (x : FVal) : Nat × Nat × Nat :=
  let r := frredExact x
  let y := f.result rec rm (r.1, r.2.2)
  (y.1, r.2.1, y.2)

/-- FRRED. -/
def execFrred (o : A1) (rm : Rm) (s : State) :=
  alu1 (.frred o rm) o (.float o.ty) (2 * o.ty.w) o.ty.w (fun a =>
    let r := frredValue o.ty.fmt s.record rm (o.ty.operand s.record a)
    (r.1 + 2 ^ o.ty.w * r.2.1, r.2.2)) s

/-! ### Function sequences (R309 to R313) -/

/-- rn: rounded to FP32, without flush or flags. -/
def rn (v : FVal) : FVal := fp32.decode (fp32.round .rne v).1

/-- rn(a × b). -/
def rnMul (a b : FVal) : FVal := rn (a.mul b).1
/-- rn(a × b + c). -/
def rnFma (a b c : FVal) : FVal := rn (a.fma .rne b c).1
/-- An FP32 constant. -/
def f32c (x : Nat) : FVal := fp32.decode x

/-- Horner steps with the coefficients given from the highest down. -/
def horner (z : FVal) : List Nat → FVal → FVal
  | [], q => q
  | c :: r, q => horner z r (rnFma q z (f32c c))

/-- The polynomial in z with coefficients c, the lowest first, each step rounded once. -/
def poly (z : FVal) (c : List Nat) : FVal :=
  match c.reverse with
  | [] => .fin false 0 0
  | h :: r => horner z r (f32c h)

/-- FTREV of a record (R120); the reserved code 0 counts as one less than 1 (DESIGN CHOICE, assumption 96). -/
def recRev (rec : Nat) : Nat := rec / 2 ^ 24 % 4

/-- E0 to E8. -/
def coeffE : List Nat :=
  [0x3F800000, 0x3F317218, 0x3E75FDF0, 0x3D635847, 0x3C1D955B, 0x3AAEC3FF, 0x39218488, 0x377FE5FC, 0x35B15FFA]
/-- L0 to L5. -/
def coeffL : List Nat := [0x4038AA3B, 0x3F76384B, 0x3F13BB63, 0x3ED30BAB, 0x3EA42584, 0x3E864D42]
/-- S1 to S6. -/
def coeffS : List Nat := [0xBE2AAAAB, 0x3C088889, 0xB9500D01, 0x3638EF1D, 0xB2D7322B, 0x2F309231]
/-- C1 to C6. -/
def coeffC : List Nat := [0xBF000000, 0x3D2AAAAB, 0xBAB60B61, 0x37D00D01, 0xB493F27E, 0x310F76C7]

/-- FEXP2 (R309, R310). -/
def fexp2Value (rec : Nat) (x : FVal) : Nat × Nat :=
  match x with
  | .nan sig => (fp32.nan, flagIf sig flagIV)
  | .inf neg => (if neg then 0 else fp32.infBits, 0)
  | .fin neg m e =>
    if x.cmp (.ofInt 128) != .lt then (fp32.infBits, flagOF ||| flagNX)
    else if x.cmp (.ofInt (-150)) != .gt then (0, flagUF ||| flagNX)
    else
      let (n, nx) := finToInt .rne neg m e
      let r := (x.add .rne (FVal.ofInt (-n))).1
      let q := poly r (coeffE.take (recRev rec + 6))
      fp32.result rec .rne (fscaled q n, flagIf nx flagNX)

/-- FEXP2. -/
def execFexp2 (o : A1) (s : State) :=
  alu1 (.fexp2 o) o (.float .f32) 32 32 (fun a => fexp2Value s.record (fp32.operand s.record a)) s

/-- FLOG2 (R309, R311). -/
def flog2Value (rec : Nat) (x : FVal) : Nat × Nat :=
  match x with
  | .nan sig => (fp32.nan, flagIf sig flagIV)
  | .inf neg => if neg then (fp32.nan, flagIV) else (fp32.infBits, 0)
  | .fin neg m e =>
    if m = 0 then (fp32.withSign true fp32.infBits, flagDZ)
    else if neg then (fp32.nan, flagIV)
    else
      let b := Nat.log2 m
      let up := (FVal.fin false m (-(b : Int))).cmp (f32c 0x3FB504F3) == .gt
      let h : FVal := .fin false m (-(b : Int) - (if up then 1 else 0))
      let ex : Int := (b : Int) + e + (if up then 1 else 0)
      let f := (h.add .rne (.ofInt (-1))).1
      let t := rn (f.add .rne (.ofInt 2)).1
      let sq := rn (f.div t).1
      let z := rnMul sq sq
      let q := poly z (coeffL.take (recRev rec + 3))
      let y := rnFma sq q (.ofInt ex)
      fp32.result rec .rne (y, flagIf (m != 2 ^ b) flagNX)

/-- FLOG2. -/
def execFlog2 (o : A1) (s : State) :=
  alu1 (.flog2 o) o (.float .f32) 32 32 (fun a => flog2Value s.record (fp32.operand s.record a)) s

/-- FSIN and FCOS (R309, R312): turn is 0 for the sine and 1 for the cosine. -/
def fsincos (turn rec : Nat) (x : FVal) : Nat × Nat :=
  match x with
  | .nan sig => (fp32.nan, flagIf sig flagIV)
  | .inf _ => (fp32.nan, flagIV)
  | .fin neg m _ =>
    if m = 0 then (if turn = 0 then (fp32.withSign neg 0, 0) else (0x3F800000, 0))
    else
      let red := frredValue fp32 rec .rne x
      let r := fp32.decode red.1
      let d := recRev rec + 3
      let z := rnMul r r
      let qs := poly z (coeffS.take d)
      let ys := rnFma r (rnMul z qs) r
      let qc := poly z (coeffC.take d)
      let yc := rnFma z qc (.ofInt 1)
      let y :=
        match (red.2.1 + turn) % 4 with
        | 0 => ys
        | 1 => yc
        | 2 => ys.negate
        | _ => yc.negate
      fp32.result rec .rne (y, red.2.2 ||| flagNX)

/-- FSIN. -/
def execFsin (o : A1) (s : State) :=
  alu1 (.fsin o) o (.float .f32) 32 32 (fun a => fsincos 0 s.record (fp32.operand s.record a)) s

/-- FCOS. -/
def execFcos (o : A1) (s : State) :=
  alu1 (.fcos o) o (.float .f32) 32 32 (fun a => fsincos 1 s.record (fp32.operand s.record a)) s

/-! ### FDOT (R315, R316) -/

/-- The format of FDOT's sum and addend. -/
def fdotTy (ty : Ty) : Ty := if ty = .f64 then .f64 else .f32

/-- Terms and bits from one term to the next (R315). -/
def fdotTerms (ty : Ty) : Nat × Nat :=
  match ty with
  | .f64 => (4, 64)
  | .f32 => (8, 32)
  | .t8 | .t6 => (16, 8)
  | _ => (16, 16)

/-- The products of two groups and their flags. -/
def fdotProducts (ty : Ty) (rec a b : Nat) : List (FVal × Nat) :=
  let (k, st) := fdotTerms ty
  (List.range k).map (fun i =>
    let p := (ty.operand rec (a / 2 ^ (st * i))).mul (ty.operand rec (b / 2 ^ (st * i)))
    (ty.fmt.flushProd rec p.1, p.2))

/-- FDOT of one lane. -/
def fdotValue (ty : Ty) (rec a b c : Nat) : Nat × Nat :=
  let ps := fdotProducts ty rec a b
  let f := (fdotTy ty).fmt
  let r := contractSum rec f (ps.map (·.1)) (f.operand rec c)
  (r.1, ps.foldl (fun x p => x ||| p.2) r.2)

/-- FDOT. -/
def execFdot (o : A3) (s : State) : Host.Outcome State Fault Refusal :=
  let len := (Instr.fdot o).bytes
  let wg := (fdotTerms o.ty).1 * (fdotTerms o.ty).2
  let t := fdotTy o.ty
  s.issue { Pre.of o.g len with reads := [(o.a, wg), (o.b, wg), (o.c, t.w)], writes := [(o.d, t.w)] } (fun act u =>
    (u.perLane act o.d t.w (fun l =>
      fdotValue o.ty s.record (u.get .logic wg o.a l) (u.get .logic wg o.b l) (u.get (.float t) t.w o.c l))).advance len)

/-! ### Conversions (R297, R298) -/

/-- CVT of one value. -/
def cvtValue (dty sty : Ty) (rec : Nat) (rm : Rm) (x : Nat) : Nat × Nat :=
  if dty.isInt && sty.isInt then (dty.place (ofInt dty.w (sty.intVal x)), 0)
  else if dty.isTaper && dty == sty then (dty.place x, 0)
  else dty.convert rec rm (sty.source rec x)

/-- CVT of a lane (R298): x is a's value and y, for a packed destination from single values, b's. -/
def cvtLane (dty sty : Ty) (rec : Nat) (rm : Rm) (x : Nat) (y : Option Nat) : Nat × Nat :=
  let one := fun z => dty.convert rec rm (sty.source rec z)
  match y, dty.isPacked, sty.isPacked with
  | some z, _, _ => ((one x).1 + 2 ^ 16 * (one z).1, (one x).2 ||| (one z).2)
  | none, true, _ => halves1 dty one x
  | none, false, true =>
    ((one (x % 2 ^ 16)).1 + 2 ^ 32 * (one (x / 2 ^ 16)).1, (one (x % 2 ^ 16)).2 ||| (one (x / 2 ^ 16)).2)
  | none, false, false => cvtValue dty sty rec rm x

/-- The width of CVT's result: two registers for the two values of a packed source. -/
def cvtW (dty sty : Ty) : Nat := if sty.isPacked && !dty.isPacked then 64 else dty.w

/-- How CVT reads its source's constants (R83, R297): an integer type's as integers. -/
def cvtCls (sty : Ty) : ImmCls := if sty.isInt then .arith else .float sty

/-- CVT. -/
def execCvt (g : Guard) (dty sty : Ty) (rm : Rm) (d a : Opd) (b : Option Opd) (s : State) :
    Host.Outcome State Fault Refusal :=
  let len := (Instr.cvt g dty sty rm d a b).bytes
  let wd := cvtW dty sty
  let bs := b.toList.map (fun o => (o, 32))
  s.issue { Pre.of g len with reads := (a, sty.w) :: bs, writes := [(d, wd)] } (fun act t =>
    (t.perLane act d wd (fun l =>
      cvtLane dty sty s.record rm (t.get (cvtCls sty) sty.w a l) (b.map (fun o => t.get (cvtCls sty) 32 o l)))).advance len)

/-! ### Block scales (R289, R357, R358) -/

/-- The greatest finite code below bits 15 down to 0 above base whose scale times maxv is less than x. -/
def bs16Below (x : FVal) (maxv : Int) : (bits base : Nat) → Nat
  | 0, base => base
  | k + 1, base =>
    let c := base + 2 ^ k
    if c < 0xFF00 && ((decodeBS16 c).mul (.ofInt maxv)).1.cmp x == .lt then bs16Below x maxv k c
    else bs16Below x maxv k base

/-- The magnitude of a value. -/
def fabs : FVal → FVal
  | .fin _ m e => .fin false m e
  | .inf _ => .inf false
  | v => v

/-- The scale of a block whose flushed elements are xs (R289). -/
def bsclCode (ty : Ty) (xs : List FVal) : Nat :=
  let maxv : Int := match ty with | .t8 => 4096 | .t6 => 16 | _ => 127
  if xs.any (fun x => x.isNan || x.isInf) then 0xFF00
  else
    let m := xs.foldl (fun y x => if y.cmp (fabs x) == .lt then fabs x else y) (.fin false 0 0)
    if m.isZero then 0 else bs16Below m maxv 16 0xFF + 1

/-- BSCL. -/
def execBscl (o : A1) (s : State) : Host.Outcome State Fault Refusal :=
  let len := (Instr.bscl o).bytes
  s.issue { Pre.of o.g len with reads := [(o.a, 32)], writes := [(o.d, 32)] } (fun act t =>
    let x := fun l => fp32.operand s.record (t.get (.float .f32) 32 o.a l)
    let code := bsclCode o.ty ((lanesOf act).map x)
    let u := t.perLane act o.d 32 (fun _ => (code, 0))
    ((lanesOf act).foldl (fun v l => v.addFlags l (flagIf (x l).isSig flagIV)) u).advance len)

/-- The element that RQNT reads, with its flag: a block element under its scale, or a flushed float. -/
def rqntSource (sty : Ty) (rec x so : Nat) : FVal × Nat :=
  match sty with
  | .t8 | .t6 | .s8 =>
    let v := if sty = .s8 then FVal.ofInt (toSigned 8 x) else sty.operand rec x
    let sc := decodeBS16 so
    (if v.isNan || sc.isNan then .nan false else (v.mul sc).1, 0)
  | _ =>
    let v := sty.operand rec x
    (v, flagIf v.isSig flagIV)

/-- RQNT's rounding to a signed 8-bit integer (R358). -/
def rqntInt (q : FVal) : Nat × Nat :=
  match q with
  | .nan _ => (0, flagIV)
  | .inf neg => (ofInt 8 (if neg then -127 else 127), flagIV)
  | .fin neg m e =>
    let (n, nx) := finToInt .rne neg m e
    if 127 < n.natAbs then (ofInt 8 (if neg then -127 else 127), flagOF ||| flagNX) else (ofInt 8 n, flagIf nx flagNX)

/-- RQNT of one element (R358). -/
def rqntValue (dty sty : Ty) (rec x so sn : Nat) : Nat × Nat :=
  let (v, fl) := rqntSource sty rec x so
  let sc := decodeBS16 sn
  let r :=
    if v.isNan || sc.isNan then ((match dty with | .t8 => 0x80 | .t6 => 0x20 | _ => 0), flagIV)
    else if sc.isZero then (0, flagIf (!v.isZero) flagDZ)
    else
      let q := (v.div sc).1
      match dty with
      | .t8 => roundTaper 8 1 q
      | .t6 => roundTaper 6 0 q
      | _ => rqntInt q
  (dty.place r.1, r.2 ||| fl)

/-- RQNT (R357). The constant one as its old or new scale is the code 0x0001 (DESIGN CHOICE, assumption 117). -/
def execRqnt (g : Guard) (dty sty : Ty) (d a so sn : Opd) (s : State) : Host.Outcome State Fault Refusal :=
  let len := (Instr.rqnt g dty sty d a so sn).bytes
  s.issue { Pre.of g len with reads := [(a, sty.w), (so, 16), (sn, 16)], writes := [(d, dty.w)] } (fun act t =>
    (t.perLane act d dty.w (fun l =>
      rqntValue dty sty s.record (t.get .logic sty.w a l) (t.get .logic 16 so l) (t.get .logic 16 sn l))).advance len)

end Sys2Proof.Machine
end

