-- ==== Sys2Proof/Machine/Lane.lean ====
section
/-!
DEFINITION. Cross-lane instructions (spec/25_ref_r_z.md R363, R364, R376; spec/24_ref_g_p.md R339). Every lane's source is read
before any lane is written.
-/
namespace Sys2Proof.Machine

/-- The lane that SHFL reads from, when it lies in the segment of 2^seg lanes of lane l (R364). -/
def shflFrom (mode : ShflMode) (seg l b : Nat) : Option Nat :=
  let w := 2 ^ seg
  let base := l - l % w
  match mode with
  | .lane => some (base + b % w)
  | .rot => some (base + (l - base + b) % w)
  | .bfly => some (l ^^^ (b % w))
  | .off =>
    let j : Int := (l : Int) + toSigned 32 b
    if (base : Int) ≤ j ∧ j < (base + w : Nat) then some j.toNat else none

/-- The active source lane of lane l. -/
def shflLane (act : Word32) (mode : ShflMode) (seg l b : Nat) : Option Nat :=
  (shflFrom mode seg l b).bind (fun j => if act.getLsbD j then some j else none)

/-- SHFL. -/
def execShfl (g : Guard) (mode : ShflMode) (seg : Nat) (ty : Ty) (d a b : Opd) (p : Nat) (s : State) :
    Host.Outcome State Fault Refusal :=
  let len := (Instr.shfl g mode seg ty d a b p).bytes
  let cls : ImmCls := if mode = .off then .arith else .logic
  s.issue { Pre.of g len with reads := [(a, ty.w), (b, 32)], writes := [(d, ty.w)] } (fun act t =>
    let src := fun l => shflLane act mode seg l (t.get cls 32 b l)
    let u := t.perLane act d ty.w (fun l => (t.get .logic ty.w a ((src l).getD l), 0))
    (u.perLanePred act p (fun l => ((src l).isSome, 0))).advance len)

/-- The value that VOTE shares (R376): q are the active lanes in which the predicate, or its complement, is true. -/
def voteValue (mode : VoteMode) (act q : Word32) : Nat :=
  match mode with
  | .mask => q.toNat
  | .count => (lanesOf q).length
  | .first => (lanesOf q).headD 32
  | .some => if q = 0 then 0 else 1
  | .every => if q = act then 1 else 0
  | .agree => if q = 0 ∨ q = act then 1 else 0
  | .rsv _ => 0

/-- VOTE. -/
def execVote (g : Guard) (mode : VoteMode) (neg : Bool) (d : VoteD) (a : Nat) (s : State) :
    Host.Outcome State Fault Refusal :=
  let len := (Instr.vote g mode neg d a).bytes
  let ws := match d with | .reg o => [(o, 32)] | .pred _ => []
  s.issue { Pre.of g len with writes := ws } (fun act t =>
    let x := voteValue mode act (act &&& (if neg then ~~~ t.fib.pred a else t.fib.pred a))
    (match d with
      | .reg o => t.perLane act o 32 (fun _ => (x, 0))
      | .pred p => t.perLanePred act p (fun _ => (x == 1, 0))).advance len)

/-- The width of LRED's result (R339). -/
def lredW (op : LredOp) (ty : Ty) : Nat :=
  if ty.isInt then ty.w else match op with | .add => (fdotTy ty).w | _ => ty.w

/-- LRED of the active lanes' values in increasing lane number (R339). A fold of FMIN or FMAX begins with the first value taken
with itself, so that one lane too gives what the rule of FMIN makes of its value (DEDUCED, assumption 9). -/
def lredValue (op : LredOp) (ty : Ty) (rec : Nat) (xs : List Nat) : Nat × Nat :=
  match xs with
  | [] => (0, 0)
  | x :: r =>
    if ty.isInt then
      let vs := xs.map ty.intVal
      let v := match op with
        | .min => vs.foldl min (ty.intVal x)
        | .max => vs.foldl max (ty.intVal x)
        | _ => vs.sum
      (ty.place (ofInt ty.w v), 0)
    else
      match op with
      | .add =>
        let vs := xs.map (ty.operand rec)
        let q := contractSum rec (fdotTy ty).fmt vs (.fin true 0 0)
        (q.1, q.2 ||| sigFlag vs)
      | _ =>
        let f := fp2 ty rec .rne (fminmax (op != .min))
        r.foldl (fun acc y => let z := f acc.1 y; (z.1, acc.2 ||| z.2)) (f x x)

/-- LRED. -/
def execLred (o : A1) (op : LredOp) (s : State) : Host.Outcome State Fault Refusal :=
  let len := (Instr.lred o op).bytes
  let wd := lredW op o.ty
  s.issue { Pre.of o.g len with reads := [(o.a, o.ty.w)], writes := [(o.d, wd)] } (fun act t =>
    let r := lredValue op o.ty s.record ((lanesOf act).map (t.get .logic o.ty.w o.a))
    (t.perLane act o.d wd (fun _ => r)).advance len)

end Sys2Proof.Machine
end

