-- ==== Sys2Proof/Machine/Mem.lean ====
section
/-!
DEFINITION. Memory instructions (spec/09_memory.md R134, R135, R142; spec/10_ordering.md; spec/22_ref_a_c.md R278 to R280, R290,
R291; spec/23_ref_d_f.md R317; spec/24_ref_g_p.md R329, R330, R335 to R338, R351; spec/25_ref_r_z.md R352, R353, R359,
R366 to R368, R377 to R379). Every access of an instruction is performed at its issue, all lanes checked first.
-/
namespace Sys2Proof.Machine

/-! ### Shared shapes -/

/-- Registers that an address reads. -/
def memReads (loc : Bool) (m : MemOp) : List (Opd × Nat) := [(m.base, if loc then 32 else 64), (m.index, 32)]

/-- The address that lane l forms, flat or local (R336). -/
def State.addressOf (s : State) (loc : Bool) (m : MemOp) (l : Nat) : Nat :=
  if loc then s.localAddress m l else s.address m l

/-- One access of w bytes at address a of lane l (R142). -/
def State.laneAccess (s : State) (acc : Access) (loc aligned : Bool) (w a l : Nat) : Except LaneFault (List Phys) :=
  if loc then s.localAccess acc aligned w a l else s.flatAccess acc aligned w a

/-- The flat addresses of the bytes of that access. -/
def State.laneBytes (s : State) (loc : Bool) (w a l : Nat) : List Nat :=
  if loc then s.fib.localPieces a l w else (List.range w).map (fun i => (a + i) % 2 ^ 64)

/-- The page is stamped for another contract (R129). -/
def State.stampMiss (s : State) (p : Phys) : Bool := p.stamp != 15 && p.stamp != s.wg.contract

/-- TRAPEN.STAMP (R65). -/
def State.stampTraps (s : State) : Bool := s.fib.trapen.getLsbD 7

/-- The access of LD in lane l, with the stamp check last (R129, R142). -/
def State.loadAccess (s : State) (loc strong : Bool) (w a l : Nat) : Except LaneFault (List Phys) :=
  match s.laneAccess .load loc strong w a l with
  | .error x => .error x
  | .ok ps =>
    match (ps.zip (s.laneBytes loc w a l)).find? (fun p => s.stampTraps && s.stampMiss p.1) with
    | some p => .error ⟨0x16, p.2⟩
    | none => .ok ps

/-- The bytes that a lane reads: lane, virtual address, physical address. -/
def bytesRead (l : Nat) (vas : List Nat) (ps : List Phys) : List (Nat × Nat × Nat) :=
  (vas.zip ps).map (fun p => (l, p.1, p.2.pa))

/-- The lanes with a byte that is lost, each with its mark (R206). -/
def lostLanes (lost : Nat → Bool) (bs : List (Nat × Nat × Nat)) : List (Nat × Nat) :=
  (bs.filter (fun x => lost x.2.2)).map (fun x => (x.1, lostMark x.2.1 x.2.2))

/-- The lanes of a load whose data are lost: a byte of them lies in one of the sectors bad, or was marked when it was read (R206). -/
def Outstanding.lost (o : Outstanding) (bad : List Nat) : List (Nat × Nat) :=
  lostLanes (fun pa => bad.contains (pa / 32)) o.bytes ++ o.marked

/-- Poisons the vector registers of a load whose data are lost (R206). -/
def Warp.poisonLoad (w : Warp) (bad : List Nat) (o : Outstanding) : Warp :=
  let mark := fun (t : Tab Nat) (x : Nat × Nat) => o.v.foldl (fun u p => Tab.set 0 u (p * 32 + x.1) x.2) t
  { w with poison := (o.lost bad).foldl mark w.poison }

/-- Poisons the scalar registers of a load whose data are lost. -/
def Fib.poisonLoad (f : Fib) (bad : List Nat) (o : Outstanding) : Fib :=
  match o.lost bad with
  | [] => f
  | x :: _ => { f with poisonS := o.s.foldl (fun u n => Tab.set 0 u n x.2) f.poisonS }

/-- Poisons the registers of d in the lanes given, each with its mark: scratch registers too, which only a substitute sequence has. -/
def State.poisonDest (s : State) (d : Opd) (w : Nat) (marks : List (Nat × Nat)) : State :=
  let ms := marks.filter (fun m => m.2 != 0)
  match ms, d with
  | [], _ => s
  | m :: _, .s n => { s with fib := { s.fib with poisonS := Tab.set 0 s.fib.poisonS n m.2 } }
  | _, .x n =>
    { s with inner := s.inner.map (fun i =>
        { i with poison := ms.foldl (fun t m => scratchMark t m.1 (regsFor w) n m.2) i.poison }) }
  | _, _ =>
    let vs := s.physAll ((runOf (d, w)).toList)
    { s with warp := { s.warp with
        poison := ms.foldl (fun t m => vs.foldl (fun u p => Tab.set 0 u (p * 32 + m.1) m.2) t) s.warp.poison } }

/-- The outstanding load of d, which reads the bytes given; lost are the lanes that read a marked byte. -/
def State.outstanding (s : State) (d : Opd) (w : Nat) (bs : List (Nat × Nat × Nat))
    (lost : List (Nat × Nat) := lostLanes s.dev.marked.contains bs) : Outstanding :=
  ⟨s.fibNo, s.physAll ((runOf (d, w)).toList), scalarRegs [(d, w)], bs, lost⟩

/-- The data of a load to d are there at once: what lies in a lost sector is poisoned (R206). -/
def State.poisonNow (s : State) (d : Opd) (w : Nat) (bs : List (Nat × Nat × Nat))
    (lost : List (Nat × Nat) := lostLanes s.dev.marked.contains bs) : State :=
  s.poisonDest d w ((s.outstanding d w bs lost).lost s.dev.bad)

/-- The registers of d wait for load data (R50); inside an INV body or a substitute sequence the data are there at once. -/
def State.awaitData (s : State) (d : Opd) (w : Nat) (bs : List (Nat × Nat × Nat))
    (lost : List (Nat × Nat) := lostLanes s.dev.marked.contains bs) : State :=
  let o := s.outstanding d w bs lost
  if s.inner.isSome then s.poisonNow d w bs lost
  else if o.v.isEmpty && o.s.isEmpty then s
  else { s with warp := { s.warp with out := s.warp.out ++ [o] } }

/-- Some byte is named twice. -/
def overlaps (pas : List (List Phys)) : Bool :=
  decide (1 < pas.length) && !decide (pas.flatten.map (·.pa)).Nodup

/-- The places 0 to k − 1 in an order the device chooses (R279, R368) (DESIGN CHOICE, assumption 19). -/
def orderOf (n k : Nat) : List Nat := sortBy (Config.freeOrder n) (List.range k)

/-- The items in an order the device chooses. -/
def reorder {α : Type} (n : Nat) (l : List α) : List α := (orderOf n l.length).filterMap (fun i => l[i]?)

/-- The stores of several lanes (R368): where they overlap, whole accesses of a strong store and single bytes of a weak one stand
in an order the device chooses. -/
def State.storeLanes (s : State) (items : List (List Phys × Nat)) (strong : Bool) : State :=
  if overlaps (items.map (·.1)) then
    let (n, t) := s.free
    if strong then (reorder n items).foldl (fun u x => u.store x.1 x.2 true) t
    else
      let bytes := (items.map (fun x => (x.1.zip (leBytes x.1.length x.2)))).flatten
      (reorder n bytes).foldl (fun u x => u.store [x.1] x.2.toNat false) t
  else items.foldl (fun u x => u.store x.1 x.2 strong) s

/-- A loaded value as it lies in registers (R103). -/
def Width.extend (w : Width) (x : Nat) : Nat :=
  match w with
  | .s16 => ofInt 32 (toSigned 16 x)
  | .s8 => ofInt 32 (toSigned 8 x)
  | _ => x

/-- Bits of the registers that hold a value of the width. -/
def regBits (w : Width) : Nat := max 32 (8 * w.bytes)

/-- An operand that is the same in every lane. -/
def isUniform (o : Opd) : Bool :=
  match o with
  | .v _ | .lane | .x _ => false
  | _ => true

/-! ### LD and ST -/

/-- LD (R335, R336, R129) (DESIGN CHOICE, assumption 20). -/
def execLd (g : Guard) (w : Width) (strong sys loc : Bool) (d : Opd) (m : MemOp) (s : State) :
    Host.Outcome State Fault Refusal :=
  let len := (Instr.ld g w strong sys loc d m).bytes
  let one := isScalarDest d
  let faults := fun (t : State) act clean =>
    accessFaults one act clean (fun l => t.loadAccess loc strong w.bytes (t.addressOf loc m l) l)
  s.issue { Pre.of g len with reads := memReads loc m, writes := [(d, regBits w)], pins := strong, faults := faults } (fun act t =>
    let ls := if one then [lowest act] else lanesOf act
    let r := ls.map (fun l => (l, t.loadAccess loc strong w.bytes (t.addressOf loc m l) l))
    match faultsOf r with
    | f :: fs => t.trapLanes 0 (if one then some act else none) (f :: fs)
    | [] =>
      let got := granted r
      let missed := (got.filter (fun q => q.2.any t.stampMiss)).map (·.1)
      let flagged := if one ∧ missed ≠ [] then lanesOf act else missed
      let bs := (got.map (fun q => bytesRead q.1 (t.laneBytes loc w.bytes (t.addressOf loc m q.1) q.1) q.2)).flatten
      let u := got.foldl (fun v q => v.put (regBits w) d q.1 (Width.extend w (t.dev.gather q.2))) t
      let u := (u.addFlagsAll flagged flagSTAMP).awaitData d (regBits w) bs
      (if strong then u.pin else u).advance len)

/-- ST (R366 to R368). -/
def execSt (g : Guard) (w : Width) (strong sys loc : Bool) (m : MemOp) (c : Opd) (s : State) :
    Host.Outcome State Fault Refusal :=
  let len := (Instr.st g w strong sys loc m c).bytes
  let one := !loc && isUniform m.base && isUniform m.index && isUniform c
  let faults := fun (t : State) act clean =>
    accessFaults one act clean (fun l => t.laneAccess .store loc strong w.bytes (t.addressOf loc m l) l)
  s.issue { Pre.of g len with
      reads := (c, regBits w) :: memReads loc m, pins := strong, access := 1, faults := faults } (fun act t =>
    let ls := if one then [lowest act] else lanesOf act
    let r := ls.map (fun l => (l, t.laneAccess .store loc strong w.bytes (t.addressOf loc m l) l))
    match faultsOf r with
    | f :: fs => t.trapLanes 1 (if one then some act else none) (f :: fs)
    | [] =>
      let u := t.storeLanes ((granted r).map (fun q => (q.2, t.get .arith (regBits w) c q.1))) strong
      (if strong then u.pin else u).advance len)

/-! ### Atomics -/

/-- combine() of R279, with its flags. -/
def combine (op : AtomOp) (ty : Ty) (rec x y : Nat) : Nat × Nat :=
  match op, ty with
  | .add, .f32 => fp2 .f32 rec .rne (FVal.add .rne) x y
  | .min, .f32 => fp2 .f32 rec .rne (fminmax false) x y
  | .max, .f32 => fp2 .f32 rec .rne (fminmax true) x y
  | .add, _ => ((x + y) % 2 ^ ty.w, 0)
  | .min, _ => (if ty.intVal y < ty.intVal x then y else x, 0)
  | .max, _ => (if ty.intVal x < ty.intVal y then y else x, 0)
  | .and, _ => (x &&& y, 0)
  | .or, _ => (x ||| y, 0)
  | .xor, _ => (x ^^^ y, 0)
  | .exch, _ => (y, 0)
  | .rsv _, _ => (x, 0)

/-- How an atomic reads its operand's constants. -/
def atomCls (ty : Ty) : ImmCls := if ty = .f32 then .float .f32 else .arith

/-- The access of an atomic of w bits in lane l. -/
def State.atomicAccess (s : State) (w : Nat) (m : MemOp) (l : Nat) : Except LaneFault (List Phys) :=
  s.flatAccess .rmw true (w / 8) (s.address m l)

/-- What the lanes of an atomic fault with beside poisoned ones. -/
def atomicFaults (one : Bool) (w : Nat) (m : MemOp) (t : State) (act clean : Word32) : List (Nat × LaneFault × Nat) :=
  accessFaults one act clean (t.atomicAccess w m)

/-- Stores what a read-modify-write made of a word. Bytes that carried a mark keep it where the new value comes from the word (keeps), so
that lost data do not turn clean on the way through a fibre (R206) (DEDUCED, assumption 10). -/
def State.storeBack (s : State) (keeps : Bool) (ps : List Phys) (x : Nat) : State :=
  let lost := if keeps then (ps.map (·.pa)).filter s.dev.marked.contains else []
  let t := s.store ps x true
  if lost.isEmpty then t else { t with dev := t.dev.mark lost }

/-- The read-modify-writes of ATOM, CAS and RED (R279, R280, R290, R353): f gives, for a lane and the word read, the word to
write, if any, and the flags; keeps says that the word written comes from the word read. Lanes that name the same word stand in an order
the device chooses. d receives the words read, with the marks that their bytes carried at the read (R206). -/
def State.atomics (s : State) (act : Word32) (len w : Nat) (m : MemOp) (d : Option Opd) (keeps : Bool)
    (f : Nat → Nat → Option Nat × Nat) : State :=
  let one := match d with | some o => isScalarDest o | none => false
  let ls := if one then [lowest act] else lanesOf act
  let r := ls.map (fun l => (l, s.atomicAccess w m l))
  match faultsOf r with
  | x :: xs => s.trapLanes 2 (if one then some act else none) (x :: xs)
  | [] =>
    let got := granted r
    let (items, t) := if overlaps (got.map (·.2)) then (reorder s.free.1 got, s.free.2) else (got, s)
    let read := fun (q : Nat × List Phys) => bytesRead q.1 (s.laneBytes false (w / 8) (s.address m q.1) q.1) q.2
    let (u, lost) := items.foldl (fun (v : State × List (Nat × Nat)) q =>
      let x := v.1.dev.gather q.2
      let y := f q.1 x
      let u := match y.1 with | some n => v.1.storeBack keeps q.2 n | none => v.1
      let u := match d with | some o => u.put w o q.1 x | none => u
      (u.addFlagsAll (if one then lanesOf act else [q.1]) y.2, v.2 ++ lostLanes v.1.dev.marked.contains (read q))) (t, [])
    let u := match d with | some o => u.awaitData o w (got.map read).flatten lost | none => u
    u.pin.advance len

/-- ATOM (R278 to R280). -/
def execAtom (g : Guard) (ty : Ty) (op : AtomOp) (sys : Bool) (d : Opd) (m : MemOp) (b : Opd) (s : State) :
    Host.Outcome State Fault Refusal :=
  let len := (Instr.atom g ty op sys d m b).bytes
  s.issue { Pre.of g len with
      reads := (b, ty.w) :: memReads false m, writes := [(d, ty.w)], pins := true, access := 2,
      faults := atomicFaults (isScalarDest d) ty.w m } (fun act t =>
    t.atomics act len ty.w m (some d) (op != .exch) (fun l x =>
      let r := combine op ty s.record x (t.get (atomCls ty) ty.w b l)
      (some r.1, r.2)))

/-- RED (R352, R353). -/
def execRed (g : Guard) (ty : Ty) (op : AtomOp) (sys : Bool) (m : MemOp) (b : Opd) (s : State) :
    Host.Outcome State Fault Refusal :=
  let len := (Instr.red g ty op sys m b).bytes
  s.issue { Pre.of g len with
      reads := (b, ty.w) :: memReads false m, pins := true, access := 2, faults := atomicFaults false ty.w m } (fun act t =>
    t.atomics act len ty.w m none (op != .exch) (fun l x =>
      let r := combine op ty s.record x (t.get (atomCls ty) ty.w b l)
      (some r.1, r.2)))

/-- CAS (R290). -/
def execCas (g : Guard) (b64 sys : Bool) (d : Opd) (m : MemOp) (e n : Opd) (s : State) :
    Host.Outcome State Fault Refusal :=
  let len := (Instr.cas g b64 sys d m e n).bytes
  let w := if b64 then 64 else 32
  s.issue { Pre.of g len with
      reads := (e, w) :: (n, w) :: memReads false m, writes := [(d, w)], pins := true, access := 2,
      faults := atomicFaults (isScalarDest d) w m } (fun act t =>
    t.atomics act len w m (some d) true (fun l x =>
      (if x = t.get .arith w e l then some (t.get .arith w n l) else none, 0)))

/-! ### Fences and requests that change only timing -/

/-- FENCE (R317): every access is performed at its issue, so an empty strong access only pins. -/
def execFence (g : Guard) (sys : Bool) (s : State) : Host.Outcome State Fault Refusal :=
  let len := (Instr.fence g sys).bytes
  s.issue { Pre.of g len with pins := true } (fun _ t => t.pin.advance len)

/-- PREF (R351): it changes only timing (DESIGN CHOICE, assumption 63). -/
def execPref (g : Guard) (loc : Bool) (m : MemOp) (s : State) : Host.Outcome State Fault Refusal :=
  let len := (Instr.pref g loc m).bytes
  s.issue { Pre.of g len with reads := memReads loc m } (fun _ t => t.advance len)

/-- CFLUSH (R291): it changes only timing. -/
def execCflush (g : Guard) (loc : Bool) (m : MemOp) (s : State) : Host.Outcome State Fault Refusal :=
  let len := (Instr.cflush g loc m).bytes
  s.issue { Pre.of g len with reads := memReads loc m } (fun _ t => t.advance len)

/-! ### Waiting on addresses -/

/-- The timeout in cycles, at most 2^20 (R153, R377); lane, which is the number of the lowest active lane where the destination is
scalar (R83) and lane 0's where it is not (DESIGN CHOICE, assumption 107), is taken at lane l. -/
def State.timeout (s : State) (l : Nat) : Tmo → Nat
  | .reg o => min (s.get .arith 64 o l) (2 ^ 20)
  | .cycles n => n
  | .units n => min (4096 * n) (2 ^ 20)
  | .rsv _ _ => 0

/-- A split that reloads after a park (R153). -/
def SplitState.reloads : SplitState → Bool
  | .woken _ => true
  | _ => false

/-- The address that a WAITA accesses in lane l: what its base names, or, in a reload, the address that was checked before the park
(R153); a split that was restored meanwhile has kept none (DEDUCED, assumption 22). -/
def State.waitAddr (s : State) (m : MemOp) (l : Nat) : Nat :=
  match s.split.st with
  | .woken (some p) => (Tab.find p.addr l).getD (s.address m l)
  | _ => s.address m l

/-- WAITA (R153, R378) (DEDUCED, assumption 22). With a vector destination the constant lane as its timeout is lane 0's number (DESIGN CHOICE,
assumption 107). -/
def execWaita (g : Guard) (b64 sys : Bool) (d base : Opd) (off : Option Nat) (e : Opd) (tmo : Tmo) (s : State) :
    Host.Outcome State Fault Refusal :=
  let len := (Instr.waita g b64 sys d base off e tmo).bytes
  let w := if b64 then 64 else 32
  let m : MemOp := ⟨base, .zero, 0, off⟩
  let tr := match tmo with | .reg o => [(o, 64)] | _ => []
  let one := isScalarDest d
  let faults := fun (t : State) act clean =>
    accessFaults one act clean (fun l => t.flatAccess .load true (w / 8) (t.waitAddr m l))
  s.issue { Pre.of g len with
      reads := (e, w) :: (base, 64) :: tr, writes := [(d, w)], pins := true, access := 3, faults := faults } (fun act t =>
    let ls := if one then [lowest act] else lanesOf act
    let r := ls.map (fun l => (l, t.flatAccess .load true (w / 8) (t.waitAddr m l)))
    match faultsOf r with
    | f :: fs => t.trapLanes 3 (if one then some act else none) (f :: fs)
    | [] =>
      let got := granted r
      let changed := got.any (fun q => t.dev.gather q.2 != t.get .arith w e q.1)
      let wait := t.timeout (if one then lowest act else 0) tmo
      if wait = 0 ∨ changed ∨ t.split.st.reloads then
        let bs := (got.map (fun q => bytesRead q.1 (t.laneBytes false (w / 8) (t.waitAddr m q.1) q.1) q.2)).flatten
        ((got.foldl (fun v q => v.put w d q.1 (t.dev.gather q.2)) t).poisonNow d w bs).pin.advance len
      else
        let (n, u) := t.fresh
        let addr : Tab Nat := got.foldl (fun a q => Tab.put a q.1 (t.waitAddr m q.1)) []
        let lines := ((got.map (fun q => linesOf q.2)).flatten).eraseDups
        { u.pin with split := { u.split with
            st := .parked ⟨n, act, addr, lines, u.dev.cycles.toNat + wait⟩ } })

/-- WAKE (R155, R379) (DEDUCED, assumption 36). A count that is the constant lane is that of lane 0 (DESIGN CHOICE, assumption 107). -/
def execWake (g : Guard) (sys : Bool) (base : Opd) (off : Option Nat) (n : WakeN) (s : State) :
    Host.Outcome State Fault Refusal :=
  let len := (Instr.wake g sys base off n).bytes
  let nr := match n with | .reg o => [(o, 64)] | _ => []
  let access := fun (t : State) l => t.flatAccess .load false 1 (t.address ⟨base, .zero, 0, off⟩ l)
  s.issue { Pre.of g len with
      reads := (base, 64) :: nr, pins := true, faults := fun t act clean => accessFaults true act clean (access t) } (fun act t =>
    match access t (lowest act) with
    | .error x => t.trapLanes 0 (some act) [(lowest act, x)]
    | .ok ps =>
      let k := match n with | .reg o => t.get .arith 64 o 0 | .imm k => k | .rsv _ _ _ => 0
      ((linesOf ps).foldl (fun u line => u.wakeFirst line k) t).pin.advance len)

/-! ### Instruction-cache locks (R329, R330) -/

/-- The lines of 128 bytes of a range, widened outward. -/
def lockLines (r : Nat × Nat) : List Nat :=
  if r.2 = 0 then []
  else (List.range ((r.1 + r.2 - 1) / 128 - r.1 / 128 + 1)).map (fun i => r.1 / 128 + i)

/-- The physical lines of a range in an address space; none when a line lacks a translation with EX. -/
def Dev.lockedLines (d : Dev) (sp : Space) (r : Nat × Nat) : Option (List Nat) :=
  (lockLines r).mapM (fun l =>
    match d.translate sp .fetch (l * 128 % 2 ^ 64) with
    | .ok p => some (p.pa / 128)
    | .error _ => none)

/-- The lines that the locks of the workgroups in the tables hold on a core, each once (R329). -/
def Dev.linesLocked (d : Dev) (sl c : Nat) : List Nat :=
  ((d.wgs.filter (fun p => p.2.slice == sl && p.2.core == c)).map (fun p => (p.2.locks.map (·.lines)).flatten)).flatten.eraseDups

/-- The lines locked on the core of the current workgroup, each once, whatever has become of their translations since (R329). -/
def State.coreLocks (s : State) : List Nat :=
  ((s.wg.locks.map (·.lines)).flatten ++ s.dev.linesLocked s.wg.slice s.wg.core).eraseDups

/-- Lines of 128 bytes, of which the given ones are locked already, within the 64 KiB that a core may lock (R329). -/
def linesFit (held new : List Nat) : Bool := decide ((held ++ new).eraseDups.length * 128 ≤ 65536)

/-- The lock that ILOCK is granted; none when it is refused (R329). -/
def State.lockFor (s : State) (a n : Nat) : Option Lock :=
  if 0 < n ∧ n ≤ 65536 ∧ s.wg.locks.length < 16 then
    (s.dev.lockedLines s.space (a, n)).bind (fun l => if linesFit s.coreLocks l then some ⟨a, n, l⟩ else none)
  else none

/-- ILOCK. -/
def execIlock (g : Guard) (p : Nat) (a n : Opd) (s : State) : Host.Outcome State Fault Refusal :=
  let len := (Instr.ilock g p a n).bytes
  s.issue { Pre.of g len with reads := [(a, 64), (n, 64)] } (fun act t =>
    let x := t.get .arith 64 a 0
    let y := t.get .arith 64 n 0
    let got := t.lockFor x y
    let u := { t with wg := { t.wg with locks := t.wg.locks ++ got.toList } }
    (u.perLanePred act p (fun _ => (got.isSome, 0))).advance len)

/-- IUNLOCK. -/
def execIunlock (g : Guard) (a n : Opd) (s : State) : Host.Outcome State Fault Refusal :=
  let len := (Instr.iunlock g a n).bytes
  s.issue { Pre.of g len with reads := [(a, 64), (n, 64)] } (fun _ t =>
    let named := fun (r : Lock) => r.addr == t.get .arith 64 a 0 && r.bytes == t.get .arith 64 n 0
    { t with wg := { t.wg with locks := t.wg.locks.eraseP named } }.advance len)

/-! ### SAVEM and LOADM (R338, R359) -/

/-- The accesses of lane l from local address a, n words: alignment, then the bound of every word, then the translations (R142). -/
def State.wordsAccess (s : State) (acc : Access) (n a l : Nat) : Except LaneFault (List (List Phys)) :=
  let word := fun i => (a + 4 * i) % 2 ^ 32
  if a % 4 ≠ 0 then .error ⟨0x14, s.fib.flat a l⟩
  else
    match (List.range n).find? (fun i => decide (s.fib.lwsize.toNat / 32 < word i + 4)) with
    | some i => .error ⟨0x13, s.fib.flat (word i) l⟩
    | none => (List.range n).mapM (fun i => s.localAccess acc false 4 (word i) l)

/-- The operand that names the register k after o. -/
def Opd.plus (o : Opd) (k : Nat) : Opd :=
  match o with
  | .v n => .v (n + k)
  | o => o

/-- The run of n registers from an operand. -/
def runFrom (o : Opd) (n : Nat) : List (Nat × Nat) :=
  match o with
  | .v k => [(k, n)]
  | _ => []

/-- LOADM (DEDUCED, assumption 35). -/
def execLoadm (g : Guard) (p n : Opd) (cnt1 : Nat) (s : State) : Host.Outcome State Fault Refusal :=
  let len := (Instr.loadm g p n cnt1).bytes
  let k := cnt1 + 1
  let vs := (List.range k).map (fun i => ((Opd.plus n i), 32))
  let access := fun (t : State) l => t.wordsAccess .load k (t.get .arith 32 p l) l
  s.issue { Pre.of g len with
      reads := [(p, 32)], writes := (p, 32) :: vs, runs := runFrom n k, access := 5,
      faults := fun t act clean => accessFaults false act clean (access t) } (fun act t =>
    let r := (lanesOf act).map (fun l => (l, access t l))
    match faultsOf r with
    | f :: fs => t.trapLanes 5 none (f :: fs)
    | [] =>
      let got := granted r
      let u := (List.range k).foldl (fun u i =>
        let o := Opd.plus n i
        let bs := (got.map (fun q =>
          bytesRead q.1 (t.fib.localPieces ((t.get .arith 32 p q.1 + 4 * i) % 2 ^ 32) q.1 4) (q.2.getD i []))).flatten
        (got.foldl (fun v q => v.put 32 o q.1 (t.dev.gather (q.2.getD i []))) u).awaitData o 32 bs) t
      (got.foldl (fun v q => v.put 32 p q.1 ((t.get .arith 32 p q.1 + 4 * k) % 2 ^ 32)) u).advance len)

/-- SAVEM. -/
def execSavem (g : Guard) (p n : Opd) (cnt1 : Nat) (s : State) : Host.Outcome State Fault Refusal :=
  let len := (Instr.savem g p n cnt1).bytes
  let k := cnt1 + 1
  let vs := (List.range k).map (fun i => ((Opd.plus n i), 32))
  let low := fun (t : State) l => ofInt 32 ((t.get .arith 32 p l : Int) - 4 * k)
  let access := fun (t : State) l => t.wordsAccess .store k (low t l) l
  s.issue { Pre.of g len with
      reads := (p, 32) :: vs, writes := [(p, 32)], runs := runFrom n k, access := 5,
      faults := fun t act clean => accessFaults false act clean (access t) } (fun act t =>
    let r := (lanesOf act).map (fun l => (l, access t l))
    match faultsOf r with
    | f :: fs => t.trapLanes 5 none (f :: fs)
    | [] =>
      let got := granted r
      let items := (got.map (fun q => q.2.zipIdx.map (fun x => (x.1, t.get .arith 32 (Opd.plus n x.2) q.1)))).flatten
      let u := t.storeLanes items false
      (got.foldl (fun v q => v.put 32 p q.1 (low t q.1)) u).advance len)

end Sys2Proof.Machine
end

