-- ==== Sys2Proof/Machine/Tile.lean ====
section
/-!
DEFINITION. Tile handles (spec/04_storage.md R70 to R74; spec/25_ref_r_z.md R369, R371 to R373). A row of a bound handle is the
little-endian number of its bytes.
-/
namespace Sys2Proof.Machine

/-! ### Handles and storage -/

/-- The levels by the code of R369. -/
def levelOf (lvl : Nat) : Level :=
  match lvl with
  | 0 => .t | 1 => .a | 2 => .w | _ => .q

/-- The shape is one that the level accepts (R70). -/
def shapeOk (lvl : Level) (rows rb : Nat) : Bool :=
  match lvl with
  | .t | .w => decide (1 ≤ rows ∧ rows ≤ 4096 ∧ 16 ≤ rb ∧ rb ≤ 8192) && rb % 16 == 0
  | .a => rows == 32 && rb == 256
  | .q => decide (1 ≤ rows ∧ rows ≤ 64) && rb == 512

/-- Granules that a shape takes (R70). -/
def granules (lvl : Level) (rows rb : Nat) : Nat :=
  match lvl with
  | .t | .w => (rows * rb + 1023) / 1024
  | .a => 1
  | .q => rows

/-- Granules of a level on a core of a configuration (R19, R70). -/
def capacity (config : Nat) (lvl : Level) : Nat :=
  match lvl with
  | .t => if config = 1 then 1024 else 1536
  | .a => 32
  | .w => 512
  | .q => 64

/-- A handle just bound: all zero (R71). -/
def Tile.fresh (lvl : Level) (rows rb : Nat) : Tile := ⟨lvl, rows, rb, [], [], [], [], []⟩

/-- The tiles of the workgroups on a core that stand in the table. -/
def Dev.tilesOn (d : Dev) (sl c : Nat) : List Tile :=
  ((d.wgs.filter (fun p => p.2.slice == sl && p.2.core == c)).map (fun p => p.2.tiles.vals)).flatten

/-- The tiles of the current workgroup's core. -/
def State.coreTiles (s : State) : List Tile := s.wg.tiles.vals ++ s.dev.tilesOn s.wg.slice s.wg.core

/-- Granules of a level that tiles hold. -/
def granulesHeld (ts : List Tile) (lvl : Level) : Nat :=
  ((ts.filter (fun t => t.lvl == lvl)).map (fun t => granules t.lvl t.rows t.rb)).sum

/-- One more handle of the shape fits beside the tiles ts (R70, R71). -/
def tileFits (config : Nat) (ts : List Tile) (lvl : Level) (rows rb : Nat) : Bool :=
  decide (ts.length < 512 ∧ granulesHeld ts lvl + granules lvl rows rb ≤ capacity config lvl)

/-- The tile bound to handle h. -/
def State.tile (s : State) (h : Nat) : Option Tile := Tab.find s.wg.tiles h

/-- Binds handle h to t, or stores its new contents. -/
def State.setTile (s : State) (h : Nat) (t : Tile) : State := { s with wg := { s.wg with tiles := Tab.put s.wg.tiles h t } }

/-- The fibre has written a tile handle, which counts for the test of R216 (R350). -/
def State.wroteTile (s : State) : State := { s with fib := { s.fib with wroteB := true } }

/-- TINFO of a fault of handle h (R200). -/
def tileInfo (h : Nat) : Nat := 7 * 2 ^ 20 + h * 2 ^ 32

/-- A tile fault of the lanes given. -/
def State.tileTrap (s : State) (cause : Nat) (lanes : Word32) (h : Nat) : State := s.trap cause lanes 0 (tileInfo h)

/-- Bytes b to b + n − 1 of a row. -/
def rowBytes (x b n : Nat) : Nat := x / 2 ^ (8 * b) % 2 ^ (8 * n)

/-- A row with bytes b to b + n − 1 replaced. -/
def setRowBytes (x b n v : Nat) : Nat :=
  x % 2 ^ (8 * b) + 2 ^ (8 * b) * (v % 2 ^ (8 * n)) + 2 ^ (8 * (b + n)) * (x / 2 ^ (8 * (b + n)))

/-- A row. -/
def Tile.row (t : Tile) (r : Nat) : Nat := Tab.get 0 t.data r

/-- Stores a row. -/
def Tile.setRow (t : Tile) (r x : Nat) : Tile := { t with data := Tab.set 0 t.data r x }

/-- Place of a byte among the poison marks. -/
def poisonKey (r b : Nat) : Nat := r * 8192 + b

/-- The row among the poison marks that stands for the dictionary of column block cb; rows lie below 4,096 (R70). -/
def dictRow (cb : Nat) : Nat := 4096 + cb

/-- The handle without the marks of dictionary cb. -/
def Tile.cleanDict (t : Tile) (cb : Nat) : Tile := { t with poison := t.poison.filter (fun p => p.1 / 8192 != dictRow cb) }

/-- Writes bytes with clean values. -/
def Tile.write (t : Tile) (r b n v : Nat) : Tile :=
  { t.setRow r (setRowBytes (t.row r) b n v) with
    poison := if t.poison.isEmpty then [] else (List.range n).foldl (fun p i => Tab.set 0 p (poisonKey r (b + i)) 0) t.poison }

/-- The first poison mark among bytes b to b + n − 1 of a row; 0 when there is none. -/
def Tile.poisoned (t : Tile) (r b n : Nat) : Nat :=
  if t.poison.isEmpty then 0
  else ((List.range n).map (fun i => Tab.get 0 t.poison (poisonKey r (b + i)))).foldl (fun x y => if x = 0 then y else x) 0

/-- The queue with one entry more, its bytes marked where data are lost (R171, R206). -/
def Tile.append (t : Tile) (e : Nat) (lost : List (Nat × Nat)) : Tile :=
  { t with
    queue := t.queue ++ [e],
    poison := lost.foldl (fun p x => Tab.set 0 p (poisonKey t.queue.length x.1) x.2) t.poison }

/-- The queue without its head (R166). -/
def Tile.pop (t : Tile) : Tile :=
  { t with queue := t.queue.tail, poison := (t.poison.filter (fun p => decide (8192 ≤ p.1))).map (fun p => (p.1 - 8192, p.2)) }

/-- Register kinds of a coordinate. -/
def coordReads (c : Coord) : List (Opd × Nat) :=
  (match c.row with | .reg o => [(o, 32)] | .imm _ => []) ++ (match c.col with | .reg o => [(o, 32)] | .imm _ => [])

/-- A coordinate's row or column in lane l (R89). -/
def State.coordVal (s : State) (c : CoordSrc) (l : Nat) : Nat :=
  match c with
  | .reg o => s.get .arith 32 o l
  | .imm n => n

/-- The handles a TLD or TST accepts (R372). -/
def Tile.isBytes (t : Tile) : Bool := t.lvl == .t || t.lvl == .w

/-- The active lanes whose coordinate is out of bounds (R72). -/
def State.outOfBounds (s : State) (act : Word32) (c : Coord) (rows cols : Nat) : List Nat :=
  (lanesOf act).filter (fun l => !(decide (s.coordVal c.row l < rows ∧ s.coordVal c.col l < cols)))

/-- A fault of handle h that every lane of an instruction meets, with what TINFO holds of it (R200). -/
def handleFault (cause h : Nat) : LaneFault × Nat := (⟨cause, 0⟩, h * 2 ^ 32)

/-- A fault in each of the lanes given. -/
def inLanes (f : Option (LaneFault × Nat)) (ls : List Nat) : List (Nat × LaneFault × Nat) :=
  match f with
  | some x => ls.map (fun l => (l, x))
  | none => []

/-- What an instruction with a coordinate faults with in the lanes clean, beside poisoned ones (R198): a handle that it does not accept in
each, or else its bounds, where bound gives the rows and columns (R72). -/
def State.coordFaults (s : State) (c : Coord) (bound : Option (Nat × Nat)) (clean : Word32) : List (Nat × LaneFault × Nat) :=
  match bound with
  | none => inLanes (some (handleFault 0x19 c.h)) (lanesOf clean)
  | some b => inLanes (some (handleFault 0x15 c.h)) (s.outOfBounds clean c b.1 b.2)

/-- The rows, and the columns of n bytes, of the handle that a TLD or TST names (R372). -/
def State.bytesBound (s : State) (h n : Nat) : Option (Nat × Nat) :=
  match s.tile h with
  | some x => if x.isBytes then some (x.rows, x.rb / n) else none
  | none => none

/-! ### Binding -/

/-- TALLOC (R369, R71): of several faults it raises 0x15 before 0x19 before 0x1A (DESIGN CHOICE, assumption 84). -/
def execTalloc (g : Guard) (lvl h rows1 rb1 : Nat) (s : State) : Host.Outcome State Fault Refusal :=
  let len := (Instr.talloc g lvl h rows1 rb1).bytes
  let rows := rows1 + 1
  let rb := 16 * (rb1 + 1)
  let lv := levelOf lvl
  s.issue { Pre.of g len with deps := [.users s.wgKey h] } (fun act t =>
    if !shapeOk lv rows rb then t.tileTrap 0x15 act h
    else if (t.tile h).isSome then t.tileTrap 0x19 act h
    else if !tileFits t.wg.config t.coreTiles lv rows rb then t.tileTrap 0x1A act h
    else ((t.setTile h (.fresh lv rows rb)).wroteTile).advance len)

/-- TFREE (R371, R74): its wait is for the commands that name the handle. -/
def execTfree (g : Guard) (h : Nat) (s : State) : Host.Outcome State Fault Refusal :=
  let len := (Instr.tfree g h).bytes
  s.issue { Pre.of g len with deps := [.users s.wgKey h] } (fun act t =>
    if (t.tile h).isNone then t.tileTrap 0x19 act h
    else ({ t with wg := { t.wg with tiles := Tab.del t.wg.tiles h } }.wroteTile).advance len)

/-- TZERO of a bound handle (R371): its dictionaries stay, with their marks. -/
def Tile.zeroed (t : Tile) : Tile :=
  { t with data := [], md := [], queue := [], poison := t.poison.filter (fun p => decide (dictRow 0 * 8192 ≤ p.1)) }

/-- TZERO. -/
def execTzero (g : Guard) (h : Nat) (s : State) : Host.Outcome State Fault Refusal :=
  let len := (Instr.tzero g h).bytes
  s.issue { Pre.of g len with deps := [.users s.wgKey h] } (fun act t =>
    match t.tile h with
    | none => t.tileTrap 0x19 act h
    | some x => ((t.setTile h x.zeroed).wroteTile).advance len)

/-! ### Elements -/

/-- TLD (R372, R373). A byte that an engine left poisoned poisons the register (DEDUCED, assumption 10). -/
def execTld (g : Guard) (w : Width) (d : Opd) (c : Coord) (s : State) : Host.Outcome State Fault Refusal :=
  let len := (Instr.tld g w d c).bytes
  let n := w.bytes
  s.issue { Pre.of g len with
      reads := coordReads c, writes := [(d, regBits w)], deps := [.writers s.wgKey c.h], access := 7,
      faults := fun t _ clean => t.coordFaults c (t.bytesBound c.h n) clean } (fun act t =>
    match t.tile c.h with
    | none => t.tileTrap 0x19 act c.h
    | some x =>
      if !x.isBytes then t.tileTrap 0x19 act c.h
      else
        match t.outOfBounds act c x.rows (x.rb / n) with
        | l :: r => t.tileTrap 0x15 (maskOf (l :: r)) c.h
        | [] =>
          let at_ := fun l => (t.coordVal c.row l, t.coordVal c.col l * n)
          let u := t.perLane act d (regBits w) (fun l => (Width.extend w (rowBytes (x.row (at_ l).1) (at_ l).2 n), 0))
          (u.poisonDest d (regBits w)
            ((if isScalarDest d then [lowest act] else lanesOf act).map (fun l => (l, x.poisoned (at_ l).1 (at_ l).2 n)))).advance len)

/-- TST (R372, R373). -/
def execTst (g : Guard) (w : Width) (c : Coord) (v : Opd) (s : State) : Host.Outcome State Fault Refusal :=
  let len := (Instr.tst g w c v).bytes
  let n := w.bytes
  s.issue { Pre.of g len with
      reads := (v, regBits w) :: coordReads c, deps := [.users s.wgKey c.h], access := 7,
      faults := fun t _ clean => t.coordFaults c (t.bytesBound c.h n) clean } (fun act t =>
    match t.tile c.h with
    | none => t.tileTrap 0x19 act c.h
    | some x =>
      if !x.isBytes then t.tileTrap 0x19 act c.h
      else
        match t.outOfBounds act c x.rows (x.rb / n) with
        | l :: r => t.tileTrap 0x15 (maskOf (l :: r)) c.h
        | [] =>
          let y := (lanesOf act).foldl (fun y l =>
            Tile.write y (t.coordVal c.row l) (t.coordVal c.col l * n) n (t.get .arith (regBits w) v l)) x
          ((t.setTile c.h y).wroteTile).advance len)

end Sys2Proof.Machine
end

