-- ==== Sys2Proof/Machine/Matrix.lean ====
section
/-!
DEFINITION. The matrix unit and the accumulators (spec/12_matrix_engines.md R159 to R170; spec/06_numbers.md R118;
spec/22_ref_a_c.md R272 to R276; spec/24_ref_g_p.md R340 to R342).
-/
namespace Sys2Proof.Machine

/-! ### Accumulator rows -/

/-- The tile of handle h when it is bound at a level. -/
def State.tileAt (s : State) (lvl : Level) (h : Nat) : Option Tile := (s.tile h).filter (fun t => t.lvl == lvl)

/-- Both accumulators of an FP64 row: hC even, hC and hC + 1 at level A (R162); one accumulator otherwise. -/
def State.accPair (s : State) (b64 : Bool) (h : Nat) : Option (Tile × Tile) :=
  match s.tileAt .a h with
  | none => none
  | some x =>
    if b64 then
      if h % 2 = 0 then (s.tileAt .a (h + 1)).map (fun y => (x, y)) else none
    else some (x, x)

/-- The format of an accumulator row. -/
def accFmt (b64 : Bool) : Fmt := if b64 then fp64 else fp32

/-- Element j of row r (R160, R162). -/
def accElem (b64 : Bool) (xs : Tile × Tile) (r j : Nat) : Nat :=
  if b64 then rowBytes ((if j < 32 then xs.1 else xs.2).row r) (8 * (j % 32)) 8 else rowBytes (xs.1.row r) (4 * j) 4

/-- The elements of row r. -/
def accRow (b64 : Bool) (xs : Tile × Tile) (r : Nat) : List Nat := (List.range 64).map (accElem b64 xs r)

/-- A row of elements as numbers of w bytes, the first lowest. -/
def packRow (w : Nat) : List Nat → Nat
  | [] => 0
  | x :: r => x % 2 ^ (8 * w) + 2 ^ (8 * w) * packRow w r

/-- Stores the elements of row r. -/
def accSetRow (b64 : Bool) (xs : Tile × Tile) (r : Nat) (es : List Nat) : Tile × Tile :=
  if b64 then (xs.1.setRow r (packRow 8 (es.take 32)), xs.2.setRow r (packRow 8 (es.drop 32)))
  else (xs.1.setRow r (packRow 4 es), xs.2)

/-- Stores the accumulators back. -/
def State.setAcc (s : State) (b64 : Bool) (h : Nat) (xs : Tile × Tile) : State :=
  if b64 then (s.setTile h xs.1).setTile (h + 1) xs.2 else s.setTile h xs.1

/-! ### Metadata (R168 to R170) -/

/-- A row's metadata. -/
structure Md where
  nanc : Nat
  bnd : Nat
  mag : Nat
  chk : Nat
deriving DecidableEq, Repr

/-- The fields of the 256 bits of R168. -/
def Md.ofNat (x : Nat) : Md := ⟨x % 2 ^ 32, x / 2 ^ 32 % 2 ^ 64, x / 2 ^ 96 % 2 ^ 64, x / 2 ^ 160 % 2 ^ 64⟩

/-- The 256 bits. -/
def Md.toNat (m : Md) : Nat := m.nanc + 2 ^ 32 * m.bnd + 2 ^ 96 * m.mag + 2 ^ 160 * m.chk

/-- The metadata of row r. -/
def Tile.meta (t : Tile) (r : Nat) : Md := .ofNat (Tab.get 0 t.md r)

/-- Stores the metadata of row r. -/
def Tile.setMeta (t : Tile) (r : Nat) (m : Md) : Tile := { t with md := Tab.set 0 t.md r m.toNat }

/-- An FP64 field plus an exact value, rounded, with the flags of the rounding (R107). -/
def mdAdd (rm : Rm) (x : Nat) (v : FVal) : Nat × Nat := fp64.round rm ((fp64.decode x).add rm v).1

/-- The exact sum of values; rm decides only the sign of a zero. -/
def sumVals (rm : Rm) : List FVal → FVal
  | [] => .fin false 0 0
  | [v] => v
  | v :: r => (v.add rm (sumVals rm r)).1

/-- A value is finite. -/
def FVal.isFin : FVal → Bool
  | .fin _ _ _ => true
  | _ => false

/-- Row r fails its check (R170). The rounding of its sum sets no flag, be it ACCRD or ACCCHK that checks (DESIGN CHOICE, assumption 111). -/
def rowFails (b64 : Bool) (xs : Tile × Tile) (r : Nat) : Bool :=
  let m := xs.1.meta r
  let es := (accRow b64 xs r).map (accFmt b64).decode
  let chk := fp64.decode m.chk
  let bnd := fp64.decode m.bnd
  if FVal.isFin chk && FVal.isFin (fp64.decode m.mag) && FVal.isFin bnd && es.all FVal.isFin then
    let sum := fp64.decode (fp64.round .rne (sumVals .rne es)).1
    (fabs (sum.add .rne chk.negate).1).cmp bnd == .gt
  else false

/-- The magnitude of an element list. -/
def sumAbs (vs : List FVal) : FVal := sumVals .ru (vs.map fabs)

/-- 2^k as an exact value. -/
def pow2 (k : Int) : FVal := .fin false 1 k

/-- The metadata after ACCWR puts new over old (R169), with the flags that the three roundings set (R107) (DEDUCED, assumption 111). -/
def Md.afterWrite (m : Md) (f : Fmt) (old new : Nat) : Md × Nat :=
  let o := f.decode old
  let n := f.decode new
  let chk := mdAdd .rne m.chk (n.add .rne o.negate).1
  let mag := mdAdd .ru m.mag (fabs n)
  let bnd := mdAdd .ru m.bnd ((pow2 (-52)).mul ((fabs n).add .ru (fabs o)).1).1
  ({ m with chk := chk.1, mag := mag.1, bnd := bnd.1 }, chk.2 ||| mag.2 ||| bnd.2)

/-- κ + 2^−52 (R169) for a record, an accumulator format and K products. -/
def kappa (rec : Nat) (f : Fmt) (k : Nat) : FVal :=
  let g := recGroup rec
  let nr := if recPoint rec then 1 else (k + g - 1) / g
  let eps := pow2 (-(f.p : Int))
  let t := match recAlign rec f with
    | none => FVal.fin false 0 0
    | some a => ((FVal.ofInt (min g k)).mul (pow2 (1 - (a : Int)))).1
  (((FVal.ofInt nr).mul eps).1.add .ru (t.add .ru (pow2 (-52))).1).1

/-- 64·K·μp + 64·μo (R169). -/
def flushBound (rec : Nat) (opf f : Fmt) (k : Nat) : FVal :=
  let p := if recProd rec then ((FVal.ofInt (64 * k)).mul (pow2 opf.emin)).1 else .fin false 0 0
  let o := if recOut rec then ((FVal.ofInt 64).mul (pow2 f.emin)).1 else .fin false 0 0
  (p.add .ru o).1

/-- The metadata after a matrix instruction: a are the row's operands, colSum and colAbs the sums over the columns of B for each
k, nans the products replaced (R118, R169); with the flags that the three roundings set in the row's lane (R107) (DEDUCED, assumption
111). -/
def Md.afterProduct (m : Md) (rec : Nat) (opf f : Fmt) (a : List FVal) (colSum colAbs : List FVal) (nans : Nat) : Md × Nat :=
  let chk := mdAdd .rne m.chk (sumVals .rne ((a.zip colSum).map (fun p => (p.1.mul p.2).1)))
  let mag := mdAdd .ru m.mag (sumVals .ru ((a.zip colAbs).map (fun p => ((fabs p.1).mul p.2).1)))
  let bnd := mdAdd .ru m.bnd
    ((((kappa rec f a.length).mul (fp64.decode mag.1)).1.add .ru (flushBound rec opf f a.length)).1)
  (⟨min (m.nanc + nans) 0xFFFFFFFF, bnd.1, mag.1, chk.1⟩, chk.2 ||| mag.2 ||| bnd.2)

/-! ### Operands of the matrix unit -/

/-- K (R159). -/
def mmaK (ty : Ty) : Nat :=
  match ty with
  | .t8 | .t6 => 64
  | .f32 => 16
  | .f64 => 8
  | _ => 32

/-- Bytes of an element (R160). -/
def mmaS (ty : Ty) : Nat :=
  match ty with
  | .t8 | .t6 => 1
  | .f32 => 4
  | .f64 => 8
  | _ => 2

/-- Element k of an A row held in 16 registers (R159). -/
def aElem (ty : Ty) (rec row k : Nat) : FVal := ty.operand rec (rowBytes row (mmaS ty * k) (mmaS ty))

/-- Bytes of a column block in a stored row (R160, R164). -/
def blockBytes (ty : Ty) (pal : Pal) : Nat :=
  match pal with
  | .p4 => 32
  | .p6 => 48
  | _ => 64 * mmaS ty

/-- Element j of column block cb of a stored row (R160, R164). -/
def bElem (ty : Ty) (pal : Pal) (rec : Nat) (w : Tile) (row cb j : Nat) : FVal :=
  let x := w.row row
  let dict := ((Tab.find w.dicts cb).map (·.2)).getD 0
  match pal with
  | .p4 => ty.operand rec (rowBytes dict (2 * (x / 2 ^ (8 * (32 * cb) + 4 * j) % 16)) 2)
  | .p6 => ty.operand rec (rowBytes dict (2 * (x / 2 ^ (8 * (48 * cb) + 6 * j) % 64)) 2)
  | _ => ty.operand rec (rowBytes x (64 * cb * mmaS ty + j * mmaS ty) (mmaS ty))

/-- The W handle holds the dictionary that a palette needs for block cb (R164). -/
def palHeld (pal : Pal) (w : Tile) (cb : Nat) : Bool :=
  match pal with
  | .p4 => (Tab.find w.dicts cb).any (fun d => !d.1)
  | .p6 => (Tab.find w.dicts cb).any (fun d => d.1)
  | _ => true

/-- The B region fits the handle (R160). -/
def regionFits (ty : Ty) (pal : Pal) (w : Tile) (row0 rows cb : Nat) : Bool :=
  decide (row0 + rows ≤ w.rows ∧ blockBytes ty pal * (cb + 1) ≤ w.rb)

/-- The fault of a W handle, if any (R341): cause of the check that fails. -/
def State.wFault (s : State) (ty : Ty) (pal : Pal) (hw row0 rows cb : Nat) : Option Nat :=
  match s.tileAt .w hw with
  | none => some 0x19
  | some w =>
    if !palHeld pal w cb then some 0x19 else if !regionFits ty pal w row0 rows cb then some 0x15 else none

/-- B as a table: for each k, the elements of its row; none stands for a product that a sparse B drops (R166). -/
abbrev BTab := List (List (Option FVal))

/-- B of MMA and MMAG. -/
def denseB (ty : Ty) (pal : Pal) (rec : Nat) (w : Tile) (row0 cb : Nat) : BTab :=
  (List.range (mmaK ty)).map (fun k => (List.range 64).map (fun j => some (bElem ty pal rec w (row0 + k) cb j)))

/-- The positions p0 and p1 of group g and column j of a metadata entry (R166). -/
def sparsePos (e g j : Nat) : Nat × Nat := (e / 2 ^ (4 * (64 * g + j)) % 4, e / 2 ^ (4 * (64 * g + j) + 2) % 4)

/-- Some group of the entry has p0 not below p1. -/
def sparseBad (ty : Ty) (e : Nat) : Bool :=
  (List.range (mmaK ty / 4)).any (fun g => (List.range 64).any (fun j =>
    let p := sparsePos e g j
    decide (p.2 ≤ p.1)))

/-- B of MMAS under a metadata entry. -/
def sparseB (ty : Ty) (pal : Pal) (rec : Nat) (w : Tile) (row0 cb e : Nat) : BTab :=
  (List.range (mmaK ty)).map (fun k => (List.range 64).map (fun j =>
    let p := sparsePos e (k / 4) j
    if k % 4 = p.1 then some (bElem ty pal rec w (row0 + 2 * (k / 4)) cb j)
    else if k % 4 = p.2 then some (bElem ty pal rec w (row0 + 2 * (k / 4) + 1) cb j)
    else none))

/-- A product with its flags and whether .nzc replaced it (R118, R161). -/
def mmaProduct (ty : Ty) (rec : Nat) (nzc : Bool) (a : FVal) (b : Option FVal) : FVal × Nat × Bool :=
  match b with
  | none => (.fin false 0 0, 0, false)
  | some b =>
    if nzc && (a.isNan || b.isNan) then (.fin false 0 0, 0, true)
    else
      let p := a.mul b
      (ty.fmt.flushProd rec p.1, p.2, false)

/-- The operands that the metadata see: NaNs are zero under .nzc, dropped positions are zero (R169). -/
def mdOperand (nzc : Bool) (v : FVal) : FVal := if nzc && v.isNan then .fin false 0 0 else v

/-- The columns of a list of rows. -/
def column (b : BTab) (j : Nat) : List (Option FVal) := b.map (fun r => (r.getD j none))

/-- One row of an accumulator after a product with B: the elements, the flags and the metadata (R161, R169). -/
def mmaRow (ty : Ty) (rec : Nat) (nzc : Bool) (a : List FVal) (b : BTab) (es : List Nat) (m : Md) : List Nat × Nat × Md :=
  let f := (fdotTy ty).fmt
  let cells := es.zipIdx.map (fun e =>
    let ps := (a.zip (column b e.2)).map (fun x => mmaProduct ty rec nzc x.1 x.2)
    let r := contractSum rec f (ps.map (·.1)) (f.decode e.1)
    (r.1, ps.foldl (fun x p => x ||| p.2.1) r.2, (ps.filter (fun p => p.2.2)).length))
  let bs := b.map (fun r => r.map (fun v => mdOperand nzc (v.getD (.fin false 0 0))))
  let m' := m.afterProduct rec ty.fmt f (a.map (mdOperand nzc)) (bs.map (sumVals .rne)) (bs.map sumAbs)
    (cells.map (·.2.2)).sum
  (cells.map (·.1), cells.foldl (fun x c => x ||| c.2.1) m'.2, m'.1)

/-- The rows of the lanes given of accumulator h after a product of vA with B. -/
def State.product (s : State) (lanes : List Nat) (ty : Ty) (nzc : Bool) (h : Nat) (a : Opd) (b : BTab) : State :=
  let b64 := ty == .f64
  match s.accPair b64 h with
  | none => s
  | some xs =>
    let rec_ := s.record
    let (ys, t) := lanes.foldl (fun (st : (Tile × Tile) × State) l =>
      let row := s.get .logic 512 a l
      let av := (List.range (mmaK ty)).map (aElem ty rec_ row)
      let (es, fl, m) := mmaRow ty rec_ nzc av b (accRow b64 st.1 l) (st.1.1.meta l)
      let ys := accSetRow b64 st.1 l es
      ((ys.1.setMeta l m, ys.2), st.2.addFlags l fl)) (xs, s)
    t.setAcc b64 h (if b64 then ys else (ys.1, ys.1))

/-- Handles of an accumulator operand. -/
def accHandles (b64 : Bool) (h : Nat) : List Nat := if b64 then [h, h + 1] else [h]

/-- The waits of a matrix instruction (R152). -/
def State.mmaDeps (s : State) (b64 : Bool) (h : Nat) (ws : List Nat) : List Dep :=
  (accHandles b64 h).map (Dep.users s.wgKey) ++ ws.map (Dep.writers s.wgKey)

/-- Byte b of row r of a W handle is read for a product with column block cb: it lies in the block's part of the B rows, or in the
dictionary that a palette looks the block's elements up in (R160, R164). -/
def readsB (ty : Ty) (pal : Pal) (row0 rows cb r b : Nat) : Bool :=
  decide (row0 ≤ r ∧ r < row0 + rows ∧ blockBytes ty pal * cb ≤ b ∧ b < blockBytes ty pal * (cb + 1)) ||
    (r == dictRow cb && (pal == .p4 || pal == .p6))

/-- The first poison mark among the bytes of a handle that are read; 0 when there is none. -/
def Tile.anyPoison (t : Tile) (reads : Nat → Nat → Bool) : Nat :=
  ((t.poison.find? (fun p => reads (p.1 / 8192) (p.1 % 8192))).map (·.2)).getD 0

/-- The poison that the bytes of a W handle carry that a product with column block cb reads (DEDUCED, assumption 10). -/
def State.wPoison (s : State) (ty : Ty) (pal : Pal) (hw row0 rows cb : Nat) : Nat :=
  ((s.tile hw).map (fun t => t.anyPoison (readsB ty pal row0 rows cb))).getD 0

/-! ### MMA, MMAS, MMAG -/

/-- A fault of the matrix unit in lanes (R200). -/
def State.unitTrap (s : State) (act : Word32) (f : LaneFault × Nat) : State :=
  s.trap f.1.cause act f.1.addr (7 * 2 ^ 20 + f.2)

/-- The consumption of data that are lost, when the mark x is one (R206). -/
def poisonFault (x : Nat) : Option (LaneFault × Nat) := if x = 0 then none else some (⟨markCause x, markAddr x⟩, 0)

/-- What MMA faults with in every lane: its accumulator, its W handle, then poisoned bytes of B or of its dictionary (DEDUCED, assumption 10). -/
def State.mmaFault (s : State) (o : MmaArgs) : Option (LaneFault × Nat) :=
  if (s.accPair (o.ty == .f64) o.hc).isNone then some (handleFault 0x19 o.hc)
  else
    match s.wFault o.ty o.pal o.hw o.row0 (mmaK o.ty) o.cb, s.tile o.hw with
    | some c, _ => some (handleFault c o.hw)
    | none, none => some (handleFault 0x19 o.hw)
    | none, some _ => poisonFault (s.wPoison o.ty o.pal o.hw o.row0 (mmaK o.ty) o.cb)

/-- MMA (R161, R341). Bytes of B, and of its dictionary, that an engine left poisoned are consumed data (DEDUCED, assumption 10). -/
def execMma (o : MmaArgs) (s : State) : Host.Outcome State Fault Refusal :=
  let len := (Instr.mma o).bytes
  let b64 := o.ty == .f64
  s.issue { Pre.of o.g len with
      reads := [(o.a, 512)], deps := s.mmaDeps b64 o.hc [o.hw], access := 7,
      faults := fun t _ clean => inLanes (t.mmaFault o) (lanesOf clean) } (fun act t =>
    match t.mmaFault o, t.tile o.hw with
    | some f, _ => t.unitTrap act f
    | none, some w =>
      ((t.product (lanesOf act) o.ty o.nzc o.hc o.a (denseB o.ty o.pal t.record w o.row0 o.cb)).wroteTile).advance len
    | none, none => t.tileTrap 0x19 act o.hw)

/-- What MMAS faults with in every lane: its accumulator, its W handle and its Q handle, then the entry at the queue's head and poisoned B
rows; an entry that an engine left poisoned is consumed data too (DEDUCED, assumption 10). A fault of hW comes before one of hQ (DESIGN
CHOICE, assumption 129). -/
def State.mmasFault (s : State) (o : MmaArgs) (hq : Nat) : Option (LaneFault × Nat) :=
  if (s.accPair false o.hc).isNone then some (handleFault 0x19 o.hc)
  else
    match s.wFault o.ty o.pal o.hw o.row0 (mmaK o.ty / 2) o.cb, s.tile o.hw, s.tileAt .q hq with
    | some c, _, _ => some (handleFault c o.hw)
    | none, none, _ => some (handleFault 0x19 o.hw)
    | none, _, none => some (handleFault 0x19 hq)
    | none, some _, some q =>
      match q.queue with
      | [] => none
      | e :: _ =>
        let y := q.poisoned 0 0 512
        if y = 0 ∧ sparseBad o.ty e then some (handleFault 0x1C hq)
        else poisonFault (if y = 0 then s.wPoison o.ty o.pal o.hw o.row0 (mmaK o.ty / 2) o.cb else y)

/-- MMAS (R166, R342). -/
def execMmas (o : MmaArgs) (hq : Nat) (s : State) : Host.Outcome State Fault Refusal :=
  let len := (Instr.mmas o hq).bytes
  s.issue { Pre.of o.g len with
      reads := [(o.a, 512)], deps := s.mmaDeps false o.hc [o.hw], access := 7,
      faults := fun t _ clean => inLanes (t.mmasFault o hq) (lanesOf clean) } (fun act t =>
    match t.mmasFault o hq, t.tile o.hw, t.tileAt .q hq with
    | some f, _, _ => t.unitTrap act f
    | none, some w, some q =>
      match q.queue with
      | [] => t.stall [.entry t.wgKey hq]
      | e :: _ =>
        let u := t.setTile hq q.pop
        ((u.product (lanesOf act) o.ty o.nzc o.hc o.a (sparseB o.ty o.pal t.record w o.row0 o.cb e)).wroteTile).advance len
    | none, _, _ => t.tileTrap 0x19 act hq)

/-- The groups of MMAG: for each, its number, its first lane and its count, from the counts (R167). -/
def mmagGroups (counts : List Nat) : List (Nat × Nat × Nat) :=
  (counts.zipIdx.map (fun c => (c.2, (counts.take c.2).sum, c.1))).filter (fun g => g.2.2 != 0)

/-- The count registers from sN. -/
def State.mmagCounts (s : State) (n : Opd) (ng1 : Nat) : List Nat :=
  match n with
  | .s k => (List.range (ng1 + 1)).map (fun i => s.getS (k + i) % 2 ^ 32)
  | _ => []

/-- The scalar registers that MMAG reads. -/
def mmagReads (n : Opd) (ng1 : Nat) : List (Opd × Nat) :=
  match n with
  | .s k => (List.range (ng1 + 1)).map (fun i => (Opd.s (k + i), 32))
  | _ => []

/-- The first group whose W handle fails its checks: cause and handle. -/
def State.mmagFault (s : State) (ty : Ty) (pal : Pal) (hw : Nat) (gs : List (Nat × Nat × Nat)) : Option (Nat × Nat) :=
  gs.findSome? (fun g => (s.wFault ty pal (hw + g.1) 0 (mmaK ty) 0).map (fun c => (c, hw + g.1)))

/-- What MMAG faults with in every lane: its counts, its accumulator, its groups' W handles, then poisoned B rows (DEDUCED, assumption
10). -/
def State.mmagStop (s : State) (ty : Ty) (pal : Pal) (hc hw : Nat) (counts : List Nat) : Option (LaneFault × Nat) :=
  let gs := mmagGroups counts
  if 32 < counts.sum then some (⟨0x1B, 0⟩, 0)
  else if (s.accPair (ty == .f64) hc).isNone then some (handleFault 0x19 hc)
  else
    match s.mmagFault ty pal hw gs with
    | some (c, h) => some (handleFault c h)
    | none => poisonFault (gs.foldl (fun x g => if x = 0 then s.wPoison ty pal (hw + g.1) 0 (mmaK ty) 0 else x) 0)

/-- MMAG (R167, R342). -/
def execMmag (g : Guard) (ty : Ty) (pal : Pal) (nzc : Bool) (hc hw ng1 : Nat) (a n : Opd) (s : State) :
    Host.Outcome State Fault Refusal :=
  let len := (Instr.mmag g ty pal nzc hc hw ng1 a n).bytes
  let b64 := ty == .f64
  let ws := (mmagGroups (s.mmagCounts n ng1)).map (fun x => hw + x.1)
  s.issue { Pre.of g len with
      reads := (a, 512) :: mmagReads n ng1, deps := s.mmaDeps b64 hc ws, access := 7,
      faults := fun t _ clean => inLanes (t.mmagStop ty pal hc hw (t.mmagCounts n ng1)) (lanesOf clean) } (fun act t =>
    let counts := t.mmagCounts n ng1
    match t.mmagStop ty pal hc hw counts with
    | some f => t.unitTrap act f
    | none =>
      let u := (mmagGroups counts).foldl (fun u g =>
        match t.tile (hw + g.1) with
        | some w =>
          u.product ((lanesOf act).filter (fun l => decide (g.2.1 ≤ l ∧ l < g.2.1 + g.2.2))) ty nzc hc a
            (denseB ty pal t.record w 0 0)
        | none => u) t
      u.wroteTile.advance len)

/-! ### Reading and writing accumulators -/

/-- The rows that the active lanes name and that fail their check, and the lanes that name one (R170). -/
def State.failingLanes (s : State) (act : Word32) (b64 : Bool) (xs : Tile × Tile) (c : Coord) : List Nat :=
  (lanesOf act).filter (fun l => rowFails b64 xs (s.coordVal c.row l))

/-- The rows, and cols columns, of the accumulator that an instruction names. -/
def State.accBound (s : State) (b64 : Bool) (h cols : Nat) : Option (Nat × Nat) := (s.accPair b64 h).map (fun _ => (32, cols))

/-- ACCRD, element forms (R273). The check of the rows sets no flag (DESIGN CHOICE, assumption 111). -/
def execAccrd (g : Guard) (b64 : Bool) (d : Opd) (c : Coord) (s : State) : Host.Outcome State Fault Refusal :=
  let len := (Instr.accrd g b64 d c).bytes
  let w := if b64 then 64 else 32
  s.issue { Pre.of g len with
      reads := coordReads c, writes := [(d, w)], access := 7,
      deps := (accHandles b64 c.h).map (Dep.writers s.wgKey),
      faults := fun t _ clean => t.coordFaults c (t.accBound b64 c.h 64) clean } (fun act t =>
    match t.accPair b64 c.h with
    | none => t.tileTrap 0x19 act c.h
    | some xs =>
      match t.outOfBounds act c 32 64, t.failingLanes act b64 xs c with
      | l :: r, _ => t.tileTrap 0x15 (maskOf (l :: r)) c.h
      | [], l :: r => t.trap 0x50 (maskOf (l :: r)) 0 (c.h * 2 ^ 32)
      | [], [] =>
        (t.perLane act d w (fun l => (accElem b64 xs (t.coordVal c.row l) (t.coordVal c.col l), 0))).advance len)

/-- ACCRD.md (R273) (DEDUCED, assumption 60). -/
def execAccrdMd (g : Guard) (d : Opd) (c : Coord) (s : State) : Host.Outcome State Fault Refusal :=
  let len := (Instr.accrdMd g d c).bytes
  s.issue { Pre.of g len with
      reads := coordReads c, writes := [(d, 32)], deps := [.writers s.wgKey c.h], access := 7,
      faults := fun t _ clean => t.coordFaults c (t.accBound false c.h 8) clean } (fun act t =>
    match t.accPair false c.h with
    | none => t.tileTrap 0x19 act c.h
    | some xs =>
      match t.outOfBounds act c 32 8 with
      | l :: r => t.tileTrap 0x15 (maskOf (l :: r)) c.h
      | [] =>
        (t.perLane act d 32 (fun l =>
          (rowBytes (xs.1.meta (t.coordVal c.row l)).toNat (4 * t.coordVal c.col l) 4, 0))).advance len)

/-- One lane's write of ACCWR (R274), with the flags that it sets. -/
def accWrite (b64 : Bool) (xs : Tile × Tile) (r j v : Nat) : (Tile × Tile) × Nat :=
  let m := (xs.1.meta r).afterWrite (accFmt b64) (accElem b64 xs r j) v
  let es := (accRow b64 xs r).set j v
  let ys := accSetRow b64 xs r es
  ((ys.1.setMeta r m.1, ys.2), m.2)

/-- ACCWR (R274). -/
def execAccwr (g : Guard) (b64 : Bool) (c : Coord) (v : Opd) (s : State) : Host.Outcome State Fault Refusal :=
  let len := (Instr.accwr g b64 c v).bytes
  let w := if b64 then 64 else 32
  s.issue { Pre.of g len with
      reads := (v, w) :: coordReads c, access := 7, deps := (accHandles b64 c.h).map (Dep.users s.wgKey),
      faults := fun t _ clean => t.coordFaults c (t.accBound b64 c.h 64) clean } (fun act t =>
    match t.accPair b64 c.h with
    | none => t.tileTrap 0x19 act c.h
    | some xs =>
      match t.outOfBounds act c 32 64 with
      | l :: r => t.tileTrap 0x15 (maskOf (l :: r)) c.h
      | [] =>
        let (ys, u) := (lanesOf act).foldl (fun (p : (Tile × Tile) × State) l =>
          let r := accWrite b64 p.1 (t.coordVal c.row l) (t.coordVal c.col l) (t.get .arith w v l)
          (r.1, p.2.addFlags l r.2)) (xs, t)
        ((u.setAcc b64 c.h ys).wroteTile).advance len)

/-- Row r all zero, with its metadata. -/
def Tile.zeroRow (t : Tile) (r : Nat) : Tile := { t with data := Tab.set 0 t.data r 0, md := Tab.set 0 t.md r 0 }

/-- ACCZ (R275). -/
def execAccz (g : Guard) (b64 : Bool) (h : Nat) (s : State) : Host.Outcome State Fault Refusal :=
  let len := (Instr.accz g b64 h).bytes
  s.issue { Pre.of g len with deps := (accHandles b64 h).map (Dep.users s.wgKey) } (fun act t =>
    match t.accPair b64 h with
    | none => t.tileTrap 0x19 act h
    | some xs =>
      let ys := (lanesOf act).foldl (fun (ys : Tile × Tile) r => (ys.1.zeroRow r, ys.2.zeroRow r)) xs
      ((t.setAcc b64 h ys).wroteTile).advance len)

/-- ACCCHK (R275). -/
def execAccchk (g : Guard) (b64 : Bool) (h : Nat) (s : State) : Host.Outcome State Fault Refusal :=
  let len := (Instr.accchk g b64 h).bytes
  s.issue { Pre.of g len with deps := (accHandles b64 h).map (Dep.writers s.wgKey) } (fun act t =>
    match t.accPair b64 h with
    | none => t.tileTrap 0x19 act h
    | some xs =>
      match (lanesOf act).filter (rowFails b64 xs) with
      | l :: r => t.trap 0x50 (maskOf (l :: r)) 0 (h * 2 ^ 32)
      | [] => t.advance len)

end Sys2Proof.Machine
end

