-- ==== Sys2Proof/Machine/Device.lean ====
section
/-!
DEFINITION. Operations shared by the device's own steps. Each of those steps runs with every fibre, warp and workgroup in the
device's tables (State.across): tokens and the end of commands (R172, R173), engine accesses, and what ends a launch (R213).
-/
namespace Sys2Proof.Machine

/-- An event: it happens to the device with everything in its tables. -/
def State.event (s : State) (f : State → State) : Host.Outcome State Fault Refusal := .next (s.across f)

/-- Changes the device part. -/
def State.onDev (s : State) (f : Dev → Dev) : State := { s with dev := f s.dev }

/-- The keys of a workgroup's fibres. -/
def Dev.fibKeys (d : Dev) (g : Nat) : List Nat := (d.fibs.filter (fun p => p.1 / 256 == g)).map (·.1)
/-- The keys of a workgroup's warps. -/
def Dev.warpKeys (d : Dev) (g : Nat) : List Nat := (d.warps.filter (fun p => p.1 / 64 == g)).map (·.1)

/-! ### Commands (R152, R172, R173) -/

/-- Every command that c comes after has ended. -/
def Dev.cmdReady (d : Dev) (k : Cmd) : Bool :=
  k.after.all (fun a => match Tab.find d.cmds a with | some x => x.stage == .finished | none => true)

/-- The address space of a command (R136, R151). -/
def Cmd.space (k : Cmd) : Space := ⟨k.part, k.s1root, k.priv⟩

/-- The status of a translation fault (R173) (DEDUCED, assumption 38). -/
def XErr.status : XErr → Nat
  | .notPresent => 0x39
  | .permission => 0x3A
  | .stage2 => 0x3B
  | .key => 0x3D

/-! ### What the fault service can map (R212) -/

/-- The address lies in a fibre's local window. -/
def Fib.inWindow (f : Fib) (a : Nat) : Bool := decide (f.lwbase.toNat ≤ a ∧ a < f.lwbase.toNat + f.lwsize.toNat)

/-- A local window of a fibre of the partition holds the address. -/
def Dev.inWindows (d : Dev) (p a : Nat) : Bool :=
  d.fibs.any (fun x =>
    (match Tab.find d.wgs (x.1 / 256) with | some g => g.part == p | none => false) && x.2.inWindow a) ||
  d.saved.any (fun x => x.2.wg.part == p && x.2.fibs.any (fun f => f.2.inWindow a))

/-- The fault service maps pages of the address: a registered region or a local window holds it (R212). -/
def Dev.inRegions (d : Dev) (p a : Nat) : Bool :=
  match Tab.find d.parts p with
  | none => false
  | some q => q.block.dmap.any (fun r => decide (r.1 ≤ a ∧ a < r.1 + r.2)) || d.inWindows p a

/-- The next frame of FPOOL, which is taken (R212, R246). -/
def Dev.takeFrame (d : Dev) (p : Nat) : Option (Nat × Dev) :=
  match Tab.find d.parts p with
  | none => none
  | some q =>
    if (q.framesUsed + 1) * 4096 ≤ q.block.fpSize then
      some (q.block.fpBase + q.framesUsed * 4096, d.updPart p (fun q => { q with framesUsed := q.framesUsed + 1 }))
    else none

/-- Stores n bytes at guest physical address a of a partition; none when they cannot be reached. -/
def Dev.storeGuest (d : Dev) (p n a x : Nat) : Option Dev :=
  match d.translateRange ⟨p, 0, .s⟩ .store n a with
  | .ok ps => some (d.scatter ps x)
  | .error _ => none

/-- The leaf that the fault service writes for a frame: readable and writable by programs, POL 0, no contract stamp (DESIGN CHOICE,
assumption 14). -/
def demandLeaf (frame : Nat) : Nat := frame + 0xF + 2 ^ 52 + 15 * 2 ^ 60

/-- Writes the missing entries of a stage-1 walk down to a leaf for the page of va (R136, R212). An entry that is there but is not valid
(R137) is not the service's to replace, so that it cannot map the page (DEDUCED, assumption 14). Tables that are missing take frames of
FPOOL too, filled with zeros (DESIGN CHOICE, assumption 14). -/
def Dev.mapWalk (d : Dev) (p va : Nat) : (levels : List Nat) → (root : Nat) → Option Dev
  | [], _ => none
  | [sh], root =>
    let i := va / 2 ^ sh % 512
    let at_ := root + 8 * i
    let suit := d.s2root p == 0
    match d.readPte p (root + 8 * (i / 16 * 16)), d.readPte p at_ with
    | .error _, _ | _, .error _ => none
    | .ok e0, .ok e =>
      if bitAt e0 7 then (if pteLeafOk false suit 16 e0 then some d else none)
      else if pteLeafOk false suit sh e then some d
      else if bitAt e 0 then none
      else (d.takeFrame p).bind (fun f => f.2.storeGuest p 8 at_ (demandLeaf f.1))
  | sh :: rest, root =>
    let at_ := root + 8 * (va / 2 ^ sh % 512)
    match d.readPte p at_ with
    | .error _ => none
    | .ok e =>
      if pteTableOk e then d.mapWalk p va rest (pteOA e)
      else if bitAt e 0 then
        (if bitAt e 1 && decide (sh ≤ 30) && pteLeafOk false (d.s2root p == 0) sh e then some d else none)
      else
        ((d.takeFrame p).bind (fun f => (f.2.storeGuest p 4096 f.1 0).bind (fun g => (g.storeGuest p 8 at_ (f.1 + 1)).map (f.1, ·)))).bind
          (fun f => f.2.mapWalk p va rest f.1)

/-- The device with the page of va mapped by the fault service; none when it cannot map it (R212). -/
def Dev.mapPage (d : Dev) (p root va : Nat) : Option Dev :=
  if root ≠ 0 ∧ va < 2 ^ 57 ∧ d.inRegions p va then d.mapWalk p va walkLevels root else none

/-- The fault service can map the page. -/
def Dev.mappable (d : Dev) (p root a : Nat) : Bool := (d.mapPage p root a).isSome

/-- How an engine's accesses come out: done, or waiting for a page (R142). -/
inductive Xfer (α : Type) where
  | ok (x : α)
  | status (st : Nat)
  | waits (a : Nat)

/-- The bytes of n from a that an access reaches before the first that it cannot reach. -/
def Dev.reach (d : Dev) (sp : Space) (acc : Access) (n a : Nat) : List Phys :=
  match d.translateRange sp acc n a with
  | .ok ps => ps
  | .error (_, b) =>
    match d.translateRange sp acc ((b + 2 ^ 64 - a % 2 ^ 64) % 2 ^ 64) a with
    | .ok ps => ps
    | .error _ => []

/-- The translation of n bytes from a for an engine. A read that meets lost data before a byte that it cannot reach ends with 0x3C (R173). -/
def Dev.engineRange (d : Dev) (sp : Space) (acc : Access) (n a : Nat) : Xfer (List Phys) :=
  match d.translateRange sp acc n a with
  | .ok ps => .ok ps
  | .error (x, b) =>
    if acc = .load ∧ (d.reach sp acc n a).any (fun p => d.lost p.pa) = true then .status 0x3C
    else if x = .notPresent ∧ d.mappable sp.part sp.s1root b then .waits b
    else .status x.status

/-- Several ranges of n bytes in transfer order: those before the first that cannot be reached, and what becomes of the transfer
there. -/
def Dev.engineRows (d : Dev) (sp : Space) (acc : Access) (n : Nat) : List Nat → List (List Phys) × Xfer Unit
  | [] => ([], .ok ())
  | a :: r =>
    match d.engineRange sp acc n a with
    | .ok ps =>
      let q := Dev.engineRows d sp acc n r
      (ps :: q.1, q.2)
    | .status st => ([], .status st)
    | .waits b => ([], .waits b)

/-- What a transfer of rows reached of the row at which it ended, after the rows given. -/
def Dev.partRow (d : Dev) (sp : Space) (acc : Access) (n : Nat) (addrs : List Nat) (rows : List (List Phys)) : List Phys :=
  match addrs[rows.length]? with
  | some a => d.reach sp acc n a
  | none => []

/-- Some byte lies in a page stamped for another contract (R129). -/
def stampDiffers (contract : Nat) (ps : List Phys) : Bool := ps.any (fun p => p.stamp != 15 && p.stamp != contract)

/-! ### Fibres that a record released or that fault again -/

/-- A fibre goes on after its service (R210): its splits are as they stood, and the access runs again. -/
def Fib.resume (f : Fib) : Fib := { f with inService := false }

/-- The split whose access faulted: the one the frame names. -/
def Fib.faultSplit (f : Fib) : Nat := f.frame.tsplit.toNat % 64

/-- A fibre with its workgroup and warp, placed or saved. -/
def Dev.standing (d : Dev) (key : Nat) : Option (Fib × Wg × Warp) :=
  match Tab.find d.fibs key, Tab.find d.wgs (key / 256), Tab.find d.warps (key / 4) with
  | some f, some g, some w => some (f, g, w)
  | _, _, _ =>
    (Tab.find d.saved (key / 256)).bind (fun x =>
      match Tab.find x.fibs key, Tab.find x.warps (key / 4) with
      | some f, some w => some (f, x.wg, w)
      | _, _ => none)

/-- A reflected fault (R210): the fibre takes an H-route trap with cause c and the frame it has. Within a handler split it is a
trap inside a handler (R204), reported with the record's data. -/
def Dev.reflect (d : Dev) (key c : Nat) (r : RecData) : Dev :=
  match d.standing key with
  | some (f, g, w) =>
    let f := f.resume
    let inH := f.handler.isSome
    let t : TrapIn :=
      if inH then ⟨c, BitVec.ofNat 32 r.mask, r.addr, r.info, BitVec.ofNat 64 r.pc, 0, 63⟩
      else
        ⟨c, BitVec.ofNat 32 f.frame.tmask.toNat, f.frame.taddr.toNat, f.frame.tinfo.toNat, f.frame.tpc,
          f.faultSplit, f.frame.tsplit.toNat / 64 % 64⟩
    let q := d.takeTrapBy .handler key g w f inH t
    q.1.updFib key (fun _ => q.2)
  | none => d

/-! ### The end of a launch (R213) -/

/-- No workgroup stands on a core. -/
def Dev.empty (d : Dev) (sl c : Nat) : Bool := d.wgs.all (fun g => g.2.slice != sl || g.2.core != c)

/-- A workgroup that has left a core which is now retired resumes on any core of the number, and has none to mark (R17, R227). -/
def Saved.coreRetired (x : Saved) (sl c : Nat) : Saved :=
  if x.wg.slice = sl ∧ x.wg.core = c then
    { x with wg := { x.wg with saving := x.wg.saving.map (fun v => { v with coreGone := true }) } }
  else x

/-- A core that is being retired is left by its last workgroup: the slice's spare takes its number while it is unused, else the number is
missing (R17). The spare then has the table, the store, the generation and the core store configuration that the retired core had (DESIGN
CHOICE, assumption 83). -/
def Dev.vacate (d : Dev) (sl c : Nat) : Dev :=
  let k := d.core sl c
  if !k.retiring || !d.empty sl c then d
  else
    let e : Dev := { d with saved := d.saved.map (fun x => (x.1, x.2.coreRetired sl c)) }
    if (d.slice sl).spareUsed then e.setCore sl c { k with retiring := false, retired := true }
    else (e.setSlice sl { d.slice sl with spareUsed := true }).setCore sl c { k with retiring := false, disagreements := 0 }

/-- Workgroup g is gone: its warps, fibres, commands and handles with it. -/
def Dev.dropWg (d : Dev) (g : Nat) : Dev :=
  let e : Dev :=
    { d with
      fibs := d.fibs.filter (fun p => p.1 / 256 != g),
      warps := d.warps.filter (fun p => p.1 / 64 != g),
      wgs := d.wgs.del g, saved := d.saved.del g,
      cmds := d.cmds.filter (fun p => p.2.wg != g) }
  match Tab.find d.wgs g with
  | some w => e.vacate w.slice w.core
  | none => e

/-- The workgroups of a launch, placed or saved. -/
def Dev.wgsOf (d : Dev) (l : Nat) : List Nat :=
  (d.wgs.filter (fun p => p.2.launch == some l)).map (·.1) ++ (d.saved.filter (fun p => p.2.wg.launch == some l)).map (·.1)

/-- How many workgroups a launch has. -/
def Launch.total (l : Launch) : Nat := l.gx * l.gy * l.gz

/-- The outstanding commands of workgroup g complete with status 0x45 (R173, R213). -/
def Dev.cancelCmds (d : Dev) (g : Nat) : Dev := (d.cmds.filter (fun p => p.2.wg == g)).foldl (fun e c => e.complete c.1 0x45) d

/-- A fatal record ends a launch (R213): every workgroup is stopped, its commands complete with 0x45, unplaced ones are withdrawn, and
the completion word will carry the status. -/
def Dev.abort (d : Dev) (l st : Nat) : Dev :=
  ((d.wgsOf l).foldl (fun e g => (e.cancelCmds g).dropWg g) d).updLaunch l (fun x =>
    { x with status := if x.ending then x.status else st, ending := true, nextWg := x.total, finished := x.total,
             fitFrom := none, reserved := none, hold := false })

/-- A fatal record ends the launch it names, or its fibre's workgroup when it names none (R213). -/
def Dev.abortOf (d : Dev) (r : Rec) : Dev :=
  match r.launch, r.fibs with
  | some l, _ => d.abort l (if r.data.cause = 0x5D then 0x07 else 0x06)
  | none, k :: _ => (d.cancelCmds (k / 256)).dropWg (k / 256)
  | none, [] => d

end Sys2Proof.Machine
end

