-- ==== Sys2Proof/Machine/Engine.lean ====
section
/-!
DEFINITION. Engine commands and their tokens (spec/12_matrix_engines.md R171 to R177; spec/22_ref_a_c.md R292 to R296;
spec/23_ref_d_f.md R300, R301; spec/24_ref_g_p.md R334; spec/25_ref_r_z.md R374, R380, R381; spec/02_device.md R23, R24;
spec/03_execution.md R55, R56), and the steps by which engines take, run and end them.
-/
namespace Sys2Proof.Machine

/-! ### Issuing a command -/

/-- A copy-engine command (R23). -/
def CmdKind.isCopy : CmdKind → Bool
  | .coll _ _ _ _ _ _ _ _ _ _ _ | .enqueue _ _ | .take => false
  | _ => true

/-- Two commands that name a handle which one of them writes (R152). -/
def conflict (x y : CmdKind) : Bool :=
  (cmdWrites x).any (fun h => (cmdWrites y ++ cmdReads y).contains h) || (cmdReads x).any (cmdWrites y).contains

/-- The commands a new one comes after (R152, R172): those of the workgroup with which it conflicts, and the one that its token
register waits for. -/
def State.before (s : State) (kind : CmdKind) (toks : List Nat) : List Nat :=
  (s.dev.cmds.filter (fun c => c.2.wg == s.wgKey && conflict kind c.2.kind)).map (·.1) ++
    toks.filterMap (Tab.find s.fib.pend)

/-- Issues a command: its token registers are marked pending (R12). The issue is a pinning event (R216). -/
def State.command (s : State) (act : Word32) (toks : List Nat) (kind : CmdKind) : State :=
  let (id, t) := s.fresh
  let k : Cmd :=
    { wg := s.wgKey, fib := s.key, tok := toks.headD 0, lanes := act, launch := s.wg.launch, part := s.wg.part,
      s1root := s.space.s1root, priv := s.fib.priv, contract := s.wg.contract, slice := s.wg.slice, core := s.wg.core,
      kind := kind, after := s.before kind toks, stage := .waiting, status := 0, stamp := false, asked := none }
  let u : State :=
    { t with
      dev := { t.dev with cmds := t.dev.cmds.put id k },
      fib := { t.fib with pend := toks.foldl (fun p n => Tab.put p n id) t.fib.pend } }
  u.pin

/-- The engines a partition owns. -/
def Dev.engines (d : Dev) (p : Nat) : Nat := ((d.entry p).map (·.ceng)).getD 0

/-- The number of a scalar register operand. -/
def scalarNo (o : Opd) : List Nat := scalarRegs [(o, 64)]

/-- What a copy-engine command waits for before it issues: in a partition that owns no engine it writes its token register as it issues,
as any instruction that writes it, so that it waits for an earlier command there (R23, R172) (DEDUCED, assumption 99). -/
def State.copyDeps (s : State) (tok : Opd) : List Dep :=
  if s.dev.engines s.wg.part = 0 then (scalarNo tok).map (Dep.sreg s.key) else []

/-- Issues a copy-engine command; a partition that owns no engine completes it at once with 0x46 (R23), which a shadow is to have too
(R226) (DESIGN CHOICE, assumption 28). -/
def State.copyCommand (s : State) (act : Word32) (toks : List Nat) (kind : CmdKind) : State :=
  if s.dev.engines s.wg.part = 0 then
    ({ s with fib := toks.foldl (fun f n => f.settle n 0x46) s.fib }.pin).pushStep 1
  else s.command act toks kind

/-- A scalar operand's value. -/
def State.scalar (s : State) (o : Opd) : Nat := s.get .arith 64 o 0

/-- A rectangle of a tile at a level, or the fault that it raises (R72, R295). -/
def State.regionFault (s : State) (lvl : Level) (h row col rows rb : Nat) : Option Nat :=
  match s.tile h with
  | none => some 0x19
  | some t =>
    if t.lvl != lvl then some 0x19 else if decide (row + rows ≤ t.rows ∧ col + rb ≤ t.rb) then none else some 0x15

/-- CPY (R294, R295). Between tiles, a fault at HT is reported before one at HS (DESIGN CHOICE, assumption 76). -/
def execCpy (o : CpyArgs) (s : State) : Host.Outcome State Fault Refusal :=
  let len := (Instr.cpy o).bytes
  let rows := o.rows1 + 1
  let rb := 16 * (o.rb1 + 1)
  let col := 16 * o.col16
  let t2t := o.a == .zero
  s.issue { Pre.of o.g len with reads := [(o.a, 64)], deps := s.copyDeps o.tok, pins := true, access := 7 } (fun act t =>
    let row2 := o.x % 2 ^ 12
    let col2 := 16 * (o.x / 2 ^ 12)
    match t.regionFault .t o.ht o.row col rows rb,
        (if t2t then t.regionFault .t o.hs row2 col2 rows rb else none) with
    | some c, _ => t.tileTrap c act o.ht
    | none, some c => t.tileTrap c act o.hs
    | none, none =>
      let kind :=
        if t2t then CmdKind.tiles o.ht o.row col o.hs row2 col2 rows rb
        else if o.dirMem then .toMem o.ht o.row col rows rb (16 * o.x) (t.scalar o.a)
        else .toTile o.ht o.row col rows rb (16 * o.x) (t.scalar o.a)
      (t.copyCommand act (scalarNo o.tok) kind).advance len)

/-- CPYG (R294, R295). -/
def execCpyg (o : CpygArgs) (s : State) : Host.Outcome State Fault Refusal :=
  let len := (Instr.cpyg o).bytes
  let rows := o.rows1 + 1
  let rb := 16 * (o.rb1 + 1)
  let col := 16 * o.col16
  s.issue { Pre.of o.g len with reads := [(o.a, 64), (o.i, 64)], deps := s.copyDeps o.tok, pins := true, access := 7 } (fun act t =>
    match t.regionFault .t o.ht o.row col rows rb with
    | some c => t.tileTrap c act o.ht
    | none =>
      (t.copyCommand act (scalarNo o.tok)
        (.gather o.ht o.row col rows rb (16 * o.x) (t.scalar o.a) (t.scalar o.i))).advance len)

/-- CPYQ (R294, R295). -/
def execCpyq (g : Guard) (tok : Opd) (h n1 : Nat) (a : Opd) (s : State) : Host.Outcome State Fault Refusal :=
  let len := (Instr.cpyq g tok h n1 a).bytes
  s.issue { Pre.of g len with reads := [(a, 64)], deps := s.copyDeps tok, pins := true, access := 7 } (fun act t =>
    if (t.tileAt .q h).isNone then t.tileTrap 0x19 act h
    else (t.copyCommand act (scalarNo tok) (.entries h (n1 + 1) (t.scalar a))).advance len)

/-- WLOAD (R381). -/
def execWload (g : Guard) (tok : Opd) (h : Nat) (a : Opd) (s : State) : Host.Outcome State Fault Refusal :=
  let len := (Instr.wload g tok h a).bytes
  s.issue { Pre.of g len with reads := [(a, 64)], deps := s.copyDeps tok, pins := true, access := 7 } (fun act t =>
    if (t.tileAt .w h).isNone then t.tileTrap 0x19 act h
    else (t.copyCommand act (scalarNo tok) (.weights h (t.scalar a))).advance len)

/-- DICT (R300, R301). -/
def execDict (g : Guard) (p6 : Bool) (tok : Opd) (h cb0 n1 : Nat) (a : Opd) (s : State) :
    Host.Outcome State Fault Refusal :=
  let len := (Instr.dict g p6 tok h cb0 n1 a).bytes
  s.issue { Pre.of g len with reads := [(a, 64)], deps := s.copyDeps tok, pins := true, access := 7 } (fun act t =>
    match t.tileAt .w h with
    | none => t.tileTrap 0x19 act h
    | some w =>
      if w.rb / (if p6 then 48 else 32) ≤ cb0 + n1 then t.tileTrap 0x15 act h
      else (t.copyCommand act (scalarNo tok) (.dict h p6 cb0 (n1 + 1) (t.scalar a))).advance len)

/-- COLL (R292, R293): the root and the count come from s[N] (R175), the COLLW value from the partition's register (R177). -/
def execColl (o : CollArgs) (s : State) : Host.Outcome State Fault Refusal :=
  let len := (Instr.coll o).bytes
  let cs := match o.cond with | some (w, v) => [(w, 64), (v, 64)] | none => []
  s.issue { Pre.of o.g len with reads := (o.c, 64) :: (o.src, 64) :: (o.dst, 64) :: (o.n, 64) :: cs, pins := true } (fun act t =>
    let n := t.scalar o.n
    let cond := o.cond.map (fun p => (t.scalar p.1, t.scalar p.2))
    let w := ((Tab.find t.dev.parts t.wg.part).map (·.collw)).getD 1
    (t.command act (scalarNo o.tok)
      (.coll o.op o.red o.ty (t.scalar o.c % 2 ^ 32) (t.scalar o.src) (t.scalar o.dst) (n % 2 ^ 32) (n / 2 ^ 32 % 2 ^ 16)
        cond false w)).advance len)

/-- TOKQ (R374): it never waits for its register. -/
def execTokq (g : Guard) (p : Nat) (tok : Opd) (s : State) : Host.Outcome State Fault Refusal :=
  let len := (Instr.tokq g p tok).bytes
  s.issue (Pre.of g len) (fun act t =>
    let b := (scalarNo tok).all (fun n => (Tab.find t.fib.pend n).isNone)
    (t.perLanePred act p (fun _ => (b, 0))).advance len)

/-- LAUNCH (R55, R334). -/
def execLaunch (g : Guard) (tok a q : Opd) (s : State) : Host.Outcome State Fault Refusal :=
  let len := (Instr.launch g tok a q).bytes
  s.issue { Pre.of g len with reads := [(a, 64), (q, 64)], pins := true } (fun act t =>
    (t.command act (scalarNo tok) (.enqueue (t.scalar a) (t.scalar q))).advance len)

/-- WGTAKE (R56, R380). -/
def execWgtake (g : Guard) (d : Opd) (s : State) : Host.Outcome State Fault Refusal :=
  let len := (Instr.wgtake g d).bytes
  s.issue { Pre.of g len with pins := true } (fun act t =>
    (t.command act ((scalarNo d).map (fun n => [n, n + 1])).flatten .take).advance len)

/-! ### Engines take commands (R23) -/

/-- The copy-engine commands of a partition in a stage, by number. -/
def Dev.copies (d : Dev) (p : Nat) (st : Stage) : List (Nat × Cmd) :=
  d.cmds.filter (fun c => c.2.part == p && c.2.kind.isCopy && c.2.stage == st)

/-- A command that the context engine carries (R220): a COLL; a CPYQ that waits for room in its queue, at an engine or for one (DEDUCED,
assumption 50). One that has ended is not carried: its token receives its status before the save (R219). -/
def Dev.carries (d : Dev) (k : Cmd) : Bool :=
  k.stage != .finished && match k.kind with
  | .coll _ _ _ _ _ _ _ _ _ _ _ => true
  | .entries h left _ =>
    let full := match (Tab.find d.wgs k.wg).bind (fun g => Tab.find g.tiles h) with
      | some t => decide (t.rows ≤ t.queue.length)
      | none => true
    decide (0 < left) && full
  | _ => false

/-- A copy command of a workgroup that is being saved, which is to be carried: it gives its engine up to one that would complete (R219,
R220) (DEDUCED, assumption 50). -/
def Dev.givesWay (d : Dev) (k : Cmd) : Bool :=
  (match Tab.find d.wgs k.wg with | some g => g.saving.isSome | none => false) && k.kind.isCopy && d.carries k

/-- The running commands of a partition that give their engines up. -/
def Dev.yielding (d : Dev) (p : Nat) : List (Nat × Cmd) := (d.copies p .running).filter (fun x => d.givesWay x.2)

/-- Command c may take an engine now: it is the first ready one of its partition, and an engine is free or given up (R23, R219). -/
def Dev.canDispatch (d : Dev) (c : Nat) : Bool :=
  match Tab.find d.cmds c with
  | some k =>
    k.kind.isCopy && k.stage == .waiting && d.cmdReady k && !d.givesWay k &&
      (decide ((d.copies k.part .running).length < d.engines k.part) || !(d.yielding k.part).isEmpty) &&
      (d.copies k.part .waiting).all (fun x => decide (c ≤ x.1) || !d.cmdReady x.2 || d.givesWay x.2)
  | none => false

/-- One of the commands that give their engines up waits again, unless an engine of the partition is free. -/
def Dev.freeEngine (d : Dev) (p : Nat) : Dev :=
  if (d.copies p .running).length < d.engines p then d
  else match d.yielding p with
    | x :: _ => d.updCmd x.1 (fun k => { k with stage := .waiting })
    | [] => d

/-- ENGINE_DISPATCH (R23). -/
def execEngineDispatch (c : Nat) (s : State) : Host.Outcome State Fault Refusal :=
  s.event (fun t =>
    match t.dev.canDispatch c, Tab.find t.dev.cmds c with
    | true, some k => t.onDev (fun d => (d.freeEngine k.part).updCmd c (fun k => { k with stage := .running }))
    | _, _ => t)

/-! ### Transfers -/

/-- What a transfer made of the device and which status its token carries. -/
structure Moved where
  state : State
  status : Nat
  stamp : Bool

/-- The token's status: what the transfer met, with a foreign stamp last (R173). -/
def Moved.code (m : Moved) : Nat := if m.status = 0 ∧ m.stamp then 0x16 else m.status

/-- Stores a tile of a workgroup. -/
def State.putTile (s : State) (g h : Nat) (t : Tile) : State :=
  s.onDev (·.updWg g (fun w => { w with tiles := Tab.put w.tiles h t }))

/-- A row of a tile from memory, with poison marks where data are lost. -/
def Tile.fromMem (t : Tile) (r b n v : Nat) (lost : List (Nat × Nat)) : Tile :=
  let u := t.write r b n v
  { u with poison := lost.foldl (fun p x => Tab.set 0 p (poisonKey r (b + x.1)) x.2) u.poison }

/-- The addresses of a transfer's rows. -/
def rowAddrs (addr pitch rows : Nat) : List Nat := (List.range rows).map (fun i => addr + i * pitch)

/-- Every byte lies below 2^57 and the address is a multiple of 16 (R296). -/
def placeOk (rb : Nat) (addrs : List Nat) : Bool := addrs.all (fun a => a % 16 == 0 && decide (a + rb ≤ 2 ^ 57))

/-- How a transfer of rows ends: with 0x3C when it had met lost data before, else with the status of the row that cannot be reached
(R173). -/
def endStatus (lost : Bool) : Xfer Unit → Nat
  | .status st => if lost then 0x3C else st
  | _ => if lost then 0x3C else 0

/-- Of the rows of n bytes at addrs that command k reads, rows have been reached: a page of them, or of the part reached of the next, holds
a foreign stamp (R129). -/
def Dev.rowsStamp (d : Dev) (k : Cmd) (n : Nat) (addrs : List Nat) (rows : List (List Phys)) : Bool :=
  (d.partRow k.space .load n addrs rows :: rows).any (stampDiffers k.contract)

/-- Rows of memory into a tile, up to the first that cannot be reached; one that had met lost data does not wait for a page (DESIGN CHOICE,
assumption 77). -/
def State.moveIn (s : State) (k : Cmd) (h row col rb : Nat) (addrs : List Nat) : Xfer Moved :=
  match (Tab.find s.dev.wgs k.wg).bind (fun w => Tab.find w.tiles h) with
  | none => .ok ⟨s, 0x38, false⟩
  | some t =>
    let (rows, e) := s.dev.engineRows k.space .load rb addrs
    let xs := (addrs.zip rows).zipIdx
    let lost := fun (x : (Nat × List Phys)) => s.dev.lostBytes x.1 x.2
    match e, xs.any (fun x => !(lost x.1).isEmpty) with
    | .waits b, false => .waits b
    | _, anyLost =>
      let u := xs.foldl (fun t x => Tile.fromMem t (row + x.2) col rb (s.dev.gather x.1.2) (lost x.1)) t
      .ok ⟨s.putTile k.wg h u, endStatus anyLost e, s.dev.rowsStamp k rb addrs rows⟩

/-- The physical bytes of a row that receive poisoned bytes of a tile (R206). -/
def Tile.markedBytes (t : Tile) (r b : Nat) (ps : List Phys) : List Nat :=
  if t.poison.isEmpty then []
  else (ps.zipIdx.filter (fun x => t.poisoned r (b + x.2) 1 != 0)).map (fun x => x.1.pa)

/-- Rows of a tile into memory, rising (R295), up to the first that cannot be reached. Bytes that an engine left poisoned mark the bytes
that they are moved to (DEDUCED, assumption 10). -/
def State.moveOut (s : State) (k : Cmd) (h row col rb : Nat) (addrs : List Nat) : Xfer Moved :=
  match (Tab.find s.dev.wgs k.wg).bind (fun w => Tab.find w.tiles h) with
  | none => .ok ⟨s, 0x38, false⟩
  | some t =>
    let (rows, e) := s.dev.engineRows k.space .store rb addrs
    let marks := fun (x : List Phys × Nat) => t.markedBytes (row + x.2) col x.1
    match e, (rows ++ [s.dev.partRow k.space .store rb addrs rows]).zipIdx.any (fun x => !(marks x).isEmpty) with
    | .waits b, false => .waits b
    | _, anyLost =>
      let u := rows.zipIdx.foldl (fun u x =>
        (u.store x.1 (rowBytes (t.row (row + x.2)) col rb) false).onDev (·.mark (marks x))) s
      .ok ⟨u, endStatus anyLost e, false⟩

/-- A rectangle between tiles, read whole before it is written (R295). -/
def State.moveTiles (s : State) (k : Cmd) (hd rowd cold hs rows2 cols2 rows rb : Nat) : Moved :=
  match (Tab.find s.dev.wgs k.wg).bind (fun w => (Tab.find w.tiles hd).bind (fun x => (Tab.find w.tiles hs).map (fun y => (x, y)))) with
  | none => ⟨s, 0x38, false⟩
  | some (x, y) =>
    let u := (List.range rows).foldl (fun t i =>
      let lost := (List.range rb).filterMap (fun b =>
        let m := y.poisoned (rows2 + i) (cols2 + b) 1
        if m = 0 then none else some (b, m))
      Tile.fromMem t (rowd + i) cold rb (rowBytes (y.row (rows2 + i)) cols2 rb) (if y.poison.isEmpty then [] else lost)) x
    let bad := (List.range rows).any (fun i => y.poisoned (rows2 + i) cols2 rb != 0)
    ⟨s.putTile k.wg hd u, if bad then 0x3C else 0, false⟩

/-- The index words of a gather, with what reading them met: a foreign stamp, lost data. -/
def Dev.gatherIndex (d : Dev) (k : Cmd) (rows idx : Nat) : Xfer (List Nat × Bool × Bool) :=
  if !placeOk (4 * rows) [idx] then .status 0x38
  else
    match d.engineRange k.space .load (4 * rows) idx with
    | .waits b => .waits b
    | .status st => .status st
    | .ok ps =>
      let x := d.gather ps
      .ok ((List.range rows).map (fun i => x / 2 ^ (32 * i) % 2 ^ 32), stampDiffers k.contract ps, !(d.lostBytes idx ps).isEmpty)

/-- Units of 32 bytes that dictionaries take (R165). -/
def dictUnits (ds : Tab (Bool × Nat)) : Nat := (ds.map (fun p => if p.2.1 then 4 else 1)).sum

/-- Dictionary units held on a core apart from the blocks of handle h of workgroup g that are replaced. -/
def Dev.unitsOn (d : Dev) (sl c g h : Nat) (gone : Nat → Bool) : Nat :=
  ((d.wgs.filter (fun p => p.2.slice == sl && p.2.core == c)).map (fun p =>
    (p.2.tiles.map (fun t =>
      dictUnits (if p.1 = g ∧ t.1 = h then t.2.dicts.filter (fun x => !gone x.1) else t.2.dicts))).sum)).sum

/-- Dictionary cb of a handle holds the number v of a transfer in which the bytes given were lost; they carry poison marks (R206). -/
def Tile.putDict (t : Tile) (cb : Nat) (p6 : Bool) (v : Nat) (lost : List (Nat × Nat)) : Tile :=
  let u := t.cleanDict cb
  { u with dicts := Tab.put u.dicts cb (p6, v), poison := lost.foldl (fun p x => Tab.set 0 p (poisonKey (dictRow cb) x.1) x.2) u.poison }

/-- DICT's transfer (R301): dictionaries are replaced, whole, up to the first that cannot be reached. Where the store has no room nothing is
read, and no stamp is met (DESIGN CHOICE, assumption 104). -/
def State.moveDict (s : State) (k : Cmd) (h : Nat) (p6 : Bool) (cb n addr : Nat) : Xfer Moved :=
  let sz := if p6 then 128 else 32
  let named := fun b => decide (cb ≤ b ∧ b < cb + n)
  match (Tab.find s.dev.wgs k.wg).bind (fun w => (Tab.find w.tiles h).map (fun t => (w, t))) with
  | none => .ok ⟨s, 0x38, false⟩
  | some (w, t) =>
    if 512 < s.dev.unitsOn w.slice w.core k.wg h named + n * (if p6 then 4 else 1) then
      let u := (List.range n).foldl (fun (u : Tile) i => u.cleanDict (cb + i)) t
      .ok ⟨s.putTile k.wg h { u with dicts := t.dicts.filter (fun x => !named x.1) }, 0x40, false⟩
    else
      let addrs := rowAddrs addr sz n
      let (rows, e) := s.dev.engineRows k.space .load sz addrs
      let lost := fun (x : Nat × List Phys) => s.dev.lostBytes x.1 x.2
      match e, (addrs.zip rows).any (fun x => !(lost x).isEmpty) with
      | .waits b, false => .waits b
      | _, anyLost =>
        let u := (addrs.zip rows).zipIdx.foldl (fun u x => Tile.putDict u (cb + x.2) p6 (s.dev.gather x.1.2) (lost x.1)) t
        .ok ⟨s.putTile k.wg h u, endStatus anyLost e, s.dev.rowsStamp k sz addrs rows⟩

/-- The whole transfer of a running copy-engine command (R295, R301, R381). A place at or above 2^57 gives 0x38 where R296 says so; for
WLOAD and DICT it is an address that is not present (R134). -/
def State.transfer (s : State) (k : Cmd) : Xfer Moved :=
  match k.kind with
  | .toTile h row col rows rb pitch addr =>
    let as_ := rowAddrs addr pitch rows
    if placeOk rb as_ then s.moveIn k h row col rb as_ else .status 0x38
  | .toMem h row col rows rb pitch addr =>
    let as_ := rowAddrs addr pitch rows
    if placeOk rb as_ then s.moveOut k h row col rb as_ else .status 0x38
  | .tiles hd rowd cold hs rows2 cols2 rows rb => .ok (s.moveTiles k hd rowd cold hs rows2 cols2 rows rb)
  | .gather h row col rows rb pitch addr idx =>
    if addr % 16 ≠ 0 then .status 0x38
    else
      match s.dev.gatherIndex k rows idx with
      | .waits b => .waits b
      | .status st => .ok ⟨s, st, idx % 16 = 0 && stampDiffers k.contract (s.dev.reach k.space .load (4 * rows) idx)⟩
      | .ok (is, stamp, lost) =>
        let as_ := is.map (fun i => addr + i * pitch)
        if lost then .ok ⟨s, 0x3C, stamp⟩
        else if !placeOk rb as_ then .ok ⟨s, 0x38, stamp⟩
        else
          match s.moveIn k h row col rb as_ with
          | .ok m => .ok { m with stamp := m.stamp || stamp }
          | x => x
  | .weights h addr =>
    match (Tab.find s.dev.wgs k.wg).bind (fun w => Tab.find w.tiles h) with
    | none => .status 0x38
    | some t =>
      if addr % 16 = 0 then s.moveIn k h 0 0 t.rb (rowAddrs addr t.rb t.rows) else .status 0x38
  | .dict h p6 cb n addr => if addr % 16 = 0 then s.moveDict k h p6 cb n addr else .status 0x38
  | _ => .ok ⟨s, 0, false⟩

/-- Bytes of an element. -/
def collS (ty : Ty) : Nat := ty.w / 8

/-- The source pages that a COLL of count elements reaches hold a foreign stamp (R129). -/
def Dev.collStamp (d : Dev) (k : Cmd) (ty : Ty) (src count : Nat) : Bool :=
  stampDiffers k.contract (d.reach k.space .load (count * collS ty) src)

/-- A source page that a command has reached before it ends or waits holds a foreign stamp (R129). -/
def Dev.stampMet (d : Dev) (k : Cmd) : Bool :=
  let met := fun n addrs => d.rowsStamp k n addrs (d.engineRows k.space .load n addrs).1
  match k.kind with
  | .toTile _ _ _ rows rb pitch addr => met rb (rowAddrs addr pitch rows)
  | .gather _ _ _ rows rb pitch addr idx =>
    match d.gatherIndex k rows idx with
    | .ok (is, stamp, _) => stamp || met rb (is.map (fun i => addr + i * pitch))
    | _ => stampDiffers k.contract (d.reach k.space .load (4 * rows) idx)
  | .entries _ _ addr => stampDiffers k.contract (d.reach k.space .load 512 addr)
  | .weights h addr =>
    match (Tab.find d.wgs k.wg).bind (fun w => Tab.find w.tiles h) with
    | some t => met t.rb (rowAddrs addr t.rb t.rows)
    | none => false
  | .dict _ p6 _ n addr => met (if p6 then 128 else 32) (rowAddrs addr (if p6 then 128 else 32) n)
  | .coll _ _ ty _ src _ count _ _ started _ => started && d.collStamp k ty src count
  | .toMem _ _ _ _ _ _ _ | .tiles _ _ _ _ _ _ _ _ | .enqueue _ _ | .take => false

/-- A page that the fault service is to map for an engine: a record with no fibre of its own (R142, R212). It goes to the trap queue of the
slice that issued the command, a COLL's too, whichever engine runs it (DESIGN CHOICE, assumption 75). -/
def Dev.askPage (d : Dev) (k : Cmd) (a : Nat) : Dev :=
  d.raise k.slice
    ⟨{ pc := 0, addr := pageOf a, info := 0, mask := 0, split := 0, cause := 0x10, kind := 1,
       loc := k.slice + k.core * 2 ^ 4 + k.part * 2 ^ 17, lid := d.lid k.launch, part := k.part }, none, [], k.launch, false⟩

/-- A record for the page is already out. -/
def Dev.pageAsked (d : Dev) (p a : Nat) : Bool :=
  d.slices.any (fun x => (x.2.waiting ++ x.2.live.vals).any (fun r =>
    r.data.kind == 1 && !r.answered && r.data.cause == 0x10 && r.data.addr == pageOf a && r.data.part == p))

/-- Command c waits for a page under a stage-1 root: it asks for it unless that has been done. -/
def Dev.awaitIn (d : Dev) (c : Nat) (k : Cmd) (root a : Nat) : Dev :=
  (if d.pageAsked k.part a then d else d.askPage k a).updCmd c (fun k => { k with asked := some (pageOf a), askedRoot := root })

/-- Command c waits for a page of its own address space. -/
def Dev.await (d : Dev) (c : Nat) (k : Cmd) (a : Nat) : Dev := d.awaitIn c k k.s1root a

/-- Command c goes on: it waits for no page any more (R142). -/
def Dev.goesOn (d : Dev) (c : Nat) : Dev := d.updCmd c Cmd.goesOn

/-- Notes on the command that it met a foreign stamp, then ends it. -/
def Dev.finish (d : Dev) (c : Nat) (stamp : Bool) (st : Nat) : Dev :=
  (d.updCmd c (fun k => { k with stamp := k.stamp || stamp })).complete c st

/-- The end of a running copy-engine command, for commands that move all their data at once. -/
def State.finishCopy (s : State) (c : Nat) (k : Cmd) : State :=
  match s.transfer k with
  | .waits a => s.onDev (·.await c k a)
  | .status st => s.onDev (·.complete c st)
  | .ok m => m.state.onDev (·.finish c m.stamp m.code)

/-- ENGINE_COMMAND_COMPLETE (R171, R173). -/
def execEngineCommandComplete (c : Nat) (s : State) : Host.Outcome State Fault Refusal :=
  s.event (fun t =>
    match Tab.find t.dev.cmds c with
    | some k =>
      if k.stage != .running then
        (if k.kind.isCopy && k.stage == .waiting && t.dev.engines k.part == 0 then t.onDev (·.complete c 0x46) else t)
      else
        match k.kind with
        | .entries _ left _ => if left = 0 then t.onDev (·.complete c (if k.stamp then 0x16 else 0)) else t
        | .coll _ _ _ _ _ _ _ _ _ _ _ | .enqueue _ _ | .take => t
        | _ => t.finishCopy c k
    | none => t)

/-- CPYQ_APPEND (R171): the next entry is appended when the queue has room; one whose data are lost carries its marks and ends the command
(R206). -/
def State.appendEntry (s : State) (c : Nat) (k : Cmd) (h left addr : Nat) : State :=
  match (Tab.find s.dev.wgs k.wg).bind (fun w => Tab.find w.tiles h) with
  | none => s
  | some t =>
    if !placeOk (512 * left) [addr] then s.onDev (·.complete c 0x38)
    else if t.rows ≤ t.queue.length then s
    else
      match s.dev.engineRange k.space .load 512 addr with
      | .waits a => s.onDev (·.await c k a)
      | .status st => s.onDev (·.finish c (stampDiffers k.contract (s.dev.reach k.space .load 512 addr)) st)
      | .ok ps =>
        let lost := s.dev.lostBytes addr ps
        let u := (s.putTile k.wg h (t.append (s.dev.gather ps) lost)).onDev (·.updCmd c (fun k =>
          { k.goesOn with kind := .entries h (left - 1) (addr + 512), stamp := k.stamp || stampDiffers k.contract ps }))
        if lost.isEmpty then u else u.onDev (·.complete c 0x3C)

/-- CPYQ_APPEND. -/
def execCpyqAppend (c : Nat) (s : State) : Host.Outcome State Fault Refusal :=
  s.event (fun t =>
    match Tab.find t.dev.cmds c with
    | some k =>
      match k.stage, k.kind with
      | .running, .entries h left addr => if left = 0 then t else t.appendEntry c k h left addr
      | _, _ => t
    | none => t)

/-! ### Collectives (R175 to R177, R293) -/

/-- The key of a communicator of a partition. -/
def commKey (p id : Nat) : Nat := id * 16 + p

/-- Elements of this member's destination (R293). -/
def collOut (op : CollOp) (count nranks : Nat) : Nat :=
  match op with
  | .redscat => count / nranks
  | .allgat => count * nranks
  | _ => count

/-- The operand checks of R293, in order; 0 when all pass. -/
def Dev.collCheck (d : Dev) (part : Nat) (op : CollOp) (ty : Ty) (id src dst count root : Nat) (cond : Option (Nat × Nat)) : Nat :=
  if src % 16 ≠ 0 ∨ dst % 16 ≠ 0 ∨ (cond.map (fun c => c.1 % 8)).getD 0 ≠ 0 then 0x38
  else if count = 0 then 0x41
  else
    match Tab.find d.comms (commKey part id) with
    | none => 0x42
    | some m =>
      if m.status = 0x44 then 0x44
      else if m.status ≠ 0 then 0x42
      else
        let ns := count * collS ty
        let nd := collOut op count m.nranks * collS ty
        let apart := decide (src + ns ≤ dst ∨ dst + nd ≤ src)
        if (op = .redscat ∧ count % m.nranks ≠ 0) ∨ (op = .bcast ∧ m.nranks ≤ root) ∨ (!apart ∧ src ≠ dst) ∨
            (src = dst ∧ (op = .redscat ∨ op = .allgat)) then 0x41
        else 0

/-- The start condition holds: the word, read by a strong load, is at least the value (R176); a fault gives its status. -/
def Dev.condMet (d : Dev) (k : Cmd) (cond : Option (Nat × Nat)) : Xfer Bool :=
  match cond with
  | none => .ok true
  | some (w, v) =>
    match d.engineRange k.space .load 8 w with
    | .waits a => .waits a
    | .status st => .status st
    | .ok ps => if (d.lostBytes w ps).isEmpty then .ok (decide (v ≤ d.gather ps)) else .status 0x3C

/-- An earlier COLL on the same communicator has not ended: the home engine runs them in order, one at a time (R175, R293). One that ended
while its workgroup was saved counts no more (R220). COLLs with no order between them reach the engine in the order of their issue (DESIGN
CHOICE, assumption 108). -/
def Dev.collBehind (d : Dev) (c : Nat) (part id : Nat) : Bool :=
  d.cmds.any (fun x => match x.2.kind with
    | .coll _ _ _ id2 _ _ _ _ _ _ _ => decide (x.1 < c) && x.2.part == part && id2 == id && x.2.stage != .finished
    | _ => false)

/-- COLL_START_POLL (R176, R293): the home engine takes a COLL that nothing holds back, checks its operands and its start
condition, and starts it. -/
def execCollStartPoll (c : Nat) (s : State) : Host.Outcome State Fault Refusal :=
  s.event (fun t =>
    match Tab.find t.dev.cmds c with
    | some k =>
      match k.kind with
      | .coll op red ty id src dst count root cond false w =>
        if !t.dev.cmdReady k || k.stage == .finished || t.dev.collBehind c k.part id then t
        else
          let st := t.dev.collCheck k.part op ty id src dst count root cond
          if st ≠ 0 then t.onDev (·.complete c st)
          else
            match t.dev.condMet k cond with
            | .waits a => t.onDev (·.await c k a)
            | .status x => t.onDev (·.complete c x)
            | .ok false => t.onDev (·.goesOn c)
            | .ok true =>
              t.onDev (·.updCmd c (fun k =>
                let y := k.goesOn
                { y with kind := .coll op red ty id src dst count root cond true w,
                         stage := if k.stage = .waiting then .running else k.stage }))
      | _ => t
    | none => t)

/-- The elements of a contribution of bytes as numbers. -/
def collElems (ty : Ty) (bytes : List Nat) : List Nat :=
  let n := collS ty
  (List.range (bytes.length / n)).map (fun i =>
    ((bytes.drop (n * i)).take n).foldr (fun b x => b + 256 * x) 0)

/-- The reduction of one element over the ranks (R131, R175). -/
def collReduce (rec : Nat) (red : CollRed) (ty : Ty) (xs : List Nat) : Nat :=
  match xs with
  | [] => 0
  | x :: r =>
    if ty.isInt then
      match red with
      | .max => r.foldl (fun a b => if ty.intVal a < ty.intVal b then b else a) x
      | .min => r.foldl (fun a b => if ty.intVal b < ty.intVal a then b else a) x
      | _ => xs.sum % 2 ^ ty.w
    else
      match red with
      | .max | .min =>
        let f := fp2 ty rec .rne (fminmax (red == .max))
        r.foldl (fun a b => (f a b).1) (f x x).1
      | _ => (contractSum rec ty.fmt (xs.map (ty.operand rec)) (.fin true 0 0)).1

/-- The contribution of every rank, this member's own from memory. -/
def collAll (nranks rank : Nat) (mine : List Nat) (peers : List (Nat × List Nat)) : List (List Nat) :=
  (List.range nranks).map (fun r => if r = rank then mine else ((peers.find? (fun p => p.1 == r)).map (·.2)).getD [])

/-- The numbers that this member's destination receives (R175). -/
def collResult (rec : Nat) (op : CollOp) (red : CollRed) (ty : Ty) (count root rank nranks : Nat) (all : List (List Nat)) :
    List Nat :=
  let el := fun r i => (all.getD r []).getD i 0
  match op with
  | .allred => (List.range count).map (fun i => collReduce rec red ty ((List.range nranks).map (fun r => el r i)))
  | .redscat =>
    let n := count / nranks
    (List.range n).map (fun i => collReduce rec red ty ((List.range nranks).map (fun r => el r (rank * n + i))))
  | .allgat => ((List.range nranks).map (fun r => (List.range count).map (fun i => el r i))).flatten
  | .bcast => (List.range count).map (fun i => el root i)

/-- The statuses that a member can find, apart from a foreign stamp, so that every member's token carries it (R173, R177). -/
def collBad (st : Nat) : Bool := decide ((0x38 ≤ st ∧ st ≤ 0x3D) ∨ (0x41 ≤ st ∧ st ≤ 0x45))

/-- The elements of this member's destination that come from its own elements given (R175). -/
def collFrom (op : CollOp) (count root rank nranks : Nat) (own : Nat → Bool) : Nat → Bool :=
  match op with
  | .allred => own
  | .redscat => fun i => own (rank * (count / nranks) + i)
  | .allgat => fun i => i / count == rank && own (i % count)
  | .bcast => fun i => rank == root && own i

/-- A started collective finishes (R177); bad is the status that another member has found, 0 when none has. It reads its source before it
writes its destination, whose bytes made of lost data, or all of them where another member's are lost, take poison marks (R206) (DEDUCED,
assumption 87). Under .bcast a member that is not the root reads its own source too, with its faults, lost data and stamp (DESIGN CHOICE,
assumption 130). -/
def State.finishColl (s : State) (c : Nat) (k : Cmd) (op : CollOp) (red : CollRed) (ty : Ty) (id src dst count root : Nat)
    (peers : List (Nat × List Nat)) (bad : Nat) : State :=
  match Tab.find s.dev.comms (commKey k.part id) with
  | none => s.onDev (·.complete c 0x42)
  | some m =>
    let ns := count * collS ty
    let nd := collOut op count m.nranks * collS ty
    let stamp := s.dev.collStamp k ty src count
    match s.dev.engineRange k.space .load ns src, s.dev.engineRange k.space .store nd dst with
    | .waits a, _ => s.onDev (·.await c k a)
    | .status st, _ => s.onDev (·.finish c stamp st)
    | .ok ps, .waits a =>
      if bad = 0x3C ∨ s.dev.lostBytes src ps ≠ [] then s.onDev (·.finish c stamp 0x3C) else s.onDev (·.await c k a)
    | .ok ps, .status st => s.onDev (·.finish c stamp (if bad = 0x3C ∨ s.dev.lostBytes src ps ≠ [] then 0x3C else st))
    | .ok ps, .ok qs =>
      let x := s.dev.gather ps
      let mine := collElems ty ((leBytes ns x).map BitVec.toNat)
      let all := collAll m.nranks m.rank mine (peers.map (fun p => (p.1, collElems ty p.2)))
      let rec_ := s.dev.flash.contracts.getD m.contract 0
      let out := collResult rec_ op red ty count root m.rank m.nranks all
      let u := s.store qs (packRow (collS ty) out) false
      let own := (s.dev.lostBytes src ps).map (fun b => b.1 / collS ty)
      let from_ := fun i => bad == 0x3C || collFrom op count root m.rank m.nranks own.contains i
      let marks := (qs.zipIdx.filter (fun q => from_ (q.2 / collS ty))).map (fun q => q.1.pa)
      let lost := bad == 0x3C || !own.isEmpty
      let v := if lost then u.onDev (·.mark marks) else u
      v.onDev (·.finish c stamp (if lost then 0x3C else if stamp || bad == 0x16 then 0x16 else 0))

/-- COLL_COMPLETE (R177): peers are the other members' contributions; bad is the status that another member has found, or 0x43 or 0x44 when
the engines found that as it ran. A number that is no such status says nothing. -/
def execCollComplete (c : Nat) (peers : List (Nat × List Nat)) (bad : Nat) (s : State) : Host.Outcome State Fault Refusal :=
  s.event (fun t =>
    match Tab.find t.dev.cmds c with
    | some k =>
      match k.kind with
      | .coll op red ty id src dst count root _ true _ =>
        if k.stage == .finished then t
        else if bad = 0 ∨ bad = 0x16 ∨ bad = 0x3C then t.finishColl c k op red ty id src dst count root peers bad
        else if collBad bad then t.onDev (·.finish c (t.dev.collStamp k ty src count) bad)
        else t
      | _ => t
    | none => t)

/-! ### LAUNCH and WGTAKE at the distributor (R55, R56) -/

/-- Where queue q belongs: its partition and its descriptor, when it has one and is valid (R246). -/
def Dev.queueDesc (d : Dev) (q : Nat) : Option (Nat × QDesc) :=
  d.parts.findSome? (fun p =>
    if p.2.entry.qfirst ≤ q ∧ q < p.2.entry.qfirst + p.2.entry.qquota then
      match Tab.find p.2.block.queues (q - p.2.entry.qfirst) with
      | some x => if x.valid then some (p.1, x) else none
      | none => none
    else none)

/-- Records available and not read (R34). -/
def Queue.waiting (q : Queue) : Nat := (q.tail + 2 ^ 32 - q.head) % 2 ^ 32

/-- The space of a queue's ring, records and words (R246, R385). -/
def queueSpace (p : Nat) (x : QDesc) : Space := ⟨p, x.s1root, .u⟩

/-- The enqueue of a LAUNCH (R55). -/
def State.enqueue (s : State) (c : Nat) (k : Cmd) (addr q : Nat) : State :=
  let fail := fun st => s.onDev (·.complete c st)
  match (if q / 2 ^ 8 = 0 then s.dev.queueDesc q else none) with
  | none => fail 0x3E
  | some (p, x) =>
    if p ≠ k.part then fail 0x3E
    else if addr % 128 ≠ 0 then fail 0x38
    else
      match s.dev.engineRange k.space .load 128 addr with
      | .waits a => s.onDev (·.await c k a)
      | .status st => fail st
      | .ok ps =>
        if !(s.dev.lostBytes addr ps).isEmpty then fail 0x3C
        else
          let y := s.dev.queue q
          if y.waiting = 2 ^ x.log2n then fail 0x3F
          else
            match s.dev.engineRange (queueSpace p x) .store 128 (x.base + y.tail % 2 ^ x.log2n * 128) with
            | .waits a => s.onDev (·.awaitIn c k x.s1root a)
            | .status st => fail st
            | .ok qs =>
              let u := s.store qs (s.dev.gather ps) false
              u.onDev (fun d => (d.setQueue q { y with tail := (y.tail + 1) % 2 ^ 32 }).complete c 0)

/-- LAUNCH_TOKEN_COMPLETE (R55). -/
def execLaunchTokenComplete (c : Nat) (s : State) : Host.Outcome State Fault Refusal :=
  s.event (fun t =>
    match Tab.find t.dev.cmds c with
    | some k =>
      match k.kind with
      | .enqueue addr q => if t.dev.cmdReady k && k.stage != .finished then t.enqueue c k addr q else t
      | _ => t
    | none => t)

/-- The pair that WGTAKE returns, and the launch afterwards (R56). -/
def Launch.take (l : Launch) : (Nat × Nat) × Launch :=
  if l.nextWg < l.total then
    let n := l.nextWg
    ((n % l.gx + 2 ^ 32 * (n / l.gx % l.gy), n / (l.gx * l.gy)),
      { l with nextWg := n + 1, finished := l.finished + 1, fitFrom := none, reserved := none })
  else ((0, 2 ^ 63), l)

/-- WGTAKE_ANSWER (R56). -/
def execWgtakeAnswer (c : Nat) (s : State) : Host.Outcome State Fault Refusal :=
  s.event (fun t =>
    match Tab.find t.dev.cmds c with
    | some k =>
      match k.kind with
      | .take =>
        if !t.dev.cmdReady k || !t.dev.queueRoom k.fib then t
        else
          let r := match k.launch.bind (Tab.find t.dev.launches) with
            | some l => l.take.1
            | none => (0, 2 ^ 63)
          t.onDev (fun d =>
            let d := match k.launch with | some l => d.updLaunch l (fun x => x.take.2) | none => d
            ({ d with cmds := d.cmds.del c }.updFib k.fib (fun f =>
              (f.settleFrom c k.tok r.1).settleFrom c (k.tok + 1) r.2)).receive k.fib)
      | _ => t
    | none => t)

end Sys2Proof.Machine
end

