-- ==== Sys2Proof/Machine/Control.lean ====
section
/-!
DEFINITION. Control flow, barriers, the SOS word and rewind points (spec/03_execution.md R42 to R54; spec/05_encoding.md R88, R91;
spec/13_program_allreduce.md R178 to R180; spec/17_preempt_reliability.md R214 to R216, R223; spec/18_abi.md R234, R237;
spec/22_ref_a_c.md R281 to R283, R286, R288; spec/23_ref_d_f.md R302, R305; spec/24_ref_g_p.md R349; spec/25_ref_r_z.md R354,
R383).
-/
namespace Sys2Proof.Machine

/-! ### Branches -/

/-- The address a branch's OFF names: 4 × OFF from its own address, modulo 2^64 (R88, R286). -/
def State.offTarget (s : State) (off : Nat) : Word64 := s.split.pc + BitVec.ofInt 64 (4 * toSigned 24 off)

/-- The address behind the branch. -/
def State.behind (s : State) : Word64 := s.split.pc + 8

/-- The lanes of the split that are not active. -/
def State.others (s : State) (act : Word32) : Word32 := s.split.mask &&& ~~~ act

/-- A group of lanes, none when it is empty. -/
def groupAt (pc : Word64) (m : Word32) : List (Word64 × Word32) := if m = 0 then [] else [(pc, m)]

/-- v30 in each active lane receives the low half of the address behind the call (R234). -/
def State.link (s : State) (act : Word32) : State :=
  (lanesOf act).foldl (fun t l => t.put 32 (.v 30) l (s.behind.toNat % 2 ^ 32)) s


/-- The branch that ends recipe code: an unguarded BRA to the PPT (R223). -/
def State.endsRecipe (s : State) (g : Guard) (off : Nat) : Bool :=
  g == .always && s.fib.recipe == some (s.offTarget off)

/-- The recipe is over. -/
def State.leaveRecipe (s : State) : State :=
  if s.inRecipe then { s with fib := { s.fib with recipe := none } } else s

/-- BRA (R286); in recipe code only the one that ends it (R223). -/
def execBra (g : Guard) (h : Hints) (off : Nat) (s : State) : Host.Outcome State Fault Refusal :=
  s.issue { Pre.of g (Instr.bra g h off).bytes with illegal := s.inRecipe && !s.endsRecipe g off } (fun act t =>
    t.branch act State.leaveRecipe (groupAt (t.offTarget off) act ++ groupAt t.behind (t.others act)))

/-- CALL (R234, R286). -/
def execCall (g : Guard) (h : Hints) (off : Nat) (s : State) : Host.Outcome State Fault Refusal :=
  s.issue { Pre.of g (Instr.call g h off).bytes with writes := [(.v 30, 32)], illegal := s.inRecipe } (fun act t =>
    t.branch act (fun u => u.link act) (groupAt (t.offTarget off) act ++ groupAt t.behind (t.others act)))

/-- n bytes read as instruction memory (R237), or the fault. -/
def State.readCode (s : State) (n a : Nat) : Except LaneFault Nat :=
  match s.dev.translateRange s.space .fetch n a with
  | .error x => .error ⟨x.1.cause, x.2⟩
  | .ok ps =>
    match (s.dev.lostBytes a ps).head? with
    | some x => .error ⟨markCause x.2, a + x.1⟩
    | none => .ok (s.dev.gather ps)

/-- The entries of a permitted-target table, n of them in the number x. -/
def tableEntries (x : Nat) : (n : Nat) → List Nat
  | 0 => []
  | n + 1 => x % 2 ^ 64 :: tableEntries (x / 2 ^ 64) n

/-- A list rises strictly. -/
def rises : List Nat → Bool
  | x :: y :: r => decide (x < y) && rises (y :: r)
  | _ => true

/-- The permitted-target table at a (R237): its entries, none when it is not well formed, or the fault of reading it. -/
def State.targetTable (s : State) (a : Nat) : Except LaneFault (Option (List Nat)) :=
  match s.readCode 8 a with
  | .error x => .error x
  | .ok h =>
    let n := h % 2 ^ 32
    if n = 0 ∨ 65536 < n ∨ h / 2 ^ 32 ≠ 0 then .ok none
    else
      match s.readCode (8 * n) (a + 8) with
      | .error x => .error x
      | .ok x => let es := tableEntries x n; .ok (if rises es then some es else none)

/-- The active lanes grouped by table entry, entries rising (R43, R237). -/
def groupsBy (entries : List Nat) (act : Word32) (target : Nat → Nat) : List (Word64 × Word32) :=
  (entries.map (fun e => groupAt (BitVec.ofNat 64 e) (maskOf ((lanesOf act).filter (fun l => target l == e))))).flatten

/-- BRX and CALLX: the targets checked against the table, then pre and the branch (R237, R288). -/
def State.indirect (s : State) (act : Word32) (t : Opd) (off : Nat) (pre : State → State) : State :=
  match s.targetTable (s.offTarget off).toNat with
  | .error x => s.trapLanes 4 (some act) [(lowest act, x)]
  | .ok none => s.trap 0x0A act 0 0
  | .ok (some es) =>
    let target := s.get .arith 64 t
    let bad := (lanesOf act).filter (fun l => !es.contains (target l))
    if bad ≠ [] then s.trap 0x0A (maskOf bad) 0 0
    else s.branch act pre (groupsBy es act target ++ groupAt s.behind (s.others act))

/-- BRX (R288). -/
def execBrx (g : Guard) (h : Hints) (t : Opd) (off : Nat) (s : State) : Host.Outcome State Fault Refusal :=
  s.issue { Pre.of g (Instr.brx g h t off).bytes with reads := [(t, 64)], illegal := s.inRecipe } (fun act u =>
    u.indirect act t off id)

/-- CALLX (R234, R288). -/
def execCallx (g : Guard) (h : Hints) (t : Opd) (off : Nat) (s : State) : Host.Outcome State Fault Refusal :=
  s.issue { Pre.of g (Instr.callx g h t off).bytes with
      reads := [(t, 64)], writes := [(.v 30, 32)], illegal := s.inRecipe } (fun act u =>
    u.indirect act t off (fun v => v.link act))

/-- Where RET sends lane l (R234): the upper address bits are those of the RET. -/
def State.returnAddress (s : State) (l : Nat) : Nat :=
  bitsOf s.split.pc.toNat 32 25 * 2 ^ 32 + s.get .arith 32 (.v 30) l

/-- RET (R234, R354): groups by rising address, inactive lanes at the address behind (R43). -/
def execRet (g : Guard) (h : Hints) (s : State) : Host.Outcome State Fault Refusal :=
  s.issue { Pre.of g (Instr.ret g h).bytes with reads := [(.v 30, 32)], illegal := s.inRecipe } (fun act t =>
    let target := fun l => if act.getLsbD l then t.returnAddress l else t.behind.toNat
    let es := sortBy id (((lanesOf t.split.mask).map target).eraseDups)
    t.branch act id (groupsBy es t.split.mask target))

/-! ### Barriers -/

/-- The fibres of the current workgroup, the current one too. -/
def State.wgFibs (s : State) : List (Nat × Fib) := (s.key, s.fib) :: s.dev.fibs.filter (fun p => p.1 / 256 == s.wgKey)

/-- A barrier-waiting split at barrier c (the state code of R46 and the number) becomes ready. -/
def SplitSt.release (c : Nat × Nat) (x : SplitSt) : SplitSt :=
  if 3 ≤ x.st.code.1 ∧ x.st.code = c then { x with st := .ready } else x

/-- The splits that wait at a barrier become ready, and those of other fibres that now stand together fuse (R44, R178, R282). A frozen
split becomes ready underneath, where R51 returns it to the state it was frozen in (DESIGN CHOICE, assumption 70). -/
def State.release (s : State) (keys : List Nat) (c : Nat × Nat) : State :=
  let d : Dev := { s.dev with fibs := s.dev.fibs.map (fun p =>
      if keys.contains p.1 then (p.1, p.2.mapSplits (SplitSt.release c)) else p) }
  { s with
    fib := if keys.contains s.key then s.fib.mapSplits (SplitSt.release c) else s.fib,
    dev := keys.foldl Dev.settleFib d }

/-- Spilled splits of the warps of these fibres return to entries that have become free (R46). -/
def State.refill (s : State) (keys : List Nat) : State :=
  let warps := (keys.map (· / 4)).eraseDups
  if s.fib.spilled.isEmpty ∧ warps.all (fun w => s.dev.fibs.all (fun p => p.1 / 4 != w || p.2.spilled.isEmpty)) then s
  else s.across (fun u => warps.foldl (fun v w => State.fillMany w 32 v) u)

/-- The barrier completes: its waiting splits become ready, the issuing one goes on behind its instruction, and entries that splits have
left by fusing are filled (R44, R46, R178, R282). -/
def State.releaseAll (s : State) (keys : List Nat) (c : Nat × Nat) : State := ((s.release keys c).advance 8).refill keys

/-- A barrier-waiting split at barrier c goes back to its BAR or FBAR, to issue it afresh (R180, R283). -/
def SplitSt.backTo (c : Nat × Nat) (x : SplitSt) : SplitSt :=
  if 3 ≤ x.st.code.1 ∧ x.st.code = c then { x with st := .ready, pc := x.pc - 8 } else x

/-- The lanes of a barrier-waiting split. -/
def SplitState.waitLanes : SplitState → Word32
  | .barWait _ m | .fbarWait _ m => m
  | _ => 0

/-- A closed barrier: a fibre that waits on it freezes with the cause, its waiting splits back at their BAR (R180, R283). One that a
trap holds already keeps that trap, and issues its BAR afresh (DEDUCED, assumption 11). Of several that wait, the one of lowest id is the
trapped split (DESIGN CHOICE, assumption 109). Its TPC is its BAR, not an SOS before it (DESIGN CHOICE, assumption 118). -/
def State.freezeWaiter (s : State) (c : Nat × Nat) (cause info k : Nat) : State :=
  match Tab.find s.dev.fibs k, s.warpAt (k / 4) with
  | some f, some w =>
    match f.splits.find? (fun p => decide (3 ≤ p.2.st.code.1) && p.2.st.code == c) with
    | none => s
    | some (i, x) =>
      let f := f.mapSplits (SplitSt.backTo c)
      if f.trapped.isSome || f.inService then { s with dev := { s.dev with fibs := s.dev.fibs.put k f } }
      else
        let r := s.dev.takeTrap k s.wg w f false ⟨cause, x.st.waitLanes, 0, info, x.pc - 8, i, x.parent⟩
        { s with dev := ({ r.1 with fibs := r.1.fibs.put k r.2 } : Dev).updWarp (k / 4) (·.passFrom (k % 4)) }
  | _, _ => s

/-- Every fibre freezes that waits at the barrier among those that it counts: for a BAR the fibres of the workgroup, for an FBAR those of
the warp (R178, R180, R283). -/
def State.freezeWaiters (s : State) (mine : Nat → Bool) (c : Nat × Nat) (cause info : Nat) : State :=
  ((s.dev.fibs.filter (fun p => mine p.1)).map (·.1)).foldl (fun t k => t.freezeWaiter c cause info k) s

/-- The phase needs more arrivals than fibres are left that have neither exited nor arrived (R283). -/
def State.unreachable (s : State) (p : BarPhase) : Bool :=
  decide ((s.wgFibs.filter (fun q => !q.2.exited && !p.arrived.contains q.1)).length < p.expected - p.count)

/-- Stores or closes barrier n's phase. -/
def State.setBar (s : State) (n : Nat) (p : Option BarPhase) : State :=
  { s with wg := { s.wg with bars := match p with | some x => s.wg.bars.put n x | none => s.wg.bars.del n } }

/-- The phase of barrier n is closed as unreachable (R283). -/
def State.closeBar (s : State) (n : Nat) : State := (s.setBar n none).freezeWaiters (fun k => k / 256 == s.wgKey) (3, n) 0x48 n

/-- The split waits at a barrier, behind its BAR. -/
def State.waitAt (s : State) (st : SplitState) : State :=
  { s with split := { s.split with pc := s.split.pc + 8, st := st, sos := false } }

/-- BAR and BAR.arrive (R281 to R283) (DEDUCED, assumption 41). -/
def State.barrier (s : State) (act : Word32) (n : Nat) (cnt1 : Option Nat) (arrive : Bool) : State :=
  let all := s.wg.nwarps * s.wg.nfibs
  let open_ := Tab.find s.wg.bars n
  let e := match open_, cnt1 with | some p, _ => p.expected | none, some c => c + 1 | none, none => all
  let wrongCount := match cnt1 with | some c => (open_.isSome && c + 1 != e) || decide (all < c + 1) | none => false
  if s.inHandler || wrongCount then s.trap 0x48 act 0 n
  else
    let old := open_.getD ⟨0, e, []⟩
    let go := fun (t : State) => if arrive then t.advance 8 else t.waitAt (.barWait n act)
    if old.arrived.contains s.key then go s
    else
      let p : BarPhase := ⟨old.count + 1, e, old.arrived ++ [s.key]⟩
      if s.unreachable p then ((if open_.isSome then s.closeBar n else s).trap 0x48 act 0 n)
      else if p.count = e then (s.setBar n none).pin.releaseAll p.arrived (3, n)
      else go (s.setBar n (some p)).pin

/-- BAR (R281). -/
def execBar (g : Guard) (n : Nat) (cnt1 : Option Nat) (s : State) : Host.Outcome State Fault Refusal :=
  s.issue { Pre.of g (Instr.bar g n cnt1).bytes with pins := true } (fun act t => t.barrier act n cnt1 false)

/-- BAR.arrive (R281). -/
def execBarArrive (g : Guard) (n : Nat) (cnt1 : Option Nat) (s : State) : Host.Outcome State Fault Refusal :=
  s.issue { Pre.of g (Instr.barArrive g n cnt1).bytes with pins := true } (fun act t => t.barrier act n cnt1 true)

/-- The keys of the fibres of the current warp that a mask names. -/
def State.maskKeys (s : State) (m : Nat) : List Nat :=
  ((List.range 4).filter (bitAt m)).map (fun f => s.warpKey * 4 + f)

/-- FBAR's misuse (R180): the mask omits the issuing fibre, or names one that the warp lacks or that has exited. -/
def State.fbarMisuse (s : State) (m : Nat) : Bool :=
  !bitAt m s.fibNo || (s.maskKeys m).any (fun k => match s.fibAt k with | some f => f.exited | none => true)

/-- FBAR (R178 to R180, R305). -/
def execFbar (g : Guard) (m : Nat) (s : State) : Host.Outcome State Fault Refusal :=
  s.issue { Pre.of g (Instr.fbar g m).bytes with pins := true } (fun act t =>
    if t.inHandler || t.fbarMisuse m then t.trap 0x49 act 0 m
    else
      let old := Tab.get 0 t.warp.fbars m
      let arr := old ||| 2 ^ t.fibNo
      let u := if bitAt old t.fibNo then t else t.pin
      if arr = m then
        ({ u with warp := { u.warp with fbars := u.warp.fbars.del m } }).releaseAll (u.maskKeys m) (4, m)
      else ({ u with warp := { u.warp with fbars := u.warp.fbars.put m arr } }).waitAt (.fbarWait m act))

/-! ### EXIT and YIELD -/

/-- What the exit of the current fibre does to the barriers of its workgroup and warp (R180, R283, R302). -/
def State.exitBarriers (s : State) : State :=
  let t := (s.wg.bars.filter (fun p => s.unreachable p.2)).foldl (fun u p => u.closeBar p.1) s
  (t.warp.fbars.filter (fun p => bitAt p.1 t.fibNo)).foldl (fun u p =>
    ({ u with warp := { u.warp with fbars := u.warp.fbars.del p.1 } }).freezeWaiters (fun k => k / 4 == s.warpKey) (4, p.1) 0x49 p.1) t

/-- The fibre has no split besides the current one. -/
def State.lastSplit (s : State) : Bool := s.fib.splits.isEmpty && s.fib.tree.isEmpty && s.fib.spilled.isEmpty

/-- EXIT (R42, R44, R302) (DEDUCED, assumption 61). -/
def execExit (g : Guard) (s : State) : Host.Outcome State Fault Refusal :=
  s.issue { Pre.of g (Instr.exit g).bytes with illegal := s.inHandler } (fun act t =>
    let rest := t.others act
    if rest ≠ 0 then { t with split := { t.split with mask := rest } }.advance 8
    else
      let u := { t with inner := none }
      if t.lastSplit then ({ u with fib := { u.fib with exited := true } }.exitBarriers).leave else u.leave)

/-- YIELD (R54, R383). -/
def execYield (g : Guard) (s : State) : Host.Outcome State Fault Refusal :=
  s.issue (Pre.of g (Instr.yield_ g).bytes) (fun _ t =>
    if t.inHandler then t.advance 8 else { t.advance 8 with warp := { (t.advance 8).warp with pass := true } })

/-! ### SOS and PPT -/

/-- SOS governs the word that follows it (R91). -/
def execSos (s : State) : Host.Outcome State Fault Refusal :=
  s.issue (Pre.of ⟨false, 7⟩ Instr.sos.bytes) (fun _ t =>
    { t with split := { t.split with pc := t.split.pc + 8, sos := true, st := .ready } })

/-- PPT takes effect (R215): the fibre holds exactly one split, resident, and no handler issues it (R349). -/
def State.pptTakes (s : State) : Bool := !s.inHandler && s.lastSplit

/-- The rewind point that a PPT at the current PC records (R215). -/
def State.rewindHere (s : State) (vmask smask roff tcnt tlo : Nat) : Rewind :=
  ⟨s.split.pc, vmask, smask, roff, tcnt, tlo, s.splitId, s.split.mask, s.fib.preds⟩

/-- A PPT that executes past the retry point ends the fibre's retry, and the mismatch counts as transient (R227, R228); the retry PPT
itself counts once. -/
def State.pastRetry (s : State) : State :=
  match s.warp.retries.find? (fun r => r.fib == s.fibNo) with
  | some r =>
    let rest := s.warp.retries.filter (fun x => x.fib != s.fibNo)
    if r.addr = s.split.pc ∧ !r.rerun then { s with warp := { s.warp with retries := rest ++ [{ r with rerun := true }] } }
    else
      let x := s.dev.slice s.wg.slice
      { s with warp := { s.warp with retries := rest }, dev := s.dev.setSlice s.wg.slice { x with transients := x.transients + 1 } }
  | none => s

/-- PPT (R214, R215, R349). A fibre that runs forward stops before it (R218). -/
def execPpt (vmask smask roff tcnt tlo : Nat) (s : State) : Host.Outcome State Fault Refusal :=
  let len := (Instr.ppt vmask smask roff tcnt tlo).bytes
  s.issue { Pre.of ⟨false, 7⟩ len with illegal := s.inRecipe } (fun _ t =>
    if !t.pptTakes then t.advance len
    else
      match t.fib.stop with
      | some (.forward _) =>
        { t with fib := { t.fib with stop := some (.stopped 1 t.split.pc.toNat), rewind := some (t.rewindHere vmask smask roff tcnt tlo) } }
      | _ =>
        let f := { t.fib with
          rewind := some (t.rewindHere vmask smask roff tcnt tlo), wroteV := 0, wroteS := 0, wroteB := false, pinned := false }
        let u := t.pastRetry
        { u with fib := f, warp := { u.warp with shWrote := Tab.set 0 u.warp.shWrote t.fibNo 0 } }.advance len)

end Sys2Proof.Machine
end

