-- ==== Sys2Proof/Machine/Fetch.lean ====
section
/-!
DEFINITION. Fetching and decoding the word at a split's PC (spec/05_encoding.md R77 to R80, R91, R92, R95, R97): the block rule,
the block-end filler, the match-and-replace table, the prefixes, and the decode faults in their order.
-/
namespace Sys2Proof.Machine

/-- What stands at an address. -/
inductive Fetched where
  | fault (cause addr info : Nat)
  | filler
  | word (w : Nat)
deriving DecidableEq, Repr

/-- The first lost byte of the word at a, whose bytes in its block are ps (R206): the lowest two bits of its first unit of 4 bytes tell its
length (R77). -/
def Dev.lostInWord (d : Dev) (a : Nat) (ps : List Phys) : Option (Nat × Nat) :=
  (d.lostBytes a (ps.take (max 4 (lenBytes (d.gather (ps.take 1) % 4))))).head?

/-- Fetches at an address: a fault, the block-end filler, or 128 bits from there; bits that cannot be read are zero. -/
def State.fetchAt (s : State) (a : Nat) : Fetched :=
  if a % 4 ≠ 0 then .fault 0x08 0 0
  else
    match s.dev.translate s.space .fetch a with
    | .error x => .fault x.cause a (memInfo 4 [(0, ⟨x.cause, a⟩)])
    | .ok p =>
      let n := 32 - a % 32
      match s.dev.lostInWord a (physRange p.slot p.pa n) with
      | some x =>
        let c := markCause x.2
        .fault c a (memInfo 4 [(0, ⟨c, a⟩)])
      | none =>
      if a % 32 = 28 ∧ s.dev.gather (physRange p.slot p.pa 4) = 0xFFFFFFFF then .filler
      else
        if 16 ≤ n then .word (s.dev.gather (physRange p.slot p.pa 16))
        else
          let low := s.dev.gather (physRange p.slot p.pa n)
          match s.dev.translateRange s.space .fetch (16 - n) (a + n) with
          | .ok q => .word (low + 2 ^ (8 * n) * s.dev.gather q)
          | .error _ => .word low

/-- The address of the word that follows when the filler is passed over (R79). -/
def State.pastFiller (s : State) (a : Nat) : Nat :=
  match s.fetchAt a with
  | .filler => a + 4
  | _ => a

/-! ### The match-and-replace table (R97) -/

/-- A field of n bytes at an offset of an image. -/
def imageNat (t : Tab Byte) : (n off : Nat) → Nat
  | 0, _ => 0
  | n + 1, off => (Tab.get 0 t off).toNat + 256 * imageNat t n (off + 1)

/-- The native set that the current fibre's code is decoded for (R96); that of firmware, which has no descriptor, is 5 (DESIGN CHOICE,
assumption 93). -/
def State.nset (s : State) : Nat := (s.launch.map (·.desc.nset)).getD 5

/-- The core of the current workgroup. -/
def State.core (s : State) : CoreSt := s.dev.core s.wg.slice s.wg.core

/-- Entry e matches a fetched word of a native set (R97). -/
def entryMatches (t : Tab Byte) (nset w e : Nat) : Bool :=
  let o := 32 * e
  bitAt (imageNat t 1 (o + 0x13)) 0 && bitAt (imageNat t 1 (o + 0x11)) nset &&
    imageNat t 1 (o + 0x10) == w % 4 && (w % 2 ^ 64) &&& imageNat t 8 o == imageNat t 8 (o + 8)

/-- The lowest entry that matches (R97). -/
def State.matchWord (s : State) (w : Nat) : Option Nat :=
  let t := s.core.table
  if t.isEmpty then none else (List.range 64).find? (entryMatches t s.nset w)

/-! ### Prefixes (R91, R92) -/

/-- Opcode of a word. -/
def opcodeOf (w : Nat) : Nat := bitsOf w 2 10

/-- Opcodes that may not follow SOS: prefixes, branches and PPT (R91). -/
def afterSosForbidden (o : Nat) : Bool :=
  o == 0x25C || (decide (0x260 ≤ o ∧ o ≤ 0x263)) || o == 0x250 || (decide (0x240 ≤ o ∧ o ≤ 0x244))

/-- SOS at a is misused by where it stands or by what follows it (R91). What follows counts by its opcode bits alone, whatever its length,
unless the table intercepts it (DESIGN CHOICE, assumption 95). -/
def State.sosMisplaced (s : State) (a : Nat) : Bool :=
  if (a + 8) % 32 = 0 then true
  else
    match s.fetchAt (a + 8) with
    | .filler => true
    | .word w => (s.matchWord w).isNone && afterSosForbidden (opcodeOf w)
    | .fault _ _ _ => false

/-- INV at a and its first body instruction do not lie in one block (R92). -/
def State.invMisplaced (s : State) (a len : Nat) : Bool :=
  let b := s.pastFiller (a + len)
  let last := match s.fetchAt b with | .word w => b + (lenBytes (w % 4) - 1) | _ => b
  (a + len) / 32 != a / 32 || last / 32 != a / 32

/-! ### Decode -/

/-- What issuing at an address comes to. -/
inductive Decoded where
  | fault (cause addr info : Nat)
  | filler
  | run (i : Instr)
deriving DecidableEq, Repr

/-- The instruction is illegal where it stands, cause 0x02, whatever its registers: LANERD and LANEWR outside a handler (R193), a
computed branch in recipe code (R223). -/
def State.misplaced (s : State) : Instr → Bool
  | .lanerd _ _ _ _ | .lanewr _ _ _ _ => !s.inHandler
  | .brx _ _ _ _ | .callx _ _ _ _ => s.inRecipe
  | _ => false

/-- Decodes a fetched word that stands at a: the first of its faults in the order of R95, or the instruction. -/
def State.decodeWordAt (s : State) (a w : Nat) : Except Nat Instr :=
  match s.matchWord w with
  | some e => .ok (.substituteSequence e)
  | none =>
    let len := lenBytes (w % 4)
    if w % 4 = 0 then .error 0x00
    else if 32 < a % 32 + len then .error 0x03
    else
      match decodeWord false w with
      | .error .illegalOpcode => .error 0x01
      | r =>
        if opcodeOf w = 0x25C ∧ s.sosMisplaced a then .error 0x04
        else if 0x260 ≤ opcodeOf w ∧ opcodeOf w ≤ 0x263 ∧ s.invMisplaced a len then .error 0x04
        else
          match r with
          | .ok i => .ok i
          | .error .illegalRegister =>
            .error (if ((Raw.ofWord (w % 2 ^ (8 * len))).parse.map s.misplaced).getD false then 0x02 else 0x07)
          | .error e => .error e.cause

/-- Fetches and decodes at an address. -/
def State.decodeAt (s : State) (a : Nat) : Decoded :=
  match s.fetchAt a with
  | .fault c x i => .fault c x i
  | .filler => .filler
  | .word w =>
    match s.decodeWordAt a w with
    | .error c => .fault c 0 0
    | .ok i => .run i

/-- Length of the word at a, when it can be read and has one (R77, R355). -/
def State.lengthAt (s : State) (a : Nat) : Option Nat :=
  match s.fetchAt a with
  | .word w => if w % 4 = 0 then none else some (lenBytes (w % 4))
  | _ => none

/-- The address behind n words from a, fillers passed over (R355). -/
def State.skipWords (s : State) : (n a : Nat) → Option Nat
  | 0, a => some a
  | n + 1, a =>
    let b := s.pastFiller a
    match s.lengthAt b with
    | some k => State.skipWords s n (b + k)
    | none => none

/-- Where rft.skip resumes (R355): behind the word at TPC, behind the word an SOS governs, behind an INV's body; TPC itself when
a unit cannot be read. -/
def State.skipFrom (s : State) (a : Nat) : Nat :=
  let b := s.pastFiller a
  let n :=
    match s.fetchAt b with
    | .word w =>
      if (s.matchWord w).isSome then 1
      else if opcodeOf w = 0x25C then 2
      else if 0x260 ≤ opcodeOf w ∧ opcodeOf w ≤ 0x263 then 2 + bitsOf w 54 4
      else 1
    | _ => 1
  (s.skipWords n b).getD a

end Sys2Proof.Machine
end

