-- ==== Sys2Proof/Machine/System.lean ====
section
/-!
DEFINITION. Special registers, TRAP, TFENCE, the return from a trap and the handler's lane moves (spec/04_storage.md R64 to R68;
spec/15_program_sampling.md R191 to R194; spec/16_traps.md R199 to R204, R207, R210; spec/23_ref_d_f.md R323; spec/24_ref_g_p.md
R333; spec/25_ref_r_z.md R355, R361, R362, R370, R375; spec/05_encoding.md R100).
-/
namespace Sys2Proof.Machine

/-! ### The trap queue's status register (R207) -/

/-- The value of TQSTAT. -/
def Slice.tqstat (x : Slice) : Nat :=
  b2n x.drop * 2 ^ 63 + b2n x.overwrote * 2 ^ 62 + b2n x.full * 2 ^ 61 + x.base * 2 ^ 16 + x.tail * 2 ^ 8 + x.head

/-- Records of the ring that are not freed. -/
def Slice.used (x : Slice) : Nat := if x.full then 256 else (x.tail + 256 - x.head) % 256

/-- The fibres of a record go on: each runs its access again (R210), and its splits settle as they stand now (R44). -/
def Dev.retry (d : Dev) (keys : List Nat) : Dev := keys.foldl (fun e k => (e.updFib k Fib.resume).settleFib k) d

/-- The wait for an answer about a save area, which began at cycle c, is taken from the partition's next turn where its run is time-shared
(R222). What of it lies behind the end of the partition's present turn counts among the cycles by which saves outlast that (R249). -/
def Dev.oweWait (d : Dev) (p c : Nat) : Dev :=
  let now := d.cycles.toNat
  let own := fun n => d.updPart p (fun q => if q.entry.tshare then { q with debt := q.debt + n } else q)
  match d.turns.find? (fun t => t.2.part == p) with
  | some (k, t) => if t.ends < now then { own (t.ends - c) with turns := d.turns.put k { t with saves := true } } else own (now - c)
  | none => own (now - c)

/-- The commands of partition p that have asked for a page go on: what they asked for has been answered (R142). -/
def Dev.unask (d : Dev) (p page : Nat) : Dev :=
  { d with cmds := d.cmds.map (fun c => if c.2.part = p ∧ c.2.asked = some page then (c.1, c.2.goesOn) else c) }

/-- A record is answered: the commands that wait for its page go on (R142), and, of one about a save area, the saves and restores that wait
for it (R222). -/
def Dev.endWaits (d : Dev) (r : Rec) : Dev :=
  let saves := fun (g : Wg) => g.part == r.data.part && g.saving.bind (·.asked) == some r.data.addr
  let restores := fun (x : Saved) => x.wg.part == r.data.part && x.asked == some r.data.addr
  if r.data.cause = 0x12 then
    let since := ((d.wgs.filter (fun g => saves g.2)).filterMap (fun g => g.2.saving.bind (·.waited))) ++
      ((d.saved.filter (fun x => restores x.2)).filterMap (·.2.waited))
    let e := since.foldl (fun e c => e.oweWait r.data.part c) d
    { e with
      wgs := e.wgs.map (fun g => (g.1, if saves g.2 then { g.2 with saving := g.2.saving.map (fun v => { v with asked := none, waited := none }) } else g.2)),
      saved := e.saved.map (fun x => (x.1, if restores x.2 then { x.2 with asked := none, waited := none } else x.2)) }
  else if r.data.cause = 0x10 then d.unask r.data.part r.data.addr
  else d

/-- A record freed before its RESP is written counts as answered with ACT 1 (R210). -/
def Dev.freeRecord (d : Dev) (sl i : Nat) : Dev :=
  match Tab.find (d.slice sl).live i with
  | none => d
  | some r =>
    let e := if r.data.kind = 1 ∧ !r.answered then (d.endWaits r).retry r.fibs else d
    e.setSlice sl { e.slice sl with live := (e.slice sl).live.del i }

/-- A write of TQSTAT (R207): DROP and OVER are cleared by ones, BASE is taken while the queue is empty, and HEAD frees records;
a HEAD past TAIL is ignored (DEDUCED, assumption 40). -/
def Dev.writeTqstat (d : Dev) (sl v : Nat) : Dev :=
  let x := d.slice sl
  let k := (v + 256 - x.head) % 256
  let y : Slice :=
    { x with
      drop := x.drop && !bitAt v 63, overwrote := x.overwrote && !bitAt v 62,
      base := if x.used = 0 then bitsOf v 16 41 else x.base }
  let e := d.setSlice sl y
  if k = 0 ∨ x.used < k then e
  else
    let f := (List.range k).foldl (fun e j => e.freeRecord sl ((x.head + j) % 256)) e
    f.setSlice sl { f.slice sl with head := v % 256, full := false }

/-- TQSTAT_WRITE (R207). -/
def execTqstatWrite (sl v : Nat) (s : State) : Host.Outcome State Fault Refusal :=
  s.event (fun t => if decide (sl < 12) && decide (v < 2 ^ 64) then t.onDev (·.writeTqstat sl v) else t)

/-! ### Special registers (R64) -/

/-- XLATHASH i (R100): eight bytes of the digest of the table image and the store image. -/
def CoreSt.xlathash (c : CoreSt) (i : Nat) : Nat :=
  let img := (List.range 2048).map (Tab.get 0 c.table) ++ (List.range 8192).map (Tab.get 0 c.store)
  ((((digestBytes (sha384 img)).drop (8 * i)).take 8).reverse.foldl (fun x b => x * 256 + b.toNat) 0)

/-- Cycles left of the partition's turn when its run is time-shared (R249), and 0 for a sharer that is out of its turn (DESIGN CHOICE,
assumption 114). -/
def Dev.quantumLeft (d : Dev) (p : Nat) : Nat :=
  match d.turns.find? (fun t => t.2.part == p) with
  | some t => t.2.ends - d.cycles.toNat
  | none => 0

/-- CAPRATE of contract n (R64, R120). -/
def Dev.caprate (d : Dev) (n : Nat) : Nat :=
  let r := d.flash.contracts.getD n 0
  if bitAt r 31 then bitsOf r 26 2 else 0

/-- The value of special register n in lane l. NWG reads 0 in a fibre that has no launch, as firmware (DESIGN CHOICE, assumption 57). -/
def State.readSr (s : State) (n l : Nat) : Nat :=
  let f := s.fib
  let grid := fun (g : Launch → Nat) => (s.launch.map g).getD 0
  match n with
  | 0x000 => l
  | 0x001 => s.fibNo
  | 0x002 => s.warpNo
  | 0x003 => s.wg.x
  | 0x004 => s.wg.y
  | 0x005 => s.wg.z
  | 0x006 => grid (·.gx)
  | 0x007 => grid (·.gy)
  | 0x008 => grid (·.gz)
  | 0x009 => s.wg.slice
  | 0x00A => s.wg.core
  | 0x010 => s.wg.contract
  | 0x021 => 5
  | 0x030 => (s.getFlags l).toNat
  | 0x031 => f.trapen.toNat
  | 0x032 => f.frame.tcause.toNat
  | 0x033 => f.frame.tpc.toNat
  | 0x034 => f.frame.tmask.toNat
  | 0x035 => f.frame.taddr.toNat
  | 0x036 => f.frame.tinfo.toNat
  | 0x037 => f.frame.tsplit.toNat
  | 0x040 => f.lwbase.toNat
  | 0x041 => f.lwsize.toNat
  | 0x048 => (s.dev.slice s.wg.slice).tqstat
  | 0x050 => ((Tab.find s.dev.parts s.wg.part).map (·.sfqw)).getD 0
  | 0x051 => ((Tab.find s.dev.parts s.wg.part).map (·.collw)).getD 0
  | 0x058 => s.dev.quantumLeft s.wg.part
  | 0x059 => s.dev.cycles.toNat
  | n =>
    if 0x011 ≤ n ∧ n ≤ 0x020 then s.dev.caprate (n - 0x011)
    else if 0x022 ≤ n ∧ n ≤ 0x027 then s.core.xlathash (n - 0x022)
    else 0

/-- The level that reading a special register needs is S (R64). -/
def srReadS (n : Nat) : Bool := n == 0x048
/-- The level that writing a special register needs is S (R64). -/
def srWriteS (n : Nat) : Bool := n == 0x040 || n == 0x041 || n == 0x048

/-- The current fibre runs below level S. -/
def State.belowS (s : State) : Bool := s.fib.priv == .u

/-- GETSR (R65, R323). -/
def execGetsr (g : Guard) (b64 : Bool) (d : Opd) (num : Nat) (s : State) : Host.Outcome State Fault Refusal :=
  let len := (Instr.getsr g b64 d num).bytes
  let w := if b64 then 64 else 32
  s.issue { Pre.of g len with
      writes := [(d, w)], illegal := !srNamed num, badReg := srPerLane num && isScalarDest d,
      lacksPriv := srReadS num && s.belowS } (fun act t =>
    (t.perLane act d w (fun l => (t.readSr num l % 2 ^ w, 0))).advance len)

/-- Changes the trap frame. -/
def State.setFrame (s : State) (f : Frame) : State := { s with fib := { s.fib with frame := f } }

/-- A weight that a program writes (R66) (DEDUCED, assumption 46). -/
def clampWeight (x most : Nat) : Nat := min (max x 1) most

/-- Writes the value x to special register n, other than FLAGS (R66, R199, R362). The limits of R66 apply to the bits that SFQW and COLLW
take, the low 8 (DESIGN CHOICE, assumption 103). -/
def State.writeSr (s : State) (n x : Nat) : State :=
  let fr := s.fib.frame
  let b := fun (w : Nat) => BitVec.ofNat 64 (x % 2 ^ w)
  match n with
  | 0x031 => { s with fib := { s.fib with trapen := BitVec.ofNat 8 x } }
  | 0x032 => s.setFrame { fr with tcause := b 7 }
  | 0x033 => s.setFrame { fr with tpc := b 57 }
  | 0x034 => s.setFrame { fr with tmask := b 32 }
  | 0x035 => s.setFrame { fr with taddr := BitVec.ofNat 64 (x % 2 ^ 57 / 32 * 32) }
  | 0x036 => s.setFrame { fr with tinfo := b 64 }
  | 0x037 => s.setFrame { fr with tsplit := b 12 }
  | 0x040 => { s with fib := { s.fib with lwbase := b 57 } }
  | 0x041 => { s with fib := { s.fib with lwsize := b 33 } }
  | 0x048 => s.onDev (·.writeTqstat s.wg.slice x)
  | 0x050 => s.onDev (·.updPart s.wg.part (fun p => { p with sfqw := clampWeight (x % 256) p.entry.sfqw }))
  | 0x051 => s.onDev (·.updPart s.wg.part (fun p => { p with collw := clampWeight (x % 256) p.entry.collw }))
  | _ => s

/-- A value that breaks the rules of LWBASE and LWSIZE (R68). -/
def srBreaks (n x : Nat) : Bool :=
  (n == 0x040 && x % 2 ^ 57 % 2 ^ 16 != 0) ||
    (n == 0x041 && (x % 2 ^ 33 % 2 ^ 12 != 0 || decide (x % 2 ^ 33 < 2 ^ 12) || decide (2 ^ 32 < x % 2 ^ 33)))

/-- SETSR (R65 to R68, R361, R362). -/
def execSetsr (g : Guard) (b64 : Bool) (num : Nat) (b : Opd) (s : State) : Host.Outcome State Fault Refusal :=
  let len := (Instr.setsr g b64 num b).bytes
  let w := if b64 then 64 else 32
  s.issue { Pre.of g len with
      reads := [(b, w)], illegal := !srWritten num, lacksPriv := srWriteS num && s.belowS } (fun act t =>
    if num = 0x030 then
      ((lanesOf act).foldl (fun u l => u.setFlags l (t.get .logic w b l % 2 ^ 8)) t).advance len
    else
      let x := t.get .logic w b (lowest act)
      if srBreaks num x then t.trap 0x02 t.split.mask 0 0 else (t.writeSr num x).advance len)

/-! ### TRAP, TFENCE and the handler -/

/-- TRAP (R202, R375). -/
def execTrap (g : Guard) (imm : Nat) (s : State) : Host.Outcome State Fault Refusal :=
  s.issue (Pre.of g (Instr.trap g imm).bytes) (fun act t => t.trap 0x5E act 0 imm)

/-- The lowest set bit of a byte; 0 when none is. -/
def lowBit (x : Nat) : Nat := ((List.range 8).find? (bitAt x)).getD 0

/-- TFENCE (R191, R370). -/
def execTfence (g : Guard) (s : State) : Host.Outcome State Fault Refusal :=
  let len := (Instr.tfence g).bytes
  s.issue (Pre.of g len) (fun act t =>
    let m := fun l => (t.getFlags l &&& t.fib.trapen).toNat
    let ls := (lanesOf act).filter (fun l => m l != 0)
    let all := ls.foldl (fun x l => x ||| m l) 0
    if all = 0 then t.advance len else t.trap (0x28 + lowBit all) (maskOf ls) 0 all)

/-- RFT: the handler ends and the trapped split goes on at TPC (R194, R201). -/
def State.rftTo (s : State) (pc : Nat) (keep : Option Word64) : State :=
  let t := { s with inner := none }.returnFromTrap (BitVec.ofNat 64 pc) keep
  if t.cur.isSome then t.arrive t.split else t

/-- RFT (R194, R355). -/
def execRft (s : State) : Host.Outcome State Fault Refusal :=
  s.issue { Pre.of ⟨false, 7⟩ Instr.rft.bytes with illegal := !s.inHandler } (fun _ t =>
    t.rftTo t.fib.frame.tpc.toNat (some t.fib.frame.tpc))

/-- RFT.skip (R194, R355). -/
def execRftSkip (s : State) : Host.Outcome State Fault Refusal :=
  s.issue { Pre.of ⟨false, 7⟩ Instr.rftSkip.bytes with illegal := !s.inHandler } (fun _ t =>
    t.rftTo (t.skipFrom t.fib.frame.tpc.toNat) none)

/-- LANERD (R193, R333): a poisoned register gives its mark along. -/
def execLanerd (g : Guard) (d a l : Opd) (s : State) : Host.Outcome State Fault Refusal :=
  let len := (Instr.lanerd g d a l).bytes
  let run := match runOf (a, 32) with | some r => [r] | none => []
  s.issue { Pre.of g len with reads := [(l, 64)], writes := [(d, 64)], runs := run, illegal := !s.inHandler } (fun _ t =>
    let lane := t.scalar l % 32
    let mark := (run.map (fun r => Tab.get 0 t.warp.poison (t.phys r.1 1 * 32 + lane))).headD 0
    let u := t.put 64 d 0 (t.get .arith 32 a lane)
    let v := { u with fib := { u.fib with
      poisonS := (scalarNo d).foldl (fun p n => Tab.set 0 p n mark) u.fib.poisonS } }
    v.advance len)

/-- LANEWR (R193, R333). The constant lane as its source is the number of the lane written (DESIGN CHOICE, assumption 116). -/
def execLanewr (g : Guard) (d l a : Opd) (s : State) : Host.Outcome State Fault Refusal :=
  let len := (Instr.lanewr g d l a).bytes
  s.issue { Pre.of g len with reads := [(l, 64), (a, 32)], writes := [(d, 32)], illegal := !s.inHandler } (fun _ t =>
    let lane := t.scalar l % 32
    (t.put 32 d lane (t.get .arith 32 a lane)).advance len)

end Sys2Proof.Machine
end

