-- ==== Sys2Proof/Machine/Inline.lean ====
section
/-!
DEFINITION. Instructions made of instructions: the bracket registers and INV (spec/14_invert.md R181 to R190; spec/05_encoding.md
R92), and substitute sequences with XIMM and XFLD (spec/05_encoding.md R97 to R99). execInline runs one element.
-/
namespace Sys2Proof.Machine

/-! ### Brackets (R183, R189, R190) -/

/-- BSET (R189). -/
def execBset (g : Guard) (n : Nat) (a b : Opd) (s : State) : Host.Outcome State Fault Refusal :=
  let len := (Instr.bset g n a b).bytes
  s.issue { Pre.of g len with reads := [(a, 32), (b, 32)] } (fun act t =>
    ((lanesOf act).foldl (fun u l =>
      u.setB n l ⟨BitVec.ofNat 32 (t.get .arith 32 a l), BitVec.ofNat 32 (t.get .arith 32 b l), 0, 0, 0⟩) t).advance len)

/-- The field of a bracket that a selector names (R183). -/
def BrkSel.field (b : Bracket) : BrkSel → Word32
  | .lo => b.lo
  | .hi => b.hi
  | .ylo => b.ylo
  | .yhi => b.yhi
  | .st => b.st
  | .rsv _ => 0

/-- BGET (R190). -/
def execBget (g : Guard) (sel : BrkSel) (d : Opd) (b : Nat) (s : State) : Host.Outcome State Fault Refusal :=
  let len := (Instr.bget g sel d b).bytes
  s.issue { Pre.of g len with writes := [(d, 32)] } (fun act t =>
    (t.perLane act d 32 (fun l => ((BrkSel.field (t.getB b l) sel).toNat, 0))).advance len)

/-! ### Substitute-only instructions (R98) -/

/-- The class and the width in which an intercepted word reads its immediate (R86, R87): the signed byte offset of an address, the
integer of FSCALE, the raw values of RQNT and SETSR, the mask of FCLASS (R306), CVT's float of its source type, FDOT's addend in the
format that it accumulates in (R315), the lane distance or pattern of SHFL, else by TYPE and opcode (DEDUCED, assumption 68). -/
def immClsOf (r : Raw) : ImmCls × Nat :=
  if (0x140 ≤ r.opc ∧ r.opc < 0x170) ∨ r.opc = 0x031 then (.arith, 64)
  else if r.opc = 0x0A0 ∨ r.opc = 0x268 then (.arith, 32)
  else if r.opc = 0x089 then (.logic, 16)
  else if r.opc = 0x0A8 then (.float (fdotTy r.ty), (fdotTy r.ty).w)
  else if r.opc = 0x0B0 then (.float .f32, 32)
  else if r.opc = 0x0B8 then (.logic, 16)
  else if r.opc = 0x100 then (if ShflMode.ofCode (r.mod / 64) = .off then .arith else .logic, 32)
  else if r.opc = 0x281 then (.logic, if r.b64 then 64 else 32)
  else if 0x140 ≤ r.opc then (.logic, 32)
  else if 8 ≤ r.ty.code then (.float r.ty, r.ty.w)
  else if 0x010 ≤ r.opc ∧ r.opc ≤ 0x01B then (.logic, r.ty.w)
  else if r.opc = 0x023 ∨ r.opc = 0x024 then (.logic, max r.ty.w 16)
  else (.arith, r.ty.w)

/-- The value of an intercepted word's immediate (R85 to R87), as it lies in registers (R103). A word that carries none gives the bits where
one of its length would stand (DESIGN CHOICE, assumption 119). -/
def immOf (w : Nat) : Nat :=
  let r := Raw.ofWord w
  let (c, n) := immClsOf r
  if (0x140 ≤ r.opc ∧ r.opc < 0x170) ∨ r.opc = 0x031 then
    (if r.len = 1 then 0 else immValue c n 32 (r.ext % 2 ^ 32))
  else
    let x :=
      if r.len = 1 then immValue c n 16 (r.b + 512 * r.c % 2 ^ 16)
      else if r.len = 2 then immValue c n 32 (r.ext % 2 ^ 32)
      else immValue c n 64 r.ext
    if n = r.ty.w ∧ r.opc < 0x140 then r.ty.place x else x

/-- The width of the register that XIMM writes (DESIGN CHOICE, assumption 69). -/
def immW (w : Nat) : Nat := max 32 (immClsOf (Raw.ofWord w)).2

/-- An instruction that only replacement-store code may hold (R94): elsewhere it is an illegal opcode. -/
def State.substituteOnly (s : State) (g : Guard) (len : Nat) (d : Opd) (w : Nat) (f : Inner → Nat) :
    Host.Outcome State Fault Refusal :=
  match s.cur, s.inner with
  | none, _ => .fault .noIssuer
  | some _, some i =>
    if i.body then .next (s.trap 0x01 s.split.mask 0 0)
    else
      s.issue { Pre.of g len with writes := [(d, w)], badReg := !d.dstOk true w } (fun act t =>
        (t.perLane act d w (fun _ => (f i, 0))).advance len)
  | some _, none => .next (s.trap 0x01 s.split.mask 0 0)

/-- XIMM (R98). -/
def execXimm (g : Guard) (d : Opd) (s : State) : Host.Outcome State Fault Refusal :=
  let w := match s.inner with | some i => immW i.word | none => 32
  s.substituteOnly g (Instr.ximm g d).bytes d w (fun i => immOf i.word)

/-- How wide a field of len1 + 1 bits is in registers (DESIGN CHOICE, assumption 69). -/
def fieldW (len1 : Nat) : Nat := if len1 < 32 then 32 else 64

/-- XFLD (R98). A field that runs past the end of a word of 64 or 96 bits takes the bits that lie behind the word in memory, as far as
the fetch has read them (DESIGN CHOICE, assumption 89). -/
def execXfld (g : Guard) (d : Opd) (pos len1 : Nat) (s : State) : Host.Outcome State Fault Refusal :=
  s.substituteOnly g (Instr.xfld g d pos len1).bytes d (fieldW len1) (fun i => bitsOf i.word pos (len1 + 1))

/-! ### Elements -/

/-- An element of an INV body or of a substitute sequence. What neither may hold (R99, R182) is refused before it gets here; were
it met, it would be an illegal instruction. -/
def execInline (i : Instr) (s : State) : Host.Outcome State Fault Refusal :=
  match i with
  | .accchk g b64 h => execAccchk g b64 h s
  | .accrd g b64 d at_ => execAccrd g b64 d at_ s
  | .accrdMd g d at_ => execAccrdMd g d at_ s
  | .accwr g b64 at_ c => execAccwr g b64 at_ c s
  | .accz g b64 h => execAccz g b64 h s
  | .and o => execAnd o s
  | .andn o => execAndn o s
  | .atom g ty op sys d m b => execAtom g ty op sys d m b s
  | .bfi o => execBfi o s
  | .bfx o => execBfx o s
  | .bget g sel d b => execBget g sel d b s
  | .bset g n a b => execBset g n a b s
  | .brev o => execBrev o s
  | .clz o => execClz o s
  | .bscl o => execBscl o s
  | .cas g b64 sys d m e n => execCas g b64 sys d m e n s
  | .cflush g loc m => execCflush g loc m s
  | .cvt g dty sty rm d a b => execCvt g dty sty rm d a b s
  | .exit g => execExit g s
  | .fadd o rm => execFadd o rm s
  | .fsub o rm => execFsub o rm s
  | .fmul o rm => execFmul o rm s
  | .ffma o rm => execFfma o rm s
  | .fclass o => execFclass o s
  | .fclassPred g ty p a mask => execFclassPred g ty p a mask s
  | .fcmp g ty cond p a b => execFcmp g ty cond p a b s
  | .fexp2 o => execFexp2 o s
  | .flog2 o => execFlog2 o s
  | .fsin o => execFsin o s
  | .fcos o => execFcos o s
  | .fdiv o rm => execFdiv o rm s
  | .frcp o rm => execFrcp o rm s
  | .frsq o rm => execFrsq o rm s
  | .fsqrt o rm => execFsqrt o rm s
  | .fdot o => execFdot o s
  | .fence g sys => execFence g sys s
  | .fgetexp o => execFgetexp o s
  | .fscale o rm => execFscale o rm s
  | .fmax o => execFmax o s
  | .fmin o => execFmin o s
  | .frred o rm => execFrred o rm s
  | .getsr g b64 d num => execGetsr g b64 d num s
  | .iabs o => execIabs o s
  | .imax o => execImax o s
  | .imin o => execImin o s
  | .iadd o ci co => execIadd o ci co s
  | .isub o ci co => execIsub o ci co s
  | .icmp g ty cond p a b => execIcmp g ty cond p a b s
  | .idiv o rem => execIdiv o rem s
  | .ilock g p a n => execIlock g p a n s
  | .iunlock g a n => execIunlock g a n s
  | .imad o => execImad o s
  | .imul o => execImul o s
  | .imulh o => execImulh o s
  | .lanerd g d a l => execLanerd g d a l s
  | .lanewr g d l a => execLanewr g d l a s
  | .ld g w strong sys loc d m => execLd g w strong sys loc d m s
  | .lea g loc pcrel d m => execLea g loc pcrel d m s
  | .loadm g p n cnt1 => execLoadm g p n cnt1 s
  | .lred o op => execLred o op s
  | .mma o => execMma o s
  | .mmas o hq => execMmas o hq s
  | .mmag g ty pal nzc hc hw ng1 a n => execMmag g ty pal nzc hc hw ng1 a n s
  | .mov o => execMov o s
  | .movi g ty d imm pcrel => execMovi g ty d imm pcrel s
  | .nop g len => execNop g len s
  | .or o => execOr o s
  | .plop g tab d a b c => execPlop g tab d a b c s
  | .popc o => execPopc o s
  | .pref g loc m => execPref g loc m s
  | .red g ty op sys m b => execRed g ty op sys m b s
  | .rft => execRft s
  | .rftSkip => execRftSkip s
  | .rot o => execRot o s
  | .sar o => execSar o s
  | .shl o => execShl o s
  | .shr o => execShr o s
  | .rqnt g dty sty d a so sn => execRqnt g dty sty d a so sn s
  | .savem g p n cnt1 => execSavem g p n cnt1 s
  | .sel g ty d a b p => execSel g ty d a b p s
  | .setsr g b64 num b => execSetsr g b64 num b s
  | .shfl g mode seg ty d a b p => execShfl g mode seg ty d a b p s
  | .st g w strong sys loc m c => execSt g w strong sys loc m c s
  | .talloc g lvl h rows1 rb1 => execTalloc g lvl h rows1 rb1 s
  | .tfence g => execTfence g s
  | .tfree g h => execTfree g h s
  | .tzero g h => execTzero g h s
  | .tld g w d at_ => execTld g w d at_ s
  | .tst g w at_ c => execTst g w at_ c s
  | .tokq g p tok => execTokq g p tok s
  | .trap g imm => execTrap g imm s
  | .vote g mode neg d a => execVote g mode neg d a s
  | .wake g sys base off n => execWake g sys base off n s
  | .xor o => execXor o s
  | .yield_ g => execYield g s
  | .ximm g d => execXimm g d s
  | .xfld g d pos len1 => execXfld g d pos len1 s
  | .bar _ _ _ | .barArrive _ _ _ | .bra _ _ _ | .call _ _ _ | .brx _ _ _ _ | .callx _ _ _ _ | .ret _ _ | .spillSwap _
  | .coll _ | .collStartPoll _ | .collComplete _ _ _ | .cpy _ | .cpyg _ | .cpyq _ _ _ _ _ | .cpyqAppend _
  | .wload _ _ _ _ | .dict _ _ _ _ _ _ _ | .engineDispatch _ | .engineCommandComplete _ | .workgroupRelease _ | .fbar _ _
  | .inv _ | .launch _ _ _ _ | .launchTokenComplete _ | .loadDataReturn _ _ | .ppt _ _ _ _ _ | .tqstatWrite _ _ | .sos
  | .waita _ _ _ _ _ _ _ _ | .waitaTimeout _ _ | .spuriousWake _ _ | .wgtake _ _ | .wgtakeAnswer _
  | .substituteSequence _ | .tableReload _ _ _ _ _ | .slotSelect _ | .slotAgeExpiry _ | .heldSplitOverdue _ _
  | .stallRelease | .qtailWrite _ _ _ | .qheadWrite _ _ _ | .mmioRegisterWrite _ _ _ | .launchHeadCheck _
  | .dependenceReread _ | .workgroupPlace _ _ _ | .priorityPromotion _ | .coreReservation _ | .coreStoreChange _
  | .completionWordWrite _ | .trapQueueRecordWrite _ | .respWrite _ _ _ | .handlerWatchdog _ | .quantumEnd _
  | .preemptRequest _ | .forwardBoundLapse _ | .contextSave _ | .contextRestore _ _ _ | .shadowMismatch _ _
  | .coreTestResult _ _ _ | .errorRetirement _ _ _ _ _ | .communicatorSetup _ _ _ _ _ _ _ _ | .memberLost _ _
  | .flitRefuse _ _ | .sfqArrival _ _ _ _ _ | .sfqServe _ | .hostCxlMemAccess _ _ | .hostStoreObserved _ _ | .genCommit _
  | .sgenCommit _ _ | .cancel _ _ | .keySlotWrite _ _ | .attestationRequest | .reset _ _ | .powerWindow _ | .thermalTrip
    => .next (s.trap 0x02 s.split.mask 0 0)

/-- An element executes if it is a legal instruction; one of replacement-store code is known whole only when its holes are filled
(R98), and raises then what any illegal word raises (R95), in every lane that the word has (R80). -/
def execElement (i : Instr) (s : State) : Host.Outcome State Fault Refusal :=
  if !i.shapeOk || s.misplaced i then .next (s.trap 0x02 s.split.mask 0 0)
  else if !(i.regsOk true) then .next (s.trap 0x07 s.split.mask 0 0)
  else execInline i s

/-- Scratch registers start undefined (R98): free values, for each word of an INV's body its own. -/
def freshScratch (n : Nat) (word : Nat := 0) : Tab Word32 :=
  (List.range 256).map (fun k => (k, Config.freeScratch n (8 * word + k / 32) (k % 32)))

/-- The scratch registers with which element n starts: those that the one before it left, except that a word of a body starts anew. -/
def State.scratchFor (s : State) (i : Inner) (n : Nat) : Tab Word32 :=
  match s.inner with
  | some j => if i.body && j.index != n && !j.scratch.isEmpty then freshScratch i.fresh n else j.scratch
  | none => i.scratch

/-- The marks that scratch registers carry when element n starts: those of the element before, except that a word of a body starts anew. -/
def State.scratchMarks (s : State) (i : Inner) (n : Nat) : Tab Nat :=
  match s.inner with
  | some j => if i.body && j.index != n then [] else j.poison
  | none => []

/-- Runs elements in order until one traps or has to wait; each comes with its index and address. -/
def State.runInner (s : State) (i : Inner) : List (Nat × Nat × Instr) → State
  | [] => s
  | (n, a, x) :: r =>
    let t := { s with inner := some { i with
      index := n, elem := BitVec.ofNat 64 a, scratch := s.scratchFor i n, poison := s.scratchMarks i n } }
    match execElement x t with
    | .next u => if u.inner.isNone || (u.inner.map (·.hit)).getD true then u else u.runInner i r
    | _ => t

/-! ### The body of an INV (R182) -/

/-- The destination of an instruction that a body may hold, with its width; none when it may hold no such instruction. A
predicate destination is given as rsv. -/
def bodyDest : Instr → Option (Opd × Nat)
  | .and o | .andn o | .bfx o | .or o | .rot o | .sar o | .shl o | .shr o | .xor o | .imax o | .imin o | .imul o
  | .imulh o => some (o.d, o.ty.w)
  | .iadd o _ _ | .isub o _ _ => some (o.d, o.ty.w)
  | .idiv o _ => some (o.d, o.ty.w)
  | .bfi o | .imad o => some (o.d, o.ty.w)
  | .brev o | .clz o | .popc o | .iabs o | .mov o => some (o.d, o.ty.w)
  | .icmp _ _ _ p _ _ | .fcmp _ _ _ p _ _ | .fclassPred _ _ p _ _ => some (.rsv p, 1)
  | .plop _ _ d _ _ _ => some (.rsv d, 1)
  | .movi _ ty d _ _ => some (d, ty.w)
  | .sel _ ty d _ _ _ => some (d, ty.w)
  | .lea _ _ _ d _ => some (d, 64)
  | .fadd o _ | .fsub o _ | .fmul o _ | .fdiv o _ | .fscale o _ => some (o.d, o.ty.w)
  | .ffma o _ => some (o.d, o.ty.w)
  | .fmin o | .fmax o => some (o.d, o.ty.w)
  | .frcp o _ | .frsq o _ | .fsqrt o _ => some (o.d, o.ty.w)
  | .frred o _ => some (o.d, 2 * o.ty.w)
  | .fclass o | .fgetexp o | .fexp2 o | .flog2 o | .fsin o | .fcos o | .bscl o => some (o.d, 32)
  | .fdot o => some (o.d, fdotW o.ty)
  | .cvt _ dty sty _ d _ _ => some (d, if sty.isPacked && !dty.isPacked then 64 else dty.w)
  | .rqnt _ dty _ d _ _ _ => some (d, dty.w)
  | .ld _ w strong _ _ d _ => if strong then none else some (d, regBits w)
  | _ => none

/-- The vector registers of a destination: first and count. -/
def destRun (d : Opd × Nat) : Option (Nat × Nat) :=
  match d.1 with
  | .v n => some (n, regsFor d.2)
  | _ => none

/-- The instruction may not stand in a body (cause 0x05): last tells that it is the last one, fixed are X, D and T. -/
def bodyBreach (last : Bool) (fixed : List Opd) (i : Instr) : Bool :=
  match bodyDest i with
  | none => true
  | some d =>
    match destRun d with
    | some r => fixed.any (fun o => match o with | .v n => decide (r.1 ≤ n ∧ n < r.1 + r.2) | _ => false)
    | none => last || (match d.1 with | .rsv _ | .x _ | .hole _ => false | _ => true)

/-- A fault of a body word (R182): cause, address and TINFO. -/
structure BodyFault where
  cause : Nat
  addr : Nat
  info : Nat

/-- The causes of R182 that come before 0x05, for word w at a. -/
def State.bodyWordCause (s : State) (a w : Nat) : Option Nat :=
  let o := opcodeOf w
  let len := lenBytes (w % 4)
  let r := Raw.ofWord (w % 2 ^ (8 * len))
  if w % 4 = 0 then some 0x00
  else if 32 < a % 32 + len then some 0x03
  else
    match decodeWord false w with
    | .error .illegalOpcode => some 0x01
    | .error .sosMisuse => some 0x04
    | _ =>
      if o = 0x25C ∧ (r.len ≠ 1 ∨ s.sosMisplaced a) then some 0x04
      else if 0x260 ≤ o ∧ o ≤ 0x263 ∧ s.invMisplaced a len then some 0x04
      else none

/-- The elements of entry e, from slot i on, k of them; none when one is no legal word. -/
def CoreSt.elements (c : CoreSt) (e : Nat) : (k i : Nat) → Option (List Instr)
  | 0, _ => some []
  | k + 1, i =>
    match decodeWord true (imageNat c.store 16 (128 * e + 16 * i)), CoreSt.elements c e k (i + 1) with
    | .ok x, some r => some (x :: r)
    | _, _ => none

/-- The specifier in the field of the intercepted word w that hole n names (R98). -/
def holeField (w n : Nat) : Nat :=
  let r := Raw.ofWord w
  match n with | 0 => r.d | 1 => r.a | 2 => r.b | _ => r.c

/-- What a hole of replacement-store code stands for: the specifier in a field of the intercepted word w (R98). One that ordinary
code may not use names no register (DEDUCED, assumption 18). -/
def Opd.fill (w : Nat) : Opd → Opd
  | .hole n =>
    match Opd.ofSpec (holeField w n) with
    | .x k => .rsv (496 + k)
    | .hole k => .rsv (504 + k)
    | o => o
  | o => o

/-- The same of a field that holds the number of a predicate, a bracket or a handle. -/
def fillNum (w n : Nat) : Nat := if 504 ≤ n ∧ n ≤ 507 then holeField w (n - 504) else n

/-- XIMM and XFLD of the intercepted word w as the MOVI of what they write (R98). -/
def writtenOut (w : Nat) : Instr → Instr
  | .ximm g d => if immW w = 64 then .movi g .u64 d (.imm64 (immOf w)) false else .movi g .u32 d (.imm32 (immOf w)) false
  | .xfld g d pos len1 =>
    let x := bitsOf w pos (len1 + 1)
    if fieldW len1 = 64 then .movi g .u64 d (.imm64 x) false else .movi g .u32 d (.imm32 x) false
  | i => i

/-- The instructions that a body word w stands for when entry e intercepts it: its sequence, with holes filled (R97, R98). -/
def State.bodySequence (s : State) (e w : Nat) : Option (List Instr) :=
  (s.core.elements e (imageNat s.core.table 1 (32 * e + 0x12)) 0).map (fun xs =>
    xs.map (fun x => writtenOut w (x.mapOpd (Opd.fill w) (fillNum w))))

/-- What R182 asks of a body word that executes as a sequence: of each element, and of the last as of the word (DEDUCED, assumption
39). -/
def sequenceBreach (last : Bool) (fixed : List Opd) : List Instr → Bool
  | [] => true
  | [x] => bodyBreach last fixed x
  | x :: r => bodyBreach false fixed x || sequenceBreach last fixed r

/-- The fault of the elements that an intercepted body word stands for, in their order (R95, R98, R182): what its holes make of them, and
registers outside the windows, which probe tells. -/
def State.elementsCause (s : State) (probe : Instr → Bool) (xs : List Instr) : Option Nat :=
  xs.findSome? (fun x =>
    if !x.shapeOk || s.misplaced x then some 0x02
    else if !(x.regsOk true) || probe x then some 0x07
    else none)

/-- One body word at a (R182): the instructions it stands for and the address behind it, or its first fault. probe tells whether an
instruction names a register outside the windows (DEDUCED, assumption 39). -/
def State.bodyWord (s : State) (last : Bool) (fixed : List Opd) (n a : Nat) (probe : Instr → Bool) :
    Except BodyFault (List Instr × Nat) :=
  let mark := 2 ^ 17 + n * 2 ^ 8
  match s.fetchAt a with
  | .fault c x i => .error ⟨c, x, mark + i⟩
  | .filler => .error ⟨0x05, 0, mark⟩
  | .word w =>
    let len := lenBytes (w % 4)
    match s.matchWord w with
    | some e =>
      match s.bodySequence e w with
      | none => .error ⟨0x02, 0, mark⟩
      | some xs =>
        if sequenceBreach last fixed xs then .error ⟨0x05, 0, mark⟩
        else
          match s.elementsCause probe xs with
          | some c => .error ⟨c, 0, mark⟩
          | none => .ok (xs, a + len)
    | none =>
      match s.bodyWordCause a w with
      | some c => .error ⟨c, 0, mark⟩
      | none =>
        match (Raw.ofWord (w % 2 ^ (8 * len))).parse with
        | none => .error ⟨0x01, 0, mark⟩
        | some i =>
          if bodyBreach last fixed i then .error ⟨0x05, 0, mark⟩
          else
            match decodeWord false w with
            | .error e => .error ⟨e.cause, 0, mark⟩
            | .ok i => if probe i then .error ⟨0x07, 0, mark⟩ else .ok ([i], a + len)

/-- The instruction names a register outside the windows: run with no lane it traps. -/
def State.outsideWindows (s : State) (i : Instr) : Bool :=
  let t := { s with inner := some ⟨true, s.split.pc, 0, 0, false, [], 0, 0, 0, [], 0, []⟩ }
  match execInline i t with
  | .next u => (u.inner.map (·.hit)).getD false
  | _ => false

/-- The k body instructions from index n at address a, and the address behind them; the first fault otherwise (R182). -/
def State.readBody (s : State) (fixed : List Opd) : (k n a : Nat) → Except BodyFault (List (Nat × Nat × Instr) × Nat)
  | 0, _, a => .ok ([], a)
  | k + 1, n, a =>
    let b := s.pastFiller a
    match s.bodyWord (k == 0) fixed n b s.outsideWindows with
    | .error e => .error e
    | .ok (is, c) =>
      match State.readBody s fixed k (n + 1) c with
      | .error e => .error e
      | .ok (r, e) => .ok (is.map (fun i => (n, b, i)) ++ r, e)

/-! ### INV's arithmetic (R184, R185) -/

/-- The direction is up. -/
def invUp : InvKind → Bool
  | .upF32 | .upI32 => true
  | _ => false

/-- The domain is .f32. -/
def invF32 : InvKind → Bool
  | .upF32 | .dnF32 => true
  | _ => false

/-- key (R184). -/
def keyOf (f32 : Bool) (u : Nat) : Int :=
  if f32 then (if bitAt u 31 then -((u % 2 ^ 31 : Nat) : Int) else (u % 2 ^ 31 : Nat)) else toSigned 32 u

/-- unkey (R184). -/
def unkey (f32 : Bool) (k : Int) : Nat :=
  if f32 then (if 0 ≤ k then k.toNat else 2 ^ 31 + (-k).toNat) else ofInt 32 k

/-- The bits are a NaN of FP32. -/
def isNan32 (u : Nat) : Bool := bitsOf u 23 8 == 255 && bitsOf u 0 23 != 0
/-- The bits are an infinity of FP32. -/
def isInf32 (u : Nat) : Bool := bitsOf u 23 8 == 255 && bitsOf u 0 23 == 0

/-- A value in the domain's order: an FP32 value times 2^149, an infinity as a number beyond every finite one, or the integer. -/
def domVal (f32 : Bool) (u : Nat) : Int :=
  if f32 then
    let e := bitsOf u 23 8
    let m : Int := if e = 0 then (bitsOf u 0 23 : Nat) else ((bitsOf u 0 23 + 2 ^ 23) * 2 ^ (e - 1) : Nat)
    if bitAt u 31 then -m else m
  else toSigned 32 u

/-- |y − t|; none is infinite. -/
def domDist (f32 : Bool) (y t : Nat) : Option Nat :=
  let d := (domVal f32 y - domVal f32 t).natAbs
  if f32 ∧ (isInf32 y ∨ isInf32 t) ∧ d ≠ 0 then none else some d

/-- The lower end is at least as near to t as the upper (R185). -/
def lowerNear (f32 : Bool) (ylo yhi t : Nat) : Bool :=
  match domDist f32 ylo t, domDist f32 yhi t with
  | some a, some b => decide (a ≤ b)
  | some _, none => true
  | none, none => true
  | none, some _ => false

/-- What R185 makes of a lane at one point: its bracket, its result when it is done, and its flags. -/
structure LaneStep where
  b : Bracket
  result : Option Nat
  flags : Nat

/-- STATE (R183). -/
def stateWord (phase count extra : Nat) : Word32 := BitVec.ofNat 32 (count % 256 + phase * 2 ^ 8 + extra)

/-- An INV's fixed operands. -/
structure InvPlan where
  up : Bool
  f32 : Bool
  tol : Nat
  cap : Nat

/-- COUNT of a bracket. -/
def Bracket.count (b : Bracket) : Nat := b.st.toNat % 256

/-- The bracket with its ends rewritten through their keys. -/
def Bracket.norm (p : InvPlan) (b : Bracket) : Bracket :=
  { b with lo := BitVec.ofNat 32 (unkey p.f32 (keyOf p.f32 b.lo.toNat)),
           hi := BitVec.ofNat 32 (unkey p.f32 (keyOf p.f32 b.hi.toNat)) }

/-- finish (R185). -/
def InvPlan.finish (p : InvPlan) (b : Bracket) (extra r fl : Nat) : LaneStep :=
  ⟨{ b.norm p with st := stateWord 2 b.count extra }, some r, fl⟩

/-- fail (R185). -/
def InvPlan.failBits (p : InvPlan) : Nat := if p.f32 then 0x7FC00000 else 0x80000000

/-- retire (R185). -/
def InvPlan.retire (p : InvPlan) (b : Bracket) (fl : Nat) : LaneStep :=
  ⟨{ b.norm p with st := stateWord 3 b.count (2 ^ 11) }, some p.failBits, fl⟩

/-- The nearer end's argument (R185). -/
def InvPlan.nearer (p : InvPlan) (b : Bracket) (t : Nat) : Nat :=
  unkey p.f32 (keyOf p.f32 (if lowerNear p.f32 b.ylo.toNat b.yhi.toNat t then b.lo else b.hi).toNat)

/-- The loop's condition: another midpoint, or the lane finishes (R185). -/
def InvPlan.goOn (p : InvPlan) (b : Bracket) (t : Nat) : LaneStep :=
  let gap := keyOf p.f32 b.hi.toNat - keyOf p.f32 b.lo.toNat
  if (p.tol : Int) < gap ∧ 2 ≤ gap ∧ b.count < p.cap then ⟨b, none, 0⟩ else p.finish b 0 (p.nearer b t) 0

/-- Before any evaluation (R185). -/
def InvPlan.start (p : InvPlan) (b : Bracket) (t : Nat) : LaneStep :=
  let c : Bracket := { b with ylo := 0, yhi := 0, st := stateWord 1 0 0 }
  if keyOf p.f32 b.hi.toNat < keyOf p.f32 b.lo.toNat ∨ (p.f32 ∧ (isNan32 b.lo.toNat ∨ isNan32 b.hi.toNat ∨ isNan32 t)) then
    ⟨{ c with st := stateWord 3 0 (2 ^ 11) }, some p.failBits, flagIV⟩
  else ⟨c, none, 0⟩

/-- The argument of evaluation ev: the lower end, the upper end, or the midpoint (R185). -/
def InvPlan.arg (p : InvPlan) (b : Bracket) (ev : Nat) : Nat :=
  let k := keyOf p.f32 b.lo.toNat
  let h := keyOf p.f32 b.hi.toNat
  unkey p.f32 (if ev = 0 then k else if ev = 1 then h else k + (h - k) / 2)

/-- The value of evaluation ev arrives (R185). -/
def InvPlan.take (p : InvPlan) (b : Bracket) (ev t y : Nat) : LaneStep :=
  let v := domVal p.f32
  let yw : Word32 := BitVec.ofNat 32 y
  let bad := fun (x : Nat) => p.f32 && isNan32 x
  match ev with
  | 0 => ⟨{ b with ylo := yw }, none, 0⟩
  | 1 =>
    let c := { b with yhi := yw }
    let lo := b.ylo.toNat
    if bad lo || bad y || (if p.up then decide (v y < v lo) else decide (v lo < v y)) then p.retire c flagMONO
    else if decide (v t < min (v lo) (v y) ∨ max (v lo) (v y) < v t) then p.finish c (2 ^ 10) (p.nearer c t) flagOUTB
    else p.goOn c t
  | _ =>
    let c := { b with st := stateWord 1 (b.count + 1) 0 }
    let lo := v b.ylo.toNat
    let hi := v b.yhi.toNat
    let m := p.arg b ev
    let inside := if p.up then decide (lo ≤ v y ∧ v y ≤ hi) else decide (hi ≤ v y ∧ v y ≤ lo)
    if bad y || !inside then p.retire c flagMONO
    else if v y = v t then p.finish c (2 ^ 12) m 0
    else if (if p.up then decide (v y < v t) else decide (v t < v y)) then
      p.goOn { c with lo := BitVec.ofNat 32 m, ylo := yw } t
    else p.goOn { c with hi := BitVec.ofNat 32 m, yhi := yw } t

/-! ### INV -/

/-- Applies lane steps to lanes: brackets, results and flags; the lanes that are not done. -/
def State.invLanes (s : State) (o : InvArgs) (f : Nat → LaneStep) (ls : List Nat) : State × List Nat :=
  ls.foldl (fun (p : State × List Nat) l =>
    let r := f l
    let t := (p.1.setB o.brk l r.b).addFlags l r.flags
    match r.result with
    | some x => (t.put 32 o.d l x, p.2)
    | none => (t, p.2 ++ [l])) (s, [])

/-- The mark that an INV leaves in the fibre when it stops at evaluation ev (R186). -/
def State.invMark (s : State) (pc : Word64) (ls : List Nat) (ev : Nat) : State :=
  let t := s.dropMark
  { t with inner := none, split := { t.split with st := .ready },
           fib := { t.fib with marks := t.fib.marks ++ [⟨pc, maskOf ls, ev, s.markId⟩] } }

/-- The INV is over. -/
def State.invEnd (s : State) (behind : Nat) : State :=
  ({ s.dropMark with inner := none }).goto (BitVec.ofNat 64 behind)

/-- How many loads a body makes in one evaluation. -/
def bodyLoads (body : List (Nat × Nat × Instr)) : Nat :=
  (body.filter (fun b => match b.2.2 with | .ld _ _ _ _ _ _ _ => true | _ => false)).length

/-- The queue to the shadow has no room for the values that one more evaluation loads (R226, R332). -/
def State.queueShort (s : State) (body : List (Nat × Nat × Instr)) : Bool :=
  s.warp.shadow.isSome && bodyLoads body != 0 && decide (64 < s.warp.queued + bodyLoads body)

/-- The values that the body's loads have returned in an evaluation stand in the queue to the shadow (R226, R332). -/
def State.passLoads (s : State) (body : List (Nat × Nat × Instr)) : State :=
  if bodyLoads body = 0 then s else s.pushStep (bodyLoads body)

/-- The fibre of c, as it stands now. -/
def State.fibreOf (s : State) (c : Cur) : Option Fib :=
  if s.cur.map (·.key) = some c.key then some s.fib else Tab.find s.dev.fibs c.key

/-- The trap of an evaluation, as u tells it, pins the fibre (R216) while the shadow has not yet come to what the INV has loaded since its
issue at s0 (R226); s is the state before the evaluation. -/
def State.pinsEarly (s0 s u : State) : Bool :=
  s.warp.trail.length != s0.warp.trail.length && (s0.cur.bind u.fibreOf).any (fun f => f.inService && f.pinned)

/-- An evaluation that u ends with a trap: the INV stops at it, or, where the trap would come before the shadow, before it, so that the trap
waits at the next issue (R226). -/
def State.invTrap (s0 s u : State) (ls : List Nat) (ev : Nat) : State :=
  (if s0.pinsEarly s u then s else u).invMark s0.split.pc ls ev

/-- The evaluations from ev on, at most fuel of them, in the lanes ls (R185, R187, R188). s0 is the state at issue, to which the
INV returns when an element has to wait; stop is the number of evaluations after which the slot passes (DESIGN CHOICE, assumption
21). A queue to the shadow that has no room stops it too: at once as a stall, or, once it has evaluated, at the next evaluation (R226); so does a
trap that would pin the fibre before the shadow has come. A value of the body that is poisoned traps where the INV takes it (R206), as a
fault of the body's last instruction (DEDUCED, assumption 90). -/
def State.invRun (s0 : State) (o : InvArgs) (p : InvPlan) (body : List (Nat × Nat × Instr)) (behind : Nat) (y : Opd) :
    (fuel stop ev : Nat) → List Nat → State → State
  | _, _, _, [], s => s.invEnd behind
  | 0, _, ev, ls, s => s.invMark s0.split.pc ls ev
  | _ + 1, 0, ev, ls, s => s.invMark s0.split.pc ls ev
  | n + 1, stop + 1, ev, ls, s =>
    if s.queueShort body then
      if s.warp.trail.length = s0.warp.trail.length then s0.stall [.shadow s0.warpKey true] else s.invMark s0.split.pc ls ev
    else
    let r := if s0.core.table.isEmpty then (0, s) else s.free
    let t := ls.foldl (fun u l => u.put 32 o.x l (p.arg (u.getB o.brk l) ev)) r.2
    let i : Inner :=
      ⟨true, s0.split.pc, s0.split.pc, maskOf ls, false, [], 0, ev, 0, if s0.core.table.isEmpty then [] else freshScratch r.1, r.1, []⟩
    let u := t.runInner i body
    match u.inner with
    | some j =>
      if j.hit then
        if j.wait.isEmpty then s0.invTrap s u ls ev else s0.stall j.wait
      else
        let taken := { Pre.of .always 0 with reads := [(y, 32)] }
        match u.poisoned taken (maskOf ls) with
        | x :: r => s0.invTrap s (u.trapPoison taken (maskOf ls) (x :: r)) ls ev
        | [] =>
          let tt := fun l => s0.get .arith 32 o.t l
          let (v, rest) := ({ u with inner := none }).invLanes o
            (fun l => p.take (u.getB o.brk l) ev (tt l) (u.get .logic 32 y l)) ls
          State.invRun s0 o p body behind y n stop (ev + 1) rest (v.passLoads body)
    | none => u

/-- More evaluations than any INV makes: two ends and 64 midpoints (R181). -/
def invFuel : Nat := 67

/-- INV (R181 to R188). One that resumes does not read its guard again, and consumes its target in the marked lanes only (R186). -/
def execInv (o : InvArgs) (s : State) : Host.Outcome State Fault Refusal :=
  let len := (Instr.inv o).bytes
  let again := s.fib.marks.find? (fun m => m.addr == s.split.pc && m.id == s.markId)
  let pre : Pre :=
    if again.isSome then { Pre.of .always len with writes := [(o.t, 32), (o.d, 32), (o.x, 32)], keepMark := true }
    else { Pre.of o.g len with reads := [(o.t, 32)], writes := [(o.d, 32), (o.x, 32)] }
  match s.cur, s.readBody [o.x, o.t, o.d] (o.nlen1 + 1) 0 (s.split.pc.toNat + len) with
  | none, _ => .fault .noIssuer
  | some _, .error e =>
    if s.windowsOk pre then .next (s.trap e.cause s.split.mask e.addr e.info) else s.issue pre (fun _ t => t)
  | some _, .ok (body, behind) =>
    s.issue { pre with len := behind - s.split.pc.toNat } (fun act t =>
      let p : InvPlan := ⟨invUp o.kind, invF32 o.kind, o.tol, o.cap1 + 1⟩
      let y := ((body.getLast?).bind (fun b => bodyDest b.2.2)).elim .zero (·.1)
      let stop := if t.dev.evals = 0 then invFuel else t.dev.evals
      match again with
      | some m =>
        let ls := m.lanes &&& t.split.mask
        let target := { Pre.of .always len with reads := [(o.t, 32)] }
        match t.poisoned target ls with
        | x :: r => t.trapPoison target ls (x :: r)
        | [] => State.invRun t o p body behind y invFuel stop m.eval (lanesOf ls) t
      | none =>
        let (v, ls) := t.invLanes o (fun l => p.start (t.getB o.brk l) (t.get .arith 32 o.t l)) (lanesOf act)
        State.invRun t o p body behind y invFuel stop 0 ls v)

/-! ### Substitute sequences (R97 to R99) -/

/-- SUBSTITUTE_SEQUENCE (R97, R98): the word at the PC, which entry e intercepts, executes as its sequence in the lanes in which its
guard is true (R4: DEDUCED, assumption 13); its elements' decode faults are raised whatever the guard (R80). -/
def execSubstituteSequence (e : Nat) (s : State) : Host.Outcome State Fault Refusal :=
  match s.cur, s.fetchAt s.split.pc.toNat with
  | none, _ => .fault .noIssuer
  | some _, .word w =>
    if s.matchWord w ≠ some e then .next s
    else
      match s.core.elements e (imageNat s.core.table 1 (32 * e + 0x12)) 0 with
      | none => .next (s.trap 0x02 s.split.mask 0 0)
      | some xs =>
        let len := lenBytes (w % 4)
        s.issue (Pre.of .always len) (fun _ t =>
          let (n, u) := t.free
          let i : Inner :=
            ⟨false, t.tpc, t.split.pc, t.active (.ofCode (bitsOf w 12 4)), false, [], 0, 0, w, freshScratch n, n, []⟩
          let v := u.runInner i (xs.zipIdx.map (fun p => (p.2, t.split.pc.toNat, p.1.mapOpd (Opd.fill w) (fillNum w))))
          match v.inner with
          | none => v
          | some j =>
            if j.hit then (if j.wait.isEmpty then { v with inner := none } else t.stall j.wait)
            else ({ v with inner := none }).advance len)
  | some _, _ => .next s

end Sys2Proof.Machine
end

