-- ==== Sys2Proof/Machine/Launch.lean ====
section
/-!
DEFINITION. The distributor (spec/03_execution.md R30 to R42; spec/25_ref_r_z.md R385; spec/18_abi.md R240; spec/07_contracts.md
R127; spec/04_storage.md R62, R68, R70, R74 to R76; spec/01_tutorial.md R8): reading and checking launches, placing and
releasing workgroups, ending launches.
-/
namespace Sys2Proof.Machine

/-! ### Records and descriptors -/

/-- A field of n bytes at an offset of a number read from memory. -/
def fieldAt (x off n : Nat) : Nat := x / 2 ^ (8 * off) % 2 ^ (8 * n)

/-- n bytes at address a of a queue's space; none when they cannot be read (R385). Bytes whose sector is lost (R206) cannot be read either
(DESIGN CHOICE, assumption 92). -/
def Dev.readVirtual (d : Dev) (sp : Space) (n a : Nat) : Option Nat :=
  match d.translateRange sp .load n a with
  | .ok ps => if (d.lostBytes a ps).isEmpty then some (d.gather ps) else none
  | .error _ => none

/-- The default size of a local window in pages (R240). -/
def lwPages (n : Nat) : Nat := if n = 0 then 16 else n

/-- The windows of a descriptor keep the limits of R62. -/
def windowsLegal (regs shared : Nat) (p : List Nat) : Bool :=
  decide (shared ≤ 248) && p.all (fun x => decide (8 ≤ x ∧ x ≤ 256 - shared)) && decide (p.sum + shared ≤ regs)

/-- The level of a binding record (R240). -/
def bindingLevel : Nat → Option Level
  | 1 => some .t
  | 2 => some .a
  | 3 => some .w
  | 4 => some .q
  | _ => none

/-- One binding record of 8 bytes: handle, level, rows, row bytes; none when it is malformed (R240). -/
def bindingOf (v : Nat) : Option (Nat × Level × Nat × Nat) :=
  let rows := bitsOf v 16 12 + 1
  let rb := bitsOf v 32 14
  match bindingLevel (bitsOf v 8 3) with
  | none => none
  | some l =>
    if bitsOf v 6 2 = 0 ∧ bitsOf v 11 5 = 0 ∧ bitsOf v 28 4 = 0 ∧ bitsOf v 46 18 = 0 ∧ shapeOk l rows rb then
      some (bitsOf v 0 6, l, rows, rb)
    else none

/-- The binding records in a number, n of them; none when one is malformed or a handle is named twice. -/
def bindingsOf (x : Nat) : (n : Nat) → Option (List (Nat × Level × Nat × Nat))
  | 0 => some []
  | n + 1 =>
    match bindingOf (x % 2 ^ 64), bindingsOf (x / 2 ^ 64) n with
    | some b, some r => if r.any (fun c => c.1 == b.1) then none else some (b :: r)
    | _, _ => none

/-- The granules of bindings fit an empty core (R240). -/
def bindingsFit (config : Nat) (bs : List (Nat × Level × Nat × Nat)) : Bool :=
  let ts := bs.map (fun b => Tile.fresh b.2.1 b.2.2.1 b.2.2.2)
  [Level.t, .a, .w, .q].all (fun l => decide (granulesHeld ts l ≤ capacity config l)) && decide (ts.length ≤ 512)

/-- The descriptor in 128 bytes x with bindings bs, when its fields keep their ranges (R240). -/
def descOf (x : Nat) (bs : List (Nat × Level × Nat × Nat)) : Option Desc :=
  let f := fieldAt x
  let fibres := f 0x06 1
  let ps := (List.range 4).map (fun i => f (0x0C + 2 * i) 2)
  let es := (List.range 4).map (fun i => f (0x20 + 8 * i) 8)
  if f 0x00 4 = 0x4F4B4431 ∧ 1 ≤ f 0x04 1 ∧ f 0x04 1 ≤ 5 ∧ f 0x05 1 ≤ 15 ∧ 1 ≤ fibres ∧ fibres ≤ 4 ∧
      f 0x07 1 / 4 = 0 ∧ 8 ≤ f 0x08 2 ∧ f 0x08 2 ≤ 512 ∧ f 0x08 2 % 8 = 0 ∧
      windowsLegal (f 0x08 2) (f 0x0A 2) (ps.take fibres) ∧ (ps.drop fibres).all (· == 0) ∧ (es.drop fibres).all (· == 0) ∧
      f 0x14 4 ≤ 2 ^ 20 ∧ f 0x1C 4 = 0 ∧ f 0x50 48 = 0 then
    some
      { nset := f 0x04 1, contract := f 0x05 1, fibres := fibres, config := f 0x07 1 % 2, guard := bitAt (f 0x07 1) 1,
        regs := f 0x08 2, shared := f 0x0A 2, p := ps.take fibres, lwsize := lwPages (f 0x14 4) * 4096,
        entry := (es.take fibres).map (BitVec.ofNat 64), handler := BitVec.ofNat 64 (f 0x40 8), tiles := bs }
  else none

/-- Reads a descriptor (R240, R385): the descriptor, or the status of its refusal. -/
def Dev.readDesc (d : Dev) (sp : Space) (a : Nat) : Except Nat Desc :=
  match d.readVirtual sp 128 a with
  | none => .error 0x03
  | some x =>
    let n := fieldAt x 0x18 4
    let at_ := fieldAt x 0x48 8
    if 64 < n ∨ (n = 0 ↔ at_ ≠ 0) then .error 0x03
    else
      match (if n = 0 then some [] else (d.readVirtual sp (8 * n) at_).bind (fun y => bindingsOf y n)) with
      | none => .error 0x03
      | some bs =>
        match descOf x bs with
        | none => .error 0x03
        | some e => if bindingsFit e.config bs then .ok e else .error 0x05

/-! ### Room (R38, R39, R68) -/

/-- Register groups of a warp (R39). -/
def groupsOf (regs : Nat) : Nat := (regs + 31) / 32

/-- Warps that sub-core number i after the first gets of n (R38). -/
def warpsOnSub (n i : Nat) : Nat := (n + 3 - i) / 4

/-- How many slots and runs a warp takes: two in a guarded launch (R225). -/
def Desc.copies (x : Desc) : Nat := if x.guard then 2 else 1

/-- A workgroup lies within an empty core (R385). -/
def Desc.fitsEmpty (x : Desc) (warps : Nat) : Bool :=
  let k := warpsOnSub warps 0 * x.copies
  decide (k ≤ 16 ∧ k * groupsOf x.regs ≤ 64)

/-- A size rounded up to the alignment of local windows (R68). -/
def lwRound (n : Nat) : Nat := (n + 65535) / 65536 * 65536

/-- k local windows lie within a pool of a size (R68, R385). -/
def poolHolds (size lwsize k : Nat) : Bool := k == 0 || decide ((k - 1) * lwRound lwsize + lwsize ≤ size)

/-- Local windows of a partition in use: those of placed fibres and of saved workgroups. -/
def Dev.lwUsed (d : Dev) (p : Nat) : List (Nat × Nat) :=
  (d.fibs.filter (fun f => match Tab.find d.wgs (f.1 / 256) with | some g => g.part == p | none => false)).map
      (fun f => (f.2.lwbase.toNat, f.2.lwsize.toNat)) ++
    ((d.saved.filter (fun x => x.2.wg.part == p)).map (fun x =>
      x.2.fibs.map (fun f => (f.2.lwbase.toNat, f.2.lwsize.toNat)))).flatten

/-- Two ranges share a byte. -/
def rangesMeet (a b : Nat × Nat) : Bool := decide (a.1 < b.1 + b.2 ∧ b.1 < a.1 + a.2)

/-- The lowest free window of a pool, from candidate base on (DESIGN CHOICE, assumption 42). -/
def lwFind (used : List (Nat × Nat)) (top size : Nat) : (fuel base : Nat) → Option Nat
  | 0, _ => none
  | n + 1, base =>
    if top < base + size then none
    else
      match used.find? (fun r => rangesMeet r (base, size)) with
      | none => some base
      | some r => lwFind used top size n (max (lwRound (r.1 + r.2)) (base + 65536))

/-- Bases for k windows of a size, one after another (R68). -/
def lwTake (top lo size : Nat) : (k : Nat) → List (Nat × Nat) → Option (List Nat)
  | 0, _ => some []
  | k + 1, used =>
    match lwFind used top size (used.length + 1) lo with
    | none => none
    | some b => (lwTake top lo size k ((b, size) :: used)).map (b :: ·)

/-- The local windows that a workgroup of k fibres would take. -/
def Dev.lwBases (d : Dev) (p size k : Nat) : Option (List Nat) :=
  match Tab.find d.parts p with
  | none => none
  | some q => lwTake (q.block.lwBase + q.block.lwSize) (lwRound q.block.lwBase) size k (d.lwUsed p)

/-- A warp has exited, and its shadow no longer trails (R225): its slot and its registers are free (R39, R42). -/
def Dev.warpDone (d : Dev) (w : Nat) : Bool :=
  (d.fibs.filter (fun p => p.1 / 4 == w)).all (fun p => p.2.exited) && !((Tab.find d.warps w).map Warp.trails).getD false

/-- Slots of a sub-core in use. -/
def Dev.slotsUsed (d : Dev) (k : Nat) : List Nat :=
  ((d.warps.filter (fun p => p.2.place.subKey == k && !d.warpDone p.1)).map (fun p =>
    p.2.place.slot :: (p.2.place.shadow.map (·.1)).toList)).flatten

/-- Register groups of a sub-core in use. -/
def Dev.groupsUsed (d : Dev) (k : Nat) : List Nat :=
  ((d.warps.filter (fun p => p.2.place.subKey == k && !d.warpDone p.1)).map (fun p =>
    let run := fun g => (List.range (groupsOf p.2.n)).map (· + g)
    run p.2.place.group ++ ((p.2.place.shadow.map (fun x => run x.2)).getD []))).flatten

/-- The lowest run of k free groups. -/
def freeRun (used : List Nat) (k : Nat) : Option Nat :=
  (List.range (65 - k)).find? (fun g => (List.range k).all (fun i => !used.contains (g + i)))

/-- The lowest free slot (DESIGN CHOICE, assumption 42). -/
def freeSlot (used : List Nat) : Option Nat := (List.range 16).find? (fun s => !used.contains s)

/-- A slot and a run on a sub-core, with what is used afterwards. -/
def takeRoom (k : Nat) (u : List Nat × List Nat) : Option ((Nat × Nat) × (List Nat × List Nat)) :=
  match freeSlot u.1, freeRun u.2 k with
  | some s, some g => some ((s, g), (s :: u.1, (List.range k).map (· + g) ++ u.2))
  | _, _ => none

/-- The sub-core with most free slots, the lowest number on a tie (R38). -/
def Dev.firstSub (d : Dev) (sl c : Nat) : Nat :=
  let used := fun b => (d.slotsUsed (coreKey sl c * 4 + b)).length
  (List.range 4).foldl (fun m b => if used b < used m then b else m) 0

/-- Places for warps w to n − 1 (R38, R39), given what is used on each sub-core. -/
def placeWarps (sl c b groups : Nat) (guard : Bool) : (k w : Nat) → (Nat → List Nat × List Nat) → Option (List Place)
  | 0, _, _ => some []
  | k + 1, w, used =>
    let sub := (b + w) % 4
    match takeRoom groups (used sub) with
    | none => none
    | some (x, u) =>
      match (if guard then (takeRoom groups u).map (fun y => (some y.1, y.2)) else some (none, u)) with
      | none => none
      | some (sh, v) =>
        (placeWarps sl c b groups guard k (w + 1) (fun i => if i = sub then v else used i)).map
          (⟨sl, c, sub, x.1, x.2, sh⟩ :: ·)

/-- The places of a workgroup's warps on a core (R38); none when it has no room. -/
def Dev.warpPlaces (d : Dev) (sl c regs warps : Nat) (guard : Bool) : Option (List Place) :=
  let key := fun b => coreKey sl c * 4 + b
  placeWarps sl c (d.firstSub sl c) (groupsOf regs) guard warps 0 (fun b => (d.slotsUsed (key b), d.groupsUsed (key b)))

/-- A core may be given work: it belongs to the partition's run, is no Charon core, and is neither suspect, nor about to be retired, nor
retired without a spare in its place (R17, R18, R27, R227). -/
def Dev.coreUsable (d : Dev) (p sl c : Nat) : Bool :=
  (match d.entry p with | some e => decide (e.first ≤ sl ∧ sl < e.first + e.nsl) | none => false) && decide (c < charon) &&
    !(d.core sl c).retired && !(d.core sl c).retiring && !(d.core sl c).suspect && (!d.flash.retired.contains (sl, c) || d.flash.spareFor sl == some c)

/-- Handles of the shapes fit beside those on a core (R38). -/
def Dev.tilesRoom (d : Dev) (sl c config : Nat) (bs : List (Nat × Level × Nat × Nat)) : Bool :=
  let ts := d.tilesOn sl c ++ bs.map (fun b => Tile.fresh b.2.1 b.2.2.1 b.2.2.2)
  [Level.t, .a, .w, .q].all (fun l => decide (granulesHeld ts l ≤ capacity config l)) && decide (ts.length ≤ 512)

/-- A launch's next workgroup fits a core (R38): places and local windows. -/
def Dev.fits (d : Dev) (x : Launch) (sl c : Nat) : Option (List Place × List Nat) :=
  if d.coreUsable x.part sl c ∧ (d.core sl c).config = x.desc.config ∧ d.tilesRoom sl c x.desc.config x.desc.tiles then
    match d.warpPlaces sl c x.desc.regs x.warps x.desc.guard, d.lwBases x.part x.desc.lwsize (x.warps * x.desc.fibres) with
    | some ps, some bs => some (ps, bs)
    | _, _ => none
  else none

/-! ### The completion word and CANCEL (R32, R247) -/

/-- The device's answer to CANCEL: GO clear and FOUND as it stands (R247). -/
def State.answerCancel (s : State) (p : Nat) (found : Bool) : State :=
  match s.dev.entry p with
  | none => s
  | some e =>
    match (List.range 8).mapM (fun i => (s.dev.guest p .store (e.sblock + 0x50 + i)).toOption) with
    | none => s
    | some as_ =>
      let v := s.dev.gather as_
      s.store as_ (v % 2 ^ 62 + b2n found * 2 ^ 62) true

/-- The completion word of a launch of queue q: written, or LOST is set (R32, R385). -/
def State.writeDone (s : State) (q : Nat) (sp : Space) (a status : Nat) : State :=
  if a = 0 then s
  else
    let lost := s.onDev (fun d => d.setQueue q { d.queue q with lost := true })
    if a % 8 ≠ 0 then lost
    else
      match s.dev.translateRange sp .store 8 a with
      | .ok ps => s.store ps (2 ^ 63 + status) true
      | .error _ => lost

/-! ### Reading the head of a queue (R34, R385) -/

/-- The fields of a launch record in 128 bytes. -/
structure LaunchRec where
  desc : Nat
  gx : Nat
  gy : Nat
  gz : Nat
  warps : Nat
  flags : Nat
  zeros : Bool
  done : Nat
  dep : Nat
  depval : Nat
  args : List Word64

/-- The launch record in a number (R30). -/
def launchRec (x : Nat) : LaunchRec :=
  let f := fieldAt x
  { desc := f 0x00 8, gx := f 0x08 4, gy := f 0x0C 4, gz := f 0x10 4, warps := f 0x14 1, flags := f 0x15 1,
    zeros := f 0x15 1 / 2 == 0 && f 0x16 2 == 0 && f 0x30 16 == 0, done := f 0x18 8, dep := f 0x20 8, depval := f 0x28 8,
    args := (List.range 8).map (fun i => BitVec.ofNat 64 (f (0x40 + 8 * i) 8)) }

/-- The checks of R385 on a record, in order, for partition p: the descriptor, or the status of the first that fails. -/
def Dev.checkLaunch (d : Dev) (p : Nat) (sp : Space) (r : LaunchRec) : Except Nat Desc :=
  if !r.zeros || r.desc % 64 != 0 || r.done % 8 != 0 || r.dep % 8 != 0 then .error 0x03
  else if r.gx = 0 ∨ r.gy = 0 ∨ r.gz = 0 ∨ 2 ^ 32 < r.gx * r.gy * r.gz ∨ r.warps = 0 ∨ 64 < r.warps then .error 0x04
  else
    match d.readDesc sp r.desc with
    | .error e => .error e
    | .ok x =>
      let pool := ((Tab.find d.parts p).map (·.block.lwSize)).getD 0
      if 7 ≤ x.contract ∨ d.caprate x.contract = 0 then .error 0x01
      else if !bitAt (((d.entry p).map (·.cmask)).getD 0) x.contract then .error 0x02
      else if x.fitsEmpty r.warps ∧ poolHolds pool x.lwsize (r.warps * x.fibres) then .ok x
      else .error 0x05

/-- Launch l of queue q has workgroups left to place or withdraw. -/
def Dev.unplaced (d : Dev) (l : Nat) : Bool :=
  match Tab.find d.launches l with
  | some x => decide (x.nextWg < x.total)
  | none => false

/-- The distributor would read the next record of queue q: one is available and the launch read before has no workgroup left to place
(R35) (DEDUCED, assumption 45). -/
def Dev.headReady (d : Dev) (q : Nat) : Bool :=
  d.ready && (d.queueDesc q).isSome && (d.queue q).waiting != 0 &&
    (match (d.queue q).last with | some l => !d.unplaced l | none => true)

/-- The position is marked by a CANCEL (R247). -/
def Dev.isCancelled (d : Dev) (p q pos : Nat) : Bool :=
  match Tab.find d.parts p with
  | some x => x.cancelled.contains (q, pos)
  | none => false

/-- The mark of a position goes. -/
def Dev.unmark (d : Dev) (p q pos : Nat) : Dev :=
  d.updPart p (fun x => { x with cancelled := x.cancelled.filter (fun c => c != (q, pos)) })

/-- Reads and checks the record at the head of queue q (R33, R34, R385). -/
def State.readHead (s : State) (q p : Nat) (x : QDesc) : State :=
  let y := s.dev.queue q
  let pos := y.head
  let sp := queueSpace p x
  let marked := s.dev.isCancelled p q pos
  let t := s.onDev (fun d => (d.setQueue q { y with head := (pos + 1) % 2 ^ 32 }).unmark p q pos)
  match s.dev.readVirtual sp 128 (x.base + pos % 2 ^ x.log2n * 128) with
  | none =>
    let u := t.onDev (fun d => d.setQueue q { d.queue q with lost := true, last := none })
    if marked then u.answerCancel p false else u
  | some v =>
    let r := launchRec v
    match (if marked then .error 0x07 else s.dev.checkLaunch p sp r) with
    | .error st =>
      let u := (t.writeDone q sp r.done st).onDev (fun d => d.setQueue q { d.queue q with last := none })
      if marked then u.answerCancel p true else u
    | .ok e =>
      let (l, u) := t.fresh
      let now := s.dev.cycles.toNat
      let k : Launch :=
        { queue := q, pos := pos, part := p, prev := y.last, s1root := x.s1root, descAddr := r.desc, desc := e,
          gx := r.gx, gy := r.gy, gz := r.gz, warps := r.warps, serial := bitAt r.flags 0, done := r.done, dep := r.dep,
          depval := r.depval, args := r.args, depMet := r.dep == 0, nextWg := 0, finished := 0,
          prio := min x.prio (((s.dev.entry p).map (·.pcap)).getD 0), cap := ((s.dev.entry p).map (·.pcap)).getD 0, waitFrom := now,
          higher := none, fitFrom := none, reserved := none, hold := false, status := 0, ending := false, answer := false }
      u.onDev (fun d => ({ d with launches := d.launches.put l k }).setQueue q { d.queue q with last := some l })

/-- LAUNCH_HEAD_CHECK (R385). -/
def execLaunchHeadCheck (q : Nat) (s : State) : Host.Outcome State Fault Refusal :=
  s.event (fun t =>
    match t.dev.queueDesc q with
    | some (p, x) => if t.dev.headReady q then t.readHead q p x else t
    | none => t)

/-- The dependence word of a launch is at least DEPVAL; a fault counts as a word below it (R35). -/
def Dev.depHolds (d : Dev) (x : Launch) : Bool :=
  match d.readVirtual ⟨x.part, x.s1root, .u⟩ 8 x.dep with
  | some v => decide (x.depval ≤ v)
  | none => false

/-- DEPENDENCE_REREAD (R35). A dependence once met stays met, and its word is not read again while the launch waits for SERIAL or for its
partition's turn (DESIGN CHOICE, assumption 71). The wait of R37 begins when the launch becomes eligible, and so again here (DESIGN CHOICE,
assumption 100). -/
def execDependenceReread (l : Nat) (s : State) : Host.Outcome State Fault Refusal :=
  s.event (fun t =>
    match Tab.find t.dev.launches l with
    | some x =>
      if !x.depMet && t.dev.depHolds x then
        let now := t.dev.cycles.toNat
        t.onDev (·.updLaunch l (fun k => { k with depMet := true, waitFrom := now, fitFrom := none }))
      else t
    | none => t)

/-! ### Eligibility and choice (R35 to R37) -/

/-- The partition's turn: always, unless its run is time-shared (R249). -/
def Dev.inTurn (d : Dev) (p : Nat) : Bool :=
  match d.entry p with
  | some e => !e.tshare || d.turns.any (fun t => t.2.part == p && !t.2.ending)
  | none => false

/-- A launch is eligible and has workgroups left to place (R35). A previous launch that has no completion word counts as having written it
when it ends (DESIGN CHOICE, assumption 101). -/
def Dev.eligible (d : Dev) (x : Launch) : Bool :=
  !x.ending && decide (x.nextWg < x.total) && x.depMet && d.inTurn x.part &&
    (!x.serial || (match x.prev with | some l => (Tab.find d.launches l).isNone | none => true))

/-- Launch y goes before x on a core that both fit (R36): a higher level, or the same with its queue's turn earlier. Among queues that have
placed nothing yet the lowest number goes first (DESIGN CHOICE, assumption 113). -/
def Dev.before (d : Dev) (y x : Launch) : Bool :=
  decide (x.prio < y.prio) ||
    (x.prio == y.prio && (decide ((d.queue y.queue).turn < (d.queue x.queue).turn) ||
      ((d.queue y.queue).turn == (d.queue x.queue).turn && decide (y.queue < x.queue))))

/-- A core is kept for a workgroup of another launch, or for a saved one other than g (R40, R76, R223). A reservation counts while its
workgroup could go there: while its launch is eligible, or its partition in turn. -/
def Dev.keptFrom (d : Dev) (l g : Option Nat) (sl c : Nat) : Bool :=
  d.launches.any (fun x => l != some x.1 && x.2.reserved == some (sl, c) && d.eligible x.2) ||
    d.saved.any (fun x => g != some x.1 && x.2.reserved == some (sl, c) && d.inTurn x.2.wg.part)

/-- The core is kept for another workgroup than the next of launch l. -/
def Dev.reservedFor (d : Dev) (l sl c : Nat) : Bool := d.keptFrom (some l) none sl c

/-- Another launch of the partition is to have all its workgroups placed first (R156). -/
def Dev.heldBack (d : Dev) (l p : Nat) : Bool :=
  d.launches.any (fun y => y.1 != l && y.2.part == p && y.2.hold && !y.2.ending && decide (y.2.nextWg < y.2.total))

/-- Launch l may use a core for its next workgroup: it is eligible and fits, and neither the core nor the partition is kept for another.
A launch whose workgroups are all to be placed first passes over what is kept for others (R156) (DEDUCED, assumption 72). -/
def Dev.mayUse (d : Dev) (l : Nat) (x : Launch) (sl c : Nat) : Bool :=
  d.eligible x && (d.fits x sl c).isSome && !d.heldBack l x.part && (x.hold || !d.reservedFor l sl c)

/-- Launch l places its next workgroup on a core: it may use the core, and no launch that goes before it may (R36). -/
def Dev.mayPlace (d : Dev) (l sl c : Nat) : Bool :=
  match Tab.find d.launches l with
  | some x => d.mayUse l x sl c && d.launches.all (fun y => y.1 == l || !(d.before y.2 x && d.mayUse y.1 y.2 sl c))
  | none => false

/-! ### Placement (R8, R31, R38, R41, R68) -/

/-- The initial stack pointer (R235). -/
def stackTop (lwsize : Nat) : Nat := lwsize / 32 - 16

/-- The vector registers at a fibre's first instruction: v31 holds the stack pointer where the window reaches it (R8). -/
def initialRegs (p : List Nat) (lwsize : Nat) : Tab Word32 :=
  ((List.range p.length).filter (fun f => decide (32 ≤ p.getD f 0))).foldl (fun t f =>
    (List.range 32).foldl (fun t l =>
      Tab.set 0 t (((p.take f).sum + 31) * 32 + l) (BitVec.ofNat 32 (stackTop lwsize))) t) []

/-- A fibre at its first instruction (R8, R41, R68). -/
def Fib.atEntry (x : Desc) (args : List Word64) (f base : Nat) : Fib :=
  let e := x.entry.getD f 0
  { Fib.zero with
    splits := [(0, { parent := 63, pc := e, mask := BitVec.allOnes 32, st := .ready, sos := false, last := 0, wait := none })],
    s := args.zipIdx.foldl (fun t a => Tab.set 0 t a.2 a.1) [],
    lwbase := BitVec.ofNat 64 base, lwsize := BitVec.ofNat 64 x.lwsize, entry := e }

/-- A warp at its first instruction; a shadow starts with the same registers (R225). -/
def Warp.atEntry (x : Desc) (args : List Word64) (p : Place) : Warp :=
  let v := initialRegs x.p x.lwsize
  { Warp.zero with
    n := x.regs, p := x.p, shared := x.shared, v := v, place := p,
    shadow := p.shadow.map (fun _ => Shadow.at v ((List.range x.fibres).map (fun f => (f, Fib.atEntry x args f 0)))) }

/-- A workgroup as it is placed. -/
def Launch.wgAt (x : Launch) (l sl c : Nat) : Wg :=
  let n := x.nextWg
  { Wg.zero with
    launch := some l, part := x.part, x := n % x.gx, y := n / x.gx % x.gy, z := n / (x.gx * x.gy),
    contract := x.desc.contract, config := x.desc.config, slice := sl, core := c, nwarps := x.warps,
    nfibs := x.desc.fibres,
    tiles := x.desc.tiles.foldl (fun t b => Tab.put t b.1 (Tile.fresh b.2.1 b.2.2.1 b.2.2.2)) [] }

/-- Places launch l's next workgroup, named g, with these places and local windows. -/
def Dev.place (d : Dev) (l : Nat) (x : Launch) (g sl c : Nat) (ps : List Place) (bs : List Nat) : Dev :=
  let nf := x.desc.fibres
  let fibs := (List.range (x.warps * nf)).foldl (fun t i =>
    Tab.put t (g * 256 + i / nf * 4 + i % nf) (Fib.atEntry x.desc x.args (i % nf) (bs.getD i 0))) d.fibs
  let warps := ps.zipIdx.foldl (fun t p => Tab.put t (g * 64 + p.2) (Warp.atEntry x.desc x.args p.1)) d.warps
  let now := d.cycles.toNat
  let ls := d.launches.map (fun y =>
    if y.1 = l then
      (l, { y.2 with nextWg := y.2.nextWg + 1, waitFrom := now, higher := none, fitFrom := none, reserved := none })
    else if y.2.prio < x.prio then (y.1, { y.2 with higher := some now })
    else y)
  ({ d with fibs := fibs, warps := warps, wgs := d.wgs.put g (x.wgAt l sl c), launches := ls }).setQueue x.queue
    { d.queue x.queue with turn := g + 1 }

/-- The cores of a partition that may be given work, slices and cores rising. -/
def Dev.coresOf (d : Dev) (p : Nat) : List (Nat × Nat) :=
  (((List.range 12).map (fun sl => (List.range 24).map (fun c => (sl, c)))).flatten).filter (fun x => d.coreUsable p x.1 x.2)

/-- The cores of the partition have room for k more workgroups of launch l (R156, R38, R39), which are named from g on. -/
def Dev.roomForAll (l sl c : Nat) : (k g : Nat) → (d : Dev) → Bool
  | 0, _, _ => true
  | k + 1, g, d =>
    match Tab.find d.launches l with
    | none => false
    | some x =>
      match ((sl, c) :: d.coresOf x.part).findSome? (fun y => (d.fits x y.1 y.2).map (fun r => (y, r))) with
      | some (y, ps, bs) => Dev.roomForAll l y.1 y.2 k (g + 1) (d.place l x g y.1 y.2 ps bs)
      | none => false

/-- When its first workgroup is placed, launch l is to have all of them placed before any of another launch (R156): its partition has room
for all, and no other eligible launch of it of equal or higher priority has workgroups left. There are 18,432 slots. -/
def Dev.promised (d : Dev) (l : Nat) (x : Launch) (sl c : Nat) : Bool :=
  x.nextWg == 0 && d.launches.all (fun y => y.1 == l || y.2.part != x.part || decide (y.2.prio < x.prio) || !d.eligible y.2) &&
    d.roomForAll l sl c (min x.total 18433) d.nextId

/-- WORKGROUP_PLACE (R36, R38, R156): launch l's next workgroup goes to core c of slice sl. -/
def execWorkgroupPlace (l sl c : Nat) (s : State) : Host.Outcome State Fault Refusal :=
  s.event (fun t =>
    match Tab.find t.dev.launches l with
    | some x =>
      match t.dev.mayPlace l sl c, t.dev.fits x sl c with
      | true, some (ps, bs) =>
        let (g, u) := t.fresh
        u.onDev (fun d => (d.place l x g sl c ps bs).updLaunch l (fun k => { k with hold := x.hold || t.dev.promised l x sl c }))
      | _, _ => t
    | none => t)

/-- A launch rises one level, up to the cap that held when its record was read (R37, R245). -/
def Dev.promotes (d : Dev) (x : Launch) : Bool :=
  let now := d.cycles.toNat
  let recent := match x.higher with | some c => decide (now ≤ c + 2500000) | none => false
  d.eligible x && decide (x.prio < x.cap ∧ x.waitFrom + 2500000 ≤ now) && recent

/-- PRIORITY_PROMOTION (R37). -/
def execPriorityPromotion (l : Nat) (s : State) : Host.Outcome State Fault Refusal :=
  s.event (fun t =>
    match Tab.find t.dev.launches l with
    | some x =>
      let now := t.dev.cycles.toNat
      if t.dev.promotes x then
        t.onDev (·.updLaunch l (fun k => { k with prio := k.prio + 1, waitFrom := now, higher := none }))
      else t
    | none => t)

/-! ### Waiting for a core (R40) -/

/-- Register groups that a core lacks for a workgroup (R40). -/
def Dev.groupsLacked (d : Dev) (x : Launch) (sl c : Nat) : Nat :=
  let b := d.firstSub sl c
  ((List.range 4).map (fun i =>
    let k := coreKey sl c * 4 + (b + i) % 4
    warpsOnSub x.warps i * x.desc.copies * groupsOf x.desc.regs - (64 - (d.groupsUsed k).eraseDups.length))).sum

/-- The item of least rank, the first on a tie. -/
def firstLeast {α : Type} (rank : α → Nat) : List α → Option α
  | [] => none
  | x :: r =>
    match firstLeast rank r with
    | some y => if rank y < rank x then some y else some x
    | none => some x

/-- The next workgroup of a launch waits: the launch is eligible, and the workgroup fits no core (R40). -/
def Dev.fitsNone (d : Dev) (x : Launch) : Bool := d.eligible x && (d.coresOf x.part).all (fun c => (d.fits x c.1 c.2).isNone)

/-- A wait that began at cycle c, if at all, has lasted 250,000 cycles. -/
def Dev.longAgo (d : Dev) (c : Option Nat) : Bool :=
  match c with
  | some n => decide (n + 250000 ≤ d.cycles.toNat)
  | none => false

/-- A launch whose next workgroup fits no core and has waited 250,000 cycles (R40). -/
def Dev.longWaiting (d : Dev) (x : Launch) : Bool := d.longAgo x.fitFrom && d.fitsNone x

/-- Warps on a core: those of the workgroups that stand on it, exited ones too, and no shadows (DESIGN CHOICE, assumption 105). -/
def Dev.warpsOn (d : Dev) (sl c : Nat) : Nat := (d.warps.filter (fun p => p.2.place.slice == sl && p.2.place.core == c)).length

/-! ### Room for a saved workgroup (R223) -/

/-- The core that a workgroup moved after a lasting fault has left, which it may not use again (R227). -/
def Saved.left (x : Saved) : Option (Nat × Nat) :=
  match x.wg.saving with
  | some v => if v.move.isSome && !v.coreGone then some (x.wg.slice, x.wg.core) else none
  | none => none

/-- The places that a saved workgroup would take on a core (R223, R38, R40); the move of a guarded warp needs another core (R227). -/
def Dev.restoreRoom (d : Dev) (x : Saved) (sl c : Nat) : Option (List Place) :=
  let bs := x.wg.tiles.map (fun t => (t.1, t.2.lvl, t.2.rows, t.2.rb))
  let units := (x.wg.tiles.map (fun t => dictUnits t.2.dicts)).sum
  let w := (x.warps.head?.map (·.2)).getD .zero
  if d.coreUsable x.wg.part sl c ∧ (d.core sl c).config = x.wg.config ∧ d.tilesRoom sl c x.wg.config bs ∧
      d.unitsOn sl c 0 64 (fun _ => false) + units ≤ 512 ∧ x.left ≠ some (sl, c) then
    d.warpPlaces sl c w.n x.wg.nwarps w.place.shadow.isSome
  else none

/-- A saved workgroup waits: its partition is in turn, and no core has room for it (R40, R223). -/
def Dev.restoreWaits (d : Dev) (x : Saved) : Bool :=
  d.inTurn x.wg.part && (d.coresOf x.wg.part).all (fun c => (d.restoreRoom x c.1 c.2).isNone)

/-- Since when a workgroup waits, noted now: it starts anew once it has not waited. -/
def waitSince (waits : Bool) (now : Nat) (old : Option Nat) : Option Nat := if waits then some (old.getD now) else none

/-- Notes since when workgroups have waited for a core (R40, R76, R223). -/
def Dev.noteWaits (d : Dev) : Dev :=
  let now := d.cycles.toNat
  { d with
    launches := d.launches.map (fun x => (x.1, { x.2 with fitFrom := waitSince (d.fitsNone x.2) now x.2.fitFrom }))
    saved := d.saved.map (fun x => (x.1, { x.2 with since := waitSince (d.restoreWaits x.2) now x.2.since })) }

/-! ### Changing a core (R75, R76) -/

/-- The core that is kept for a workgroup of partition p, while it can be used: one that has become suspect or retired is kept no longer, and
another may be (R17, R227) (DESIGN CHOICE, assumption 73). -/
def Dev.keptCore (d : Dev) (p : Nat) (reserved : Option (Nat × Nat)) : Option (Nat × Nat) := reserved.filter (fun c => d.coreUsable p c.1 c.2)

/-- A core to which something happens for a workgroup of partition p that waits for configuration cfg: one that has been kept for it, and
is changed once it is empty, or, after 250,000 cycles in which none of the cores it may use is in cfg, one that is kept from now on: the
core with the fewest warps that is kept for no other (DESIGN CHOICE, assumption 73), the lowest slice and core on a tie. Held tells that
another launch's workgroups are all to be placed first, so that no core is changed (DESIGN CHOICE, assumption 120); not is a core that it may
not use (R227). While a core of the partition is in cfg, though it is full, none is changed (DESIGN CHOICE, assumption 115). -/
def Dev.changeFor (d : Dev) (p cfg : Nat) (waits long held : Bool) (reserved not : Option (Nat × Nat)) : Option (Nat × Nat) :=
  let other := fun (c : Nat × Nat) => (d.core c.1 c.2).config != cfg || not == some c
  match d.keptCore p reserved with
  | some c => if waits && (d.core c.1 c.2).config != cfg && d.warpsOn c.1 c.2 == 0 && !held then some c else none
  | none =>
    let cs := d.coresOf p
    if waits && long && cs.all other then
      firstLeast (fun c => d.warpsOn c.1 c.2) (cs.filter (fun c => not != some c && !d.keptFrom none none c.1 c.2))
    else none

/-- The core that is kept for launch l's configuration, or changed (R75, R76), and the saved workgroup of l it is for (R40, R223), or none
for the launch's next. -/
def Dev.coreToChange (d : Dev) (l : Nat) (x : Launch) : Option (Option Nat × Nat × Nat) :=
  let held := d.heldBack l x.part
  match d.changeFor x.part x.desc.config (d.fitsNone x) (d.longAgo x.fitFrom) held x.reserved none with
  | some c => some (none, c)
  | none => d.saved.findSome? (fun g =>
      if g.2.wg.launch = some l then
        (d.changeFor x.part g.2.wg.config (d.restoreWaits g.2) (d.longAgo g.2.since) held g.2.reserved g.2.left).map (fun c => (some g.1, c))
      else none)

/-- The core is kept for a saved workgroup, or for the next of launch l (R40, R76, R223). -/
def Dev.keepCore (d : Dev) (l : Nat) (g : Option Nat) (c : Nat × Nat) : Dev :=
  match g with
  | none => d.updLaunch l (fun k => { k with reserved := some c })
  | some g => { d with saved := d.saved.upd g (fun k => { k with reserved := some c }) }

/-- CORE_STORE_CHANGE (R75, R76). -/
def execCoreStoreChange (l : Nat) (s : State) : Host.Outcome State Fault Refusal :=
  s.event (fun t =>
    match Tab.find t.dev.launches l with
    | some x =>
      match t.dev.coreToChange l x with
      | some (g, c) =>
        t.onDev (fun d =>
          let e := d.keepCore l g c
          if d.warpsOn c.1 c.2 = 0 ∧ !d.heldBack l x.part then e.setCore c.1 c.2 { e.core c.1 c.2 with config := x.desc.config } else e)
      | none => t
    | none => t)

/-! ### The end of workgroups and launches -/

/-- Every fibre of workgroup g has exited, no shadow of it trails, and none of its commands is left (R74, R225, R302). -/
def Dev.wgDone (d : Dev) (g : Nat) : Bool :=
  (d.fibs.filter (fun p => p.1 / 256 == g)).all (fun p => p.2.exited) && d.cmds.all (fun c => c.2.wg != g) &&
    (d.warps.filter (fun w => w.1 / 64 == g)).all (fun w => !w.2.trails)

/-- WORKGROUP_RELEASE (R41, R74). -/
def execWorkgroupRelease (w : Nat) (s : State) : Host.Outcome State Fault Refusal :=
  s.event (fun t =>
    match Tab.find t.dev.wgs w with
    | some g =>
      if t.dev.wgDone w then
        t.onDev (fun d =>
          let e := d.dropWg w
          match g.launch with
          | some l => e.updLaunch l (fun x => { x with finished := x.finished + 1 })
          | none => e)
      else t
    | none => t)

/-- A launch has ended (R41, R213): every workgroup has, and no command of it is left. -/
def Dev.launchDone (d : Dev) (l : Nat) (x : Launch) : Bool :=
  decide (x.total ≤ x.nextWg ∧ x.total ≤ x.finished) && d.cmds.all (fun c => c.2.launch != some l) && (d.wgsOf l).isEmpty

/-- Every workgroup of launch l has ended (R41), be it released yet or not, and no command of it is left (R32). -/
def Dev.launchOver (d : Dev) (l : Nat) (x : Launch) : Bool :=
  let mine := d.wgs.filter (fun g => g.2.launch == some l)
  decide (x.total ≤ x.nextWg ∧ x.total ≤ x.finished + mine.length) && mine.all (fun g => d.wgDone g.1) &&
    d.saved.all (fun g => g.2.wg.launch != some l) && d.cmds.all (fun c => c.2.launch != some l)

/-- A record of cause 0x5D that still waits for a launch that has ended is not written any more (R247) (DEDUCED, assumption 81). -/
def Dev.dropCancel (d : Dev) (l : Nat) : Dev :=
  { d with slices := d.slices.map (fun x =>
      (x.1, { x.2 with waiting := x.2.waiting.filter (fun r => !(r.data.cause == 0x5D && r.launch == some l)) })) }

/-- COMPLETION_WORD_WRITE (R32, R385); a CANCEL that waited for it is answered: FOUND tells whether the launch was cancelled (R247). -/
def execCompletionWordWrite (l : Nat) (s : State) : Host.Outcome State Fault Refusal :=
  s.event (fun t =>
    match Tab.find t.dev.launches l with
    | some x =>
      if t.dev.launchDone l x then
        let u := t.writeDone x.queue ⟨x.part, x.s1root, .u⟩ x.done x.status
        let now := t.dev.cycles.toNat
        let v := u.onDev (fun d =>
          { d.dropCancel l with launches := (d.launches.del l).map (fun y =>
              if y.2.prev = some l ∧ y.2.serial then (y.1, { y.2 with waitFrom := now, fitFrom := none }) else y) })
        if x.answer then v.answerCancel x.part (x.status == 0x07) else v
      else t
    | none => t)

end Sys2Proof.Machine
end

