-- ==== Sys2Proof/Machine/Policy.lean ====
section
/-!
DEFINITION. What a step is made of besides the meaning of its instruction: whether the chosen split may issue, the counting of
issue opportunities and cycles.
-/
namespace Sys2Proof.Machine

/-- A fibre lets its splits issue: it has not exited, is not stopped by the context engine, and waits for no service. -/
def Fib.runs (f : Fib) : Bool := !f.exited && !f.inService && !f.hasStopped

/-- The current split may issue: it is ready, and a trapped fibre issues only from its handler split (R51, R52). -/
def State.canIssue (s : State) : Bool :=
  match s.cur with
  | none => false
  | some c =>
    s.fib.runs && (c.handler || s.fib.trapped.isNone) &&
      (match s.split.st with
        | .ready | .woken _ => true
        | .stalled _ ds _ _ => ds.all s.depMet
        | _ => false)

/-- The chosen split comes to its instruction: a stall of it is over (R51), and what had the slot pass has been done (R49, R54). -/
def State.attempt (s : State) : State :=
  { s with
    split := { s.split with st := s.split.st.afterStall },
    warp := { s.warp with pass := false }, dev := { s.dev with chosen := false } }

/-- The slot takes an issue opportunity: the split counts as having issued last (R45, R49, R50). -/
def State.begin (s : State) : State :=
  let t := s.attempt
  let n := t.warp.opps + 1
  { t with
    split := { t.split with last := n, wait := none, unheld := none }, warp := { t.warp with opps := n },
    dev := { t.dev with lastSub := t.warp.place.subKey, lastSlot := t.dev.lastSlot.put t.warp.place.subKey (t.warp.place.slot + 1) } }

/-- A state in which a split lets its slot pass at once, whatever becomes of it before the slot's next choice: stalled on an instruction that
an SOS governs, parked, or waiting at a barrier (R11, R49). -/
def SplitState.passes : SplitState → Bool
  | .stalled sos _ _ _ => sos
  | .parked _ | .barWait _ _ | .fbarWait _ _ => true
  | _ => false

/-- The split whose instruction has to wait issues nothing: the cycle is no issue opportunity of its slot (R50), which passes where an SOS
governs the instruction (R49). -/
def State.waitWith (s : State) (x : SplitState) : State :=
  let t := s.attempt
  { t with split := { t.split with st := x }, warp := { t.warp with pass := x.passes } }

/-- The split that c names has stalled: its instruction has not issued. -/
def State.waits (t : State) (c : Option Cur) : Bool :=
  t.cur.map (·.key) == c.map (·.key) && (match t.split.st with | .stalled _ _ _ _ => true | _ => false)

/-- The slot passes where the split that issued in it parks, waits at a barrier, or freezes for the fault service (R49). -/
def State.passSlot (t : State) : State :=
  { t with warp := { t.warp with pass := t.warp.pass || t.cur.isSome && (t.split.st.passes || t.fib.inService) } }

/-- The chosen split issues what run does, in an opportunity of its slot; where it turns out that it has to wait, it has no other effect
than the wait (R50). -/
def State.issues (s : State) (run : State → Host.Outcome State Fault Refusal) : Host.Outcome State Fault Refusal :=
  match run s.begin with
  | .next t => .next (if t.waits s.cur then s.waitWith t.split.st else t.passSlot)
  | x => x

/-- A port while nothing is refused: the receiver takes the flit that comes next in order, and the sender sends the next one of those that
it has to send again (R25); how many a step moves is the model's (DESIGN CHOICE, assumption 98). -/
def Port.run (x : Port) : Port :=
  { x with taken := if x.taken < x.next then x.taken + 1 else x.taken, next := if x.next < x.sent then x.next + 1 else x.next }

/-- The count of cycles when n more have passed: it never decreases (R323), and stands still at its greatest value (DESIGN CHOICE, assumption
32). -/
def laterBy (c : Word64) (n : Nat) : Word64 := BitVec.ofNat 64 (min (c.toNat + n) (2 ^ 64 - 1))

/-- A step takes some number of cycles (R28) (DESIGN CHOICE, assumption 32), in which the fabric's ports go on (R25). -/
def State.tick (s : State) : State :=
  { s with dev := { s.dev with
      ports := s.dev.ports.map (fun p => (p.1, p.2.run)),
      cycles := laterBy s.dev.cycles (Config.freeCycles s.dev.freeCount), freeCount := s.dev.freeCount + 1 } }

end Sys2Proof.Machine
end

