-- ==== Sys2Proof/Machine/Schedule.lean ====
section
/-!
DEFINITION. Which split issues next (spec/03_execution.md R45 to R52): the choice of a slot and of a split within it, its
exceptions, the swap with a spilled split, and the steps that make waiting splits ready again (R50, R154, R206).
-/
namespace Sys2Proof.Machine

/-! ### Ready splits -/

/-- A stalled split whose operands are there is ready (R51). -/
def State.unstall (s : State) (x : SplitSt) : SplitSt :=
  match x.st with
  | .stalled _ ds _ _ => if ds.all s.depMet then { x with st := x.st.afterStall } else x
  | _ => x

/-- Notes since which opportunity of its slot a split has been ready without issuing, and ready and not held; one that cannot run, its
fibre frozen or stopped, is not ready (R51). -/
def SplitSt.noteReady (opps : Nat) (runs held : Bool) (x : SplitSt) : SplitSt :=
  if runs && x.isReady then
    { x with wait := some (x.wait.getD opps), unheld := if held then none else some (x.unheld.getD opps) }
  else { x with wait := none, unheld := none }

/-- Notes the waits of a fibre's splits. -/
def Fib.noteReady (opps : Nat) (f : Fib) : Fib :=
  { f with
    splits := f.splits.map (fun p =>
      (p.1, p.2.noteReady opps (f.runs && f.trapped.isNone) (heldIn f.splits p.1 p.2)))
    handler := f.handler.map (SplitSt.noteReady opps f.runs false) }

/-- Every split of the device in the tables: stalls that are over end, and waits are noted, those of workgroups for a core too. -/
def State.refresh (s : State) : State :=
  (s.mapFibs (fun k f =>
    let n := ((Tab.find s.dev.warps (k / 4)).map (·.opps)).getD 0
    (f.mapSplits s.unstall).noteReady n)).onDev Dev.noteWaits

/-- The splits of fibre f that are ready and not held: id, whether it is the handler split, and the split (R45, R52). -/
def Fib.candidates (f : Fib) : List (Nat × Bool × SplitSt) :=
  if !f.runs then []
  else if f.trapped.isSome then (f.handler.toList.filter (·.isReady)).map (fun x => (64, true, x))
  else (f.splits.filter (fun p => p.2.isReady && !heldIn f.splits p.1 p.2)).map (fun p => (p.1, false, p.2))

/-- The split that issued longest ago, the lower id first on a tie (R49). -/
def longestAgo (l : List (Nat × Bool × SplitSt)) : Option (Nat × Bool × SplitSt) :=
  l.foldl (fun b c => match b with
    | some x => if c.2.2.last < x.2.2.last then some c else b
    | none => some c) none

/-- The fibre of a warp with number f, in the tables. -/
def Dev.fibOf (d : Dev) (w f : Nat) : Option Fib := Tab.find d.fibs (w * 4 + f)

/-- How the current split of a warp stands: the split, and the fibre. -/
def Dev.current (d : Dev) (w : Nat) (wp : Warp) : Option (Nat × SplitSt × Fib) :=
  wp.cur.bind (fun c => (d.fibOf w c.1).bind (fun f =>
    (if c.2.2 then f.handler else Tab.find f.splits c.2.1).map (fun x => (c.1, x, f))))

/-- A split stalled without SOS keeps its slot for 1,024 cycles (R49). -/
def Dev.keepsStalled (d : Dev) (x : SplitSt) : Bool :=
  match x.st with
  | .stalled false _ c _ => decide (d.cycles.toNat < c + 1024)
  | _ => false

/-- Candidates of a warp by fibre, starting after fibre f (R49). -/
def Dev.candidatesAfter (d : Dev) (w f : Nat) : List (Nat × List (Nat × Bool × SplitSt)) :=
  [1, 2, 3, 4].map (fun i => ((f + i) % 4, match d.fibOf w ((f + i) % 4) with | some x => x.candidates | none => []))

/-- The first candidate in the order of R49, apart from the current split c. -/
def firstCandidate (c : Option (Nat × Nat × Bool)) (l : List (Nat × List (Nat × Bool × SplitSt))) :
    Option (Nat × Nat × Bool) :=
  l.findSome? (fun p =>
    (longestAgo (p.2.filter (fun x => c != some (p.1, x.1, x.2.1)))).map (fun x => (p.1, x.1, x.2.1)))

/-- A ready split's claim to an issue opportunity: since when it waits, the split, whether it is held, and since when it has been ready,
held or not. -/
structure Claim where
  since : Nat
  pick : Nat × Nat × Bool
  held : Bool
  ready : Nat

/-- The claims of fibre n's splits. -/
def Fib.claims (opps n : Nat) (f : Fib) : List Claim :=
  if !f.runs then []
  else if f.trapped.isSome then
    (f.handler.toList.filter (·.isReady)).map (fun x => ⟨x.unheld.getD opps, (n, 64, true), false, x.wait.getD opps⟩)
  else (f.splits.filter (fun p => p.2.isReady)).map (fun p =>
    let held := heldIn f.splits p.1 p.2
    ⟨(if held then p.2.wait else p.2.unheld).getD opps, (n, p.1, false), held, p.2.wait.getD opps⟩)

/-- The claims of a warp's splits. -/
def Dev.claims (d : Dev) (w opps : Nat) : List Claim :=
  ([0, 1, 2, 3].map (fun n => ((d.fibOf w n).map (Fib.claims opps n)).getD [])).flatten

/-- The claim can wait no longer: a held split has been ready for 64 opportunities (R45); one that is not held would not issue within 64
opportunities if all that have been ready as long, held ones too, went first (R50) (DEDUCED, assumption 31). -/
def Claim.due (opps : Nat) (l : List Claim) (c : Claim) : Bool :=
  if c.held then decide (c.since + 64 ≤ opps)
  else decide (c.since + 64 ≤ opps + (l.filter (fun x => decide (x.ready ≤ c.since))).length)

/-- The one with the least rank. -/
def leastBy {α : Type} (rank : α → Nat) (l : List α) : Option α :=
  l.foldl (fun b c => match b with
    | some x => if rank c < rank x then some c else b
    | none => some c) none

/-- The split that the slot passes to because some split can wait no longer: the one that has waited longest (R45, R50). -/
def Dev.mustPass (d : Dev) (w opps : Nat) : Option (Nat × Nat × Bool) :=
  let l := d.claims w opps
  if l.any (Claim.due opps l) then (leastBy Claim.since (l.filter (fun c => !c.held || c.due opps l))).map (·.pick) else none

/-- The current split, stalled without SOS, holds its slot, and the slot issues nothing (R49). -/
def Dev.holdsSlot (d : Dev) (w : Nat) (wp : Warp) : Bool :=
  match d.current w wp with
  | some (_, x, f) => f.runs && (f.trapped.isNone || (wp.cur.map (·.2.2)).getD false) && d.keepsStalled x && !wp.pass
  | none => false

/-- The split that a slot would issue: fibre, id, handler; none when it issues nothing (R45, R49, R50). -/
def Dev.slotChoice (d : Dev) (w : Nat) (wp : Warp) : Option (Nat × Nat × Bool) :=
  let c := wp.cur.map (fun x => (x.1, if x.2.2 then 64 else x.2.1, x.2.2))
  let l := d.candidatesAfter w ((c.map (·.1)).getD 3)
  let here := match c with
    | some x => (l.any (fun p => p.1 == x.1 && p.2.any (fun y => y.1 == x.2.1 && y.2.1 == x.2.2)))
    | none => false
  let next := firstCandidate c l
  if !here && d.holdsSlot w wp then none
  else
    match d.mustPass w wp.opps with
    | some x => some x
    | none =>
      if here then (if wp.pass then (match next with | some x => some x | none => c) else c)
      else next

/-! ### Shadows of guarded warps (R225, R226) -/

/-- An instruction by which values leave the warp or that is a pinning event: it waits until the shadow has come to it (R226). What a
substitute sequence does counts as such (DESIGN CHOICE, assumption 28). -/
def leavesWarp : Instr → Bool
  | .st _ _ _ _ _ _ _ | .atom _ _ _ _ _ _ _ | .cas _ _ _ _ _ _ _ | .red _ _ _ _ _ _ | .wake _ _ _ _ _ | .savem _ _ _ _ | .tst _ _ _ _
  | .accwr _ _ _ _ | .mma _ | .mmas _ _ | .mmag _ _ _ _ _ _ _ _ _ | .cpy _ | .cpyg _ | .cpyq _ _ _ _ _ | .wload _ _ _ _
  | .dict _ _ _ _ _ _ _ | .coll _ | .launch _ _ _ _ | .wgtake _ _ | .bar _ _ _ | .barArrive _ _ _ | .fbar _ _ | .fence _ _
  | .waita _ _ _ _ _ _ _ _ | .talloc _ _ _ _ _ | .tfree _ _ | .tzero _ _ | .substituteSequence _ => true
  | .ld _ _ strong _ _ _ _ => strong
  | .setsr _ _ num _ => num == 0x050 || num == 0x051
  | _ => false

/-- An instruction that takes values from outside the warp's registers as it issues, which the shadow gets through its queue (R226). An
INV passes its body's on itself, and WGTAKE's come with its answer; ILOCK receives whether its range was granted. -/
def receivesValues : Instr → Bool
  | .ld _ _ _ _ _ _ _ | .loadm _ _ _ _ | .atom _ _ _ _ _ _ _ | .cas _ _ _ _ _ _ _ | .waita _ _ _ _ _ _ _ _ | .tokq _ _ _
  | .tld _ _ _ _ | .accrd _ _ _ _ | .accrdMd _ _ _ | .ilock _ _ _ _ | .substituteSequence _ => true
  | .getsr _ _ _ num => num == 0x058 || num == 0x059
  | _ => false

/-- The current warp has a shadow. -/
def State.guarded (s : State) : Bool := s.warp.place.shadow.isSome

/-- What instruction i has to wait for on account of the shadow: that it has come to i, or that its queue has room (R226). -/
def State.shadowWait (s : State) (i : Instr) : Option Dep :=
  if !s.guarded then none
  else if leavesWarp i && s.warp.trails then some (.shadow s.warpKey false)
  else if receivesValues i && !s.warp.hasRoom then some (.shadow s.warpKey true)
  else none

/-- The split has not issued its instruction: it stalls, or is parked. -/
def SplitSt.held (x : SplitSt) : Bool :=
  match x.st with
  | .stalled _ _ _ _ | .parked _ => true
  | _ => false

/-- The instruction that c has just issued, which left the fibre f, has trapped. -/
def Cur.trapped (c : Cur) (f : Fib) : Bool := f.inService || (f.trapped.isSome && !c.handler)

/-- The shadow of the warp from which c issued instruction i trails by it, with what i has received in the queue, unless i has not been
issued (R225, R226). One that traps has received nothing. -/
def State.passOn (c : Option Cur) (i : Instr) (s : State) : State :=
  match c with
  | none => s
  | some x =>
    let entries := fun (f : Fib) => if receivesValues i && !x.trapped f then 1 else 0
    if s.cur.map (·.key) = some x.key then (if s.split.held then s else s.pushStep (entries s.fib))
    else s.onDev (fun d => match Tab.find d.fibs x.key with
      | some f => d.updWarp (x.key / 4) (fun w => w.pushStep (x.key % 4) f.shadowed (entries f))
      | none => d)

/-- The fibre that issues would be pinned by a record of its trap (R216), were it to run in this way. -/
def State.wouldPin (s : State) (run : State → Host.Outcome State Fault Refusal) : Bool :=
  match s.cur, run { s with fib := { s.fib with pinned := false } } with
  | some c, .next t => (t.fibreOf c).any (fun f => f.inService && f.pinned)
  | _, _ => false

/-- A split of a guarded warp runs: a trap whose record pins the fibre is held, as every pinning event is, until the shadow has come to the
instruction (R216, R226). -/
def State.holdRecord (s : State) (run : State → Host.Outcome State Fault Refusal) : Host.Outcome State Fault Refusal :=
  if s.warp.trails && s.wouldPin run then .next (s.stall [.shadow s.warpKey false]) else run s

/-- The shadow of warp w issues, in its own slot: it comes to the next instruction, and statuses that have waited for room in its queue
reach their tokens (R225, R226). -/
def Dev.shadowIssue (d : Dev) (w : Nat) : Dev :=
  (d.updWarp w (fun x => { x with shadow := x.shadow.map Shadow.issue })).deliverTo w

/-! ### Slots (R48) -/

/-- A slot that would issue: its warp, its place, the split it would issue, the cycle since which it has been issuable, plus
one, and whether it is the shadow's slot. -/
structure ReadySlot where
  w : Nat
  place : Place
  pick : Nat × Nat × Bool
  since : Nat
  shadow : Bool

/-- The slot of a shadow that trails (R225). -/
def Warp.shadowSlot (w : Nat) (x : Warp) : Option ReadySlot :=
  match x.shadow, x.place.shadow with
  | some h, some p => if h.trail.isEmpty then none else some ⟨w, { x.place with slot := p.1 }, (0, 0, false), h.issuableSince, true⟩
  | _, _ => none

/-- The slots that would issue. -/
def Dev.issuable (d : Dev) : List ReadySlot :=
  d.warps.filterMap (fun p => (d.slotChoice p.1 p.2).map (fun c => ⟨p.1, p.2.place, c, p.2.issuableSince, false⟩)) ++
  d.warps.filterMap (fun p => p.2.shadowSlot p.1)

/-- The slot that sub-core k issues from: one issuable for 16 cycles, the oldest first, else the next in round robin. -/
def Dev.subChoice (d : Dev) (l : List ReadySlot) (k : Nat) : Option ReadySlot :=
  let mine := l.filter (fun x => x.place.subKey == k)
  let aged := mine.filter (fun x => x.since != 0 && decide (x.since + 15 ≤ d.cycles.toNat))
  match leastBy ReadySlot.since aged with
  | some x => some x
  | none => leastBy (fun x => (x.place.slot + 16 - Tab.get 0 d.lastSlot k) % 16) mine

/-- The choice of a slot: the picked one when its sub-core would issue from it, else that of the sub-core after the one that issued
last. -/
def Dev.choose (d : Dev) (pick : Option Nat) : Option ReadySlot :=
  let l := d.issuable
  let all : List ReadySlot := ((l.map (fun x => x.place.subKey)).eraseDups).filterMap (d.subChoice l)
  let rank := fun (k : Nat) => if d.lastSub < k then k - d.lastSub else k + 4096 - d.lastSub
  match pick.bind (fun w => all.find? (fun x => x.w == w)) with
  | some x => some x
  | none => leastBy (fun x => rank x.place.subKey) all

/-- Since when a slot counts as issuable, plus one (R48). -/
def sinceWhen (may was : Bool) (old now : Nat) : Nat := if !may || was then 0 else if old = 0 then now + 1 else old

/-- Notes since when slots have been issuable (R48); the chosen slot, of a warp or of its shadow, starts anew. -/
def Dev.noteIssuable (d : Dev) (chosen : Option (Nat × Bool)) : Dev :=
  let l := d.issuable.map (fun x => (x.w, x.shadow))
  let since := fun (k : Nat × Bool) (old : Nat) => sinceWhen (l.contains k) (chosen == some k) old d.cycles.toNat
  let note := fun (w : Nat) (p : Warp) =>
    { p with issuableSince := since (w, false) p.issuableSince,
             shadow := p.shadow.map (fun h => { h with issuableSince := since (w, true) h.issuableSince }) }
  { d with warps := d.warps.map (fun p => (p.1, note p.1 p.2)) }

/-- Makes a split of warp w, which stands in the tables, the one that issues next. -/
def State.chooseSplit (s : State) (w : Nat) (c : Nat × Nat × Bool) (evals : Nat) : State :=
  let t := s.load ⟨w * 4 + c.1, if c.2.2 then 0 else c.2.1, c.2.2⟩
  { t with dev := { t.dev with chosen := true, evals := evals } }

/-- The slot x issues: the split it picks is chosen, or its shadow issues at once. -/
def State.issueFrom (s : State) (x : ReadySlot) (evals : Nat) : State :=
  let t := s.onDev (·.noteIssuable (some (x.w, x.shadow)))
  if x.shadow then
    t.onDev (fun d => { d.shadowIssue x.w with
      chosen := false, lastSub := x.place.subKey, lastSlot := d.lastSlot.put x.place.subKey (x.place.slot + 1) })
  else t.chooseSplit x.w x.pick evals

/-- SLOT_SELECT (R48, R49): the choice of the slot that issues next; nothing is chosen while no slot is issuable. -/
def execSlotSelect (pick : Option (Nat × Nat)) (s : State) : Host.Outcome State Fault Refusal :=
  let t := s.flush.refresh
  let evals := (pick.map (·.2)).getD 0
  match t.dev.choose (pick.map (·.1)) with
  | some x => .next (t.issueFrom x evals)
  | none => .next (t.onDev (fun d => { d.noteIssuable none with chosen := false }))

/-- SLOT_AGE_EXPIRY (R48): a slot of warp w has been issuable for 16 cycles, and none of its sub-core for longer; it issues. -/
def execSlotAgeExpiry (w : Nat) (s : State) : Host.Outcome State Fault Refusal :=
  let t := s.flush.refresh
  let l := t.dev.issuable
  let due := fun (x : ReadySlot) => x.w == w && x.since != 0 && decide (x.since + 15 ≤ t.dev.cycles.toNat) &&
    l.all (fun y => y.place.subKey != x.place.subKey || y.since == 0 || decide (x.since ≤ y.since))
  match l.find? due with
  | some x => .next (t.issueFrom x 0)
  | none => .next s

/-- Split sp of fibre f is held and has been ready for 64 opportunities without issuing (R45). -/
def Dev.overdue (d : Dev) (f sp : Nat) : Bool :=
  match Tab.find d.fibs f, Tab.find d.warps (f / 4) with
  | some x, some w =>
    match Tab.find x.splits sp with
    | some y =>
      x.runs && x.trapped.isNone && y.isReady && heldIn x.splits sp y &&
        (match y.wait with | some n => decide (n + 64 ≤ w.opps) | none => false)
    | none => false
  | _, _ => false

/-- The slot of warp w would be chosen now, were it picked (R48). -/
def Dev.slotTurn (d : Dev) (w : Nat) : Bool := (d.choose (some w)).any (fun x => x.w == w && !x.shadow)

/-- HELD_SPLIT_OVERDUE (R45): the split may issue once, whatever its siblings' PCs, when its slot has its turn. -/
def execHeldSplitOverdue (f sp : Nat) (s : State) : Host.Outcome State Fault Refusal :=
  let t := s.flush.refresh
  if t.dev.overdue f sp && t.dev.slotTurn (f / 4) then
    .next ((t.onDev (·.noteIssuable (some (f / 4, false)))).chooseSplit (f / 4) (f % 4, sp, false) 0)
  else .next s

/-- STALL_RELEASE (R49): the current split, stalled without SOS for 1,024 cycles, lets its slot pass. -/
def execStallRelease (s : State) : Host.Outcome State Fault Refusal :=
  match s.cur, s.split.st with
  | some _, .stalled false _ c _ =>
    .next (if c + 1024 ≤ s.dev.cycles.toNat then { s with warp := { s.warp with pass := true } } else s)
  | _, _ => .next s

/-! ### Spilled splits (R47) -/

/-- The resident split of warp w that has gone longest without issuing: frozen, parked and barrier-waiting splits and the current
one do not count. Fibre key, id and split. Of splits that have gone equally long, that of the lower fibre, then the lower id (DESIGN CHOICE,
assumption 102). -/
def Dev.idleResident (d : Dev) (w : Nat) (wp : Warp) : Option (Nat × Nat × SplitSt) :=
  let l := ((d.fibs.filter (fun p => p.1 / 4 == w && p.2.runs && p.2.trapped.isNone)).map (fun p =>
    (p.2.splits.filter (fun q =>
      (match q.2.st with | .ready | .stalled _ _ _ _ | .woken _ => true | _ => false) && wp.cur != some (p.1 % 4, q.1, false))).map
      (fun q => (p.1, q.1, q.2)))).flatten
  leastBy (fun (x : Nat × Nat × SplitSt) => x.2.2.last) l

/-- A split of warp w can return to the table: an entry is free, and its fibre is not frozen (R46). -/
def Dev.fillable (d : Dev) (w : Nat) : Bool :=
  let mine := d.fibs.filter (fun p => p.1 / 4 == w)
  mine.any (fun p => !p.2.spilled.isEmpty && !p.2.frozen) && decide ((mine.map (fun p => p.2.splits.length)).sum < 32)

/-- The spilled split of warp w that spilled first, when it has waited 4,096 opportunities: its fibre's key. -/
def Dev.longSpilled (d : Dev) (w : Nat) (wp : Warp) : Option Nat :=
  (leastBy (fun (x : Nat × Nat) => x.2)
    ((d.fibs.filter (fun p => p.1 / 4 == w && !p.2.frozen)).filterMap (fun p =>
      match p.2.spilled with
      | r :: _ => if r.since + 4096 ≤ wp.opps then some (p.1, r.since) else none
      | [] => none))).map (·.1)

/-- Split i of fibre k, in the tables, is written to the fibre's spill area; a fault there is a trap of the fibre, with the split's own
lanes and PC (R47) (DESIGN CHOICE, assumption 67). -/
def State.spillOut (s : State) (k i : Nat) (x : SplitSt) (g : Wg) (wp : Warp) (f : Fib) : State :=
  match s.dev.translateRange (s.dev.spaceOf g f) .store 16 (f.spillAddr f.spillAt) with
  | .error e =>
    s.trapFib k ⟨e.1.cause, x.mask, e.2, memInfo 6 [(0, ⟨e.1.cause, e.2⟩)], if x.sos then x.pc - 8 else x.pc, i, x.parent⟩
  | .ok pas =>
    (s.store pas (x.spillRecord i) false).onDev (fun d =>
      (d.updFib k (fun f => { f with splits := f.splits.del i }.spill wp i x)).updWarp (k / 4) (fun w =>
        { w with spills := w.spills + 1 }))

/-- SPILL_SWAP (R47); where an entry is free, a split whose return had to wait for its fibre returns (R46). -/
def execSpillSwap (w : Nat) (s : State) : Host.Outcome State Fault Refusal :=
  s.event (fun t =>
    match Tab.find t.dev.warps w, Tab.find t.dev.wgs (w / 64) with
    | some wp, some g =>
      match t.dev.longSpilled w wp, t.dev.idleResident w wp with
      | some _, some (k, i, x) =>
        match Tab.find t.dev.fibs k with
        | some f => (t.spillOut k i x g wp f).fillOne w
        | none => t
      | _, _ => t.fillMany w 32
    | _, _ => t)

/-! ### Waits that end -/

/-- A parked split of a fibre: split sp, or its handler split for 64. -/
def Fib.parkOf (f : Fib) (sp : Nat) : Option Park :=
  if sp = 64 then f.handler.bind SplitSt.park else (Tab.find f.splits sp).bind SplitSt.park

/-- Wakes the parked split sp of fibre f, of a placed workgroup or of a saved one (R154, R158), when p holds of its park. -/
def State.wakeSplit (s : State) (f sp : Nat) (p : Park → Bool) : State :=
  match (s.dev.fibHome f).bind (·.parkOf sp) with
  | some k => if p k then s.wake (fun q => q.seq == k.seq) else s
  | none => s

/-- WAITA_TIMEOUT (R154). -/
def execWaitaTimeout (f sp : Nat) (s : State) : Host.Outcome State Fault Refusal :=
  s.event (fun t => t.wakeSplit f sp (fun k => decide (k.deadline ≤ t.dev.cycles.toNat)))

/-- SPURIOUS_WAKE (R154). -/
def execSpuriousWake (f sp : Nat) (s : State) : Host.Outcome State Fault Refusal :=
  s.event (fun t => t.wakeSplit f sp (fun _ => true))

/-- Takes the first outstanding load of fibre n of a warp. -/
def takeOut (n : Nat) : List Outstanding → Option (Outstanding × List Outstanding)
  | [] => none
  | o :: r => if o.fib = n then some (o, r) else (takeOut n r).map (fun x => (x.1, o :: x.2))

/-- LOAD_DATA_RETURN (R50, R206): the oldest outstanding load of fibre f returns. A sector of it that is lost, and a byte
that was marked when it was read, leave a poison mark in the lanes that read them. -/
def execLoadDataReturn (f : Nat) (lost : Option Nat) (s : State) : Host.Outcome State Fault Refusal :=
  s.event (fun t =>
    match (Tab.find t.dev.warps (f / 4)).bind (fun w => takeOut (f % 4) w.out) with
    | none => t
    | some (o, rest) =>
      let bad := match lost with
        | some x => if o.bytes.any (fun y => y.2.2 / 32 == x) && !t.dev.bad.contains x then t.dev.bad ++ [x] else t.dev.bad
        | none => t.dev.bad
      t.onDev (fun d =>
        (({ d with bad := bad }).updWarp (f / 4) (fun w => { w with out := rest }.poisonLoad bad o)).updFib f
          (fun x => x.poisonLoad bad o)))

end Sys2Proof.Machine
end

