-- ==== Sys2Proof/Machine/Traps.lean ====
section
/-!
DEFINITION. The trap queue and the fault service (spec/16_traps.md R205, R207 to R213; spec/09_memory.md R142): writing records,
acting on answers, and the answers that the device's own fault service gives.
-/
namespace Sys2Proof.Machine

/-! ### Records (R208, R209) -/

/-- Bytes 0x00 to 0x37 of a record, RESP zero (R208, R209). -/
def Rec.image (r : Rec) : Nat :=
  let d := r.data
  d.pc % 2 ^ 64 + 2 ^ 64 * (d.addr % 2 ^ 64 + 2 ^ 64 * (d.info % 2 ^ 64 + 2 ^ 64 * (d.mask % 2 ^ 32 + 2 ^ 32 * (d.split % 2 ^ 16 +
    2 ^ 16 * (d.cause % 2 ^ 8 + 2 ^ 8 * (d.kind % 2 ^ 8 + 2 ^ 8 * (d.loc % 2 ^ 32 + 2 ^ 32 * (r.joined.length % 2 ^ 16 +
    2 ^ 32 * (d.lid % 2 ^ 64))))))))) 

/-- Free records of a ring. -/
def Slice.free (x : Slice) : Nat := 256 - x.used

/-- The oldest record that is replayable and not answered (R211). -/
def Slice.oldestReplayable (x : Slice) : Option Nat :=
  ((List.range x.used).map (fun j => (x.head + j) % 256)).find? (fun i =>
    match Tab.find x.live i with
    | some r => r.data.kind == 1 && !r.answered
    | none => false)

/-- What the slice does with a waiting fault (R211). -/
inductive Writing where
  /-- a record at TAIL -/
  | tail
  /-- a fatal record in place of record i -/
  | inPlace (i : Nat)
  /-- a notice is dropped -/
  | drop
  /-- it stays inside the slice -/
  | stay
deriving DecidableEq, Repr

/-- R211 for one waiting fault. -/
def Slice.writing (x : Slice) (r : Rec) : Writing :=
  if 2 ≤ x.free then .tail
  else if r.data.kind = 4 then .drop
  else if r.data.kind = 1 then .stay
  else if x.free = 1 then .tail
  else
    match x.oldestReplayable with
    | some i => .inPlace i
    | none => .stay

/-- The first waiting fault that does not stay, what becomes of it, and the faults that still wait. -/
def Slice.nextWrite (x : Slice) : List Rec → Option (Rec × Writing × List Rec)
  | [] => none
  | r :: rest =>
    match x.writing r with
    | .stay => (x.nextWrite rest).map (fun q => (q.1, q.2.1, r :: q.2.2))
    | w => some (r, w, rest)

/-- Writes a record at index i: its bytes, then SEQ with VALID as one strong store (R209). -/
def State.writeRecord (s : State) (sl i : Nat) (r : Rec) : State :=
  let x := s.dev.slice sl
  let a := x.recordAt i
  let n := x.seq + 1
  ((s.store (physRange (some 0) a 56) r.image false).store (physRange (some 0) (a + 0x38) 8) (2 ^ 63 + n % 2 ^ 63) true).onDev (fun d =>
    d.setSlice sl { d.slice sl with seq := n, live := Tab.put (d.slice sl).live i r })

/-- A record reaches the ring; a fatal one ends its launch (R213). -/
def State.putRecord (s : State) (sl i : Nat) (r : Rec) : State :=
  let t := s.writeRecord sl i r
  if r.data.kind = 2 then t.onDev (·.abortOf r) else t

/-- TAIL advances (R209); the ring is full when it meets HEAD. -/
def Slice.advance (x : Slice) : Slice := { x with tail := (x.tail + 1) % 256, full := (x.tail + 1) % 256 == x.head }

/-- TRAP_QUEUE_RECORD_WRITE (R209, R211). -/
def execTrapQueueRecordWrite (sl : Nat) (s : State) : Host.Outcome State Fault Refusal :=
  s.event (fun t =>
    let x := t.dev.slice sl
    match x.nextWrite x.waiting with
    | none => t
    | some (r, w, rest) =>
      let u := t.onDev (·.setSlice sl { x with waiting := rest })
      match w with
      | .tail => (u.putRecord sl x.tail r).onDev (fun d => d.setSlice sl (d.slice sl).advance)
      | .inPlace i =>
        let old := Tab.find x.live i
        let lost := (old.map (·.fibs)).getD []
        ((u.onDev (fun d => old.elim d d.endWaits)).putRecord sl i r).onDev (fun d =>
          (d.retry lost).setSlice sl { (d.slice sl) with overwrote := true })
      | .drop => u.onDev (fun d => d.setSlice sl { d.slice sl with drop := true })
      | .stay => u)

/-! ### Answers (R210) -/

/-- Commands that asked for the page end with the status of a page not present (R142, R173), and with FLAGS.STAMP where a source page that
they have reached holds a foreign stamp (R129). -/
def Dev.refusePage (d : Dev) (p page : Nat) : Dev :=
  (d.cmds.filter (fun c => c.2.part == p && c.2.asked == some page)).foldl (fun e c => e.finish c.1 (d.stampMet c.2) 0x39) d

/-- The stage-1 roots under which a record's page is to be mapped: that of its launch for the fibres that wait for it, and those of the
commands that do (R55, R142). -/
def Dev.rootsOf (d : Dev) (r : Rec) : List Nat :=
  let mine := ((r.launch.bind (Tab.find d.launches)).map (·.s1root)).getD 0
  let asking := (d.cmds.filter (fun c => c.2.part == r.data.part && c.2.asked == some r.data.addr)).map (·.2.askedRoot)
  ((if r.fibs.isEmpty && !asking.isEmpty then [] else [mine]) ++ asking).eraseDups

/-- The page of a record mapped under each of the roots where that can be done; none when it can be under none (R212). -/
def Dev.mapRoots (d : Dev) (p a : Nat) : List Nat → Option Dev
  | [] => none
  | root :: r =>
    match d.mapPage p root a with
    | some e => some ((e.mapRoots p a r).getD e)
    | none => d.mapRoots p a r

/-- The slice acts on an answer to record i: ACT and the reflected cause (R210). Under ACT 2 the recorded fibre takes the fault, or, where
engine commands asked for the page, they end with it (R142); the fibres that have joined run again. Under ACT 3 the record becomes fatal,
and KIND in the ring says so. -/
def Dev.answer (d : Dev) (sl i act cause : Nat) : Dev :=
  match Tab.find (d.slice sl).live i with
  | none => d
  | some r =>
    if r.data.kind ≠ 1 ∨ r.answered ∨ act = 0 then d
    else
      let refused := decide (act = 2 ∧ r.data.cause = 0x10) && r.fibre.isNone
      let e := (if refused then d.refusePage r.data.part r.data.addr else d).endWaits r
      let mark := fun (r : Rec) => e.setSlice sl { e.slice sl with live := Tab.put (e.slice sl).live i r }
      match act, r.fibre with
      | 1, _ => (mark { r with answered := true }).retry r.fibs
      | 2, some k => ((mark { r with answered := true }).reflect k cause r.data).retry r.joined
      | 2, none => (mark { r with answered := true }).retry r.joined
      | _, _ =>
        let f := { r with data := { r.data with kind := 2 }, answered := true }
        (((mark f).scatter (physRange (some 0) ((d.slice sl).recordAt i + 0x1F) 1) 2).abortOf f).retry r.joined

/-- The device's own fault service (R212): the answer to a replayable record, and the device with the page mapped (DEDUCED,
assumption 44). -/
def Dev.serve (d : Dev) (r : Rec) : Nat × Dev :=
  let c := r.data.cause
  if c = 0x10 then
    match d.mapRoots r.data.part r.data.addr (d.rootsOf r) with
    | some e => (1, e)
    | none => (2 + 2 ^ 8 * (if r.data.info / 2 ^ 20 % 16 = 6 then 0x4A else 0x10), d)
  else if c = 0x13 then (2 + 2 ^ 8 * 0x13, d)
  else if c = 0x12 then (3, d)
  else (1, d)

/-- The device's own fault service comes to record i: it answers one that waits for an answer by a strong store to RESP, and frees
through HEAD one that needs none (R210, R212). -/
def State.serveRecord (s : State) (sl i : Nat) : State :=
  let x := s.dev.slice sl
  match Tab.find x.live i with
  | none => s
  | some r =>
    if r.data.kind = 1 ∧ !r.answered then
      let a := s.dev.serve r
      (s.onDev (fun _ => a.2)).store (physRange (some 0) (x.recordAt i + 0x30) 8) a.1 true
    else if i = x.head then s.onDev (fun d => d.writeTqstat sl (x.base * 2 ^ 16 + (i + 1) % 256))
    else s

/-- RESP_WRITE (R210): a strong store of v to RESP of record i. A value of 2^64 or more is no store: it stands for the device's own
fault service coming to the record (R212). -/
def execRespWrite (sl i v : Nat) (s : State) : Host.Outcome State Fault Refusal :=
  s.event (fun t => if v < 2 ^ 64 then t.onDev (·.answer sl i (v % 4) (bitsOf v 8 7)) else t.serveRecord sl i)

/-! ### The handler watchdog (R205) -/

/-- The save of the fibre's workgroup has waited 1,000,000 cycles for its handler. One that the fibre has got after it was stopped starts
after the restore. -/
def Dev.handlerLate (d : Dev) (f : Nat) : Bool :=
  match Tab.find d.fibs f, (Tab.find d.wgs (f / 256)).bind (·.saving) with
  | some x, some v => x.handler.isSome && !x.hasStopped && decide (v.since + 1000000 ≤ d.cycles.toNat)
  | _, _ => false

/-- The fatal record of the watchdog for fibre f is out. -/
def Dev.watchdogRang (d : Dev) (f : Nat) : Bool :=
  d.slices.any (fun x => (x.2.waiting ++ x.2.live.vals).any (fun r => r.data.cause == 0x4B && r.fibs == [f]))

/-- HANDLER_WATCHDOG (R205): cause 0x4B, whose fatal record ends the launch, whether the handler runs or waits for a service itself. -/
def execHandlerWatchdog (f : Nat) (s : State) : Host.Outcome State Fault Refusal :=
  s.event (fun t =>
    match t.dev.standing f with
    | some (x, g, w) =>
      match x.handler with
      | some h =>
        if t.dev.handlerLate f ∧ !t.dev.watchdogRang f then
          let r : RecData :=
            { pc := h.pc.toNat % 2 ^ 57, addr := 0, info := 0, mask := h.mask.toNat, split := x.frame.tsplit.toNat % 2 ^ 16,
              cause := 0x4B, kind := 2, loc := w.place.loc (f % 4) g.part, lid := t.dev.lid g.launch, part := g.part }
          t.onDev (fun d => (d.raise g.slice ⟨r, some f, [], g.launch, false⟩).updFib f (fun x => { x with inService := true }))
        else t
      | none => t
    | none => t)

end Sys2Proof.Machine
end

