-- ==== Sys2Proof/Machine/Context.lean ====
section
/-!
DEFINITION. Pre-emption and context switch (spec/17_preempt_reliability.md R216 to R224; spec/14_invert.md R188;
spec/19_partitions_host.md R249, R258; spec/03_execution.md R40, R41): stopping a workgroup's fibres, writing its save area and
restoring it, and the turns of a time-shared run.
-/
namespace Sys2Proof.Machine

/-! ### Rewinding and stopping (R216 to R218) -/

/-- The fibre with number n of warp w is rewindable (R216). -/
def Fib.rewindable (f : Fib) (w : Warp) (n : Nat) : Bool :=
  match f.rewind, f.splits with
  | some r, [(i, x)] =>
    i == r.id && x.mask == r.mask && f.spilled.isEmpty && f.handler.isNone && !f.pinned && !f.wroteB &&
      f.wroteV &&& r.vmask == 0 && f.wroteS &&& r.smask == 0 && Tab.get 0 w.shWrote n &&& r.vmask == 0
  | _, _ => false

/-- A rewind (R217): the PC is the PPT's and p0 to p6 come from the copy. -/
def Fib.rewound (f : Fib) : Fib :=
  match f.rewind with
  | some r =>
    { f with preds := r.preds, marks := [],
             splits := f.splits.map (fun p => (p.1, { p.2 with pc := r.addr, st := .ready, sos := false })) }
  | none => f

/-- A split is parked or waits at a barrier. -/
def SplitSt.waits (x : SplitSt) : Bool :=
  match x.st with
  | .parked _ | .barWait _ _ | .fbarWait _ _ => true
  | _ => false

/-- The KIND that a fibre takes as it stands (R218); none when it has to run forward. -/
def Fib.kindNow (f : Fib) (w : Warp) (n : Nat) : Option Nat :=
  if f.exited then some 6
  else if f.inService then some 4
  else if !f.marks.isEmpty then some 5
  else if f.splits.any (fun p => p.2.waits) then some 3
  else if f.stop.isNone && f.rewindable w n then some 0
  else none

/-- The PC that a save records for a fibre that stops with a KIND (R218, R188, R258): that of its PPT, of the split whose trap is pending,
of the interrupted INV, else of its lowest split (DEDUCED, assumption 43). -/
def Fib.pcAs (f : Fib) (k : Nat) : Nat :=
  let lowestPc := (f.splits.head?.map (fun p => p.2.pc.toNat)).getD 0
  match k with
  | 6 => 0
  | 4 => ((Tab.find f.splits f.faultSplit).map (fun x => x.pc.toNat)).getD lowestPc
  | 5 => (f.marks.head?.map (fun m => m.addr.toNat)).getD lowestPc
  | _ => lowestPc

/-- The fibre stops with a KIND; kind 0 is rewound at once. -/
def Fib.stopAs (f : Fib) (k : Nat) : Fib :=
  let g := if k = 0 then f.rewound else f
  { g with stop := some (.stopped k (g.pcAs k)) }

/-- The context engine comes to a fibre of a workgroup that is to be saved: it stops it or lets it run forward (R218). One whose handler
runs is left alone (R205) (DEDUCED, assumption 54). -/
def Fib.classify (f : Fib) (w : Warp) (n now : Nat) : Fib :=
  match f.stop with
  | some (.stopped _ _) => f
  | st =>
    if f.handler.isSome && !f.exited then f
    else
      match f.kindNow w n with
      | some k => f.stopAs k
      | none => if st.isNone then { f with stop := some (.forward now) } else f

/-- Every fibre of workgroup g is classified. -/
def Dev.classify (d : Dev) (g : Nat) : Dev :=
  { d with fibs := d.fibs.map (fun p =>
      if p.1 / 256 = g then
        match Tab.find d.warps (p.1 / 4) with
        | some w => (p.1, p.2.classify w (p.1 % 4) d.cycles.toNat)
        | none => p
      else p) }

/-! ### What is saved (R218, R220, R221) -/

/-- The commands of workgroup g that are carried, by number. -/
def Dev.carriedOf (d : Dev) (g : Nat) : List Nat := (d.cmds.filter (fun c => c.2.wg == g && d.carries c.2)).map (·.1)

/-- Every fibre of workgroup g has stopped, its loads have returned and its commands, apart from those carried, have ended (R219). A fibre
that has got a handler since it was stopped stays stopped (DEDUCED, assumption 54). -/
def Dev.stopped (d : Dev) (g : Nat) : Bool :=
  (d.fibs.filter (fun p => p.1 / 256 == g)).all (fun p => p.2.exited || p.2.hasStopped) &&
  (d.warps.filter (fun p => p.1 / 64 == g)).all (fun p => p.2.out.isEmpty) &&
  d.cmds.all (fun c => c.2.wg != g || d.carries c.2)

/-- The KIND of a stopped fibre. -/
def Fib.kind (f : Fib) : Nat :=
  if f.exited then 6 else match f.stop with | some (.stopped k _) => k | _ => 2

/-- The blocks of four vector registers and of eight scalar registers that runs and numbers lie in. -/
def blocksOf (size : Nat) (ns : List Nat) : Nat := ns.foldl (fun m n => m ||| 2 ^ (n / size)) 0

/-- The operands that the INV at the mark of a loaded fibre adds to its last PPT's set (R188): vD, vX, t and the body's
destinations; none when the INV cannot be read. -/
def State.invOperands (s : State) (a : Nat) : Option (List (Opd × Nat)) :=
  match s.decodeAt a with
  | .run (.inv o) =>
    match s.readBody [o.x, o.t, o.d] (o.nlen1 + 1) 0 (a + (Instr.inv o).bytes) with
    | .ok (body, _) => some ((o.d, 32) :: (o.x, 32) :: (o.t, 32) :: body.filterMap (fun b => bodyDest b.2.2))
    | .error _ => none
  | _ => none

/-- The masks of operands: blocks of vector registers, blocks of scalar registers. -/
def operandMasks (os : List (Opd × Nat)) : Nat × Nat :=
  (blocksOf 4 ((os.filterMap destRun).map (fun r => (List.range r.2).map (· + r.1))).flatten,
   blocksOf 8 (os.filterMap (fun o => match o.1 with | .s n => some n | _ => none)))

/-- VMASK and SMASK saved for fibre k (R218, R188, R221). -/
def State.savedMasks (s : State) (k : Nat) (f : Fib) : Nat × Nat :=
  let full := (2 ^ 64 - 1, 2 ^ 8 - 1)
  match f.kind, f.rewind with
  | 0, some r | 1, some r => (r.vmask, r.smask)
  | 5, some r =>
    match f.marks.mapM (fun m => (s.load ⟨k, m.id, false⟩).invOperands m.addr.toNat) with
    | some os => (r.vmask ||| (operandMasks os.flatten).1, r.smask ||| (operandMasks os.flatten).2)
    | none => full
  | _, _ => full

/-- The PC that a save records for a fibre: what it was when the fibre stopped, so that the record of the save has told the same (R258). -/
def Fib.savedPc (f : Fib) : Nat :=
  if f.exited then 0 else match f.stop with | some (.stopped _ pc) => pc | _ => f.pcAs 2

/-- The handles that are live in a save of workgroup g (R221). -/
def Dev.liveHandles (d : Dev) (g : Nat) (w : Wg) : List Nat :=
  let fs := (d.fibs.filter (fun p => p.1 / 256 == g)).map (·.2)
  let all := fs.any (fun f => decide (2 ≤ f.kind ∧ f.kind ≤ 4) || (f.kind == 5 && f.rewind.isNone))
  let named := fun h => fs.any (fun f => decide (f.kind ≤ 5) && (match f.rewind with
    | some r => decide (r.tlo ≤ h ∧ h < r.tlo + r.tcnt)
    | none => false))
  (w.tiles.map (·.1)).filter (fun h => all || named h)

/-! ### The image (R221) -/

/-- Bytes of zeros up to the next multiple of n behind k bytes. -/
def padTo (n k : Nat) : List Byte := List.replicate ((n - k % n) % n) 0

/-- A list of bytes cut or filled to n bytes. -/
def fitTo (n : Nat) (l : List Byte) : List Byte := l.take n ++ List.replicate (n - l.length) 0

/-- A 16-byte split record (R46). -/
def splitBytes (p : Nat × SplitSt) : List Byte := leBytes 16 (p.2.record p.1)

/-- The bytes of one lane of a bracket (R221). -/
def Bracket.bytes (b : Bracket) : List Byte :=
  ([b.lo, b.hi, b.ylo, b.yhi, b.st].map (fun x => leBytes 4 x.toNat)).flatten

/-- Four vector registers of a fibre, register-major; zero outside its windows (R221). -/
def vBlock (w : Warp) (n q : Nat) : List Byte :=
  ((List.range 4).map (fun i =>
    ((List.range 32).map (fun l => leBytes 4 (match w.phys n (4 * q + i) 1 with | some p => (w.reg p l).toNat | none => 0))).flatten)).flatten

/-- Eight scalar registers. -/
def sBlock (f : Fib) (q : Nat) : List Byte :=
  ((List.range 8).map (fun i => leBytes 8 (Tab.get 0 f.s (8 * q + i) : Word64).toNat)).flatten

/-- The set bits of a mask of n bits. -/
def bitsSet (n m : Nat) : List Nat := (List.range n).filter (bitAt m)

/-- A fibre block (R221): fixed part, whose brackets leave 16 bytes up to 0x16C0, then register blocks. -/
def fibreBytes (w : Warp) (n : Nat) (f : Fib) (vm sm : Nat) : List Byte :=
  let k := f.kind
  if k = 6 then leBytes 8 0 ++ leBytes 1 6 ++ List.replicate (0x16C0 - 9) 0
  else
    let fr := f.frame
    let frame := [fr.tcause, fr.tpc, fr.tmask, fr.taddr, fr.tinfo, fr.tsplit].map (fun x => leBytes 8 x.toNat)
    let preds := (List.range 32).map (fun l => leBytes 1 (((List.range 7).map (fun p => if (f.pred p).getLsbD l then 2 ^ p else 0)).sum))
    let brackets := (List.range 256).map (fun i => Bracket.bytes (Tab.get .zero f.brk i))
    leBytes 8 f.savedPc ++ leBytes 1 k ++ leBytes 1 f.splits.length ++ leBytes 6 0 ++ leBytes 8 vm ++ leBytes 1 sm ++ leBytes 7 0 ++
      fitTo 512 ((f.splits.map splitBytes).flatten) ++ (List.range 32).map (Tab.get 0 f.flags) ++ preds.flatten ++
      frame.flatten ++ leBytes 8 f.trapen.toNat ++ leBytes 8 0 ++ leBytes 8 f.lwbase.toNat ++ leBytes 8 f.lwsize.toNat ++
      fitTo 5136 brackets.flatten ++ ((bitsSet 64 vm).map (vBlock w n)).flatten ++ ((bitsSet 8 sm).map (sBlock f)).flatten

/-- A warp block's first 64 bytes (R221). -/
def warpBytes (no : Nat) (w : Warp) : List Byte :=
  let fbar := fun m => match Tab.find w.fbars m with | some a => a % 16 + 16 | none => 0
  leBytes 2 no ++ leBytes 2 w.n ++ ((List.range 4).map (fun i => leBytes 2 (w.p.getD i 0))).flatten ++ leBytes 2 w.shared ++ leBytes 2 0 ++
    leBytes 1 0 ++ ((List.range 15).map (fun i => leBytes 1 (fbar (i + 1)))).flatten ++ List.replicate 32 0

/-- The code of a level in a handle's word (R221). -/
def levelCode : Level → Nat
  | .t => 1
  | .a => 2
  | .w => 3
  | .q => 4

/-- A handle's word (R221). -/
def handleWord (t : Option Tile) (live : Bool) : Nat :=
  match t with
  | none => 0
  | some t => levelCode t.lvl + b2n live * 2 ^ 3 + t.rows * 2 ^ 4 + t.rb * 2 ^ 17 + t.queue.length * 2 ^ 31

/-- A live handle's contents (R221). -/
def Tile.bytes (t : Tile) : List Byte :=
  let rows := ((List.range t.rows).map (fun r => leBytes t.rb (t.row r))).flatten
  match t.lvl with
  | .t => rows ++ padTo 1024 rows.length
  | .a => rows ++ ((List.range 32).map (fun r => leBytes 32 (Tab.get 0 t.md r))).flatten
  | .w => rows ++ padTo 1024 rows.length ++ (t.dicts.map (fun d =>
      leBytes 16 (d.1 % 2 ^ 8 + b2n d.2.1 * 2 ^ 8) ++ leBytes (if d.2.1 then 128 else 32) d.2.2)).flatten
  | .q => (t.queue.map (leBytes 512)).flatten

/-- A barrier's 48 bytes (R221). -/
def barrierBytes (p : Option BarPhase) : List Byte :=
  match p with
  | none => List.replicate 48 0
  | some p =>
    leBytes 32 (p.arrived.foldl (fun m k => m ||| 2 ^ (k % 256)) 0) ++ leBytes 2 p.count ++ leBytes 2 p.expected ++ leBytes 1 1 ++
      List.replicate 11 0

/-- A carried command's record (R220). -/
def Cmd.carriedBytes (c : Nat) (k : Cmd) : List Byte :=
  let x := match k.kind with
    | .entries h left addr => (2, left, addr, h)
    | _ => (1, 0, Config.engineReference c, 0)
  leBytes 2 (k.fib / 4 % 64) ++ leBytes 1 (k.fib % 4) ++ leBytes 1 k.tok ++ leBytes 1 x.1 ++ leBytes 1 x.2.1 ++ leBytes 2 0 ++
    leBytes 8 x.2.2.1 ++ leBytes 8 x.2.2.2 ++ leBytes 8 0

/-- The save area of workgroup g, which stands in the tables (R221). -/
def State.saveImage (s : State) (g : Nat) (w : Wg) : List Byte :=
  let d := s.dev
  let launch := w.launch.bind (Tab.find d.launches)
  let live := d.liveHandles g w
  let carried := d.carriedOf g
  let warps := ((d.warps.filter (fun p => p.1 / 64 == g)).map (fun p =>
    warpBytes (p.1 % 64) p.2 ++ ((d.fibs.filter (fun q => q.1 / 4 == p.1)).map (fun q =>
      let m := s.savedMasks q.1 q.2
      fibreBytes p.2 (q.1 % 4) q.2 m.1 m.2)).flatten)).flatten
  let tiles := (w.tiles.map (fun t => if live.contains t.1 then Tile.bytes t.2 else [])).flatten
  let body := warps ++ tiles
  let pad := if carried.isEmpty then [] else padTo 64 (0x640 + body.length)
  let at_ := if carried.isEmpty then 0 else 0x640 + body.length + pad.length
  let total := 0x640 + body.length + pad.length + 32 * carried.length
  leBytes 4 1 ++ leBytes 1 w.nwarps ++ leBytes 1 w.nfibs ++ leBytes 2 0 ++ leBytes 8 ((launch.map (·.descAddr)).getD 0) ++
    leBytes 8 (d.lid w.launch) ++ leBytes 4 w.x ++ leBytes 4 w.y ++ leBytes 4 w.z ++ leBytes 4 (w.config + w.contract * 2 ^ 4) ++
    leBytes 8 total ++ leBytes 4 at_ ++ leBytes 4 carried.length ++ leBytes 8 0 ++
    ((List.range 16).map (fun n => barrierBytes (Tab.find w.bars n))).flatten ++
    ((List.range 64).map (fun h => leBytes 8 (handleWord (Tab.find w.tiles h) (live.contains h)))).flatten ++
    fitTo 256 ((w.locks.map (fun r => leBytes 8 r.addr ++ leBytes 8 r.bytes)).flatten) ++ body ++ pad ++
    (carried.map (fun c => match Tab.find d.cmds c with | some k => Cmd.carriedBytes c k | none => [])).flatten

/-! ### The area (R221, R222) -/

/-- Save areas of a partition in use: base and size in whole pages. -/
def Dev.areasUsed (d : Dev) (p : Nat) : List (Nat × Nat) :=
  (d.saved.filter (fun x => x.2.wg.part == p)).map (fun x => (x.2.area, (x.2.bytes + 4095) / 4096 * 4096))

/-- The lowest place of n bytes in the context pool, aligned to 4 KiB (R221). -/
def Dev.areaFor (d : Dev) (p n : Nat) : Option Nat :=
  match Tab.find d.parts p with
  | none => none
  | some q =>
    let used := d.areasUsed p
    let lo := (q.block.ctxBase + 4095) / 4096 * 4096
    let ok := fun a => decide (lo ≤ a ∧ a + n ≤ q.block.ctxBase + q.block.ctxSize) && used.all (fun r => !rangesMeet r (a, n))
    (sortBy id (lo :: used.map (fun r => r.1 + r.2))).find? ok

/-- The first fibre of a workgroup that has not exited (R249). -/
def firstFibre (fibs : Tab Fib) (g : Nat) : Option (Nat × Fib) := fibs.find? (fun p => p.1 / 256 == g && !p.2.exited)

/-- The record of the context engine for a workgroup (R222, R249): LOC is the place of its first fibre that has not exited (DEDUCED,
assumption 52). -/
def Dev.contextRec (d : Dev) (w : Wg) (f : Option (Nat × Fib)) (warps : Tab Warp) (cause addr info : Nat) : Rec :=
  let loc := match f with
    | some p => ((Tab.find warps (p.1 / 4)).map (fun x => x.place.loc (p.1 % 4) w.part)).getD 0
    | none => 0
  let pc := if cause = 0x12 then 0 else (f.map (fun p => p.2.savedPc)).getD 0
  ⟨{ pc := pc % 2 ^ 57, addr := addr, info := info, mask := 0, split := 0, cause := cause, kind := 1, loc := loc,
     lid := d.lid w.launch, part := w.part }, none, [], w.launch, false⟩

/-- The record of a save is raised as soon as the PC that the save records is known: once the workgroup's first fibre that has not exited
has stopped (R249, R258) (DEDUCED, assumption 80). -/
def Dev.tellSave (d : Dev) (g : Nat) : Dev :=
  match Tab.find d.wgs g, firstFibre d.fibs g with
  | some w, some p =>
    match w.saving, p.2.stop with
    | some v, some (.stopped _ _) =>
      let causes := (if v.cause = 0 ∨ v.told then [] else [v.cause]) ++ (if v.quantumDue then [0x58] else [])
      causes.foldl (fun e k => e.raise w.slice (d.contextRec w (some p) d.warps k 0 0))
        (d.updWg g (fun x => { x with saving := some { v with told := true, quantumDue := false } }))
    | _, _ => d
  | _, _ => d

/-- A save of workgroup g is asked for. Where one is under way, the end of a quantum adds its record to it (R249); move names the guarded
warp for which it is to resume on another core (R227). Firmware on a Charon core is never saved (R18). -/
def Dev.askSave (d : Dev) (g cause : Nat) (move : Option Nat) : Dev :=
  match Tab.find d.wgs g with
  | some x =>
    if x.core = charon then d
    else
      match x.saving with
      | some v =>
        (d.updWg g (fun x => { x with saving := some { v with
          move := if move.isSome then move else v.move, quantumDue := v.quantumDue || (cause == 0x58 && v.cause != 0x58) } })).tellSave g
      | none =>
        ((d.updWg g (fun x => { x with saving := some ⟨cause, d.cycles.toNat, false, move, none, none, false, false⟩ })).classify g).tellSave g
  | none => d

/-- PREEMPT_REQUEST (R218). -/
def execPreemptRequest (w : Nat) (s : State) : Host.Outcome State Fault Refusal :=
  s.event (fun t => t.onDev (·.askSave w 0x59 none))

/-- Fibre f runs forward since 16,384 cycles or more (R218). -/
def Dev.boundLapsed (d : Dev) (f : Nat) : Bool :=
  match (Tab.find d.fibs f).bind (·.stop) with
  | some (.forward c) => decide (c + 16384 ≤ d.cycles.toNat)
  | _ => false

/-- FORWARD_BOUND_LAPSE (R218): the fibre is saved as full, or as what it has become meanwhile. -/
def execForwardBoundLapse (f : Nat) (s : State) : Host.Outcome State Fault Refusal :=
  s.event (fun t =>
    match Tab.find t.dev.fibs f, Tab.find t.dev.warps (f / 4) with
    | some x, some w =>
      if t.dev.boundLapsed f && x.handler.isNone then
        t.onDev (fun d => (d.updFib f (fun y => y.stopAs ((x.kindNow w (f % 4)).getD 2))).tellSave (f / 256))
      else t
    | _, _ => t)

/-- A record for a fault on this page of a save area waits for its answer (R222). -/
def Dev.areaAsked (d : Dev) (p page : Nat) : Bool :=
  d.slices.any (fun x => (x.2.waiting ++ x.2.live.vals).any (fun r =>
    r.data.kind == 1 && !r.answered && r.data.cause == 0x12 && r.data.addr == page && r.data.part == p))

/-- A fault on a save area goes to the partition manager once (R222): kind 8 for a save, 9 for a restore. -/
def Dev.areaFault (d : Dev) (w : Wg) (f : Option (Nat × Fib)) (warps : Tab Warp) (kind a : Nat) : Dev :=
  if d.areaAsked w.part (pageOf a) then d
  else d.raise w.slice (d.contextRec w f warps 0x12 (pageOf a) (kind * 2 ^ 20 + 2 ^ 24))

/-- The number that bytes make. -/
def bytesNat (l : List Byte) : Nat := l.foldr (fun b x => b.toNat + 256 * x) 0

/-! ### Saving (R219) -/

/-- The commands of a save are marked as carried. -/
def Dev.carry (d : Dev) (cs : List Nat) : Dev := cs.foldl (fun e c => e.updCmd c (fun k => { k with stage := .carried })) d

/-- The workgroup leaves its core: what the device keeps of it stands among the saved (R219, R224). -/
def Dev.takeOff (d : Dev) (g : Nat) (w : Wg) (area bytes : Nat) (carried : List Nat) : Dev :=
  let mine : Saved :=
    { wg := w, area := area, bytes := bytes, carried := carried, since := none, reserved := none, asked := none, waited := none,
      fibs := d.fibs.filter (fun p => p.1 / 256 == g), warps := d.warps.filter (fun p => p.1 / 64 == g) }
  Dev.vacate { d with
    fibs := d.fibs.filter (fun p => p.1 / 256 != g), warps := d.warps.filter (fun p => p.1 / 64 != g), wgs := d.wgs.del g,
    saved := d.saved.put g mine } w.slice w.core

/-- Writes the area and frees the workgroup, once every fibre has stopped (R219). A fault on the area is reported, and the save goes on
after its answer (R222). -/
def State.writeArea (s : State) (g : Nat) (w : Wg) (v : Saving) : State :=
  let img := s.saveImage g w
  let n := img.length
  match s.dev.areaFor w.part n with
  | none => s
  | some a =>
    match s.dev.translateRange ⟨w.part, 0, .s⟩ .store n a with
    | .error x =>
      let now := s.dev.cycles.toNat
      s.onDev (fun d => (d.areaFault w (firstFibre d.fibs g) d.warps 8 x.2).updWg g (fun y =>
        { y with saving := some { v with asked := some (pageOf x.2), waited := some (v.waited.getD now) } }))
    | .ok ps =>
      let cs := s.dev.carriedOf g
      (s.store ps (bytesNat img) false).onDev (fun d => (d.carry cs).takeOff g w a n cs)

/-- The context engine waits for an answer about a page of the area (R222). -/
def Dev.waitsFor (d : Dev) (p : Nat) (page : Option Nat) : Bool :=
  match page with
  | some x => d.areaAsked p x
  | none => false

/-- CONTEXT_SAVE (R218, R219): fibres that have come to a stop are classified; when all have, the workgroup is saved. Nothing happens while
a fault on the area waits for its answer (R222). -/
def execContextSave (w : Nat) (s : State) : Host.Outcome State Fault Refusal :=
  s.event (fun t =>
    match (Tab.find t.dev.wgs w).bind (fun g => g.saving.map (fun v => (g.part, v.asked))) with
    | none => t
    | some (p, page) =>
      if t.dev.waitsFor p page then t
      else
        let u := t.onDev (fun d => (d.classify w).tellSave w)
        if u.dev.stopped w && (firstFibre u.dev.fibs w).isSome then
          match Tab.find u.dev.wgs w with
          | some g => match g.saving with | some v => u.writeArea w g v | none => u
          | none => u
        else u)

/-! ### Restoring (R223, R224) -/

/-- A split as its record tells it (R46, R223); kept is the split as it stood. A parked split is woken. The
area has no order of issues: every split counts as having issued at opportunity now (DESIGN CHOICE, assumption 125). -/
def splitOf (x : Nat) (kept : Option SplitSt) (now : Nat) : Nat × SplitSt :=
  let f := fieldAt x
  let lanes : Word32 := match kept with | some k => k.st.waitLanes | none => 0
  let st : SplitState := match f 0x0E 1 with
    | 2 => .woken none
    | 3 => .barWait (f 0x0F 1) lanes
    | 4 => .fbarWait (f 0x0F 1) lanes
    | _ => .ready
  (f 0x0C 1, { parent := f 0x0D 1, pc := BitVec.ofNat 64 (f 0 8), mask := BitVec.ofNat 32 (f 8 4), st := st, sos := false, last := now, wait := none })

/-- The bracket lanes in a number; the reserved bits of STATE read zero (R3, R183). -/
def bracketsOf (x : Nat) : Tab Bracket :=
  (List.range 256).foldl (fun t i =>
    let f := fun o => BitVec.ofNat 32 (fieldAt x (20 * i + o) 4)
    Tab.set .zero t i ⟨f 0, f 4, f 8, f 12, BitVec.ofNat 32 (fieldAt x (20 * i + 16) 4 % 2 ^ 13)⟩) []

/-- Predicates from a byte per lane. -/
def predsOf (x : Nat) : Tab Word32 :=
  (List.range 7).foldl (fun t p =>
    Tab.set 0 t p (maskOf ((List.range 32).filter (fun l => bitAt (fieldAt x l 1) p)))) []

/-- Scalar registers from the blocks of a mask. -/
def scalarsOf (x sm : Nat) : Tab Word64 :=
  (bitsSet 8 sm).zipIdx.foldl (fun t q =>
    (List.range 8).foldl (fun t i => Tab.set 0 t (8 * q.1 + i) (BitVec.ofNat 64 (fieldAt x (64 * q.2 + 8 * i) 8))) t) []

/-- Vector registers of fibre n from the blocks of a mask; those outside its windows are left alone. -/
def Warp.fromBlocks (w : Warp) (n x vm : Nat) : Warp :=
  (bitsSet 64 vm).zipIdx.foldl (fun (w : Warp) q =>
    (List.range 4).foldl (fun (w : Warp) i =>
      match w.phys n (4 * q.1 + i) 1 with
      | some p =>
        { w with v := (List.range 32).foldl (fun t l =>
            Tab.set 0 t (p * 32 + l) (BitVec.ofNat 32 (fieldAt x (512 * q.2 + 128 * i + 4 * l) 4))) w.v }
      | none => w) w) w

/-- Where a fibre starts again: kinds 0 and 1 with a recipe at PPT + 4 × ROFF (R223). -/
def Fib.startRecipe (f : Fib) (k : Nat) (kept : Fib) : Fib :=
  match kept.rewind with
  | some r =>
    if k ≤ 1 ∧ r.roff ≠ 0 then
      let pc := r.addr + BitVec.ofInt 64 (4 * toSigned 20 r.roff)
      { f with recipe := some r.addr, splits := f.splits.map (fun p => (p.1, { p.2 with pc := pc })) }
    else f
  | none => f

/-- The frame in 48 bytes of a fibre block; reserved bits read zero (R3, R199). -/
def frameOf (x : Nat) : Frame :=
  let w := fun i k => BitVec.ofNat 64 (fieldAt x (8 * i) 8 % 2 ^ k)
  ⟨w 0 7, w 1 57, w 2 32, BitVec.ofNat 64 (fieldAt x 24 8 % 2 ^ 57 / 32 * 32), w 4 64, w 5 12⟩

/-- A fibre from its block x (R221, R223), with what the device keeps of it. Scalar registers that wait for a carried command stay
pending, and one that was saved within its recipe is still in it. -/
def fibreOf (x : Nat) (kept : Fib) (now : Nat) : Fib :=
  let f := fieldAt x
  let k := f 8 1
  if k = 6 then { kept with stop := none }
  else
    let sm := f 0x18 1
    let nv := (bitsSet 64 (f 0x10 8)).length
    let splits := (List.range (f 9 1)).foldl (fun t i =>
      let r := f (0x20 + 16 * i) 16
      let q := splitOf r (Tab.find kept.splits (fieldAt r 0x0C 1)) now
      Tab.put t q.1 q.2) []
    let g : Fib :=
      { kept with
        splits := splits, s := scalarsOf (x / 2 ^ (8 * (0x16C0 + 512 * nv))) sm, preds := predsOf (f 0x240 32),
        brk := bracketsOf (f 0x2B0 5120), flags := (List.range 32).foldl (fun t l => Tab.set 0 t l (BitVec.ofNat 8 (f (0x220 + l) 1))) [],
        frame := frameOf (f 0x260 48), trapen := BitVec.ofNat 8 (f 0x290 8),
        lwbase := BitVec.ofNat 64 (f 0x2A0 8 % 2 ^ 57), lwsize := BitVec.ofNat 64 (f 0x2A8 8 % 2 ^ 33), stop := none, rewind := none,
        recipe := if k ≤ 1 then none else kept.recipe, wroteV := 0, wroteS := 0,
        wroteB := false, pinned := false, poisonS := kept.poisonS.filter (fun p => bitAt sm (p.1 / 8)) }
    g.startRecipe k kept

/-- Bytes that a fibre block at the start of x takes (R221). -/
def fibreBlockLen (x : Nat) : Nat :=
  0x16C0 + (if fieldAt x 8 1 = 6 then 0 else 512 * (bitsSet 64 (fieldAt x 0x10 8)).length + 64 * (bitsSet 8 (fieldAt x 0x18 1)).length)

/-- The physical registers of fibre n in the blocks that a mask names. -/
def Warp.physOf (w : Warp) (n vm : Nat) : List Nat :=
  ((bitsSet 64 vm).map (fun q => (List.range 4).filterMap (fun i => w.phys n (4 * q + i) 1))).flatten

/-- What is restored of a warp; live are the physical registers that the save holds. -/
structure Restored where
  warp : Warp
  fibs : Tab Fib
  rest : Nat
  live : List Nat

/-- One fibre more of a warp from the blocks that follow (DEDUCED, assumption 51). -/
def Restored.fibre (r : Restored) (k : Nat) (kept : Fib) : Restored :=
  let x := r.rest
  let vm := if fieldAt x 8 1 = 6 then 0 else fieldAt x 0x10 8
  ⟨r.warp.fromBlocks (k % 4) (x / 2 ^ (8 * 0x16C0)) vm, r.fibs.put k (fibreOf x kept r.warp.opps), x / 2 ^ (8 * fibreBlockLen x),
    r.live ++ r.warp.physOf (k % 4) vm⟩

/-- The pending FBAR barriers in a warp block (R221). -/
def fbarsOf (x : Nat) : Tab Nat :=
  (List.range 15).foldl (fun t i =>
    let b := fieldAt x (0x11 + i) 1
    if bitAt b 4 then Tab.put t (i + 1) (b % 16) else t) []

/-- A retry over a save (R227): a fibre that was rewound to its retry PPT is to run that again. -/
def Retry.over (fibs : Tab Fib) (r : Retry) : Retry :=
  { r with rerun := r.rerun && !fibs.any (fun f =>
      f.1 % 4 == r.fib && f.2.kind == 0 && f.2.rewind.map (·.addr) == some r.addr) }

/-- A warp and its fibres from the blocks that follow, at a new place. Registers that the save holds keep their poison marks (R206), and the
pair has still to pass its retry point (R227). -/
def restoreWarp (kept : Warp) (place : Place) (fibs : Tab Fib) (rest : Nat) : Restored :=
  let w : Warp :=
    { kept with v := [], poison := [], out := [], fbars := fbarsOf rest, place := place, cur := none, pass := false, shWrote := [],
                issuableSince := 0, retries := kept.retries.map (Retry.over fibs) }
  let r := fibs.foldl (fun (r : Restored) p => r.fibre p.1 p.2) ⟨w, [], rest / 2 ^ (8 * 64), []⟩
  { r with warp := { r.warp with poison := kept.poison.filter (fun p => r.live.contains (p.1 / 32)) } }

/-- Dictionaries behind a W handle's rows, k of them. -/
def dictsOf : (k : Nat) → (x : Nat) → Tab (Bool × Nat) × Nat
  | 0, x => ([], x)
  | k + 1, x =>
    let p6 := bitAt x 8
    let n := if p6 then 128 else 32
    let r := dictsOf k (x / 2 ^ (8 * (16 + n)))
    (Tab.put r.1 (x % 2 ^ 8) (p6, fieldAt x 16 n), r.2)

/-- A live handle's contents from the bytes that follow (R221), and what is behind them. -/
def Tile.fromBytes (t : Tile) (queued x : Nat) : Tile × Nat :=
  let rows := fun (y : Nat) => (List.range t.rows).foldl (fun m r => Tab.set 0 m r (fieldAt y (r * t.rb) t.rb)) []
  let n := (t.rows * t.rb + 1023) / 1024 * 1024
  match t.lvl with
  | .t => ({ t with data := rows x }, x / 2 ^ (8 * n))
  | .a =>
    ({ t with data := rows x, md := (List.range 32).foldl (fun m r => Tab.set 0 m r (fieldAt x (8192 + 32 * r) 32)) [] },
      x / 2 ^ (8 * 9216))
  | .w =>
    let d := dictsOf t.dicts.length (x / 2 ^ (8 * n))
    ({ t with data := rows x, dicts := d.1 }, d.2)
  | .q => ({ t with queue := (List.range queued).map (fun i => fieldAt x (512 * i) 512) }, x / 2 ^ (8 * 512 * queued))

/-- The handles of a restored workgroup (R223): live ones with their contents, the others as if just bound. -/
def tilesOf (header : Nat) (tiles : Tab Tile) (x : Nat) : Tab Tile :=
  (tiles.foldl (fun (p : Tab Tile × Nat) t =>
    let word := fieldAt header (0x340 + 8 * t.1) 8
    if bitAt word 3 then
      let r := t.2.fromBytes (bitsOf word 31 7) p.2
      (Tab.put p.1 t.1 r.1, r.2)
    else (Tab.put p.1 t.1 (Tile.fresh t.2.lvl t.2.rows t.2.rb), p.2)) ([], x)).1

/-- The barriers of a restored workgroup g. -/
def barsOf (g header : Nat) : Tab BarPhase :=
  (List.range 16).foldl (fun t n =>
    let f := fun o k => fieldAt header (0x40 + 48 * n + o) k
    if bitAt (f 36 1) 0 then Tab.put t n ⟨f 32 2, f 34 2, (bitsSet 256 (f 0 32)).map (· + 256 * g)⟩ else t) []

/-- The lock ranges in a save area, those in use. -/
def locksOf (header : Nat) : List (Nat × Nat) :=
  ((List.range 16).map (fun i => (fieldAt header (0x540 + 16 * i) 8, fieldAt header (0x548 + 16 * i) 8))).filter (fun r => r.2 != 0)

/-- The ranges that are granted again on a core, in order (R224). -/
def Dev.relock (d : Dev) (w : Wg) (sl c : Nat) (rs : List (Nat × Nat)) : List Lock :=
  let sp : Space := ⟨w.part, ((w.launch.bind (Tab.find d.launches)).map (·.s1root)).getD 0, .u⟩
  rs.foldl (fun (p : List Lock) r =>
    match d.lockedLines sp r with
    | some l => if linesFit ((p.map (·.lines)).flatten ++ d.linesLocked sl c) l then p ++ [⟨r.1, r.2, l⟩] else p
    | none => p) []

/-- Saved workgroup g may go to a core now: its partition is in turn, the core has room and is kept for no other workgroup (R40, R223),
and no other launch's workgroups are all to be placed first (DESIGN CHOICE, assumption 120). -/
def Dev.mayRestore (d : Dev) (g sl c : Nat) : Bool :=
  match Tab.find d.saved g with
  | some x =>
    d.inTurn x.wg.part && (d.restoreRoom x sl c).isSome && !d.keptFrom none (some g) sl c &&
      x.wg.launch.all (fun l => !d.heldBack l x.wg.part)
  | none => false

/-- A carried command goes on after the restore; one that ended meanwhile makes its token readable (R220). -/
def Dev.uncarry (d : Dev) (c : Nat) : Dev :=
  match Tab.find d.cmds c with
  | none => d
  | some k =>
    if k.stage = .finished then d.deliver c
    else d.updCmd c (fun k => { k with stage := match k.kind with | .coll _ _ _ _ _ _ _ _ _ true _ => .running | _ => .waiting })

/-- A notice (R208, R229). -/
def noticeRec (cause addr info loc part : Nat) : Rec :=
  ⟨{ pc := 0, addr := addr, info := info, mask := 0, split := 0, cause := cause, kind := 4, loc := loc, lid := 0, part := part },
    none, [], none, false⟩

/-- LOC of a core. -/
def coreLoc (sl c : Nat) : Nat := sl + c * 2 ^ 4

/-- The end of a move after a lasting fault (R227): notice 0x52, then the core, unless it has been retired meanwhile, is suspect and notice
0x53 says so. -/
def Dev.endMove (d : Dev) (x : Saved) (sl c : Nat) : Dev :=
  match x.wg.saving.bind (·.move) with
  | some w =>
    let loc := ((Tab.find x.warps w).map (fun w => w.place.loc 0 x.wg.part)).getD 0
    let osl := x.wg.slice
    let oc := x.wg.core
    let k := d.core osl oc
    let e := d.raise osl (noticeRec 0x52 0 (sl + c * 2 ^ 4) loc x.wg.part)
    if x.left.isNone || k.retiring then e
    else (e.setCore osl oc { k with suspect := true }).raise osl (noticeRec 0x53 0 (k.disagreements % 2 ^ 16) (coreLoc osl oc) 0)
  | none => d

/-- The splits of workgroup g's fibres settle (R44). -/
def Dev.settleAll (d : Dev) (g : Nat) : Dev := (d.fibKeys g).foldl Dev.settleFib d

/-- Every shadow of workgroup g stands where its leading warp stands (R225). -/
def Dev.pairAll (d : Dev) (g : Nat) : Dev := ((d.warps.filter (fun w => w.1 / 64 == g)).map (·.1)).foldl Dev.pairUp d

/-- The workgroup stands on its new core; the queues to its shadows are empty when its carried commands go on (R220, R225). -/
def Dev.putBack (d : Dev) (g : Nat) (x : Saved) (sl c : Nat) (ps : List Place) (img : Nat) : Dev :=
  let body := img / 2 ^ (8 * 0x640)
  let r := (x.warps.zip ps).foldl (fun (q : Tab Warp × Tab Fib × Nat) p =>
    let w := restoreWarp p.1.2 p.2 (x.fibs.filter (fun f => f.1 / 4 == p.1.1)) q.2.2
    (Tab.put q.1 p.1.1 w.warp, w.fibs.foldl (fun t f => Tab.put t f.1 f.2) q.2.1, w.rest)) (d.warps, d.fibs, body)
  let w : Wg :=
    { x.wg with
      slice := sl, core := c, saving := none, bars := barsOf g img, tiles := tilesOf img x.wg.tiles r.2.2,
      locks := d.relock x.wg sl c (locksOf img) }
  let e : Dev :=
    { d with
      warps := r.1, fibs := r.2.1, wgs := d.wgs.put g w, saved := d.saved.del g }
  x.carried.foldl Dev.uncarry (((e.endMove x sl c).settleAll g).pairAll g)

/-- CONTEXT_RESTORE (R223); a fault on the area is reported, and the restore goes on after its answer (R222). -/
def execContextRestore (w sl c : Nat) (s : State) : Host.Outcome State Fault Refusal :=
  s.event (fun t =>
    match Tab.find t.dev.saved w with
    | some x =>
      if t.dev.waitsFor x.wg.part x.asked then t
      else
        match t.dev.mayRestore w sl c, t.dev.restoreRoom x sl c with
        | true, some ps =>
          match t.dev.translateRange ⟨x.wg.part, 0, .s⟩ .load x.bytes x.area with
          | .error e =>
            let now := t.dev.cycles.toNat
            t.onDev (fun d =>
              let e' := d.areaFault x.wg (firstFibre x.fibs w) x.warps 9 e.2
              { e' with saved := e'.saved.upd w (fun y =>
                  { y with asked := some (pageOf e.2), waited := some (x.waited.getD now) }) })
          | .ok as_ => t.onDev (·.putBack w x sl c ps (t.dev.gather as_))
        | _, _ => t
    | none => t)

/-! ### Reserving a core (R40) -/

/-- The core that is to be kept for a workgroup like the next of launch x: of the partition's cores in the kernel's configuration that
are kept for no other (DESIGN CHOICE, assumption 73), and that it may use, the one that lacks the fewest register groups, the lowest slice
and core on a tie (R40). -/
def Dev.coreFor (d : Dev) (x : Launch) (not : Option (Nat × Nat)) : Option (Nat × Nat) :=
  firstLeast (fun c => d.groupsLacked x c.1 c.2) ((d.coresOf x.part).filter (fun c =>
    (d.core c.1 c.2).config == x.desc.config && not != some c && !d.keptFrom none none c.1 c.2))

/-- The core that is kept for a waiting workgroup of launch l, and the saved workgroup it is for, or none for the launch's next: one that
has waited 250,000 cycles for a core and has none kept for it (R40, R223). -/
def Dev.coreToReserve (d : Dev) (l : Nat) (x : Launch) : Option (Option Nat × Nat × Nat) :=
  match (if d.longWaiting x && (d.keptCore x.part x.reserved).isNone then d.coreFor x none else none) with
  | some c => some (none, c)
  | none => d.saved.findSome? (fun g =>
      if g.2.wg.launch = some l ∧ (d.keptCore x.part g.2.reserved).isNone ∧ d.longAgo g.2.since ∧ d.restoreWaits g.2 then
        (d.coreFor x g.2.left).map (fun c => (some g.1, c))
      else none)

/-- CORE_RESERVATION (R40). -/
def execCoreReservation (l : Nat) (s : State) : Host.Outcome State Fault Refusal :=
  s.event (fun t =>
    match Tab.find t.dev.launches l with
    | some x =>
      match t.dev.coreToReserve l x with
      | some (g, c) => t.onDev (·.keepCore l g c)
      | none => t
    | none => t)

/-! ### Turns (R249, R258) -/

/-- The sharers of a time-shared run, by number. -/
def Dev.sharers (d : Dev) (first nsl : Nat) : List Nat :=
  (d.parts.filter (fun p => p.2.entry.tshare && p.2.entry.first == first && p.2.entry.nsl == nsl)).map (·.1)

/-- The turn of partition p starts (R249, R258): it lasts the quantum less what the partition owes. -/
def Dev.startTurn (d : Dev) (first p : Nat) : Dev :=
  match Tab.find d.parts p with
  | some q =>
    { d with turns := d.turns.put first ⟨q.entry.nsl, p, d.cycles.toNat + (q.entry.quantum - q.debt), false, false⟩ }.updPart p (fun q =>
      { q with debt := 0 })
  | none => d

/-- The cycles by which saves outlasted the quantum of turn t are owed, and with them those in which a restore of the partition has waited
for its area until now (R249, R222). -/
def Dev.owe (d : Dev) (t : Turn) : Dev :=
  let now := d.cycles.toNat
  let waits := ((d.saved.filter (fun x => x.2.wg.part == t.part)).filterMap (·.2.waited)).map (fun c => t.ends - c)
  let e := d.updPart t.part (fun q => { q with debt := q.debt + (now - t.ends) + waits.sum })
  { e with saved := e.saved.map (fun x => (x.1, if x.2.wg.part = t.part then { x.2 with waited := x.2.waited.map (fun _ => now) } else x.2)) }

/-- The next sharer's turn starts (R249). -/
def Dev.nextTurn (d : Dev) (first : Nat) (t : Turn) : Dev :=
  match Tab.find d.parts t.part with
  | some q =>
    let ss := d.sharers first q.entry.nsl
    let next := match ss.find? (fun p => decide (t.part < p)) with | some p => p | none => ss.headD t.part
    (if t.saves then d.owe t else d).startTurn first next
  | none => d

/-- No workgroup of the partition is placed; its firmware does not count (R18). -/
def Dev.noneOn (d : Dev) (p : Nat) : Bool := d.wgs.all (fun g => g.2.part != p || g.2.core == charon)

/-- QUANTUM_END (R249): the quantum of partition p lapses and its placed workgroups are to be saved; once none is placed, the turn
passes on. -/
def execQuantumEnd (p : Nat) (s : State) : Host.Outcome State Fault Refusal :=
  s.event (fun t =>
    match t.dev.turns.find? (fun x => x.2.part == p) with
    | some (k, x) =>
      if t.dev.cycles.toNat < x.ends then t
      else
        let y : Turn := { x with ending := true, saves := x.saves || !t.dev.noneOn p }
        let u := t.onDev (fun d =>
          let e := { d with turns := d.turns.put k y }
          if x.ending then e
          else ((e.wgs.filter (fun g => g.2.part == p)).map (·.1)).foldl (fun e g => e.askSave g 0x58 none) e)
        if u.dev.noneOn p then u.onDev (·.nextTurn k y) else u
    | none => t)

end Sys2Proof.Machine
end

