-- ==== Sys2Proof/Machine/Partition.lean ====
section
/-!
DEFINITION. The partition table and the supervisor block (spec/19_partitions_host.md R243 to R247, R253; spec/20_program_hypervisor.md
R257, R258; spec/04_storage.md R66; spec/02_device.md R23): commits, cancellation, keys.
-/
namespace Sys2Proof.Machine

/-! ### The table (R244) -/

/-- An entry's fields in 64 bytes x. -/
def entryOf (x : Nat) : Entry :=
  let f := fieldAt x
  { first := f 0 1, nsl := f 1 1, tshare := bitAt (f 2 1) 1, pcap := f 3 1, ceng := f 4 1, sfqw := f 5 1, collw := f 6 1, keyix := f 7 1,
    qfirst := f 8 1, qquota := f 0xA 2, cmask := f 0xC 2, quantum := f 0x10 4, waymask := f 0x14 4, s2root := f 0x18 8,
    sblock := f 0x20 8 }

/-- VALID of an entry. -/
def entryValid (x : Nat) : Bool := bitAt (fieldAt x 2 1) 0

/-- Run lengths (R243). -/
def runLengths : List Nat := [1, 2, 3, 4, 6, 12]

/-- The run is misaligned (R243, R245). -/
def runMisaligned (x : Nat) : Bool :=
  let e := entryOf x
  runLengths.contains e.nsl && e.first % e.nsl != 0

/-- Every other field keeps its range (R244). -/
def fieldsOk (x : Nat) : Bool :=
  let e := entryOf x
  runLengths.contains e.nsl && decide (e.first ≤ 11) && fieldAt x 2 1 / 4 == 0 && decide (e.pcap ≤ 3 ∧ e.ceng ≤ 48) &&
    decide (1 ≤ e.sfqw ∧ 1 ≤ e.collw ∧ 1 ≤ e.keyix ∧ e.keyix ≤ 127 ∧ e.qquota ≤ 256) && fieldAt x 9 1 == 0 && e.cmask / 2 ^ 15 == 0 &&
    fieldAt x 0xE 2 == 0 &&
    (if e.tshare then decide (250000 ≤ e.quantum ∧ e.quantum ≤ 2 ^ 31) else e.quantum == 0) &&
    e.waymask != 0 && (e.tshare || e.waymask == 0xFFFFFFFF) && e.s2root % 4096 == 0 && e.sblock % 4096 == 0 && fieldAt x 0x28 24 == 0

/-- A failing check: status and entry. -/
structure Failure where
  status : Nat
  entry : Nat

/-- An entry's own checks (R245). -/
def entryFailure (i x : Nat) : Option Failure :=
  if i = 0 then (if x = 0 then none else some ⟨0x04, 0⟩)
  else if !entryValid x then none
  else if runMisaligned x then some ⟨0x01, i⟩
  else if !fieldsOk x then some ⟨0x04, i⟩
  else none

/-- The pairs of a list of entries in rising order, the first of each pair lower. -/
def pairsOf : List (Nat × Entry) → List ((Nat × Entry) × (Nat × Entry))
  | [] => []
  | a :: r => r.map (fun b => (a, b)) ++ pairsOf r

/-- Two runs overlap without being shared (R243). -/
def runsClash (a b : Entry) : Bool :=
  rangesMeet (a.first, a.nsl) (b.first, b.nsl) && !(a.tshare && b.tshare && a.first == b.first && a.nsl == b.nsl)

/-- Entry b is beyond the fourth sharer of its run (R245). -/
def tooMany (es : List (Nat × Entry)) (b : Nat × Entry) : Bool :=
  decide (4 < (es.filter (fun a => decide (a.1 ≤ b.1) && a.2.first == b.2.first && a.2.nsl == b.2.nsl)).length)

/-- A pair of entries conflicts, the first of them lower: their runs overlap without being shared, or they share a run of which the second
is beyond the fourth sharer (R243, R245) (DEDUCED, assumption 59). -/
def runConflict (es : List (Nat × Entry)) (p : (Nat × Entry) × (Nat × Entry)) : Bool :=
  runsClash p.1.2 p.2.2 || (tooMany es p.2 && p.1.2.first == p.2.2.first && p.1.2.nsl == p.2.2.nsl)

/-- The valid entry at which the running sum of CENG first passes 48 (R245). -/
def cengOver : (sum : Nat) → List (Nat × Entry) → Option Nat
  | _, [] => none
  | n, (i, e) :: r => if 48 < n + e.ceng then some i else cengOver (n + e.ceng) r

/-- Two queue ranges overlap; an empty one overlaps nothing (DEDUCED, assumption 59). -/
def queuesClash (a b : Entry) : Bool :=
  a.qquota != 0 && b.qquota != 0 && rangesMeet (a.qfirst, a.qquota) (b.qfirst, b.qquota)

/-- The partition holds a placed or saved workgroup, an unread record or a launch with workgroups left to place (R245). -/
def Dev.partBusy (d : Dev) (p : Nat) (e : Entry) : Bool :=
  d.wgs.any (fun g => g.2.part == p && g.2.core != charon) || d.saved.any (fun g => g.2.wg.part == p) ||
    (List.range e.qquota).any (fun i => (d.queue (e.qfirst + i)).waiting != 0) ||
    d.launches.any (fun l => l.2.part == p && decide (l.2.nextWg < l.2.total))

/-- The commit changes what a busy partition may not change (R245). -/
def busyChange (a : Entry) (b : Option Entry) : Bool :=
  match b with
  | none => true
  | some b =>
    a.first != b.first || a.nsl != b.nsl || a.keyix != b.keyix || a.s2root != b.s2root || a.sblock != b.sblock ||
      a.qfirst != b.qfirst || a.qquota != b.qquota

/-- The first check that a table fails, in the order of R245; es are its valid entries. -/
def Dev.tableFailure (d : Dev) (raw : List Nat) (es : List (Nat × Entry)) : Option Failure :=
  let own := raw.zipIdx.findSome? (fun p => entryFailure p.2 p.1)
  let runs := ((pairsOf es).find? (runConflict es)).map (fun p => (⟨0x01, p.2.1⟩ : Failure))
  let ceng := (cengOver 0 es).map (fun i => (⟨0x02, i⟩ : Failure))
  let past := (es.find? (fun p => decide (256 < p.2.qfirst + p.2.qquota))).map (fun p => (⟨0x03, p.1⟩ : Failure))
  let queues := ((pairsOf es).find? (fun p => queuesClash p.1.2 p.2.2)).map (fun p => (⟨0x03, p.2.1⟩ : Failure))
  let busy := (d.parts.find? (fun p =>
    d.partBusy p.1 p.2.entry && busyChange p.2.entry ((es.find? (fun e => e.1 == p.1)).map (·.2)))).map (fun p => (⟨0x05, p.1⟩ : Failure))
  [own, runs, ceng, past, queues, busy].findSome? id

/-! ### Applying a table (R245, R257, R258) -/

/-- The queue descriptors of a partition whose queues may have moved: each stays with its queue (DEDUCED, assumption 48). -/
def moveQueues (qs : Tab QDesc) (a b : Entry) : Tab QDesc :=
  if a.qfirst = b.qfirst ∧ a.qquota = b.qquota then qs
  else qs.filterMap (fun p =>
    let q := a.qfirst + p.1
    if b.qfirst ≤ q ∧ q < b.qfirst + b.qquota then some (q - b.qfirst, p.2) else none)

/-- A partition under its new entry: a running weight above the entry's drops to it (R66). -/
def Part.under (p : Part) (e : Entry) : Part :=
  { p with entry := e, sfqw := min p.sfqw e.sfqw, collw := min p.collw e.collw,
           block := { p.block with queues := moveQueues p.block.queues p.entry e } }

/-- The partitions under the valid entries of a table. -/
def Dev.newParts (d : Dev) (es : List (Nat × Entry)) : Tab Part :=
  es.map (fun x => (x.1, match Tab.find d.parts x.1 with | some p => p.under x.2 | none => .start x.2))

/-- The ranges that keep their bytes when the runs change (R257): the manager area, the trap rings, the firmware regions. -/
def Dev.relocated (d : Dev) : List (Nat × Nat) :=
  (d.flash.managerArea, 2 ^ 16) :: (List.range 12).map (fun s => ((d.slice s).base * 2 ^ 16, 2 ^ 14)) ++ d.flash.firmware

/-- The seal without the bytes that no longer stand as a commit wrote them back. -/
def Seal.keep (x : Seal) (stays : Nat → Bool) : Seal :=
  { x with wrote := (List.range 64).foldl (fun m i => if stays i then m else clearBit m i) x.wrote }

/-- What the memory holds after the runs changed (R257): a byte of a changed run that is not relocated is a free value, whatever it held,
and its data are lost no longer. -/
def Dev.moveRuns (d : Dev) (old new : List Entry) : Dev :=
  let changed := (List.range 12).filter (fun s => runHolding old s != runHolding new s)
  if changed = [] then d
  else
    let kept := d.relocated
    let gone := fun a => isDevice a && changed.contains (a / 2 ^ 36) && !kept.any (inRange a)
    { d with
      mem := d.mem.filter (fun c => !gone c.1), blanks := d.blanks ++ [⟨d.freeCount, changed, kept⟩],
      seals := d.seals.map (fun x => (x.1, x.2.keep (fun i => !gone (64 * x.1 + i)))),
      bad := d.bad.filter (fun x => !gone (x * 32)), marked := d.marked.filter (fun x => !gone x), freeCount := d.freeCount + 1 }

/-- The fair queues with F = V for the streams of partitions that become valid (R248). -/
def startStreams (ps : List Nat) (q : Sfq) : Sfq :=
  { q with f := ps.foldl (fun t p => Tab.put (Tab.put t p (q.vnum, q.vden)) (16 + p) (q.vnum, q.vden)) q.f }

/-- A line at a commit in which the slots of a mask take their keys (R253). One with stores under such a slot is written back under the old
key, and the slot's copy is dropped; of one that stands as it was written back, the slots that take a key hold no older copy either
(DESIGN CHOICE, assumption 29). -/
def Dev.writeBack (d : Dev) (slots : Nat) (n : Nat) (x : Seal) : Seal :=
  let k := tagSlot x.tag
  if x.own = 0 then (if x.wrote = 0 then x else { x with slots := x.slots ||| slots })
  else if slots.testBit k ∧ x.tag = d.keyTag k then
    { tag := x.tag, own := 0, lost := 0, wrote := 2 ^ 64 - 1,
      line := xtsEncrypt (Tab.get 0 d.keys k) (64 * n) (d.gather (physRange (some k) (64 * n) 64)), slots := slots }
  else x

/-- The keys written since the last commit take effect, after the lines of their slots have been written back (R253). -/
def Dev.loadKeys (d : Dev) : Dev :=
  let slots := d.keyPending.foldl (fun m k => m ||| 2 ^ k.1) 0
  { d with
    seals := if slots = 0 then d.seals else d.seals.map (fun x => (x.1, d.writeBack slots x.1 x.2)),
    keys := d.keyPending.foldl (fun t k => Tab.put t k.1 k.2) d.keys,
    keyLoaded := d.keyPending.foldl (fun t k => Tab.put t k.1 true) d.keyLoaded, keyPending := [] }

/-- The turns under a new table (R249, R258): a run that stays time-shared with the sharer in turn goes on; one that is new starts with
its lowest sharer. Placed workgroups of a partition that is then out of its turn are saved as at a quantum's end (DEDUCED, assumption
82). -/
def Dev.startTurns (d : Dev) : Dev :=
  let shared := d.parts.filter (fun p => p.2.entry.tshare)
  let keep := d.turns.filter (fun t =>
    shared.any (fun p => p.1 == t.2.part && p.2.entry.first == t.1 && p.2.entry.nsl == t.2.nsl))
  let e := shared.foldl (fun e p =>
    if (Tab.find e.turns p.2.entry.first).isSome then e else e.startTurn p.2.entry.first p.1) { d with turns := keep }
  ((e.wgs.filter (fun g => shared.any (fun p => p.1 == g.2.part) && !e.inTurn g.2.part)).map (·.1)).foldl
    (fun e g => e.askSave g 0x58 none) e

/-- Waiting commands of a partition that owns no engine any more end (R23). -/
def Dev.dropEngines (d : Dev) : Dev :=
  (d.cmds.filter (fun c => c.2.kind.isCopy && c.2.stage == .waiting && d.engines c.2.part == 0)).foldl
    (fun e c => e.complete c.1 0x46) d

/-- Applies a table that passes every check. -/
def Dev.applyTable (d : Dev) (image : Tab Byte) (es : List (Nat × Entry)) (hostw : Nat) : Dev :=
  let fresh := (es.filter (fun e => (Tab.find d.parts e.1).isNone)).map (·.1)
  let old := d.parts.map (fun p => p.2.entry)
  let a : Dev :=
    { d with
      parts := d.newParts es, applied := image, sfq := d.sfq.map (fun q => (q.1, startStreams fresh q.2)),
      hostw := if hostw = 0 then d.hostw else hostw }
  (a.loadKeys.moveRuns old (es.map (·.2))).startTurns.dropEngines

/-- The bytes of the partition table in memory. -/
def Dev.tableImage (d : Dev) : Tab Byte :=
  (List.range 1024).foldl (fun t i => Tab.set 0 t i (d.readByte ⟨d.flash.managerArea + i, 15, some 0⟩)) []

/-- PRESULT and SRESULT (R245). -/
def resultWord (gen : Nat) (f : Option Failure) : Nat :=
  2 ^ 63 + gen % 2 ^ 16 * 2 ^ 32 + ((f.map (·.entry)).getD 0) * 2 ^ 24 + (f.map (·.status)).getD 0

/-- A commit of GEN (R245): the whole table or nothing, then PRESULT (DEDUCED, assumption 47). -/
def State.commitTable (s : State) (v : Nat) : State :=
  let d := s.dev
  let raw := (List.range 16).map (fun i => d.readOwn 64 (d.flash.managerArea + 64 * i))
  let es := ((raw.zipIdx.filter (fun p => decide (p.2 ≠ 0) && entryValid p.1)).map (fun p => (p.2, entryOf p.1)))
  let f := d.tableFailure raw es
  let a : Dev := { d with gen := v, genWeak := false }
  let b := if f.isNone then a.applyTable d.tableImage es (d.readOwn 1 (d.flash.managerArea + 0x410)) else a
  { s with dev := b }.store (physRange (some 0) (d.flash.managerArea + 0x408) 8) (resultWord v f) true

/-- GEN_COMMIT (R245): a strong store of v to GEN commits when v differs from GEN at the last commit, or when a weak store has changed
GEN since. A device that is not ready stays in its reset state (R27). -/
def execGenCommit (v : Nat) (s : State) : Host.Outcome State Fault Refusal :=
  s.event (fun t => if t.dev.ready ∧ (v ≠ t.dev.gen ∨ t.dev.genWeak) then t.commitTable v else t)

/-! ### The supervisor block (R246) -/

/-- One queue descriptor. -/
def queueDescOf (x : Nat) : QDesc :=
  let f := fieldAt x
  ⟨f 0 8, f 8 8, f 0x10 1, f 0x11 1, bitAt (f 0x12 1) 0⟩

/-- A valid queue descriptor's fields keep their ranges. -/
def queueDescOk (x : Nat) : Bool :=
  let q := queueDescOf x
  !q.valid || (q.base % 4096 == 0 && decide (q.base < 2 ^ 57) && q.s1root % 4096 == 0 && decide (q.s1root < 2 ^ 52) &&
    decide (4 ≤ q.log2n ∧ q.log2n ≤ 16 ∧ q.prio ≤ 3) && fieldAt x 0x12 1 / 2 == 0 && fieldAt x 0x13 13 == 0)

/-- The pools and zero fields of a block keep their ranges. -/
def blockOk (x : Nat) : Bool :=
  let f := fieldAt x
  f 0x10 8 % 2 ^ 16 == 0 && decide (f 0x10 8 + f 0x18 8 ≤ 2 ^ 57) && f 0x20 8 % 4096 == 0 && decide (f 0x20 8 + f 0x28 8 ≤ 2 ^ 52) &&
    decide (f 0x30 8 + f 0x38 8 ≤ 2 ^ 52) && decide (f 0x48 4 ≤ 64) && f 0x4C 4 == 0 && f 0x58 40 == 0

/-- A queue holds records, or a launch of it has workgroups left to place (R246). -/
def Dev.queueBusy (d : Dev) (q : Nat) : Bool :=
  (d.queue q).waiting != 0 || d.launches.any (fun l => l.2.queue == q && decide (l.2.nextWg < l.2.total))

/-- A queue's descriptor as applied, none when it is not valid. -/
def validDesc (q : Option QDesc) : Option QDesc := q.bind (fun x => if x.valid then some x else none)

/-- n bytes of guest physical memory. -/
def Dev.readGuest (d : Dev) (p n a : Nat) : Option Nat :=
  match d.translateRange ⟨p, 0, .s⟩ .load n a with
  | .ok ps => some (d.gather ps)
  | .error _ => none

/-- The demand-map regions that a block names; none when they cannot be read. -/
def Dev.readRegions (d : Dev) (p at_ n : Nat) : Option (List (Nat × Nat)) :=
  if at_ = 0 ∨ n = 0 then some []
  else (d.readGuest p (16 * n) at_).map (fun x => (List.range n).map (fun i => (fieldAt x (16 * i) 8, fieldAt x (16 * i + 8) 8)))

/-- The block of partition p as it stands in memory, or its status (R246) (DEDUCED, assumption 49). -/
def Dev.readBlock (d : Dev) (p : Nat) (q : Part) : Except Nat SBlock :=
  let e := q.entry
  match d.readGuest p (0x80 + 32 * e.qquota) e.sblock with
  | none => .error 0x04
  | some x =>
    let descs := (List.range e.qquota).map (fun i => fieldAt x (0x80 + 32 * i) 32)
    if !blockOk x || !descs.all queueDescOk then .error 0x04
    else
      match d.readRegions p (fieldAt x 0x40 8) (fieldAt x 0x48 4) with
      | none => .error 0x04
      | some dmap =>
        let new := descs.map queueDescOf
        if new.zipIdx.any (fun n => validDesc (some n.1) != validDesc (Tab.find q.block.queues n.2) && d.queueBusy (e.qfirst + n.2)) then
          .error 0x05
        else
          .ok { lwBase := fieldAt x 0x10 8, lwSize := fieldAt x 0x18 8, ctxBase := fieldAt x 0x20 8, ctxSize := fieldAt x 0x28 8,
                fpBase := fieldAt x 0x30 8, fpSize := fieldAt x 0x38 8, dmap := dmap,
                queues := (new.zipIdx.filter (fun n => n.1.valid)).map (fun n => (n.2, n.1)) }

/-- The frames of a pool that stays as it was stay taken. -/
def Part.withBlock (q : Part) (b : SBlock) : Part :=
  { q with block := b, framesUsed := if b.fpBase = q.block.fpBase then q.framesUsed else 0 }

/-- A commit of a partition's SGEN (R246): the whole block or nothing, then SRESULT. -/
def State.commitBlock (s : State) (p : Nat) (q : Part) (v : Nat) : State :=
  let r := s.dev.readBlock p q
  let f : Option Failure := match r with | .ok _ => none | .error st => some ⟨st, 0⟩
  let t := s.onDev (·.updPart p (fun q =>
    let c := { q with sgen := v, sgenWeak := false }
    match r with | .ok b => c.withBlock b | .error _ => c))
  match t.dev.translateRange ⟨p, 0, .s⟩ .store 8 (q.entry.sblock + 8) with
  | .ok ps => t.store ps (resultWord v f) true
  | .error _ => t

/-- SGEN_COMMIT (R246). -/
def execSgenCommit (p v : Nat) (s : State) : Host.Outcome State Fault Refusal :=
  s.event (fun t =>
    match Tab.find t.dev.parts p with
    | some q => if v ≠ q.sgen ∨ q.sgenWeak then t.commitBlock p q v else t
    | none => t)

/-! ### Cancellation (R247) -/

/-- The fatal record that ends a cancelled launch. -/
def Dev.cancelRec (d : Dev) (sl p l : Nat) : Rec :=
  ⟨{ pc := 0, addr := 0, info := 0, mask := 0, split := 0, cause := 0x5D, kind := 2, loc := sl + p * 2 ^ 17, lid := d.lid (some l),
     part := p }, none, [], some l, false⟩

/-- The position has not been read: it lies at the head of its queue or less than half the range of positions behind it (DEDUCED,
assumption 110). -/
def Queue.unread (y : Queue) (pos : Nat) : Bool := decide ((pos + 2 ^ 32 - y.head) % 2 ^ 32 < 2 ^ 31)

/-- The device acts on a cancellation of the launch at a position of a queue. A launch has ended when a fatal record has ended it (R213) or
all its workgroups have (R41), though its completion word be still to be written. -/
def State.cancelAt (s : State) (p : Nat) (e : Entry) (q pos : Nat) : State :=
  if (s.dev.queue q).unread pos then
    s.onDev (·.updPart p (fun x => { x with cancelled := if x.cancelled.contains (q, pos) then x.cancelled else x.cancelled ++ [(q, pos)] }))
  else
    match s.dev.launches.find? (fun l => l.2.queue == q && l.2.pos == pos) with
    | some (l, x) =>
      if x.answer then s
      else if x.ending || s.dev.launchOver l x then s.answerCancel p false
      else s.onDev (fun d => (d.raise e.first (d.cancelRec e.first p l)).updLaunch l (fun x => { x with answer := true }))
    | none => s.answerCancel p false

/-- CANCEL (R247): a store of v with GO set. -/
def execCancel (p v : Nat) (s : State) : Host.Outcome State Fault Refusal :=
  s.event (fun t =>
    match t.dev.entry p with
    | some e =>
      if !bitAt v 63 then t
      else if bitsOf v 40 22 ≠ 0 ∨ e.qquota ≤ v % 2 ^ 8 then t.answerCancel p false
      else t.cancelAt p e (e.qfirst + v % 2 ^ 8) (bitsOf v 8 32)
    | none => t)

/-! ### Keys (R253) -/

/-- KEY_SLOT_WRITE (R253): it takes effect at the next commit; slot 0 ignores writes. -/
def execKeySlotWrite (k v : Nat) (s : State) : Host.Outcome State Fault Refusal :=
  s.event (fun t =>
    if 1 ≤ k ∧ k ≤ 127 then t.onDev (fun d => { d with keyPending := d.keyPending.put k (v % 2 ^ 512) }) else t)

end Sys2Proof.Machine
end

