-- ==== Sys2Proof/Machine/External.lean ====
section
/-!
DEFINITION. What reaches the device from outside (spec/19_partitions_host.md R248, R251, R252, R254 to R256; spec/10_ordering.md;
spec/09_memory.md R149; spec/02_device.md R25, R27, R28; spec/05_encoding.md R99, R101): the host link, reset and attestation, power,
the fabric, the fair queues, and reloads of the match-and-replace table.
-/
namespace Sys2Proof.Machine

/-! ### BAR0 (R252, R255) -/

/-- The i-th queue of partition p and its descriptor, when it has a valid one (R252). -/
def Dev.hostQueue (d : Dev) (p i : Nat) : Option (Nat × QDesc) :=
  match Tab.find d.parts p with
  | some q =>
    if i < q.entry.qquota then
      match Tab.find q.block.queues i with
      | some x => if x.valid then some (q.entry.qfirst + i, x) else none
      | none => none
    else none
  | none => none

/-- A write of v to a queue's tail (R34, R252): it moves only forward, by no more than the ring holds; else OVERRUN is set. -/
def Queue.writeTail (y : Queue) (log2n v : Nat) : Queue :=
  let n := (v % 2 ^ 32 + 2 ^ 32 - y.head) % 2 ^ 32
  if n < y.waiting ∨ 2 ^ log2n < n then { y with overrun := true } else { y with tail := v % 2 ^ 32 }

/-- A write to QTAIL of the i-th queue of function p. -/
def Dev.writeQtail (d : Dev) (p i v : Nat) : Dev :=
  match d.hostQueue p i with
  | some (q, x) => d.setQueue q ((d.queue q).writeTail x.log2n v)
  | none => d

/-- QTAIL_WRITE (R252). -/
def execQtailWrite (p i v : Nat) (s : State) : Host.Outcome State Fault Refusal := s.event (·.onDev (·.writeQtail p i v))

/-- A write to QHEAD: LOST and OVERRUN are cleared by ones (R252). -/
def Queue.writeHead (y : Queue) (v : Nat) : Queue :=
  { y with lost := y.lost && !bitAt v 33, overrun := y.overrun && !bitAt v 32 }

/-- A write to QHEAD of the i-th queue of function p. -/
def Dev.writeQhead (d : Dev) (p i v : Nat) : Dev :=
  match d.hostQueue p i with
  | some (q, _) => d.setQueue q ((d.queue q).writeHead v)
  | none => d

/-- QHEAD_WRITE (R252). -/
def execQheadWrite (p i v : Nat) (s : State) : Host.Outcome State Fault Refusal := s.event (·.onDev (·.writeQhead p i v))

/-- The value of QHEAD (R252). -/
def Queue.qhead (y : Queue) : Nat := b2n y.lost * 2 ^ 33 + b2n y.overrun * 2 ^ 32 + y.head % 2 ^ 32

/-- DSTAT (R252, R254, R256). -/
def Dev.dstat (d : Dev) : Nat := b2n d.ready * 2 ^ 63 + b2n d.thermal * 2 ^ 62 + d.dcause % 2 ^ 8

/-- The 8 bytes that a read of BAR0 of function p at an offset returns (R252, R255). -/
def Dev.bar0 (d : Dev) (p off : Nat) : Nat :=
  let i := (off - 0x1000) / 16
  if p = 0 then
    if off = 0 then d.dstat
    else if off = 0x120 then b2n d.reportDone
    else if 0x200 ≤ off ∧ off < 0x3A8 then bytesNat ((List.range 8).map (fun k => Tab.get 0 d.report (off - 0x200 + k)))
    else 0
  else if off < 0x1000 then 0
  else
    match d.hostQueue p i with
    | some (q, _) => if off % 16 = 0 then (d.queue q).tail else if off % 16 = 8 then (d.queue q).qhead else 0
    | none => 0

/-- The bytes of an attestation report that the signature covers (R255). -/
def Dev.reportBody (d : Dev) : List Byte :=
  leBytes 4 1 ++ leBytes 4 0 ++ (List.range 48).map Config.identityDigest ++
    ((List.range 4).map (fun i => leBytes 48 (Tab.get 0 d.mr i))).flatten ++
    digestBytes (sha384 ((List.range 1024).map (Tab.get 0 d.applied))) ++ leBytes 32 d.nonce

/-- A report with its signature (R255) (DESIGN CHOICE, assumption 65). -/
def Dev.attest (d : Dev) : Dev :=
  let bytes := d.reportBody ++ (List.range 96).map (Config.reportSignature d.reports)
  { d with report := bytes.zipIdx.foldl (fun t b => Tab.set 0 t b.2 b.1) [], reportDone := true, reports := d.reports + 1 }

/-- ATTESTATION_REQUEST (R255). -/
def execAttestationRequest (s : State) : Host.Outcome State Fault Refusal := s.event (·.onDev Dev.attest)

/-- Replaces 8 bytes of a number at an offset. -/
def setEight (x off v : Nat) : Nat :=
  (List.range 8).foldl (fun y i => setByte y (off + i) (v / 2 ^ (8 * i) % 2 ^ 8)) x

/-- A write of 8 bytes to BAR0 of function p (R252, R255). -/
def Dev.writeBar0 (d : Dev) (p off v : Nat) : Dev :=
  if p = 0 then
    if 0x100 ≤ off ∧ off < 0x120 ∧ off % 8 = 0 then { d with nonce := setEight d.nonce (off - 0x100) v }
    else if off = 0x120 then d.attest
    else d
  else if off < 0x1000 ∨ 0x10000 ≤ off then d
  else if off % 16 = 0 then d.writeQtail p ((off - 0x1000) / 16) v
  else if off % 16 = 8 then d.writeQhead p ((off - 0x1000) / 16) v
  else d

/-- MMIO_REGISTER_WRITE (R252). -/
def execMmioRegisterWrite (p off v : Nat) (s : State) : Host.Outcome State Fault Refusal :=
  s.event (·.onDev (·.writeBar0 p off v))

/-! ### Host accesses to memory (R149, R251) -/

/-- A store of bytes by the host, strong and at host physical addresses. -/
def State.hostStore (s : State) (a : Nat) (bytes : List Nat) : State :=
  s.store (physRange none a bytes.length) (bytes.foldr (fun b x => b % 256 + 256 * x) 0) true

/-- HOST_CXL_MEM_ACCESS (R149, R251). -/
def execHostCxlMemAccess (a : Nat) (store : Option (List Nat)) (s : State) : Host.Outcome State Fault Refusal :=
  s.event (fun t =>
    match store with
    | some bs => if a + bs.length ≤ deviceEnd then t.hostStore a bs else t
    | none => t)

/-- HOST_STORE_OBSERVED (R149). -/
def execHostStoreObserved (a : Nat) (bytes : List Nat) (s : State) : Host.Outcome State Fault Refusal :=
  s.event (fun t => if hostStart ≤ a then t.hostStore a bytes else t)

/-! ### Fair queues (R248) -/

/-- The weight of a request as it arrives. -/
def Dev.weight (d : Dev) (kind p w : Nat) : Nat :=
  match kind with
  | 0 => ((Tab.find d.parts p).map (·.sfqw)).getD 1
  | 1 => min w (((d.entry p).map (·.collw)).getD 1)
  | _ => d.hostw

/-- The controller serves the stream: the host's, or one of a partition whose run includes its slice. -/
def Dev.streamOf (d : Dev) (m kind p : Nat) : Bool :=
  kind == 2 || (match d.entry p with | some e => decide (e.first ≤ m ∧ m < e.first + e.nsl) | none => false)

/-- The larger of two fractions. -/
def maxFrac (a b : Nat × Nat) : Nat × Nat := if a.1 * b.2 < b.1 * a.2 then b else a

/-- A request of b bytes with weight w arrives on stream kind × 16 + p. -/
def Sfq.arrive (q : Sfq) (kind p b w seq : Nat) : Sfq :=
  let k := kind * 16 + p
  let f := Tab.get (0, 1) q.f k
  let start := maxFrac (q.vnum, q.vden) f
  { q with f := q.f.put k (start.1 * w + b * start.2, start.2 * w), reqs := q.reqs ++ [⟨kind, p, b, start.1, start.2, seq⟩] }

/-- A controller's fair queue. -/
def Dev.fairQueue (d : Dev) (m : Nat) : Sfq := Tab.get .zero d.sfq m

/-- The COLLW value that a request of command c carries: a Halley request that of its COLL, which is one of the partition (R177). -/
def Dev.carriedWeight (d : Dev) (kind p c : Nat) : Option Nat :=
  if kind ≠ 1 then some 0
  else match Tab.find d.cmds c with
    | some k => match k.kind with
      | .coll _ _ _ _ _ _ _ _ _ _ w => if k.part = p then some w else none
      | _ => none
    | none => none

/-- SFQ_ARRIVAL (R248): at the controller of the byte's home slice (R22). -/
def execSfqArrival (a kind p b c : Nat) (s : State) : Host.Outcome State Fault Refusal :=
  s.event (fun t =>
    let r := if kind = 2 then 0 else p
    match t.dev.home a, t.dev.carriedWeight kind r c with
    | some (m, _), some w =>
      if kind ≤ 2 ∧ t.dev.streamOf m kind r then
        let (n, u) := t.fresh
        u.onDev (fun d => { d with sfq := d.sfq.put m ((d.fairQueue m).arrive kind r b (max 1 (d.weight kind r w)) n) })
      else t
    | _, _ => t)

/-- Request a goes before b: the smaller start, then earlier arrival, then tenant, Halley, host, then the lower partition. -/
def SfqReq.before (a b : SfqReq) : Bool :=
  a.num * b.den < b.num * a.den || (a.num * b.den == b.num * a.den && (decide (a.seq < b.seq) ||
    (a.seq == b.seq && (decide (a.kind < b.kind) || (a.kind == b.kind && decide (a.part < b.part))))))

/-- The request that a controller begins next. -/
def Sfq.next (q : Sfq) : Option SfqReq :=
  q.reqs.foldl (fun b r => match b with | some x => if r.before x then some r else b | none => some r) none

/-- The controller begins its next request: V becomes its start. -/
def Sfq.serve (q : Sfq) : Sfq :=
  match q.next with
  | some r => { q with vnum := r.num, vden := r.den, reqs := q.reqs.filter (fun x => x.seq != r.seq), last := some r }
  | none => q

/-- SFQ_SERVE (R248). -/
def execSfqServe (m : Nat) (s : State) : Host.Outcome State Fault Refusal :=
  s.event (·.onDev (fun d =>
    match Tab.find d.sfq m with
    | some q => { d with sfq := d.sfq.put m q.serve }
    | none => d))

/-! ### The fabric (R25) -/

/-- A fabric port (R25, R29): one of 18. -/
def Dev.port (d : Dev) (n : Nat) : Port := Tab.get ⟨0, 0, 0⟩ d.ports n

/-- The flits that the port has to send again, in order, from its retransmission buffer (R25). -/
def Port.resends (x : Port) : List Nat := (List.range (x.sent - x.next)).map (x.next + ·)

/-- FLIT_REFUSE (R25): the flit given and every later one, of as many as are sent on the port, are to be sent again; those before it have
been delivered, once and in order, so that one delivered before is never refused. -/
def execFlitRefuse (port : Nat) (flit : Nat × Nat) (s : State) : Host.Outcome State Fault Refusal :=
  let (k, sent) := flit
  s.event (·.onDev (fun d =>
    let x := d.port port
    if port < 18 ∧ x.taken ≤ k ∧ k < sent ∧ x.sent ≤ sent then { d with ports := Tab.set ⟨0, 0, 0⟩ d.ports port ⟨k, sent, k⟩ } else d))

/-! ### Reloading a core's table (R99, R101) -/

/-- What an element of a substitute sequence does, as R99 asks: its destinations, how many others it writes (predicates and the like),
whether it may set a flag, whether it writes memory, how many accesses it makes, and whether it may not stand there at all. -/
structure Element where
  dests : List Opd
  others : Nat
  flags : Bool
  stores : Bool
  accesses : Nat
  barred : Bool

/-- An element that only writes a register. -/
def Element.reg (d : Opd) : Element := ⟨[d], 0, false, false, 0, false⟩
/-- An element that writes a register and may set a flag. -/
def Element.flagged (d : Opd) : Element := ⟨[d], 0, true, false, 0, false⟩
/-- An element that writes a predicate; p7 discards. -/
def Element.pred (p : Nat) (flags : Bool) : Element := ⟨[], if p = 7 then 0 else 1, flags, false, 0, false⟩
/-- An element that writes something else. -/
def Element.other : Element := ⟨[], 1, false, false, 0, false⟩
/-- An element that writes nothing. -/
def Element.none : Element := ⟨[], 0, false, false, 0, false⟩
/-- An element that may not stand in a sequence. -/
def Element.bar : Element := ⟨[], 0, false, false, 0, true⟩

/-- How many predicates an optional one counts for. -/
def optPred (p : Option Nat) : Nat := match p with | some 7 => 0 | some _ => 1 | Option.none => 0

/-- What each instruction is as an element. -/
def elementOf : Instr → Element
  | .and o | .andn o | .bfx o | .or o | .rot o | .sar o | .shl o | .shr o | .xor o | .imax o | .imin o | .imul o | .imulh o =>
    .reg o.d
  | .bfi o | .imad o => .reg o.d
  | .brev o | .clz o | .popc o | .mov o | .fclass o => .reg o.d
  | .iabs o | .fexp2 o | .flog2 o | .fsin o | .fcos o | .bscl o | .fgetexp o => .flagged o.d
  | .frcp o _ | .frsq o _ | .fsqrt o _ | .frred o _ => .flagged o.d
  | .lred o _ => if o.ty.isInt then .reg o.d else .flagged o.d
  | .idiv o _ => .flagged o.d
  | .fadd o _ | .fsub o _ | .fmul o _ | .fdiv o _ | .fscale o _ => .flagged o.d
  | .fmax o | .fmin o => .flagged o.d
  | .ffma o _ => .flagged o.d
  | .fdot o => .flagged o.d
  | .cvt _ dty sty _ d _ _ => if dty.isInt && sty.isInt then .reg d else .flagged d
  | .rqnt _ _ _ d _ _ _ => .flagged d
  | .iadd o _ co | .isub o _ co => { Element.reg o.d with others := optPred co }
  | .icmp _ _ _ p _ _ | .plop _ _ p _ _ _ | .tokq _ p _ | .ilock _ p _ _ => .pred p false
  | .fcmp _ _ _ p _ _ => .pred p true
  | .fclassPred _ _ p _ _ => .pred p false
  | .sel _ _ d _ _ _ | .movi _ _ d _ _ | .lea _ _ _ d _ | .getsr _ _ d _ | .bget _ _ d _ | .lanerd _ d _ _ | .lanewr _ d _ _
  | .ximm _ d | .xfld _ d _ _ => .reg d
  | .shfl _ _ _ _ d _ _ p => { Element.reg d with others := if p = 7 then 0 else 1 }
  | .vote _ _ _ d _ => match d with | .reg o => .reg o | .pred p => .pred p false
  | .ld _ _ _ _ _ d _ => { Element.flagged d with accesses := 1 }
  | .atom _ _ _ _ d _ _ => ⟨[d], 0, true, true, 1, false⟩
  | .cas _ _ _ d _ _ _ => ⟨[d], 0, false, true, 1, false⟩
  | .red _ _ _ _ _ _ => ⟨[], 0, true, true, 1, false⟩
  | .st _ _ _ _ _ _ _ => ⟨[], 0, false, true, 1, false⟩
  | .savem _ p _ n => ⟨[p], 0, false, true, n + 1, false⟩
  | .loadm _ _ _ n => ⟨[], n + 2, false, false, n + 1, false⟩
  | .accrd _ _ d _ | .accrdMd _ d _ | .tld _ _ d _ => .reg d
  | .setsr _ _ _ _ | .bset _ _ _ _ | .accwr _ _ _ _ | .accz _ _ _ | .tst _ _ _ _ | .talloc _ _ _ _ _ | .tfree _ _ | .tzero _ _
  | .mma _ | .mmas _ _ | .mmag _ _ _ _ _ _ _ _ _ | .iunlock _ _ _ => .other
  | .accchk _ _ _ | .cflush _ _ _ | .fence _ _ | .nop _ _ | .pref _ _ _ | .tfence _ | .trap _ _ | .wake _ _ _ _ _ | .yield_ _
  | .exit _ | .rft | .rftSkip => .none
  | .bra _ _ _ | .call _ _ _ | .brx _ _ _ _ | .callx _ _ _ _ | .ret _ _ | .sos | .inv _ | .ppt _ _ _ _ _ | .bar _ _ _
  | .barArrive _ _ _ | .fbar _ _ | .waita _ _ _ _ _ _ _ _ | .cpy _ | .cpyg _ | .cpyq _ _ _ _ _ | .wload _ _ _ _
  | .dict _ _ _ _ _ _ _ | .coll _ | .launch _ _ _ _ | .wgtake _ _ => .bar
  | .spillSwap _ | .collStartPoll _ | .collComplete _ _ _ | .cpyqAppend _ | .engineDispatch _ | .engineCommandComplete _
  | .workgroupRelease _ | .launchTokenComplete _ | .loadDataReturn _ _ | .tqstatWrite _ _ | .waitaTimeout _ _ | .spuriousWake _ _
  | .wgtakeAnswer _ | .substituteSequence _ | .tableReload _ _ _ _ _ | .slotSelect _ | .slotAgeExpiry _ | .heldSplitOverdue _ _
  | .stallRelease | .qtailWrite _ _ _ | .qheadWrite _ _ _ | .mmioRegisterWrite _ _ _ | .launchHeadCheck _ | .dependenceReread _
  | .workgroupPlace _ _ _ | .priorityPromotion _ | .coreReservation _ | .coreStoreChange _ | .completionWordWrite _
  | .trapQueueRecordWrite _ | .respWrite _ _ _ | .handlerWatchdog _ | .quantumEnd _ | .preemptRequest _ | .forwardBoundLapse _
  | .contextSave _ | .contextRestore _ _ _ | .shadowMismatch _ _ | .coreTestResult _ _ _ | .errorRetirement _ _ _ _ _
  | .communicatorSetup _ _ _ _ _ _ _ _ | .memberLost _ _ | .flitRefuse _ _ | .sfqArrival _ _ _ _ _ | .sfqServe _
  | .hostCxlMemAccess _ _ | .hostStoreObserved _ _ | .genCommit _ | .sgenCommit _ _ | .cancel _ _ | .keySlotWrite _ _
  | .attestationRequest | .reset _ _ | .powerWindow _ | .thermalTrip => .bar

/-- An operand that names an architectural register as a destination. -/
def isArchDest : Opd → Bool
  | .v _ | .s _ | .hole _ => true
  | _ => false

/-- An element may stand where it does (R99) (DEDUCED, assumption 58). -/
def Element.ok (last : Bool) (e : Element) : Bool :=
  let n := (e.dests.filter isArchDest).length + e.others
  !e.barred && (if last then decide (n ≤ 1 ∧ e.accesses ≤ 1) else n == 0 && !e.flags && !e.stores)

/-- A 16-byte slot holds a legal instruction with its upper bytes zero (R97). -/
def slotInstr (x : Nat) : Option Instr :=
  if x / 2 ^ (8 * lenBytes (x % 4)) ≠ 0 then none
  else match decodeWord true x with | .ok i => some i | .error _ => none

/-- Entry e of an image may be loaded (R97, R99). A valid one whose length code or number of slots is out of range, or whose slot holds no
legal instruction, is refused too, and one that is not valid is asked for its reserved fields alone (DESIGN CHOICE, assumption 94). -/
def entryLoads (c : CoreSt) (e : Nat) : Bool :=
  let f := fun n o => imageNat c.table n (32 * e + o)
  let k := f 1 0x12
  let reserved := f 1 0x11 / 2 ^ 6 == 0 && !bitAt (f 1 0x11) 0 && f 1 0x13 / 2 == 0 && f 12 0x14 == 0
  if !bitAt (f 1 0x13) 0 then reserved
  else
    reserved && decide (1 ≤ f 1 0x10 ∧ f 1 0x10 ≤ 3 ∧ 1 ≤ k ∧ k ≤ 8) && f 8 0 &&& f 8 8 == f 8 8 &&
      (List.range k).all (fun i =>
        match slotInstr (imageNat c.store 16 (128 * e + 16 * i)) with
        | some x => (elementOf x).ok (i + 1 == k)
        | none => false)

/-- An image as bytes by offset. -/
def imageOf (bytes : List Nat) : Tab Byte := bytes.zipIdx.foldl (fun t b => Tab.set 0 t b.2 (BitVec.ofNat 8 b.1)) []

/-- TABLE_RELOAD (R99, R101): a signed image that passes the loader's checks replaces the core's table and store between two of its
instructions. -/
def execTableReload (sl c : Nat) (table store : List Nat) (signed : Bool) (s : State) : Host.Outcome State Fault Refusal :=
  s.event (fun t =>
    let k := t.dev.core sl c
    let new : CoreSt := { k with table := imageOf table, store := imageOf store, generation := k.generation + 1 }
    if t.dev.ready && signed && table.length == 2048 && store.length == 8192 && decide (sl < 12 ∧ c < 25) && (List.range 64).all (entryLoads new) then
      t.onDev (·.setCore sl c new)
    else t)

/-! ### Power and reset (R27, R28, R254, R256) -/

/-- POWER_WINDOW (R256): one step of 125 MHz down above 3,000 W, not below 0.625 GHz; else one step up, not above 2.5 GHz. -/
def execPowerWindow (watts : Nat) (s : State) : Host.Outcome State Fault Refusal :=
  s.event (·.onDev (fun d => { d with clock := if 3000 < watts then max 5 (d.clock - 1) else min 20 (d.clock + 1) }))

/-- THERMAL_TRIP (R256). -/
def execThermalTrip (s : State) : Host.Outcome State Fault Refusal := s.event (·.onDev (fun d => { d with thermal := true }))

/-- A measurement register extended from zero by an image's digest (R254). -/
def measured (i : Nat) : Nat := bytesNat (digestBytes (sha384 (leBytes 48 0 ++ leBytes 48 (Config.imageDigest i))))

/-- The record's contract table passes the check of R121: every valid entry has its own index in NUM and zeros in the reserved fields of
R120, and entry 15 is not valid. -/
def contractsOk (cs : List Nat) : Bool :=
  (List.range 16).all (fun i =>
    let x := cs.getD i 0
    !bitAt x 31 || (bitsOf x 28 3 == 0 && bitsOf x 4 6 == 0 && x % 16 == i && i != 15))

/-- The loader accepts the record's match-and-replace image (R99). -/
def imageLoads (f : Flash) : Bool := (List.range 64).all (entryLoads (CoreSt.start f))

/-- Measurement register i after the boot ROM: extended by its image where that verified (R254); a record that fails the check of R121
does not. -/
def Flash.measure (f : Flash) (verified i : Nat) : Nat :=
  if bitAt verified i && (i != 0 || contractsOk f.contracts) then measured i else 0

/-- RESET (R254): a boot whose record and images verify and pass their checks leaves the device ready, with its firmware started (R5, R18).
A failure leaves READY clear with its cause in DSTAT and no partition that could run a launch, nor an applied table (R27, R99, R121) (DESIGN
CHOICE, assumption 123). Host memory keeps its
contents; device memory has none that survive (assumption 15). -/
def execReset (verified why : Nat) (s : State) : Host.Outcome State Fault Refusal :=
  let f := s.dev.flash
  let mem := s.dev.mem.filter (fun c => isHost c.1)
  let d := Dev.boot f mem (f.measure verified 0) (f.measure verified 1) (f.measure verified 2) (f.measure verified 3)
  let e : Dev := { d with freeCount := s.dev.freeCount, reports := s.dev.reports, agenda := s.dev.agenda }
  let ok := verified % 16 == 15 && contractsOk f.contracts && imageLoads f
  .next { State.reset with dev :=
    if ok then e.startFirmware else { e with ready := false, dcause := why % 2 ^ 8, parts := [], applied := [] } }

end Sys2Proof.Machine
end

