-- ==== Sys2Proof/Machine/Reliability.lean ====
section
/-!
DEFINITION. Shadow warps, suspect cores, retirements, and communicators (spec/17_preempt_reliability.md R225 to R230;
spec/02_device.md R17; spec/07_contracts.md R130; spec/12_matrix_engines.md R174).
-/
namespace Sys2Proof.Machine

/-! ### Shadow mismatches (R227) -/

/-- The warp's disagreement is counted on its core. -/
def Dev.countMismatch (d : Dev) (sl c : Nat) : Dev :=
  d.setCore sl c { d.core sl c with disagreements := (d.core sl c).disagreements + 1 }

/-- A fibre of a guarded warp that is not rewindable is lost: the fatal record of cause 0x55 (R227). -/
def Dev.loseFibre (d : Dev) (k : Nat) (g : Wg) (w : Warp) (f : Fib) : Dev :=
  let pc := match f.splits.head? with | some p => p.2.pc | none => 0
  let r : RecData :=
    { pc := pc.toNat % 2 ^ 57, addr := 0, info := 0, mask := (f.splits.foldl (fun m p => m ||| p.2.mask) (0 : Word32)).toNat,
      split := f.frame.tsplit.toNat % 2 ^ 16, cause := 0x55, kind := 2, loc := w.place.loc (k % 4) g.part, lid := d.lid g.launch,
      part := g.part }
  (d.raise g.slice ⟨r, some k, [], g.launch, false⟩).updFib k (fun f => { f with inService := true })

/-- The pair has disagreed since the retry of this fibre, and has executed no PPT past the retry point. -/
def Warp.retrying (w : Warp) (n : Nat) : Option Retry := w.retries.find? (fun r => r.fib == n)

/-- A fibre is rewound, and its warp's shadow with it, with the queue emptied (R217, R227). -/
def Dev.rewindFibre (d : Dev) (w k : Nat) (a : Word64) : Dev :=
  ((d.updFib k Fib.rewound).updWarp w (fun x =>
    { x with retries := x.retries.filter (fun r => r.fib != k % 4) ++ [⟨k % 4, a, false⟩] })).pairUp w

/-- Fibre k of warp w, which stands in the tables, and its shadow disagree at address a (R227) (DEDUCED, assumption 53). -/
def Dev.mismatch (d : Dev) (w a : Nat) (x : Warp) (g : Wg) (k : Nat) (f : Fib) : Dev :=
  let e := d.countMismatch g.slice g.core
  match f.rewindable x (k % 4), f.rewind with
  | true, some p =>
    match x.retrying (k % 4) with
    | none => e.rewindFibre w k p.addr
    | some r =>
      ((e.raise g.slice (noticeRec 0x51 (a % 2 ^ 64) r.addr.toNat (x.place.loc 0 g.part) g.part)).rewindFibre w k p.addr).askSave
        (w / 64) 0 (some w)
  | _, _ => e.loseFibre k g x f

/-- SHADOW_MISMATCH (R227): an instruction of fibre k of a warp that has a shadow, which may be one whose event is held while another fibre
is the current one, also while its handler runs (DESIGN CHOICE, assumption 28). -/
def execShadowMismatch (k a : Nat) (s : State) : Host.Outcome State Fault Refusal :=
  s.event (fun t =>
    match Tab.find t.dev.warps (k / 4), Tab.find t.dev.wgs (k / 256), Tab.find t.dev.fibs k with
    | some x, some g, some f =>
      if x.place.shadow.isSome && f.runs then t.onDev (·.mismatch (k / 4) a x g k f) else t
    | _, _, _ => t)

/-- The workgroups on a core are to be saved, to resume elsewhere (R17), each with the record 0x59 of a pre-emption (DESIGN CHOICE,
assumption 88). -/
def Dev.clearCore (d : Dev) (sl c : Nat) : Dev :=
  ((d.wgs.filter (fun g => g.2.slice == sl && g.2.core == c)).map (·.1)).foldl (fun e g => e.askSave g 0x59 none) d

/-- The test of a suspect core ends (R227): a core that passes is used again; one that fails is given no work any more, its workgroups are
moved off it, and then it is retired (R17). -/
def Dev.endTest (d : Dev) (sl c : Nat) (passed : Bool) : Dev :=
  let k := d.core sl c
  if passed then d.setCore sl c { k with suspect := false }
  else ((d.setCore sl c { k with suspect := false, retiring := true }).clearCore sl c).vacate sl c

/-- CORE_TEST_RESULT (R227). -/
def execCoreTestResult (sl c : Nat) (passed : Bool) (s : State) : Host.Outcome State Fault Refusal :=
  s.event (fun t => if (t.dev.core sl c).suspect then t.onDev (·.endTest sl c passed) else t)

/-- The address lies in memory whose home is slice sl (R22). -/
def Dev.homeIs (d : Dev) (sl a : Nat) : Bool := (d.home a).map (·.1) == some sl

/-- A slice can retire this: one of its 32 L2 ways, or a row of its stack; lost sectors lie there too (R21, R22). -/
def Dev.retirable (d : Dev) (sl : Nat) (row : Bool) (a way : Nat) (lost : List Nat) : Bool :=
  decide (sl < 12) && (if row then d.homeIs sl a else decide (way < 32)) && lost.all (fun x => d.homeIs sl (x * 32))

/-- The slice after a retirement (R228): a way is out of replacement, a row is remapped, and transients count anew. -/
def Slice.retire (x : Slice) (row : Bool) (a way : Nat) : Slice :=
  { x with transients := 0, ways := if row then x.ways else x.ways ||| 2 ^ way, rows := if row then (x.rows ++ [a]).eraseDups else x.rows }

/-- The notice of a retirement (R229). -/
def Slice.retireRec (x : Slice) (sl : Nat) (row : Bool) (a way : Nat) : Rec :=
  noticeRec 0x54 (a % 2 ^ 64) ((if row then 1 else way * 2) + x.transients % 2 ^ 32 * 2 ^ 32) sl 0

/-- ERROR_RETIREMENT (R228, R229): an error that its retry clears (lost is none) counts as transient; a lasting one retires the way or the row, whose
contents have been saved, and poisons what cannot be recovered. -/
def execErrorRetirement (sl : Nat) (row : Bool) (a way : Nat) (lost : Option (List Nat)) (s : State) :
    Host.Outcome State Fault Refusal :=
  s.event (fun t =>
    let x := t.dev.slice sl
    match lost with
    | none => if sl < 12 then t.onDev (·.setSlice sl { x with transients := x.transients + 1 }) else t
    | some ls =>
      if t.dev.retirable sl row a way ls then
        t.onDev (fun d => ({ d with bad := (d.bad ++ ls).eraseDups }.setSlice sl (x.retire row a way)).raise sl (x.retireRec sl row a way))
      else t)

/-! ### Communicators (R130, R174, R230) -/

/-- The contracts that a member offers: those with CAPRATE above 0 that its partition allows (R130). -/
def Dev.carriedSet (d : Dev) (p : Nat) : Nat :=
  let m := ((d.entry p).map (·.cmask)).getD 0
  ((List.range 15).filter (fun n => bitAt m n && d.caprate n != 0)).foldl (fun x n => x ||| 2 ^ n) 0

/-- The highest contract of every set (R130). -/
def chosenContract (sets : List Nat) : Option Nat := (List.range 15).reverse.find? (fun n => sets.all (fun x => bitAt x n))

/-- The 64 bytes of a communicator's record (R174) (DEDUCED, assumption 55). -/
def commRecord (id members : Nat) (c : Comm) : Nat :=
  id % 2 ^ 32 + c.nranks % 2 ^ 16 * 2 ^ 32 + c.rank % 2 ^ 16 * 2 ^ 48 + c.contract % 2 ^ 8 * 2 ^ 64 + c.status % 2 ^ 8 * 2 ^ 72 +
    c.home % 2 ^ 8 * 2 ^ 80 + members % 2 ^ 64 * 2 ^ 128

/-- COMMUNICATOR_SETUP (R130, R174): the member's contract is the highest that every set holds; where there is none the setup has
failed, with status 0x42. Where the address of the record does not translate, nothing is written and there is no communicator (DESIGN
CHOICE, assumption 128). -/
def execCommunicatorSetup (p commid nranks rank home members recAt : Nat) (offered : List Nat) (s : State) :
    Host.Outcome State Fault Refusal :=
  s.event (fun t =>
    match t.dev.entry p with
    | some e =>
      if commid < 2 ^ 32 ∧ 2 ≤ nranks ∧ nranks ≤ 4096 ∧ rank < nranks ∧ e.first ≤ home ∧ home < e.first + e.nsl then
        let c := chosenContract (t.dev.carriedSet p :: offered)
        let m : Comm :=
          { nranks := nranks, rank := rank, home := home, record := recAt, contract := c.getD 0xFF, status := if c.isSome then 0 else 0x42 }
        match t.dev.translateRange ⟨p, 0, .s⟩ .store 64 recAt with
        | .ok ps =>
          (t.store ps (commRecord commid members m) true).onDev (fun d => { d with comms := d.comms.put (commKey p commid) m })
        | .error _ => t
      else t
    | none => t)

/-- MEMBER_LOST (R230): the communicator's record takes CSTATUS 0x44, and every COLL on it ends with 0x44. -/
def execMemberLost (p commid : Nat) (s : State) : Host.Outcome State Fault Refusal :=
  s.event (fun t =>
    match Tab.find t.dev.comms (commKey p commid) with
    | some m =>
      let u := match t.dev.translateRange ⟨p, 0, .s⟩ .store 1 (m.record + 9) with
        | .ok ps => t.store ps 0x44 true
        | .error _ => t
      let cs := (u.dev.cmds.filter (fun c => match c.2.kind with
        | .coll _ _ _ id _ _ _ _ _ _ _ => c.2.part == p && id == commid && c.2.stage != .finished
        | _ => false)).map (fun c => (c.1, match c.2.kind with
          | .coll _ _ ty _ src _ count _ _ started _ => started && u.dev.collStamp c.2 ty src count
          | _ => false))
      u.onDev (fun d =>
        cs.foldl (fun e c => e.finish c.1 c.2 0x44) { d with comms := d.comms.put (commKey p commid) { m with status := 0x44 } })
    | none => t)

end Sys2Proof.Machine
end

