-- ==== Sys2Proof/Machine/Dispatch.lean ====
section
/-!
DEFINITION. The meaning of every instruction and device step, one arm each.
-/
namespace Sys2Proof.Machine

/-- The meaning of an instruction or device step. -/
def exec (i : Instr) (s : State) : Host.Outcome State Fault Refusal :=
  match i with
  | .accchk g b64 h => Sys2Proof.Machine.execAccchk g b64 h s
  | .accrd g b64 d at_ => Sys2Proof.Machine.execAccrd g b64 d at_ s
  | .accrdMd g d at_ => Sys2Proof.Machine.execAccrdMd g d at_ s
  | .accwr g b64 at_ c => Sys2Proof.Machine.execAccwr g b64 at_ c s
  | .accz g b64 h => Sys2Proof.Machine.execAccz g b64 h s
  | .and o => Sys2Proof.Machine.execAnd o s
  | .andn o => Sys2Proof.Machine.execAndn o s
  | .atom g ty op sys d m b => Sys2Proof.Machine.execAtom g ty op sys d m b s
  | .bar g n cnt1 => Sys2Proof.Machine.execBar g n cnt1 s
  | .barArrive g n cnt1 => Sys2Proof.Machine.execBarArrive g n cnt1 s
  | .bfi o => Sys2Proof.Machine.execBfi o s
  | .bfx o => Sys2Proof.Machine.execBfx o s
  | .bget g sel d b => Sys2Proof.Machine.execBget g sel d b s
  | .bset g n a b => Sys2Proof.Machine.execBset g n a b s
  | .bra g h off => Sys2Proof.Machine.execBra g h off s
  | .call g h off => Sys2Proof.Machine.execCall g h off s
  | .brx g h t off => Sys2Proof.Machine.execBrx g h t off s
  | .callx g h t off => Sys2Proof.Machine.execCallx g h t off s
  | .ret g h => Sys2Proof.Machine.execRet g h s
  | .spillSwap w => Sys2Proof.Machine.execSpillSwap w s
  | .brev o => Sys2Proof.Machine.execBrev o s
  | .clz o => Sys2Proof.Machine.execClz o s
  | .bscl o => Sys2Proof.Machine.execBscl o s
  | .cas g b64 sys d m e n => Sys2Proof.Machine.execCas g b64 sys d m e n s
  | .cflush g loc m => Sys2Proof.Machine.execCflush g loc m s
  | .coll o => Sys2Proof.Machine.execColl o s
  | .collStartPoll c => Sys2Proof.Machine.execCollStartPoll c s
  | .collComplete c peers bad => Sys2Proof.Machine.execCollComplete c peers bad s
  | .cpy o => Sys2Proof.Machine.execCpy o s
  | .cpyg o => Sys2Proof.Machine.execCpyg o s
  | .cpyq g tok h n1 a => Sys2Proof.Machine.execCpyq g tok h n1 a s
  | .cpyqAppend c => Sys2Proof.Machine.execCpyqAppend c s
  | .wload g tok h a => Sys2Proof.Machine.execWload g tok h a s
  | .dict g p6 tok h cb0 n1 a => Sys2Proof.Machine.execDict g p6 tok h cb0 n1 a s
  | .engineDispatch c => Sys2Proof.Machine.execEngineDispatch c s
  | .engineCommandComplete c => Sys2Proof.Machine.execEngineCommandComplete c s
  | .cvt g dty sty rm d a b => Sys2Proof.Machine.execCvt g dty sty rm d a b s
  | .exit g => Sys2Proof.Machine.execExit g s
  | .workgroupRelease w => Sys2Proof.Machine.execWorkgroupRelease w s
  | .fadd o rm => Sys2Proof.Machine.execFadd o rm s
  | .fsub o rm => Sys2Proof.Machine.execFsub o rm s
  | .fmul o rm => Sys2Proof.Machine.execFmul o rm s
  | .ffma o rm => Sys2Proof.Machine.execFfma o rm s
  | .fbar g m => Sys2Proof.Machine.execFbar g m s
  | .fclass o => Sys2Proof.Machine.execFclass o s
  | .fclassPred g ty p a mask => Sys2Proof.Machine.execFclassPred g ty p a mask s
  | .fcmp g ty cond p a b => Sys2Proof.Machine.execFcmp g ty cond p a b s
  | .fexp2 o => Sys2Proof.Machine.execFexp2 o s
  | .flog2 o => Sys2Proof.Machine.execFlog2 o s
  | .fsin o => Sys2Proof.Machine.execFsin o s
  | .fcos o => Sys2Proof.Machine.execFcos o s
  | .fdiv o rm => Sys2Proof.Machine.execFdiv o rm s
  | .frcp o rm => Sys2Proof.Machine.execFrcp o rm s
  | .frsq o rm => Sys2Proof.Machine.execFrsq o rm s
  | .fsqrt o rm => Sys2Proof.Machine.execFsqrt o rm s
  | .fdot o => Sys2Proof.Machine.execFdot o s
  | .fence g sys => Sys2Proof.Machine.execFence g sys s
  | .fgetexp o => Sys2Proof.Machine.execFgetexp o s
  | .fscale o rm => Sys2Proof.Machine.execFscale o rm s
  | .fmax o => Sys2Proof.Machine.execFmax o s
  | .fmin o => Sys2Proof.Machine.execFmin o s
  | .frred o rm => Sys2Proof.Machine.execFrred o rm s
  | .getsr g b64 d num => Sys2Proof.Machine.execGetsr g b64 d num s
  | .iabs o => Sys2Proof.Machine.execIabs o s
  | .imax o => Sys2Proof.Machine.execImax o s
  | .imin o => Sys2Proof.Machine.execImin o s
  | .iadd o ci co => Sys2Proof.Machine.execIadd o ci co s
  | .isub o ci co => Sys2Proof.Machine.execIsub o ci co s
  | .icmp g ty cond p a b => Sys2Proof.Machine.execIcmp g ty cond p a b s
  | .idiv o rem => Sys2Proof.Machine.execIdiv o rem s
  | .ilock g p a n => Sys2Proof.Machine.execIlock g p a n s
  | .iunlock g a n => Sys2Proof.Machine.execIunlock g a n s
  | .imad o => Sys2Proof.Machine.execImad o s
  | .imul o => Sys2Proof.Machine.execImul o s
  | .imulh o => Sys2Proof.Machine.execImulh o s
  | .inv o => Sys2Proof.Machine.execInv o s
  | .lanerd g d a l => Sys2Proof.Machine.execLanerd g d a l s
  | .lanewr g d l a => Sys2Proof.Machine.execLanewr g d l a s
  | .launch g tok a q => Sys2Proof.Machine.execLaunch g tok a q s
  | .launchTokenComplete c => Sys2Proof.Machine.execLaunchTokenComplete c s
  | .ld g w strong sys loc d m => Sys2Proof.Machine.execLd g w strong sys loc d m s
  | .loadDataReturn f lost => Sys2Proof.Machine.execLoadDataReturn f lost s
  | .lea g loc pcrel d m => Sys2Proof.Machine.execLea g loc pcrel d m s
  | .loadm g p n cnt1 => Sys2Proof.Machine.execLoadm g p n cnt1 s
  | .lred o op => Sys2Proof.Machine.execLred o op s
  | .mma o => Sys2Proof.Machine.execMma o s
  | .mmas o hq => Sys2Proof.Machine.execMmas o hq s
  | .mmag g ty pal nzc hc hw ng1 a n => Sys2Proof.Machine.execMmag g ty pal nzc hc hw ng1 a n s
  | .mov o => Sys2Proof.Machine.execMov o s
  | .movi g ty d imm pcrel => Sys2Proof.Machine.execMovi g ty d imm pcrel s
  | .nop g len => Sys2Proof.Machine.execNop g len s
  | .or o => Sys2Proof.Machine.execOr o s
  | .plop g tab d a b c => Sys2Proof.Machine.execPlop g tab d a b c s
  | .popc o => Sys2Proof.Machine.execPopc o s
  | .ppt vmask smask roff tcnt tlo => Sys2Proof.Machine.execPpt vmask smask roff tcnt tlo s
  | .pref g loc m => Sys2Proof.Machine.execPref g loc m s
  | .red g ty op sys m b => Sys2Proof.Machine.execRed g ty op sys m b s
  | .rft => Sys2Proof.Machine.execRft s
  | .rftSkip => Sys2Proof.Machine.execRftSkip s
  | .rot o => Sys2Proof.Machine.execRot o s
  | .sar o => Sys2Proof.Machine.execSar o s
  | .shl o => Sys2Proof.Machine.execShl o s
  | .shr o => Sys2Proof.Machine.execShr o s
  | .rqnt g dty sty d a so sn => Sys2Proof.Machine.execRqnt g dty sty d a so sn s
  | .savem g p n cnt1 => Sys2Proof.Machine.execSavem g p n cnt1 s
  | .sel g ty d a b p => Sys2Proof.Machine.execSel g ty d a b p s
  | .setsr g b64 num b => Sys2Proof.Machine.execSetsr g b64 num b s
  | .tqstatWrite sl v => Sys2Proof.Machine.execTqstatWrite sl v s
  | .shfl g mode seg ty d a b p => Sys2Proof.Machine.execShfl g mode seg ty d a b p s
  | .sos => Sys2Proof.Machine.execSos s
  | .st g w strong sys loc m c => Sys2Proof.Machine.execSt g w strong sys loc m c s
  | .talloc g lvl h rows1 rb1 => Sys2Proof.Machine.execTalloc g lvl h rows1 rb1 s
  | .tfence g => Sys2Proof.Machine.execTfence g s
  | .tfree g h => Sys2Proof.Machine.execTfree g h s
  | .tzero g h => Sys2Proof.Machine.execTzero g h s
  | .tld g w d at_ => Sys2Proof.Machine.execTld g w d at_ s
  | .tst g w at_ c => Sys2Proof.Machine.execTst g w at_ c s
  | .tokq g p tok => Sys2Proof.Machine.execTokq g p tok s
  | .trap g imm => Sys2Proof.Machine.execTrap g imm s
  | .vote g mode neg d a => Sys2Proof.Machine.execVote g mode neg d a s
  | .waita g b64 sys d base off e tmo => Sys2Proof.Machine.execWaita g b64 sys d base off e tmo s
  | .waitaTimeout f sp => Sys2Proof.Machine.execWaitaTimeout f sp s
  | .spuriousWake f sp => Sys2Proof.Machine.execSpuriousWake f sp s
  | .wake g sys base off n => Sys2Proof.Machine.execWake g sys base off n s
  | .wgtake g d => Sys2Proof.Machine.execWgtake g d s
  | .wgtakeAnswer c => Sys2Proof.Machine.execWgtakeAnswer c s
  | .xor o => Sys2Proof.Machine.execXor o s
  | .yield_ g => Sys2Proof.Machine.execYield g s
  | .ximm g d => Sys2Proof.Machine.execXimm g d s
  | .xfld g d pos len1 => Sys2Proof.Machine.execXfld g d pos len1 s
  | .substituteSequence e => Sys2Proof.Machine.execSubstituteSequence e s
  | .tableReload sl c table store signed => Sys2Proof.Machine.execTableReload sl c table store signed s
  | .slotSelect pick => Sys2Proof.Machine.execSlotSelect pick s
  | .slotAgeExpiry w => Sys2Proof.Machine.execSlotAgeExpiry w s
  | .heldSplitOverdue f sp => Sys2Proof.Machine.execHeldSplitOverdue f sp s
  | .stallRelease => Sys2Proof.Machine.execStallRelease s
  | .qtailWrite p ix v => Sys2Proof.Machine.execQtailWrite p ix v s
  | .qheadWrite p ix v => Sys2Proof.Machine.execQheadWrite p ix v s
  | .mmioRegisterWrite p off v => Sys2Proof.Machine.execMmioRegisterWrite p off v s
  | .launchHeadCheck q => Sys2Proof.Machine.execLaunchHeadCheck q s
  | .dependenceReread l => Sys2Proof.Machine.execDependenceReread l s
  | .workgroupPlace l sl c => Sys2Proof.Machine.execWorkgroupPlace l sl c s
  | .priorityPromotion l => Sys2Proof.Machine.execPriorityPromotion l s
  | .coreReservation l => Sys2Proof.Machine.execCoreReservation l s
  | .coreStoreChange l => Sys2Proof.Machine.execCoreStoreChange l s
  | .completionWordWrite l => Sys2Proof.Machine.execCompletionWordWrite l s
  | .trapQueueRecordWrite sl => Sys2Proof.Machine.execTrapQueueRecordWrite sl s
  | .respWrite sl ix v => Sys2Proof.Machine.execRespWrite sl ix v s
  | .handlerWatchdog f => Sys2Proof.Machine.execHandlerWatchdog f s
  | .quantumEnd p => Sys2Proof.Machine.execQuantumEnd p s
  | .preemptRequest w => Sys2Proof.Machine.execPreemptRequest w s
  | .forwardBoundLapse f => Sys2Proof.Machine.execForwardBoundLapse f s
  | .contextSave w => Sys2Proof.Machine.execContextSave w s
  | .contextRestore w sl c => Sys2Proof.Machine.execContextRestore w sl c s
  | .shadowMismatch k a => Sys2Proof.Machine.execShadowMismatch k a s
  | .coreTestResult sl c passed => Sys2Proof.Machine.execCoreTestResult sl c passed s
  | .errorRetirement sl row a way lost => Sys2Proof.Machine.execErrorRetirement sl row a way lost s
  | .communicatorSetup p commid nranks rank home members recAt offered => Sys2Proof.Machine.execCommunicatorSetup p commid nranks rank home members recAt offered s
  | .memberLost p commid => Sys2Proof.Machine.execMemberLost p commid s
  | .flitRefuse port flit => Sys2Proof.Machine.execFlitRefuse port flit s
  | .sfqArrival a kind p b c => Sys2Proof.Machine.execSfqArrival a kind p b c s
  | .sfqServe m => Sys2Proof.Machine.execSfqServe m s
  | .hostCxlMemAccess a store => Sys2Proof.Machine.execHostCxlMemAccess a store s
  | .hostStoreObserved a bytes => Sys2Proof.Machine.execHostStoreObserved a bytes s
  | .genCommit v => Sys2Proof.Machine.execGenCommit v s
  | .sgenCommit p v => Sys2Proof.Machine.execSgenCommit p v s
  | .cancel p v => Sys2Proof.Machine.execCancel p v s
  | .keySlotWrite k v => Sys2Proof.Machine.execKeySlotWrite k v s
  | .attestationRequest => Sys2Proof.Machine.execAttestationRequest s
  | .reset verified why => Sys2Proof.Machine.execReset verified why s
  | .powerWindow watts => Sys2Proof.Machine.execPowerWindow watts s
  | .thermalTrip => Sys2Proof.Machine.execThermalTrip s

end Sys2Proof.Machine
end

