-- ==== Sys2Proof/Machine/Own.lean ====
section
/-!
DEFINITION. Which of the device's own steps comes next when no input waits and no split has been chosen. Every step listed here can
happen in the state and changes it; the order among them is the model's (DESIGN CHOICE, assumption 16), as inputs that stand in the
agenda come before it. Everything stands in the tables.
-/
namespace Sys2Proof.Machine

/-- A transfer that waits for a page which has been asked for. -/
def Dev.stuck {α : Type} (d : Dev) (p : Nat) : Xfer α → Bool
  | .waits a => d.pageAsked p a
  | _ => false

/-- Steps of trap queues: a fault that can be written, a record that the fault service can come to (R209 to R212). -/
def Dev.trapSteps (d : Dev) : List Instr :=
  (d.slices.filter (fun x => (x.2.nextWrite x.2.waiting).isSome)).map (fun x => .trapQueueRecordWrite x.1) ++
  (d.slices.map (fun x =>
    (x.2.live.filter (fun r => (r.2.data.kind == 1 && !r.2.answered) || r.1 == x.2.head)).map (fun r =>
      Instr.respWrite x.1 r.1 (2 ^ 64)))).flatten

/-- The context engine has something to do for workgroup g (R218, R219). -/
def State.saveActs (s : State) (g : Nat) (w : Wg) : Bool :=
  match w.saving with
  | none => false
  | some v =>
    let t := s.onDev (·.classify g)
    if s.dev.waitsFor w.part v.asked then false
    else if t.dev.fibs != s.dev.fibs then true
    else if t.dev.stopped g && (firstFibre t.dev.fibs g).isSome then
      let n := (t.saveImage g w).length
      match t.dev.areaFor w.part n with
      | none => false
      | some a =>
        match t.dev.translateRange ⟨w.part, 0, .s⟩ .store n a with
        | .ok _ => true
        | .error x => !t.dev.areaAsked w.part (pageOf x.2)
    else false

/-- The core on which a saved workgroup can be restored now. -/
def Dev.restoreOn (d : Dev) (g : Nat) (x : Saved) : Option (Nat × Nat) :=
  let ready := match d.translateRange ⟨x.wg.part, 0, .s⟩ .load x.bytes x.area with
    | .ok _ => true
    | .error e => !d.areaAsked x.wg.part (pageOf e.2)
  if ready && !d.waitsFor x.wg.part x.asked then (d.coresOf x.wg.part).find? (fun c => d.mayRestore g c.1 c.2) else none

/-- Steps of the context engine (R205, R218, R219, R223, R249). -/
def State.contextSteps (s : State) : List Instr :=
  let d := s.dev
  (d.wgs.filter (fun g => s.saveActs g.1 g.2)).map (fun g => .contextSave g.1) ++
  (d.turns.filter (fun x => decide (x.2.ends ≤ d.cycles.toNat) && (!x.2.ending || d.noneOn x.2.part))).map (fun x =>
    .quantumEnd x.2.part) ++
  (d.fibs.filter (fun f => d.handlerLate f.1 && !d.watchdogRang f.1)).map (fun f => .handlerWatchdog f.1) ++
  (d.fibs.filter (fun f => d.boundLapsed f.1 && f.2.handler.isNone)).map (fun f => .forwardBoundLapse f.1) ++
  d.saved.filterMap (fun x => (d.restoreOn x.1 x.2).map (fun c => .contextRestore x.1 c.1 c.2))

/-- The append that a CPYQ makes next happens now (R171). -/
def Dev.appends (d : Dev) (k : Cmd) : Bool :=
  match k.stage, k.kind with
  | .running, .entries h left addr =>
    match (Tab.find d.wgs k.wg).bind (fun w => Tab.find w.tiles h) with
    | none => false
    | some t =>
      decide (0 < left) && (!placeOk (512 * left) [addr] ||
        (decide (t.queue.length < t.rows) && !d.stuck k.part (d.engineRange k.space .load 512 addr)))
  | _, _ => false

/-- A copy-engine command can end now (R23, R171, R173). -/
def State.completes (s : State) (k : Cmd) : Bool :=
  if !k.kind.isCopy then false
  else if k.stage == .waiting then s.dev.engines k.part == 0
  else if k.stage != .running then false
  else match k.kind with
    | .entries _ left _ => left == 0
    | _ => !s.dev.stuck k.part (s.transfer k)

/-- A collective can start, or be refused, now (R176, R293). -/
def Dev.starts (d : Dev) (c : Nat) (k : Cmd) : Bool :=
  match k.kind with
  | .coll op _ ty id src dst count root cond false _ =>
    d.cmdReady k && k.stage != .finished && !d.collBehind c k.part id &&
      (d.collCheck k.part op ty id src dst count root cond != 0 ||
        (match d.condMet k cond with
          | .ok b => b
          | x => !d.stuck k.part x))
  | _ => false

/-- A LAUNCH or a WGTAKE can be served now (R55, R56). -/
def Dev.serves (d : Dev) (k : Cmd) : Bool :=
  match k.kind with
  | .enqueue addr q =>
    d.cmdReady k && k.stage != .finished && !d.stuck k.part (d.engineRange k.space .load 128 addr) &&
      (match d.queueDesc q with
        | some (p, x) =>
          !d.stuck k.part (d.engineRange (queueSpace p x) .store 128 (x.base + (d.queue q).tail % 2 ^ x.log2n * 128))
        | none => true)
  | .take => d.cmdReady k && d.queueRoom k.fib
  | _ => false

/-- Steps of the engines and of the distributor's commands (R23, R55, R56, R171, R176). -/
def State.engineSteps (s : State) : List Instr :=
  let d := s.dev
  (d.cmds.map (fun c =>
    (if d.canDispatch c.1 then [Instr.engineDispatch c.1] else []) ++
    (if d.appends c.2 then [.cpyqAppend c.1] else []) ++
    (if s.completes c.2 then [.engineCommandComplete c.1] else []) ++
    (if d.starts c.1 c.2 then [.collStartPoll c.1] else []) ++
    (if d.serves c.2 then (match c.2.kind with | .take => [.wgtakeAnswer c.1] | _ => [.launchTokenComplete c.1]) else []))).flatten

/-- Fibre k's parked splits whose timeouts have lapsed (R154). -/
def Dev.timeouts (d : Dev) (k : Nat) (f : Fib) : List Instr :=
  let late := fun (x : SplitSt) => match x.park with | some k => decide (k.deadline ≤ d.cycles.toNat) | none => false
  (f.splits.filter (fun p => late p.2)).map (fun p => Instr.waitaTimeout k p.1) ++
    (match f.handler with | some x => if late x then [.waitaTimeout k 64] else [] | none => [])

/-- Loads that return and timeouts that lapse, those of saved workgroups too, whose splits stand in the lists of R158 (R50, R154). -/
def Dev.waitSteps (d : Dev) : List Instr :=
  (d.warps.filterMap (fun w => w.2.out.head?.map (fun o => .loadDataReturn (w.1 * 4 + o.fib) none))) ++
  (d.fibs.map (fun f => d.timeouts f.1 f.2)).flatten ++
  (d.saved.map (fun x => (x.2.fibs.map (fun f => d.timeouts f.1 f.2)).flatten)).flatten

/-- Steps of the distributor (R32, R35 to R37, R40, R41, R76, R385). -/
def Dev.launchSteps (d : Dev) : List Instr :=
  (d.queues.filter (fun q => d.headReady q.1)).map (fun q => .launchHeadCheck q.1) ++
  (d.launches.filter (fun l => !l.2.depMet && d.depHolds l.2)).map (fun l => .dependenceReread l.1) ++
  (d.wgs.filter (fun g => d.wgDone g.1)).map (fun g => .workgroupRelease g.1) ++
  (d.launches.filter (fun l => d.launchDone l.1 l.2)).map (fun l => .completionWordWrite l.1) ++
  (d.launches.filter (fun l => d.promotes l.2)).map (fun l => .priorityPromotion l.1) ++
  d.launches.filterMap (fun l =>
    ((d.coresOf l.2.part).find? (fun c => d.mayPlace l.1 c.1 c.2)).map (fun c => .workgroupPlace l.1 c.1 c.2)) ++
  (d.launches.filter (fun l => (d.coreToReserve l.1 l.2).isSome)).map (fun l => .coreReservation l.1) ++
  (d.launches.filter (fun l => (d.coreToChange l.1 l.2).isSome)).map (fun l => .coreStoreChange l.1)

/-- Steps of slots besides the plain choice (R45, R47): a swap takes no issue opportunity, and comes before a split that takes one. -/
def Dev.slotSteps (d : Dev) : List Instr :=
  (d.warps.filter (fun w => d.fillable w.1 || (d.longSpilled w.1 w.2).isSome && (d.idleResident w.1 w.2).isSome)).map (fun w => .spillSwap w.1) ++
  (d.fibs.map (fun f => (f.2.splits.filter (fun p => d.overdue f.1 p.1 && d.slotTurn (f.1 / 4))).map (fun p => Instr.heldSplitOverdue f.1 p.1))).flatten

/-- The device's own step that comes next, if one can happen. -/
def State.ownEvent (s : State) : Option Instr :=
  let t := s.flush.refresh
  (t.dev.trapSteps ++ t.contextSteps ++ t.engineSteps ++ t.dev.waitSteps ++ t.dev.launchSteps ++ t.dev.slotSteps).head?

end Sys2Proof.Machine
end

