-- ==== Sys2Proof/Machine/Step.lean ====
section
/-!
DEFINITION. One step of the device. Inputs and choices that wait come first, then the split that slotSelect has chosen, then
the device's own steps, and else slotSelect chooses.
-/
namespace Sys2Proof.Machine

/-- The outcome with f applied to the next state. -/
def mapNext (f : State → State) : Host.Outcome State Fault Refusal → Host.Outcome State Fault Refusal
  | .next s => .next (f s)
  | .fault r => .fault r
  | .refused r => .refused r

/-- The chosen split of a guarded warp executes an instruction, and what it receives is passed on (R225, R226). -/
def execGuarded (i : Instr) (s : State) : Host.Outcome State Fault Refusal := mapNext (State.passOn s.cur i) (exec i s)

/-- The chosen split issues the word at its PC, once the shadow of a guarded warp lets it (R226). A filler is passed over on the way to
the word, and issues nothing (R50, R79). -/
def issueStep (s : State) : Host.Outcome State Fault Refusal :=
  match s.decodeAt s.split.pc.toNat with
  | .fault c a i => s.issues (fun t => t.holdRecord (fun u => .next (u.trap c u.split.mask a i)))
  | .filler => .next (s.arrive { s.split with pc := s.split.pc + 4 })
  | .run i =>
    match s.shadowWait i with
    | some x => .next (s.waitWith (s.attempt.stall [x]).split.st)
    | none => s.issues (fun t => if t.guarded then t.holdRecord (execGuarded i) else exec i t)

/-- A step of the running device. -/
def stepRunning (s : State) : Host.Outcome State Fault Refusal :=
  match s.dev.agenda with
  | i :: r => exec i { s with dev := { s.dev with agenda := r } }
  | [] =>
    if s.dev.chosen && s.canIssue then issueStep s
    else
      let t := { s with dev := { s.dev with chosen := false } }
      match t.ownEvent with
      | some i => exec i t
      | none => exec (.slotSelect none) t

/-- One step. After the thermal trip only a reset goes on (R256) (DESIGN CHOICE, assumption 56). -/
def step (s : State) : Host.Outcome State Fault Refusal :=
  match s.dev.thermal, s.dev.agenda with
  | true, .reset _ _ :: _ => mapNext State.tick (stepRunning s)
  | true, _ => .fault .clocksStopped
  | false, _ => mapNext State.tick (stepRunning s)

/-- A fibre of a kernel on core 0 of slice 0 in the partition of R245, as a place for withFetchWord: one lane, one private window
of 256 registers, its local window at 1 MiB. -/
def State.fixture (s : State) : State :=
  { s with
    cur := some ⟨0, 0, false⟩,
    split := { parent := 63, pc := 0x10000, mask := 1, st := .ready, sos := false, last := 0, wait := none },
    fib := { Fib.zero with entry := 0x10000, lwbase := 0x100000, lwsize := 0x10000 },
    warp := { Warp.zero with n := 256, p := [256] },
    wg := { Wg.zero with part := 1, nwarps := 1, nfibs := 1 } }

/-- The word of a NOP of 64 bits (R345), which an entry of the table stands in for. -/
def nopWord : Nat := 0x7925

/-- A table with one entry that matches every word of 64 bits, of one substitute instruction (R97). -/
def oneEntryTable : Tab Byte := [(0x10, 1), (0x11, 0x3E), (0x12, 1), (0x13, 1)]

/-- Stores 16 bytes at the PC of the current split. -/
def State.putWord (s : State) (w : Nat) : State :=
  match s.dev.translateRange s.space .fetch 16 s.split.pc.toNat with
  | .ok pas => { s with dev := s.dev.scatter pas w }
  | .error _ => s

/-- s with the instruction of nbits bits w stored where step fetches next. Where nothing issues, a fibre is put there to issue. A
word of replacement-store code (R94) goes into the core's replacement store, with a table that brings it about. -/
def State.withFetchWord (s : State) (nbits w : Nat) : State :=
  let t := if s.cur.isSome then s else s.fixture
  let x := w % 2 ^ nbits
  let u := { t with dev := { t.dev with chosen := true, agenda := [] } }
  match decodeWord false x, decodeWord true x with
  | .error .illegalOpcode, .ok _ =>
    let bytes := (leBytes 16 x).zipIdx.foldl (fun (m : Tab Byte) p => Tab.set 0 m p.2 p.1) []
    let c := { u.core with table := oneEntryTable, store := bytes }
    { u with dev := u.dev.setCore u.wg.slice u.wg.core c }.putWord nopWord
  | _, _ => u.putWord x

end Sys2Proof.Machine
end

