-- ==== Sys2Proof/Safety.lean ====
section
/-!
DEFINITION. The words the statements use: when memory is in canonical form, when nothing keeps an instruction from its effect,
what writing a result or a predicate changes and what it leaves, and what a move of the split leaves.
-/
namespace Sys2Proof

/-- Memory is in canonical form. -/
def MemoryOk (s : Machine.State) : Prop := s.dev.mem.wf = true

/-! ### Values as numbers -/

/-- The number that a finite value stands for. -/
def FVal.rat : FVal → ℚ
  | .fin neg m e => (if neg then -1 else 1) * (m : ℚ) * (2 : ℚ) ^ e
  | _ => 0

/-- x is at most y, for values that are no NaNs. -/
def FVal.atMost (x y : FVal) : Prop :=
  match x, y with
  | .inf true, _ => True
  | _, .inf false => True
  | .fin _ _ _, .fin _ _ _ => x.rat ≤ y.rat
  | _, _ => False

/-- n is q rounded to an integer in mode rm (R106): to nearest with ties to even, toward zero, up or down. -/
def RoundsTo {K : Type} [Field K] [LinearOrder K] [FloorRing K] (rm : Rm) (q : K) (n : ℤ) : Prop :=
  match rm with
  | .rne => |q - n| ≤ 1 / 2 ∧ (|q - n| = 1 / 2 → Even n)
  | .rz => n = if 0 ≤ q then ⌊q⌋ else ⌈q⌉
  | .ru => n = ⌈q⌉
  | .rd => n = ⌊q⌋

/-- r holds the bits and the flags that R106 and R107 give the nonzero real number q in format f under rm. Where the leading bit of q stands
at 2^x, the result is q rounded to a multiple of the last place of p bits from there, though of no finer place than a subnormal has. From
2^(emax + 1) on that is an overflow, which gives the infinity or the greatest finite number by mode and sign, with OF and NX. NX is set
when the result differs from q, and UF besides when q is tiny: when p bits with no least exponent would round it below the smallest
normal number. -/
def RoundsInto (f : Fmt) (rm : Rm) (q : ℝ) (r : Nat × Nat) : Prop :=
  ∃ x n tiny : ℤ,
    let place : ℝ := (2 : ℝ) ^ max (x - (f.p - 1)) (f.emin - (f.p - 1))
    let fine : ℝ := (2 : ℝ) ^ (x - (f.p - 1))
    (2 : ℝ) ^ x ≤ |q| ∧ |q| < (2 : ℝ) ^ (x + 1) ∧ RoundsTo rm (q / place) n ∧ RoundsTo rm (q / fine) tiny ∧
      let up := rm = .rne ∨ (rm = .ru ∧ 0 < q) ∨ (rm = .rd ∧ q < 0)
      if (2 : ℝ) ^ ((2 : ℤ) ^ f.eb - 1 - f.bias) ≤ |n * place| then
        (up → r = (f.withSign (decide (q < 0)) f.infBits, flagOF ||| flagNX)) ∧
        (¬ up → r = (f.withSign (decide (q < 0)) (f.infBits - 1), flagOF ||| flagNX))
      else
        r.1 < 2 ^ f.w ∧ (∃ m e, f.decode r.1 = .fin (decide (q < 0)) m e) ∧ ((f.decode r.1).rat : ℝ) = n * place ∧
        r.2 = if n * place = q then 0 else if |tiny * fine| < (2 : ℝ) ^ f.emin then flagUF ||| flagNX else flagNX

/-- r holds the bits and the flags that R106 and R107 give the exact value v, where q is the real number that v stands for: a NaN gives
the canonical one, infinities and zeros themselves, without a flag. -/
def RoundsValue (f : Fmt) (rm : Rm) (v : FVal) (q : ℝ) (r : Nat × Nat) : Prop :=
  (v.isNan = true → r = (f.nan, 0)) ∧ (v.isInf = true → r = (f.withSign v.neg f.infBits, 0)) ∧
  (v.isZero = true → r = (f.withSign v.neg 0, 0)) ∧
  (v.isNan = false → v.isInf = false → v.isZero = false → RoundsInto f rm q r)

/-- r is the code and the flags that R113 gives the finite value q in the tapered format of n bits and exponent size es: zero stays
zero, a magnitude outside the positive codes saturates, any other takes the nearest positive code and the even one of two equally
near; a negative value takes the negated code. -/
def RoundsToTaper (n es : Nat) (q : ℚ) (r : Nat × Nat) : Prop :=
  let val := fun c => (decodeTaper c n es).rat
  let most := 2 ^ (n - 1) - 1
  ∃ k, r.1 = (if q < 0 then 2 ^ n - k else k) ∧
    if q = 0 then k = 0 ∧ r.2 = 0
    else if val most ≤ |q| then k = most ∧ r.2 = (if val most < |q| then flagOF ||| flagNX else 0)
    else if |q| ≤ val 1 then k = 1 ∧ r.2 = (if |q| < val 1 then flagUF ||| flagNX else 0)
    else 1 ≤ k ∧ k ≤ most ∧
      (∀ j, 1 ≤ j → j ≤ most → j ≠ k → |(|q| - val k)| ≤ |(|q| - val j)| ∧ (|(|q| - val k)| = |(|q| - val j)| → Even k)) ∧
      r.2 = if val k = |q| then 0 else flagNX

namespace Machine

/-! ### Translation in the manual's words -/

/-- An entry that leads to a table: V alone of its low twelve bits, and nothing above OA (R137). -/
def leadsOn (e : Nat) : Bool := decide (e % 2 ^ 12 = 1 ∧ e / 2 ^ 52 % 2 ^ 12 = 0)

/-- The address in an entry: bits 51 to 12 (R137). -/
def entryAddr (e : Nat) : Nat := e / 2 ^ 12 % 2 ^ 40 * 2 ^ 12

/-- A valid leaf for a page of 2^sh bytes (R137): V and LEAF, bits 11 to 8 zero, a POL, no address bit below the page's size, G64 for
64 KiB alone, at stage 1 no KEY, at stage 2 no STAMP and no KEY beside DK unless POL is 2; where range is asked for, device memory
under POL 0 or 1 and host memory under POL 2 (R138). -/
def leafValid (second range : Bool) (sh e : Nat) : Prop :=
  let pol := e / 2 ^ 5 % 4
  let key := e / 2 ^ 53 % 2 ^ 7
  e % 4 = 3 ∧ e / 2 ^ 8 % 2 ^ 4 = 0 ∧ pol ≠ 3 ∧ entryAddr e % 2 ^ sh = 0 ∧ (e.testBit 7 = true ↔ sh = 16) ∧
    (if second then e / 2 ^ 60 % 2 ^ 4 = 0 ∧ (pol ≠ 2 → e.testBit 52 = true → key = 0) else key = 0) ∧
    (range = true → if pol = 2 then 0x10000000000 ≤ entryAddr e else entryAddr e < 0xC000000000)

/-- r is what the five levels of R136 make of address va from the table at root: the leaf and the log2 of its page's size, or none
where an entry is not valid. Leaves stand at L2, L3 and L4 alone, and the first entry of a run of sixteen with G64 stands for its whole
run. entry reads a table entry or fails, and a failure is the result. -/
def Walked (entry : Nat → Except XErr Nat) (valid : Nat → Nat → Prop) (root va : Nat) (r : Except XErr (Option (Nat × Nat))) : Prop :=
  let i := fun sh => va / 2 ^ sh % 512
  let reads := fun (a : Nat) (go : Nat → Prop) => match entry a with | .error x => r = .error x | .ok e => go e
  let ends := fun (sh e : Nat) => (valid sh e → r = .ok (some (e, sh))) ∧ (¬ valid sh e → r = .ok none)
  let past := fun (e : Nat) (go : Nat → Prop) => if leadsOn e then go (entryAddr e) else r = .ok none
  reads (root + 8 * i 48) fun e0 => past e0 fun t1 => reads (t1 + 8 * i 39) fun e1 => past e1 fun t2 =>
    reads (t2 + 8 * i 30) fun e2 => if e2.testBit 1 then ends 30 e2 else past e2 fun t3 =>
      reads (t3 + 8 * i 21) fun e3 => if e3.testBit 1 then ends 21 e3 else past e3 fun t4 =>
        reads (t4 + 8 * (i 12 / 16 * 16)) fun g => reads (t4 + 8 * i 12) fun e4 =>
          if g.testBit 7 then ends 16 g else ends 12 e4

/-- The right bits that an access needs: RD, WR and EX (R138). -/
def rightsFor (acc : Access) (e : Nat) : Bool :=
  match acc with
  | .load => e.testBit 2
  | .store => e.testBit 3
  | .rmw => e.testBit 2 && e.testBit 3
  | .fetch => e.testBit 4

/-! ### When an instruction has its effect -/

/-- An instruction with guard g that reads and writes these operands, each with its width, and does nothing else that could keep
it from its effect. -/
def Pre.opds (g : Guard) (reads writes : List (Opd × Nat)) : Pre := { Pre.of g 0 with reads := reads, writes := writes }

/-- Nothing keeps the instruction from its effect: a split issues, its word is legal where it stands (R95), the registers lie
in the windows (R62), some lane is active (R4), nothing it needs is awaited (R50) and no register it reads is poisoned
(R206). -/
def State.ready (s : State) (p : Pre) : Bool :=
  s.cur.isSome && !p.illegal && !p.badReg && s.windowsOk p && !p.lacksPriv && s.active p.g != 0 &&
    !(p.pins && s.inRecipe) && (s.unmet p).isEmpty && (s.poisoned p (s.active p.g)).isEmpty

/-- The fibre is undivided where it issues: it holds no other split, so that moving its split fuses nothing (R44). -/
def State.alone (s : State) : Bool := s.inHandler || (s.fib.splits.isEmpty && s.fib.tree.isEmpty)

/-! ### What a result changes -/

/-- Lane l of a mask of 32. -/
def laneIn (m : Word32) (l : Nat) : Bool := decide (l < 32) && m.getLsbD l

/-- The scratch register n in lane l while a substitute sequence runs. -/
def State.scratchReg (s : State) (n l : Nat) : Word32 :=
  match s.inner with
  | some i => Tab.get 0 i.scratch (n * 32 + l)
  | none => 0

/-- Physical register p is one of those that operand d of w bits names. -/
def State.namesReg (s : State) (d : Opd) (w p : Nat) : Bool :=
  match d with
  | .v n => decide (s.phys n (regsFor w) ≤ p ∧ p < s.phys n (regsFor w) + regsFor w)
  | _ => false

/-- Where the first register of a vector operand lies. -/
def State.firstReg (s : State) (d : Opd) (w : Nat) : Nat :=
  match d with
  | .v n => s.phys n (regsFor w)
  | _ => 0

/-- Scratch register n is one of those that operand d of w bits names. -/
def namesScratch (d : Opd) (w n : Nat) : Bool :=
  match d with
  | .x m => decide (m ≤ n ∧ n < m + regsFor w)
  | _ => false

/-- The number of the first scratch register of a destination. -/
def firstScratch (d : Opd) : Nat :=
  match d with
  | .x m => m
  | _ => 0

/-- s without its registers, flags and scratch registers and their bookkeeping of writes (R216) and poison (R206): memory and the
whole device, the workgroup with its tiles and barriers, the split, predicates, brackets, the trap frame and every other
special register. -/
def State.sansRegs (s : State) : State :=
  { s with
    fib := { s.fib with s := [], poisonS := [], wroteS := 0, wroteV := 0, flags := [] },
    warp := { s.warp with v := [], poison := [], shWrote := [] },
    inner := s.inner.map (fun i => { i with scratch := [], poison := [] }) }

/-- s without predicates and flags. -/
def State.sansPreds (s : State) : State := { s with fib := { s.fib with preds := [], flags := [] } }

/-- From s to u exactly the result was written: destination d of w bits holds val in the active lanes, or, being a scalar register,
the value of the lowest active lane (R60); every other register, and every register in the other lanes, is as it was; the
flags of the active lanes have gained fl and nothing else has changed. -/
structure Wrote (s u : State) (act : Word32) (d : Opd) (w : Nat) (val fl : Nat → Nat) : Prop where
  vector : ∀ p l, l < 32 → u.warp.reg p l =
    if laneIn act l && s.namesReg d w p then BitVec.ofNat 32 (val l / 2 ^ (32 * (p - s.firstReg d w))) else s.warp.reg p l
  scalar : ∀ n, u.getS n =
    if d = .s n then val (lowest act) % 2 ^ (if w ≤ 32 then 32 else 64) else s.getS n
  scratch : ∀ n l, l < 32 → s.inner.isSome → u.scratchReg n l =
    if laneIn act l && namesScratch d w n then BitVec.ofNat 32 (val l / 2 ^ (32 * (n - firstScratch d))) else s.scratchReg n l
  flags : ∀ l, u.getFlags l =
    if laneIn act l then s.getFlags l ||| BitVec.ofNat 8 (fl (if isScalarDest d then lowest act else l)) else s.getFlags l
  rest : u.sansRegs = s.sansRegs

/-- From s to u exactly predicate p was written: in the active lanes it holds bit, unless it is p7, which discards (R61). -/
structure WrotePred (s u : State) (act : Word32) (p : Nat) (bit : Nat → Bool) : Prop where
  pred : ∀ n l, l < 32 → u.getP n l = if n = p ∧ n ≠ 7 ∧ laneIn act l = true then bit l else s.getP n l
  flags : ∀ l, u.getFlags l = s.getFlags l
  rest : u.sansPreds = s.sansPreds

/-- The lane whose operands make lane l's result: the lowest active lane when the destination is a scalar register (R60). -/
def laneFor (d : Opd) (act : Word32) (l : Nat) : Nat := if isScalarDest d then lowest act else l

/-- From m to u the predicate that an instruction may name was written, and nothing else. -/
def WroteCarry (m u : State) (act : Word32) (p : Option Nat) (bit : Nat → Bool) : Prop :=
  match p with
  | some n => WrotePred m u act n bit
  | none => u = m

/-- From s to u predicate p was written with bit, and the active lanes have gained the flags fl. -/
structure WrotePredFlags (s u : State) (act : Word32) (p : Nat) (bit : Nat → Bool) (fl : Nat → Nat) : Prop where
  pred : ∀ n l, l < 32 → u.getP n l = if n = p ∧ n ≠ 7 ∧ laneIn act l = true then bit l else s.getP n l
  flags : ∀ l, u.getFlags l = if laneIn act l then s.getFlags l ||| BitVec.ofNat 8 (fl l) else s.getFlags l
  rest : u.sansPreds = s.sansPreds

/-- The chosen split of s has come to its instruction, which answers t: where it has to wait, which t shows by a split that stalls, nothing
has issued and u is s with that wait alone (R50), and the slot passes where an SOS governs the instruction (R11); else u is t, and the slot
passes where the split has parked, waits at a barrier or has frozen for the fault service (R49). -/
def State.Ends (s t u : State) : Prop :=
  let waits := fun sos => t.cur.map (·.key) = s.cur.map (·.key) ∧ ∃ ds n r, t.split.st = .stalled sos ds n r
  let leaves := t.cur ≠ none ∧
    ((∃ k, t.split.st = .parked k) ∨ (∃ n m, t.split.st = .barWait n m) ∨ (∃ n m, t.split.st = .fbarWait n m) ∨ t.fib.inService = true)
  let stopped := ∃ sos ds n r, t.split.st = .stalled sos ds n r
  (∀ sos, waits sos →
    u = { s.attempt with split := { s.attempt.split with st := t.split.st }, warp := { s.attempt.warp with pass := sos } }) ∧
  ((∀ sos, ¬ waits sos) → ¬ stopped → leaves → u = { t with warp := { t.warp with pass := true } }) ∧
  ((∀ sos, ¬ waits sos) → ¬ stopped → ¬ leaves → u = t)

/-! ### The shapes of the register instructions

Wherever nothing keeps it from its effect, the instruction completes: the split moves behind its word, the result and flags
that f makes of the operands are written in the active lanes, and nothing else changes but the resumption mark of an
interrupted INV, which any other issue of its split clears (R186). -/

/-- One source. -/
def Computes1 (i : Instr) (o : A1) (cls : ImmCls) (wd wa : Nat) (f : State → Nat → Nat × Nat) : Prop :=
  ∀ s : State, s.ready (.opds o.g [(o.a, wa)] [(o.d, wd)]) = true →
    ∃ u, exec i s = .next (u.advance i.bytes) ∧
      Wrote s.clearMark u (s.active o.g) o.d wd (fun l => (f s (s.get cls wa o.a l)).1) (fun l => (f s (s.get cls wa o.a l)).2)

/-- Two sources. -/
def Computes2 (i : Instr) (o : A2) (cls : ImmCls) (w wb : Nat) (f : State → Nat → Nat → Nat × Nat) : Prop :=
  ∀ s : State, s.ready (.opds o.g [(o.a, w), (o.b, wb)] [(o.d, w)]) = true →
    ∃ u, exec i s = .next (u.advance i.bytes) ∧
      Wrote s.clearMark u (s.active o.g) o.d w (fun l => (f s (s.get cls w o.a l) (s.get cls wb o.b l)).1)
        (fun l => (f s (s.get cls w o.a l) (s.get cls wb o.b l)).2)

/-- Three sources. -/
def Computes3 (i : Instr) (o : A3) (cls : ImmCls) (w wb : Nat) (f : State → Nat → Nat → Nat → Nat × Nat) : Prop :=
  ∀ s : State, s.ready (.opds o.g [(o.a, w), (o.b, wb), (o.c, w)] [(o.d, w)]) = true →
    ∃ u, exec i s = .next (u.advance i.bytes) ∧
      Wrote s.clearMark u (s.active o.g) o.d w
        (fun l => (f s (s.get cls w o.a l) (s.get cls wb o.b l) (s.get cls w o.c l)).1)
        (fun l => (f s (s.get cls w o.a l) (s.get cls wb o.b l) (s.get cls w o.c l)).2)

/-- An instruction with a poisoned operand traps (R206, R198, R200): in each active lane that reads one, with 0x17, or 0x1D for host
memory (log entry 30), and the byte whose sector was lost; in each other active lane that would fault, with its own fault. The lowest
of these lanes gives the cause and the address, TMASK holds them all, and TINFO the access kind, STAGE2 and, where their causes
differ, MIXED. access tells the fault of a lane; where it is one for all, the lowest active lane makes it. -/
def StopsOnPoison (s : State) (p : Pre) (i : Instr) (kind : Nat) (one : Bool) (access : Nat → Option LaneFault) : Prop :=
  let act := s.active p.g
  let mark := fun l => ((s.poisoned p act).find? (fun x => x.1 == l)).map (·.2)
  let fault := fun l => match mark l with
    | some x => some (⟨if 2 ^ 64 < x then 0x1D else 0x17, (x - 1) % 2 ^ 64⟩ : LaneFault)
    | none =>
      if laneIn act l = false then none
      else if one then (if (mark (lowest act)).isSome then none else access (lowest act))
      else access l
  s.windowsOk p = true → act ≠ 0 → s.unmet p = [] → s.poisoned p act ≠ [] →
    ∃ l x, l < 32 ∧ fault l = some x ∧ (∀ k, k < l → fault k = none) ∧
      exec i s = .next (s.clearMark.trap x.cause (maskOf ((List.range 32).filter (fun k => (fault k).isSome))) x.addr
        (kind * 2 ^ 20 + (if x.cause = 0x12 then 2 ^ 24 else 0) +
          if (List.range 32).any (fun k => (fault k).any (fun y => y.cause != x.cause)) then 2 ^ 25 else 0))

/-- The fault of an access. -/
def accessFault {α : Type} (r : Except LaneFault α) : Option LaneFault := match r with | .error x => some x | .ok _ => none

/-! ### What else an instruction may change -/

/-- From s to u the active lanes have gained the flags fl, and nothing else has changed. -/
structure WroteFlags (s u : State) (act : Word32) (fl : Nat → Nat) : Prop where
  flags : ∀ l, u.getFlags l = if laneIn act l then s.getFlags l ||| BitVec.ofNat 8 (fl l) else s.getFlags l
  rest : { u with fib := { u.fib with flags := [] } } = { s with fib := { s.fib with flags := [] } }

/-- A split whatever it waits for. -/
def SplitSt.calm (x : SplitSt) : SplitSt := { x with st := .ready }

/-- The device without what a store to memory may change: memory, its marks of lost data, the keys and the notes of weak stores that watch it, the free
values that order it, the steps that a strong store brings about and the splits that it wakes, those of saved workgroups too. -/
def Dev.sansStores (d : Dev) : Dev :=
  { d with
    mem := [], seals := [], marked := [], keyPending := [], genWeak := false, agenda := [], freeCount := 0,
    parts := d.parts.map (fun p => (p.1, { p.2 with sgenWeak := false })),
    fibs := d.fibs.map (fun f => (f.1, f.2.mapSplits SplitSt.calm)),
    saved := d.saved.map (fun x => (x.1, { x.2 with fibs := x.2.fibs.map (fun f => (f.1, f.2.mapSplits SplitSt.calm)) })) }

/-- s without what a store to memory and its pinning (R216) may change. -/
def State.sansStores (s : State) : State :=
  { s with fib := { s.fib.mapSplits SplitSt.calm with pinned := false }, dev := s.dev.sansStores }

/-- Tile handle h holds t, and the fibre counts as having written a handle (R216). -/
def State.withTile (s : State) (h : Nat) (t : Tile) : State :=
  { s with wg := { s.wg with tiles := Tab.put s.wg.tiles h t }, fib := { s.fib with wroteB := true } }

/-- The lanes that make an access: the lowest active lane alone when the access is one for all (R145). -/
def accessLanes (one : Bool) (act : Word32) : List Nat := if one then [lowest act] else lanesOf act

/-- A command was issued (R12): the device holds it under the next number with the kind given, naming the fibre, its workgroup
and the active lanes, waiting for the commands it comes after; each token register waits for it; the fibre is pinned (R216);
nothing else has changed. -/
def Issued (s u : State) (act : Word32) (toks : List Nat) (kind : CmdKind) : Prop :=
  ∃ k : Cmd, k.kind = kind ∧ k.wg = s.wgKey ∧ k.fib = s.key ∧ k.tok = toks.headD 0 ∧ k.lanes = act ∧ k.stage = .waiting ∧
    k.contract = s.wg.contract ∧ k.part = s.wg.part ∧ k.after = s.before kind toks ∧
    u = { s with
      dev := { s.dev with nextId := s.dev.nextId + 1, cmds := Tab.put s.dev.cmds s.dev.nextId k },
      fib := { s.fib with pend := toks.foldl (fun p n => Tab.put p n s.dev.nextId) s.fib.pend, pinned := true } }

/-- A copy-engine command was issued, or ended at once with 0x46 because the partition owns no engine (R23); a trailing shadow receives
that status (R226). -/
def IssuedCopy (s u : State) (act : Word32) (toks : List Nat) (kind : CmdKind) : Prop :=
  if s.dev.engines s.wg.part = 0 then
    u = ({ s with fib := { toks.foldl (fun f n => f.settle n 0x46) s.fib with pinned := true } } : State).pushStep 1
  else Issued s u act toks kind

/-- The step that an instruction of the table stands for happens to the whole device, whatever issues. -/
def isDeviceStep : Instr → Bool
  | .spillSwap _ | .collStartPoll _ | .collComplete _ _ _ | .cpyqAppend _ | .engineDispatch _ | .engineCommandComplete _
  | .workgroupRelease _ | .launchTokenComplete _ | .loadDataReturn _ _ | .tqstatWrite _ _ | .waitaTimeout _ _ | .spuriousWake _ _
  | .wgtakeAnswer _ | .tableReload _ _ _ _ _ | .qtailWrite _ _ _ | .qheadWrite _ _ _ | .mmioRegisterWrite _ _ _
  | .launchHeadCheck _ | .dependenceReread _ | .workgroupPlace _ _ _ | .priorityPromotion _ | .coreReservation _
  | .coreStoreChange _ | .completionWordWrite _ | .trapQueueRecordWrite _ | .respWrite _ _ _ | .handlerWatchdog _
  | .quantumEnd _ | .preemptRequest _ | .forwardBoundLapse _ | .contextSave _ | .contextRestore _ _ _ | .shadowMismatch _ _
  | .coreTestResult _ _ _ | .errorRetirement _ _ _ _ _ | .communicatorSetup _ _ _ _ _ _ _ _ | .memberLost _ _
  | .flitRefuse _ _ | .sfqArrival _ _ _ _ _ | .sfqServe _ | .hostCxlMemAccess _ _ | .hostStoreObserved _ _ | .genCommit _
  | .sgenCommit _ _ | .cancel _ _ | .keySlotWrite _ _ | .attestationRequest | .powerWindow _ | .thermalTrip => true
  | _ => false

/-- One lane's part of an atomic (R279, R353): it reads the word, stores what f makes of it, if anything, by a strong store, which keeps the
marks of the word's bytes when keeps says so (R206), gives d the word read, and gains the flags that f gives. The marks read are noted behind
those of the lanes before. -/
def State.rmwLane (w : Nat) (d : Option Opd) (fl : Nat → List Nat) (keeps : Bool) (f : Nat → Nat → Option Nat × Nat)
    (ps : Nat → List Phys) (va : Nat → List Nat) (r : State × List (Nat × Nat)) (l : Nat) : State × List (Nat × Nat) :=
  let x := r.1.dev.gather (ps l)
  let t := match (f l x).1 with | some n => r.1.storeBack keeps (ps l) n | none => r.1
  let u := match d with | some o => t.put w o l x | none => t
  (u.addFlagsAll (fl l) (f l x).2, r.2 ++ lostLanes r.1.dev.marked.contains (bytesRead l (va l) (ps l)))

end Machine

end Sys2Proof
end

