-- ==== Sys2Proof/Certificates/Slice0/Obligations.lean ====
section
/-!
DEFINITION. The statements for the provers. Their words stand in Safety.lean.
-/

open Sys2Proof Sys2Proof.Machine

/-! ### Integer and logic -/

/-- R325, R326, R60: IADD writes a + b + carry modulo 2^W and ISUB a - b - carry, placed under R103; the carry comes from a
predicate, in the lowest active lane when the destination is scalar; the carry-out predicate holds whether the exact sum reaches
2^W, or the exact difference is negative. No flag is set and nothing else changes. R331: IMUL, IMULH (the high half of the exact
product of the operands as TYPE reads them) and IMAD. -/
def Obligations.Arithmetic : Prop :=
  (∀ (s : State) (o : A2) (ci co : Option Nat),
     s.ready (.opds o.g [(o.a, o.ty.w), (o.b, o.ty.w)] [(o.d, o.ty.w)]) = true →
     let act := s.active o.g
     let a := fun l => s.get .arith o.ty.w o.a (laneFor o.d act l)
     let b := fun l => s.get .arith o.ty.w o.b (laneFor o.d act l)
     let c := fun l => match ci with
       | some p => if s.getP p (laneFor o.d act l) then 1 else 0
       | none => 0
     (∃ m u : State, exec (.iadd o ci co) s = .next (u.advance (Instr.iadd o ci co).bytes) ∧
       Wrote s.clearMark m act o.d o.ty.w (fun l => o.ty.place ((a l + b l + c l) % 2 ^ o.ty.w)) (fun _ => 0) ∧
       WroteCarry m u act co (fun l => decide (2 ^ o.ty.w ≤ a l + b l + c l))) ∧
     ∃ m u : State, exec (.isub o ci co) s = .next (u.advance (Instr.isub o ci co).bytes) ∧
       Wrote s.clearMark m act o.d o.ty.w
         (fun l => o.ty.place ((((a l : Int) - b l - c l) % (2 ^ o.ty.w : Int)).toNat)) (fun _ => 0) ∧
       WroteCarry m u act co (fun l => decide (a l < b l + c l))) ∧
  ((∀ o : A2, Computes2 (.imul o) o .arith o.ty.w o.ty.w (fun _ a b => (o.ty.place (a * b % 2 ^ o.ty.w), 0))) ∧
   (∀ o : A2, Computes2 (.imulh o) o .arith o.ty.w o.ty.w (fun _ a b =>
     (o.ty.place ((o.ty.intVal a * o.ty.intVal b / 2 ^ o.ty.w % (2 ^ o.ty.w : Int)).toNat), 0))) ∧
   ∀ o : A3, Computes3 (.imad o) o .arith o.ty.w o.ty.w (fun _ a b c => (o.ty.place ((a * b + c) % 2 ^ o.ty.w), 0)))

/-- R328: IDIV: all ones and DZ for a zero divisor; for the most negative dividend by -1 the dividend with OF, or remainder 0
without; else the quotient truncated toward zero, or the remainder a - q × b. The quotient q is the one integer of the right
sign with |a| = |q| × |b| + |r| and |r| < |b|. R324: IMIN and IMAX write the lesser and the greater operand as TYPE compares
them; IABS of a signed type the absolute value, the most negative value giving itself with OF. That a scalar destination sets
the flags in every active lane is the model's reading (log entry 33). -/
def Obligations.DivideAndOrder : Prop :=
  (∀ (o : A2) (rem : Bool), Computes2 (.idiv o rem) o .arith o.ty.w o.ty.w (fun _ a b =>
     let x := o.ty.intVal a
     let y := o.ty.intVal b
     let q : Int := (if (x < 0) = (y < 0) then 1 else -1) * ((x.natAbs / y.natAbs : Nat) : Int)
     if b % 2 ^ o.ty.w = 0 then (o.ty.place (2 ^ o.ty.w - 1), flagDZ)
     else if o.ty.signed ∧ x = -2 ^ (o.ty.w - 1) ∧ y = -1 then (if rem then (o.ty.place 0, 0) else (o.ty.place a, flagOF))
     else (o.ty.place (((if rem then x - q * y else q) % (2 ^ o.ty.w : Int)).toNat), 0))) ∧
  ((∀ o : A2, Computes2 (.imin o) o .arith o.ty.w o.ty.w (fun _ a b =>
     (o.ty.place (if o.ty.intVal b < o.ty.intVal a then b else a), 0))) ∧
   (∀ o : A2, Computes2 (.imax o) o .arith o.ty.w o.ty.w (fun _ a b =>
     (o.ty.place (if o.ty.intVal a < o.ty.intVal b then b else a), 0))) ∧
   ∀ o : A1, o.ty.signed = true → Computes1 (.iabs o) o .arith o.ty.w o.ty.w (fun _ a =>
     if a % 2 ^ o.ty.w = 2 ^ (o.ty.w - 1) then (o.ty.place a, flagOF)
     else (o.ty.place (if a % 2 ^ o.ty.w < 2 ^ (o.ty.w - 1) then a else 2 ^ o.ty.w - a % 2 ^ o.ty.w), 0)))

/-- R277, R346, R382: AND, ANDN, OR and XOR bit by bit at the TYPE width; v names the number whose bits below W are those. R356:
bit i of each shift's result at the TYPE width W, for the count c = b[7:0]: SHL and SHR bring zeros in and give 0 from c = W on;
SAR brings copies of the top bit in and gives only those from c = W on; ROT rotates left by c mod W. -/
def Obligations.LogicAndShifts : Prop :=
  (∀ o : A2, o.ty.isInt = true →
     (∃ v : Nat → Nat → Nat, (∀ a b i, i < o.ty.w → (v a b).testBit i = (a.testBit i && b.testBit i)) ∧
       Computes2 (.and o) o .logic o.ty.w o.ty.w (fun _ a b => (o.ty.place (v a b), 0))) ∧
     (∃ v : Nat → Nat → Nat, (∀ a b i, i < o.ty.w → (v a b).testBit i = (a.testBit i && !b.testBit i)) ∧
       Computes2 (.andn o) o .logic o.ty.w o.ty.w (fun _ a b => (o.ty.place (v a b), 0))) ∧
     (∃ v : Nat → Nat → Nat, (∀ a b i, i < o.ty.w → (v a b).testBit i = (a.testBit i || b.testBit i)) ∧
       Computes2 (.or o) o .logic o.ty.w o.ty.w (fun _ a b => (o.ty.place (v a b), 0))) ∧
     ∃ v : Nat → Nat → Nat, (∀ a b i, i < o.ty.w → (v a b).testBit i = (a.testBit i ^^ b.testBit i)) ∧
       Computes2 (.xor o) o .logic o.ty.w o.ty.w (fun _ a b => (o.ty.place (v a b), 0))) ∧
  (∀ o : A2, o.ty.isInt = true →
     let w := o.ty.w
     (∃ v : Nat → Nat → Nat,
       (∀ a b i, i < w → (v a b).testBit i = (decide (b % 256 ≤ i) && a.testBit (i - b % 256))) ∧
       Computes2 (.shl o) o .logic w w (fun _ a b => (o.ty.place (v a b), 0))) ∧
     (∃ v : Nat → Nat → Nat,
       (∀ a b i, i < w → (v a b).testBit i = (decide (i + b % 256 < w) && a.testBit (i + b % 256))) ∧
       Computes2 (.shr o) o .logic w w (fun _ a b => (o.ty.place (v a b), 0))) ∧
     (∃ v : Nat → Nat → Nat,
       (∀ a b i, i < w → (v a b).testBit i = a.testBit (if i + b % 256 < w then i + b % 256 else w - 1)) ∧
       Computes2 (.sar o) o .logic w w (fun _ a b => (o.ty.place (v a b), 0))) ∧
     ∃ v : Nat → Nat → Nat,
       (∀ a b i, i < w → (v a b).testBit i = a.testBit ((i + (w - b % 256 % w)) % w)) ∧
       Computes2 (.rot o) o .logic w w (fun _ a b => (o.ty.place (v a b), 0)))

/-- R287, R348: POPC counts the set bits at width W, CLZ the zeros above the highest set bit (W for 0), BREV moves bit i to bit
W - 1 - i. R284: BFX takes L bits from place pos, sign-extended from the field's top bit for a signed TYPE, BFI puts a's low L
bits at pos into c, where pos = b[7:0] and L = min(b[15:8], max(W - pos, 0)); at a TYPE of 8 bits too b is read to bit 15. -/
def Obligations.CountsAndFields : Prop :=
  (∀ o : A1, o.ty.isInt = true →
     let w := o.ty.w
     Computes1 (.popc o) o .logic w w (fun _ a => (o.ty.place ((List.range w).countP (fun i => a.testBit i)), 0)) ∧
     Computes1 (.clz o) o .logic w w (fun _ a =>
       (o.ty.place (if a % 2 ^ w = 0 then w else w - 1 - Nat.log2 (a % 2 ^ w)), 0)) ∧
     ∃ v : Nat → Nat, (∀ a i, i < w → (v a).testBit i = a.testBit (w - 1 - i)) ∧
       Computes1 (.brev o) o .logic w w (fun _ a => (o.ty.place (v a), 0))) ∧
  ((∀ o : A2, o.ty.isInt = true → ∃ v : Nat → Nat → Nat,
     (∀ a b i, i < o.ty.w →
       let pos := b % 256
       let len := min (b / 256 % 256) (o.ty.w - pos)
       (v a b).testBit i =
         if i < len then a.testBit (pos + i) else o.ty.signed && decide (0 < len) && a.testBit (pos + len - 1)) ∧
     Computes2 (.bfx o) o .logic o.ty.w (max o.ty.w 16) (fun _ a b => (o.ty.place (v a b), 0))) ∧
   ∀ o : A3, o.ty.isInt = true → ∃ v : Nat → Nat → Nat → Nat,
     (∀ a b c i, i < o.ty.w →
       let pos := b % 256
       let len := min (b / 256 % 256) (o.ty.w - pos)
       (v a b c).testBit i = if pos ≤ i ∧ i < pos + len then a.testBit (i - pos) else c.testBit i) ∧
     Computes3 (.bfi o) o .logic o.ty.w (max o.ty.w 16) (fun _ a b c => (o.ty.place (v a b c), 0)))

/-- R103: how a W-bit integer result lies in its 32 bits: its low W bits are kept, and above a narrow one stand its sign bits
for a signed type, zeros for an unsigned type; a 64-bit result keeps its 64 bits. R102, R104: rounding is exact where it can be:
the exact value of finite bits of a format rounds, in every mode, to those bits, with no flag. R105 to R107: every exact value
rounds to the member of the format that its mode gives, with NX, OF and UF. R106, R303, R314: the exact operations: sum,
difference (by the negated operand), product and fused sum give the rational number itself and the sign of a zero; a quotient, a
root and a reciprocal root are given so that they round as the exact number does; NaN, infinities and zeros give what R314 and
IEEE 754 say, with IV and DZ. That the sum of a NaN with a product of zero and infinity sets IV, and a signalling NaN IV in
every operation, is the model's reading (log entry 34). -/
def Obligations.PlacementAndRounding : Prop :=
  (∀ (ty : Ty) (x i : Nat), ty.isInt = true → i < max 32 ty.w →
     (ty.place x).testBit i = if i < ty.w then x.testBit i else ty.signed && x.testBit (ty.w - 1)) ∧
  (∀ (f : Fmt) (rm : Rm) (x : Nat), f ∈ [fp16, fpb16, fp32, fp64] → x < 2 ^ f.w →
     x / 2 ^ (f.p - 1) % 2 ^ f.eb ≠ 2 ^ f.eb - 1 → f.round rm (f.decode x) = (x, 0)) ∧
  (∀ (f : Fmt) (rm : Rm), f ∈ [fp16, fpb16, fp32, fp64] →
    (∀ v : FVal, RoundsValue f rm v v.rat (f.round rm v)) ∧
    (∀ (a b : Bool) (m n : Nat) (e g : ℤ), 0 < m → 0 < n →
      let x := FVal.fin a m e
      let y := FVal.fin b n g
      (x.div y).2 = 0 ∧ RoundsInto f rm (x.rat / y.rat : ℝ) (f.round rm (x.div y).1)) ∧
    ∀ (m : Nat) (e : ℤ), 0 < m →
      let x := FVal.fin false m e
      (x.sqrt.2 = 0 ∧ RoundsInto f rm (Real.sqrt x.rat) (f.round rm x.sqrt.1)) ∧
      x.rsqrt.2 = 0 ∧ RoundsInto f rm (1 / Real.sqrt x.rat) (f.round rm x.rsqrt.1)) ∧
  (∀ (rm : Rm) (a b c : Bool) (m n k : Nat) (e g h : ℤ),
    let x := FVal.fin a m e
    let y := FVal.fin b n g
    let z := FVal.fin c k h
    let isNumber := fun (r : FVal × Nat) (q : ℚ) => r.2 = 0 ∧ r.1.isNan = false ∧ r.1.isInf = false ∧ r.1.rat = q
    (isNumber (x.add rm y) (x.rat + y.rat) ∧ (x.rat + y.rat = 0 → (x.add rm y).1.neg = if a = b then a else decide (rm = .rd))) ∧
    (isNumber (x.mul y) (x.rat * y.rat) ∧ (x.mul y).1.neg = (a != b)) ∧
    isNumber (x.fma rm y z) (x.rat * y.rat + z.rat) ∧
    (x.rat * y.rat + z.rat = 0 → (x.fma rm y z).1.neg = if (a != b) = c then c else decide (rm = .rd))) ∧
  ∀ (rm : Rm) (x y z : FVal),
    let isNaN := fun (r : FVal × Nat) (iv : Bool) => r = (.nan false, if iv then flagIV else 0)
    let sig := x.isSig || y.isSig
    (x.isNan = true ∨ y.isNan = true → isNaN (x.add rm y) sig ∧ isNaN (x.mul y) sig ∧ isNaN (x.div y) sig) ∧
    (x.isNan = true → isNaN x.sqrt x.isSig ∧ isNaN x.rsqrt x.isSig) ∧
    (x.isNan = false → y.isNan = false →
      (x.isInf = true → y.isInf = true →
        (if x.neg = y.neg then x.add rm y = (.inf x.neg, 0) else isNaN (x.add rm y) true) ∧ isNaN (x.div y) true) ∧
      (x.isInf = true → y.isInf = false → x.add rm y = (.inf x.neg, 0) ∧ x.div y = (.inf (x.neg != y.neg), 0)) ∧
      (x.isInf = false → y.isInf = true → x.add rm y = (.inf y.neg, 0) ∧ x.div y = (.fin (x.neg != y.neg) 0 0, 0)) ∧
      (x.isInf = true ∨ y.isInf = true →
        if x.isZero || y.isZero then isNaN (x.mul y) true else x.mul y = (.inf (x.neg != y.neg), 0)) ∧
      (x.isInf = false → y.isZero = true → if x.isZero then isNaN (x.div y) true else x.div y = (.inf (x.neg != y.neg), flagDZ)) ∧
      (x.isZero = true → y.isInf = false → y.isZero = false → x.div y = (.fin (x.neg != y.neg) 0 0, 0))) ∧
    (x.isZero = true → x.sqrt = (.fin x.neg 0 0, 0) ∧ x.rsqrt = (.inf x.neg, flagDZ)) ∧
    (x.isNan = false → x.isZero = false → x.neg = true → isNaN x.sqrt true ∧ isNaN x.rsqrt true) ∧
    (x = .inf false → x.sqrt = (.inf false, 0) ∧ x.rsqrt = (.fin false 0 0, 0)) ∧
    x.fma rm y z = (((x.mul y).1.add rm z).1, (x.mul y).2 ||| ((x.mul y).1.add rm z).2)

/-! ### Comparison, selection, moves -/

/-- R327, R347: ICMP writes the truth of its condition, PLOP the bit of its table that its three inputs select; p7 discards
(R61). -/
def Obligations.PredicateResults : Prop :=
  (∀ (s : State) (g : Guard) (ty : Ty) (cond : ICond) (p : Nat) (a b : Opd),
    s.ready (.opds g [(a, ty.w), (b, ty.w)] []) = true →
    let x := fun l => ty.intVal (s.get .arith ty.w a l)
    let y := fun l => ty.intVal (s.get .arith ty.w b l)
    ∃ u : State, exec (.icmp g ty cond p a b) s = .next (u.advance (Instr.icmp g ty cond p a b).bytes) ∧
      WrotePred s.clearMark u (s.active g) p (fun l =>
        match cond with
        | .eq => decide (x l = y l)
        | .ne => decide (x l ≠ y l)
        | .lt => decide (x l < y l)
        | .le => decide (x l ≤ y l)
        | .gt => decide (x l > y l)
        | .ge => decide (x l ≥ y l)
        | .rsv _ => false)) ∧
  ∀ (s : State) (g : Guard) (tab d a b : Nat) (c : PlopC),
    s.ready (.opds g (match c with | .pred _ => [] | .sreg o => [(o, 32)]) []) = true →
    ∃ u : State, exec (.plop g tab d a b c) s = .next (u.advance (Instr.plop g tab d a b c).bytes) ∧
      WrotePred s.clearMark u (s.active g) d (fun l =>
        let z := match c with
          | .pred n => s.getP n l
          | .sreg o => (s.get .logic 32 o l).testBit l
        tab.testBit ((if s.getP a l then 1 else 0) + (if s.getP b l then 2 else 0) + (if z then 4 else 0)))

/-- R343, R344, R360, R337: MOV copies at its width, MOVI writes its immediate (with the address of its own word added when it
is relative), SEL writes a where the predicate holds and b elsewhere (that it reads an integer immediate as arithmetic does,
sign-extended at 64 bits, is the model's choice, log entry 78, and that the constant one of a float TYPE is +1.0 its reading,
log entry 126), LEA writes the flat address, of a local one when LOC is set, with the address of its own word added when it is
relative. -/
def Obligations.Moves : Prop :=
  (∀ o : A1, Computes1 (.mov o) o .arith o.ty.w o.ty.w (fun _ a => (o.ty.place a, 0))) ∧
  (∀ (s : State) (g : Guard) (ty : Ty) (d imm : Opd) (pcrel : Bool), s.ready (.opds g [] [(d, ty.w)]) = true →
    ∃ u : State, exec (.movi g ty d imm pcrel) s = .next (u.advance (Instr.movi g ty d imm pcrel).bytes) ∧
      Wrote s.clearMark u (s.active g) d ty.w (fun l =>
        ty.place (s.get (if ty.isInt then .arith else .float ty) ty.w imm l + if pcrel then s.wordPc.toNat else 0)) (fun _ => 0)) ∧
  (∀ (s : State) (g : Guard) (ty : Ty) (d a b : Opd) (p : Nat),
    s.ready (.opds g [(a, ty.w), (b, ty.w)] [(d, ty.w)]) = true →
    ∃ u : State, exec (.sel g ty d a b p) s = .next (u.advance (Instr.sel g ty d a b p).bytes) ∧
      Wrote s.clearMark u (s.active g) d ty.w (fun l =>
        ty.place (s.get (if ty.isInt then .arith else .float ty) ty.w (if s.getP p l then a else b) l)) (fun _ => 0)) ∧
  ∀ (s : State) (g : Guard) (loc pcrel : Bool) (d : Opd) (m : MemOp),
    s.ready (.opds g [(m.base, if loc then 32 else 64), (m.index, 32)] [(d, 64)]) = true →
    ∃ u : State, exec (.lea g loc pcrel d m) s = .next (u.advance (Instr.lea g loc pcrel d m).bytes) ∧
      Wrote s.clearMark u (s.active g) d 64 (fun l =>
        (if loc then s.fib.flat (s.localAddress m l) l
         else s.address m l + if pcrel then s.wordPc.toNat else 0) % 2 ^ 64) (fun _ => 0)

/-! ### Floating point -/

/-- R303, R314: the arithmetic instructions: each half of a packed type alone, every operand taken exactly (flushed when the
running contract says so), the exact sum, difference, product, fused sum, quotient, reciprocal, root or reciprocal root rounded
once. That a scalar destination sets the flags in every active lane is the model's reading (log entry 33). -/
def Obligations.FloatArithmetic : Prop :=
  (∀ (o : A2) (rm : Rm), Computes2 (.fadd o rm) o (.float o.ty) o.ty.w o.ty.w (fun s => halves2 o.ty (fun a b =>
    o.ty.fmt.result s.record rm ((o.ty.fmt.operand s.record a).add rm (o.ty.fmt.operand s.record b))))) ∧
  (∀ (o : A2) (rm : Rm), Computes2 (.fsub o rm) o (.float o.ty) o.ty.w o.ty.w (fun s => halves2 o.ty (fun a b =>
    o.ty.fmt.result s.record rm ((o.ty.fmt.operand s.record a).add rm (o.ty.fmt.operand s.record b).negate)))) ∧
  (∀ (o : A2) (rm : Rm), Computes2 (.fmul o rm) o (.float o.ty) o.ty.w o.ty.w (fun s => halves2 o.ty (fun a b =>
    o.ty.fmt.result s.record rm ((o.ty.fmt.operand s.record a).mul (o.ty.fmt.operand s.record b))))) ∧
  (∀ (o : A3) (rm : Rm), Computes3 (.ffma o rm) o (.float o.ty) o.ty.w o.ty.w (fun s => halves3 o.ty (fun a b c =>
    o.ty.fmt.result s.record rm
      (FVal.fma rm (o.ty.fmt.operand s.record a) (o.ty.fmt.operand s.record b) (o.ty.fmt.operand s.record c))))) ∧
  (∀ (o : A2) (rm : Rm), Computes2 (.fdiv o rm) o (.float o.ty) o.ty.w o.ty.w (fun s => halves2 o.ty (fun a b =>
    o.ty.fmt.result s.record rm ((o.ty.fmt.operand s.record a).div (o.ty.fmt.operand s.record b))))) ∧
  (∀ (o : A1) (rm : Rm), Computes1 (.frcp o rm) o (.float o.ty) o.ty.w o.ty.w (fun s => halves1 o.ty (fun a =>
    o.ty.fmt.result s.record rm ((FVal.ofInt 1).div (o.ty.fmt.operand s.record a))))) ∧
  (∀ (o : A1) (rm : Rm), Computes1 (.fsqrt o rm) o (.float o.ty) o.ty.w o.ty.w (fun s => halves1 o.ty (fun a =>
    o.ty.fmt.result s.record rm (o.ty.fmt.operand s.record a).sqrt))) ∧
  ∀ (o : A1) (rm : Rm), Computes1 (.frsq o rm) o (.float o.ty) o.ty.w o.ty.w (fun s => halves1 o.ty (fun a =>
    o.ty.fmt.result s.record rm (o.ty.fmt.operand s.record a).rsqrt))

/-- R306 to R309, R318 to R321: the other float instructions write what their rules make of the flushed operands. FMIN and FMAX
give the lesser and the greater, with -0 before +0 and one NaN yielding to a number; FCLASS the bit of the class table; FCMP the
truth of its condition with IV for a signalling NaN, and for a quiet one where the table says so; FGETEXP the exponent, or its
two special integers; FSCALE the operand times 2^b; FRRED the difference from the nearest multiple of π / 2 with that multiple
modulo 4, π being taken to 1,600 bits; the four functions the special cases of R309's table, the exact cases without a flag, and
NX elsewhere. That a signalling NaN sets IV in every function is the model's reading (log entry 34). That a scalar destination
sets the flags in every active lane is the model's reading (log entry 33), and that FMIN and FMAX set UF and NX where their
result is flushed is its reading (log entry 127). -/
def Obligations.FloatFunctions : Prop :=
  ((∀ o : A2, Computes2 (.fmin o) o (.float o.ty) o.ty.w o.ty.w (fun s => fp2 o.ty s.record .rne (fminmax false))) ∧
  (∀ o : A2, Computes2 (.fmax o) o (.float o.ty) o.ty.w o.ty.w (fun s => fp2 o.ty s.record .rne (fminmax true))) ∧
  (∀ o : A1, Computes1 (.fgetexp o) o (.float o.ty) 32 o.ty.w (fun s => fgetexpValue o.ty s.record)) ∧
  (∀ (o : A1) (rm : Rm), Computes1 (.frred o rm) o (.float o.ty) (2 * o.ty.w) o.ty.w (fun s a =>
    let r := frredValue o.ty.fmt s.record rm (o.ty.operand s.record a)
    (r.1 + 2 ^ o.ty.w * r.2.1, r.2.2))) ∧
  (∀ o : A1, Computes1 (.fexp2 o) o (.float .f32) 32 32 (fun s a => fexp2Value s.record (fp32.operand s.record a))) ∧
  (∀ o : A1, Computes1 (.flog2 o) o (.float .f32) 32 32 (fun s a => flog2Value s.record (fp32.operand s.record a))) ∧
  (∀ o : A1, Computes1 (.fsin o) o (.float .f32) 32 32 (fun s a => fsincos 0 s.record (fp32.operand s.record a))) ∧
  (∀ o : A1, Computes1 (.fcos o) o (.float .f32) 32 32 (fun s a => fsincos 1 s.record (fp32.operand s.record a))) ∧
  (∀ o : A1, Computes1 (.fclass o) o (.float o.ty) 32 o.ty.w (fun _ a => (2 ^ fclassBit o.ty a, 0))) ∧
  (∀ (s : State) (o : A2) (rm : Rm), s.ready (.opds o.g [(o.a, o.ty.w), (o.b, 32)] [(o.d, o.ty.w)]) = true →
    let x := fun l => o.ty.operand s.record (s.get (.float o.ty) o.ty.w o.a l)
    let r := fun l => o.ty.fmt.result s.record rm (fscaled (x l) (toSigned 32 (s.get .arith 32 o.b l)), flagIf (x l).isSig flagIV)
    ∃ u : State, exec (.fscale o rm) s = .next (u.advance (Instr.fscale o rm).bytes) ∧
      Wrote s.clearMark u (s.active o.g) o.d o.ty.w (fun l => (r l).1) (fun l => (r l).2)) ∧
  (∀ (s : State) (g : Guard) (ty : Ty) (p : Nat) (a : Opd) (mask : Nat), s.ready (.opds g [(a, ty.w)] []) = true →
    ∃ u : State, exec (.fclassPred g ty p a mask) s = .next (u.advance (Instr.fclassPred g ty p a mask).bytes) ∧
      WrotePred s.clearMark u (s.active g) p (fun l => mask.testBit (fclassBit ty (s.get (.float ty) ty.w a l)))) ∧
  ∀ (s : State) (g : Guard) (ty : Ty) (cond : FCond) (p : Nat) (a b : Opd),
    s.ready (.opds g [(a, ty.w), (b, ty.w)] []) = true →
    let r := fun l => fcondHolds cond (ty.operand s.record (s.get (.float ty) ty.w a l))
      (ty.operand s.record (s.get (.float ty) ty.w b l))
    ∃ u : State, exec (.fcmp g ty cond p a b) s = .next (u.advance (Instr.fcmp g ty cond p a b).bytes) ∧
      WrotePredFlags s.clearMark u (s.active g) p (fun l => (r l).1) (fun l => (r l).2)) ∧
  (∀ (greatest : Bool) (x y : FVal),
     let r := fminmax greatest x y
     r.2 = (if x.isSig ∨ y.isSig then flagIV else 0) ∧
     (x.isNan = true → y.isNan = false → r.1 = y) ∧ (x.isNan = false → y.isNan = true → r.1 = x) ∧
     (x.isNan = true → y.isNan = true → r.1.isNan = true) ∧
     (x.isNan = false → y.isNan = false → (r.1 = x ∨ r.1 = y) ∧
       (if greatest then x.atMost r.1 ∧ y.atMost r.1 else r.1.atMost x ∧ r.1.atMost y) ∧
       (x.isZero = true → y.isZero = true → r.1.neg = if greatest then x.neg && y.neg else x.neg || y.neg))) ∧
  ((∀ (ty : Ty) (x : Nat), ty ∈ [.f32, .f64, .f16, .bf16] → x < 2 ^ ty.w →
      let ex := x / 2 ^ (ty.fmt.p - 1) % 2 ^ ty.fmt.eb
      let fr := x % 2 ^ (ty.fmt.p - 1)
      let neg := x.testBit (ty.w - 1)
      fclassBit ty x =
        if ex = 2 ^ ty.fmt.eb - 1 then
          (if fr = 0 then (if neg then 0 else 7) else if fr.testBit (ty.fmt.p - 2) then 9 else 8)
        else if ex = 0 then (if fr = 0 then (if neg then 3 else 4) else if neg then 2 else 5)
        else if neg then 1 else 6) ∧
   (∀ x, x < 256 → fclassBit .t8 x = if x = 0 then 4 else if x = 128 then 9 else if 128 < x then 1 else 6) ∧
   ∀ x, x < 64 → fclassBit .t6 x = if x = 0 then 4 else if x = 32 then 9 else if 32 < x then 1 else 6) ∧
  (∀ (cond : FCond) (x y : FVal),
     let un := x.isNan = true ∨ y.isNan = true
     let lt := ¬ un ∧ ¬ y.atMost x
     let eq := ¬ un ∧ x.atMost y ∧ y.atMost x
     let gt := ¬ un ∧ ¬ x.atMost y
     let loud := cond = .lt ∨ cond = .le ∨ cond = .gt ∨ cond = .ge
     (∀ n, cond ≠ .rsv n) →
       (fcondHolds cond x y).2 = (if x.isSig ∨ y.isSig ∨ (un ∧ loud) then flagIV else 0) ∧
       ((fcondHolds cond x y).1 = true ↔
         match cond with
         | .eq => eq
         | .ne => ¬ eq
         | .lt => lt
         | .le => lt ∨ eq
         | .gt => gt
         | .ge => gt ∨ eq
         | .num => ¬ un
         | .nan => un
         | .ltu => lt ∨ un
         | .leu => lt ∨ eq ∨ un
         | .gtu => gt ∨ un
         | .geu => gt ∨ eq ∨ un
         | .equ => eq ∨ un
         | .rsv _ => False)) ∧
  (∀ (ty : Ty) (rec a : Nat),
     let x := ty.operand rec a
     (x.isNan = true ∨ x.isInf = true → fgetexpValue ty rec a = (0x7FFFFFFF, flagIV)) ∧
     (x.isZero = true → fgetexpValue ty rec a = (0x80000000, flagDZ)) ∧
     ∀ e : ℤ, (2 : ℚ) ^ e ≤ |x.rat| → |x.rat| < (2 : ℚ) ^ (e + 1) → x.isNan = false → x.isInf = false →
       fgetexpValue ty rec a = ((e % (2 ^ 32 : ℤ)).toNat, 0)) ∧
  ((∀ (neg : Bool) (m : Nat) (e b : ℤ), (fscaled (.fin neg m e) b).rat = (FVal.fin neg m e).rat * (2 : ℚ) ^ b ∧
      (fscaled (.fin neg m e) b).neg = neg ∧ (fscaled (.fin neg m e) b).isZero = (m == 0)) ∧
   (∀ (neg : Bool) (b : ℤ), fscaled (.inf neg) b = .inf neg) ∧ ∀ (sig : Bool) (b : ℤ), (fscaled (.nan sig) b).isNan = true) ∧
  (∀ (f : Fmt) (rec : Nat) (rm : Rm), f = fp32 ∨ f = fp64 →
     (∀ sig, frredValue f rec rm (.nan sig) = (f.nan, 0, if sig then flagIV else 0)) ∧
     (∀ neg, frredValue f rec rm (.inf neg) = (f.nan, 0, flagIV)) ∧
     (∀ neg e, frredValue f rec rm (.fin neg 0 e) = (f.withSign neg 0, 0, 0)) ∧
     (∀ neg m e, -1601 ≤ e → ∃ (k : ℤ) (d : FVal),
       let x := FVal.fin neg m e
       let q : ℚ := (piBits : ℚ) / 2 ^ 1601
       |x.rat - k * q| ≤ q / 2 ∧ d.isNan = false ∧ d.isInf = false ∧ d.rat = x.rat - k * q ∧ (k = 0 → d = x) ∧
       frredValue f rec rm x = ((f.result rec rm (d, 0)).1, (k % 4).toNat, (f.result rec rm (d, 0)).2)) ∧
     frredValue fp32 rec .rne (fp32.decode 0x40400000) = (0xBE10FDAA, 2, flagNX)) ∧
  ∀ rec : Nat,
    (∀ sig, fexp2Value rec (.nan sig) = (0x7FC00000, if sig then flagIV else 0) ∧
      flog2Value rec (.nan sig) = (0x7FC00000, if sig then flagIV else 0) ∧
      fsincos 0 rec (.nan sig) = (0x7FC00000, if sig then flagIV else 0) ∧
      fsincos 1 rec (.nan sig) = (0x7FC00000, if sig then flagIV else 0)) ∧
    (fexp2Value rec (.inf false) = (0x7F800000, 0) ∧ fexp2Value rec (.inf true) = (0, 0) ∧
      flog2Value rec (.inf false) = (0x7F800000, 0) ∧ flog2Value rec (.inf true) = (0x7FC00000, flagIV)) ∧
    (∀ neg, fsincos 0 rec (.inf neg) = (0x7FC00000, flagIV) ∧ fsincos 1 rec (.inf neg) = (0x7FC00000, flagIV)) ∧
    (∀ neg e, flog2Value rec (.fin neg 0 e) = (0xFF800000, flagDZ) ∧
      fsincos 0 rec (.fin neg 0 e) = (if neg then 0x80000000 else 0, 0) ∧ fsincos 1 rec (.fin neg 0 e) = (0x3F800000, 0)) ∧
    ∀ (neg : Bool) (m : Nat) (e : ℤ), 0 < m →
      let x := FVal.fin neg m e
      (neg = true → flog2Value rec x = (0x7FC00000, flagIV)) ∧
      (128 ≤ x.rat → fexp2Value rec x = (0x7F800000, flagOF ||| flagNX)) ∧
      (x.rat ≤ -150 → fexp2Value rec x = (0, flagUF ||| flagNX)) ∧
      (∀ n : ℤ, -149 ≤ n → n ≤ 127 → x.rat = n → fexp2Value rec x =
        if n < -126 then (if recOut rec then (0, flagUF ||| flagNX) else (2 ^ (n + 149).toNat, 0)) else ((n + 127).toNat * 2 ^ 23, 0)) ∧
      (∀ n : ℤ, -149 ≤ n → n ≤ 127 → x.rat = (2 : ℚ) ^ n → flog2Value rec x = ((fp32.round .rne (.ofInt n)).1, 0)) ∧
      ((∀ n : ℤ, x.rat ≠ n) → (fexp2Value rec x).2.testBit 4 = true) ∧
      (neg = false → (∀ n : ℤ, x.rat ≠ (2 : ℚ) ^ n) → (flog2Value rec x).2.testBit 4 = true) ∧
      (fsincos 0 rec x).2.testBit 4 = true ∧ (fsincos 1 rec x).2.testBit 4 = true

/-- R315, R316: FDOT rounds, under the running contract, the addend plus the products of the groups' terms; the products are
exact but for the contract's flushing, and term i of a group lies at i times the width that R315 gives a term. R297, R298, R113
to R115: CVT writes the converted value, two of them for a packed source or destination: between integers it only extends or
narrows; into an integer type the value rounded in mode RM and clamped with IV, NaN giving 0; into a tapered one the nearest
code, saturating, NaR with IV for NaN and the infinities, and the same tapered type's code unchanged; into any other float
format the exact value rounded once. R289: BSCL writes in every active lane 0xFF00 when a lane holds a NaN or an infinity, 0
when all are zero, else the least finite scale code under which no magnitude exceeds the format's greatest, with IV in the lanes
of a signalling NaN. R357, R358, R117: RQNT writes the element, of a block under its scale or of a float, divided by the new
scale and rounded once: NaR, or 0, with IV for a NaN or a NaN scale, 0 for a zero scale with DZ unless the element is zero, and
the saturated ±127 for .s8. That the constant one reads as the scale code 0x0001 is the model's choice (log entry 117). That a
signalling NaN sets IV in every one of these is the model's reading (log entry 34). That a scalar destination sets the flags in
every active lane is the model's reading (log entry 33). -/
def Obligations.DotProductAndConversions : Prop :=
  (∀ (s : State) (o : A3),
     let k := (fdotTerms o.ty).1
     let st := (fdotTerms o.ty).2
     let t := fdotTy o.ty
     s.ready (.opds o.g [(o.a, k * st), (o.b, k * st), (o.c, t.w)] [(o.d, t.w)]) = true →
     let term := fun a l i => o.ty.operand s.record (s.get .logic (k * st) a l / 2 ^ (st * i))
     let prods := fun l => (List.range k).map (fun i => (term o.a l i).mul (term o.b l i))
     let sum := fun l => contractSum s.record t.fmt ((prods l).map (fun p => o.ty.fmt.flushProd s.record p.1))
       (t.fmt.operand s.record (s.get (.float t) t.w o.c l))
     ∃ u : State, exec (.fdot o) s = .next (u.advance (Instr.fdot o).bytes) ∧
       Wrote s.clearMark u (s.active o.g) o.d t.w (fun l => (sum l).1)
         (fun l => (prods l).foldl (fun x p => x ||| p.2) (sum l).2)) ∧
  ((∀ (s : State) (g : Guard) (dty sty : Ty) (rm : Rm) (d a : Opd) (b : Option Opd),
     s.ready (.opds g ((a, sty.w) :: b.toList.map (fun o => (o, 32))) [(d, cvtW dty sty)]) = true →
     let cls : ImmCls := if sty.isInt then .arith else .float sty
     let r := fun l => cvtLane dty sty s.record rm (s.get cls sty.w a l) (b.map (fun o => s.get cls 32 o l))
     ∃ u : State, exec (.cvt g dty sty rm d a b) s = .next (u.advance (Instr.cvt g dty sty rm d a b).bytes) ∧
       Wrote s.clearMark u (s.active g) d (cvtW dty sty) (fun l => (r l).1) (fun l => (r l).2)) ∧
   (∀ (dty sty : Ty) (rec x : Nat) (rm : Rm), dty.isInt = true → sty.isInt = true →
     cvtLane dty sty rec rm x none = (dty.place ((sty.intVal x % (2 ^ dty.w : Int)).toNat), 0)) ∧
   (∀ (s : State) (o : A1), s.ready (.opds o.g [(o.a, 32)] [(o.d, 32)]) = true →
     let x := fun l => fp32.operand s.record (s.get (.float .f32) 32 o.a l)
     ∃ m u : State, exec (.bscl o) s = .next (u.advance (Instr.bscl o).bytes) ∧
       Wrote s.clearMark m (s.active o.g) o.d 32 (fun _ => bsclCode o.ty ((lanesOf (s.active o.g)).map x)) (fun _ => 0) ∧
       WroteFlags m u (s.active o.g) (fun l => if (x l).isSig then flagIV else 0)) ∧
   ∀ (s : State) (g : Guard) (dty sty : Ty) (d a so sn : Opd),
     s.ready (.opds g [(a, sty.w), (so, 16), (sn, 16)] [(d, dty.w)]) = true →
     let r := fun l => rqntValue dty sty s.record (s.get .logic sty.w a l) (s.get .logic 16 so l) (s.get .logic 16 sn l)
     ∃ u : State, exec (.rqnt g dty sty d a so sn) s = .next (u.advance (Instr.rqnt g dty sty d a so sn).bytes) ∧
       Wrote s.clearMark u (s.active g) d dty.w (fun l => (r l).1) (fun l => (r l).2)) ∧
  ((∀ (dty sty : Ty) (rec x : Nat) (rm : Rm), dty.isPacked = false → sty.isPacked = false →
     let v : FVal := if sty.isInt then .ofInt (sty.intVal x) else sty.operand rec x
     let r := cvtLane dty sty rec rm x none
     let top : Int := if dty.signed then 2 ^ (dty.w - 1) - 1 else 2 ^ dty.w - 1
     let low : Int := if dty.signed then -2 ^ (dty.w - 1) else 0
     let lies := fun i : Int => dty.place ((i % (2 ^ dty.w : Int)).toNat)
     (dty.isInt = true → sty.isInt = false →
       (v.isNan = true → r = (0, flagIV)) ∧
       (v.isInf = true → r = (lies (if v.neg then low else top), flagIV)) ∧
       (v.isNan = false → v.isInf = false → ∃ n : ℤ, RoundsTo rm v.rat n ∧
         r = if top < n then (lies top, flagIV) else if n < low then (lies low, flagIV)
           else (lies n, if v.rat = n then 0 else flagNX))) ∧
     ((dty = .t8 ∨ dty = .t6) → sty ≠ dty →
       (v.isNan = true ∨ v.isInf = true → r = (if dty = .t8 then 0x80 else 0x20, flagIV)) ∧
       (v.isNan = false → v.isInf = false → RoundsToTaper dty.w (if dty = .t8 then 1 else 0) v.rat r)) ∧
     (dty = .t8 ∨ dty = .t6 → sty = dty → r = (x % 2 ^ dty.w, 0)) ∧
     (dty ∈ [.f32, .f64, .f16, .bf16] → r = dty.fmt.result rec rm (v, if v.isSig then flagIV else 0))) ∧
   (∀ (dty : Ty) (rec x y : Nat) (rm : Rm), dty.isPacked = true →
     let one := fun z => dty.fmt.result rec rm (fp32.operand rec (z % 2 ^ 32),
       if (fp32.operand rec (z % 2 ^ 32)).isSig then flagIV else 0)
     cvtLane dty .f32 rec rm x (some y) = ((one x).1 + 2 ^ 16 * (one y).1, (one x).2 ||| (one y).2)) ∧
   ∀ (sty : Ty) (rec x : Nat) (rm : Rm), sty.isPacked = true →
     let one := fun (f : Fmt) z => f.result rec rm (sty.fmt.operand rec (z % 2 ^ 16),
       if (sty.fmt.operand rec (z % 2 ^ 16)).isSig then flagIV else 0)
     cvtLane .f32 sty rec rm x none =
       ((one fp32 x).1 + 2 ^ 32 * (one fp32 (x / 2 ^ 16)).1, (one fp32 x).2 ||| (one fp32 (x / 2 ^ 16)).2) ∧
     cvtLane sty sty rec rm x none =
       ((one sty.fmt x).1 + 2 ^ 16 * (one sty.fmt (x / 2 ^ 16)).1, (one sty.fmt x).2 ||| (one sty.fmt (x / 2 ^ 16)).2)) ∧
  (∀ (ty : Ty) (maxv : ℚ) (rec : Nat) (bits : List Nat), (ty = .t8 ∧ maxv = 4096) ∨ (ty = .t6 ∧ maxv = 16) ∨ (ty = .s8 ∧ maxv = 127) →
     let xs := bits.map (fp32.operand rec)
     let code := bsclCode ty xs
     let scale : Nat → ℚ := fun k => (256 + (k % 256 : Nat)) * (2 : ℚ) ^ ((k / 256 : Nat) - 135 : ℤ)
     ((∃ x ∈ xs, x.isNan = true ∨ x.isInf = true) → code = 0xFF00) ∧
     ((∀ x ∈ xs, x.isZero = true) → code = 0) ∧
     ((∀ x ∈ xs, x.isNan = false ∧ x.isInf = false) → (∃ x ∈ xs, x.isZero = false) →
       256 ≤ code ∧ code < 0xFF00 ∧ (∀ x ∈ xs, |x.rat| ≤ scale code * maxv) ∧
       ∀ k, 256 ≤ k → k < code → ∃ x ∈ xs, scale k * maxv < |x.rat|)) ∧
  ∀ (dty sty : Ty) (rec x so sn : Nat), dty ∈ [.t8, .t6, .s8] → sty ∈ [.t8, .t6, .s8, .f32, .f16, .bf16] →
    let block : Bool := decide (sty ∈ [.t8, .t6, .s8])
    let el : FVal := if sty = .s8 then .ofInt (toSigned 8 x) else sty.operand rec x
    let scale : Nat → ℚ := fun k => (256 + (k % 256 : Nat)) * (2 : ℚ) ^ ((k / 256 % 256 : Nat) - 135 : ℤ)
    let e := fun k : Nat => k / 256 % 256
    let bad := el.isNan = true ∨ (block = true ∧ e so = 255)
    let val := if block then el.rat * (if e so = 0 then 0 else scale so) else el.rat
    let q := val / scale sn
    let r := rqntValue dty sty rec x so sn
    (bad ∨ e sn = 255 → r = (if dty = .t8 then 0x80 else if dty = .t6 then 0x20 else 0, flagIV)) ∧
    (¬ bad → e sn = 0 → r = (0, if val = 0 ∧ el.isInf = false then 0 else flagDZ)) ∧
    (¬ bad → 1 ≤ e sn → e sn ≤ 254 →
      (el.isInf = true → r = if dty = .t8 then (0x80, flagIV) else if dty = .t6 then (0x20, flagIV)
        else (if el.neg then 0xFFFFFF81 else 127, flagIV)) ∧
      (el.isInf = false → dty = .t8 → RoundsToTaper 8 1 q r) ∧ (el.isInf = false → dty = .t6 → RoundsToTaper 6 0 q r) ∧
      (el.isInf = false → dty = .s8 → ∃ n : ℤ, RoundsTo .rne q n ∧
        r = if n < -127 then (0xFFFFFF81, flagOF ||| flagNX) else if 127 < n then (127, flagOF ||| flagNX)
          else ((n % 2 ^ 32).toNat, if q = n then 0 else flagNX)))

/-- R345, R351, R291, R317, R383: NOP at each length, PREF and CFLUSH change nothing but where the split stands; FENCE pins the
fibre besides (R216); YIELD lets the slot pass to another split, except in a handler, where nothing passes. -/
def Obligations.TimingOnly : Prop :=
  (∀ (s : State) (g : Guard) (len : Len), s.ready (.opds g [] []) = true →
    exec (.nop g len) s = .next (s.clearMark.advance (Instr.nop g len).bytes)) ∧
  (∀ (s : State) (g : Guard) (loc : Bool) (m : MemOp), s.ready (.opds g (memReads loc m) []) = true →
    exec (.pref g loc m) s = .next (s.clearMark.advance (Instr.pref g loc m).bytes) ∧
    exec (.cflush g loc m) s = .next (s.clearMark.advance (Instr.cflush g loc m).bytes)) ∧
  (∀ (s : State) (g : Guard) (sys : Bool), s.ready { Pre.opds g [] [] with pins := true } = true →
    exec (.fence g sys) s = .next (({ s.clearMark with fib := { s.clearMark.fib with pinned := true } } : State).advance
      (Instr.fence g sys).bytes)) ∧
  ∀ (s : State) (g : Guard), s.ready (.opds g [] []) = true →
    let u := s.clearMark.advance 8
    exec (.yield_ g) s = .next (if s.inHandler then u else { u with warp := { u.warp with pass := true } })

/-- R4, R50, R62, R95, R206: what keeps an instruction from its effect, shown on MOV: a register outside the windows traps with
0x07 whatever the guard; with no active lane the split only passes; a register that is pending or awaits data makes the split
stall, and the stall names what it waits for; a poisoned source traps with 0x17, or 0x1D for host memory (log entry 30), in the
lanes that read it, and the other lanes of the same instruction that fault trap with it, with the access kind of the instruction
in TINFO: 0 for MOV and LD, 1 for ST, 2 for ATOM, and MIXED where the causes differ. R142, R198, R200, R335, R366: an access
that must be aligned and is not, in every active lane, traps with 0x14: TADDR the lowest lane's address, the access kind in
TINFO, every active lane in TMASK; nothing is loaded or stored. -/
def Obligations.WhatKeepsFromEffect : Prop :=
  (∀ (s : State) (o : A1), s.cur.isSome = true →
     let p := Pre.opds o.g [(o.a, o.ty.w)] [(o.d, o.ty.w)]
     let act := s.active o.g
     (s.windowsOk p = false → exec (.mov o) s = .next (s.trap 0x07 s.split.mask 0 0)) ∧
     (s.windowsOk p = true → act = 0 → exec (.mov o) s = .next (s.clearMark.advance (Instr.mov o).bytes)) ∧
     (s.windowsOk p = true → act ≠ 0 → s.unmet p ≠ [] → exec (.mov o) s = .next (s.clearMark.stall (s.unmet p))) ∧
     StopsOnPoison s p (.mov o) 0 false (fun _ => none)) ∧
  (∀ (s : State) (g : Guard) (d c : Opd) (m : MemOp), s.cur.isSome = true →
     StopsOnPoison s (.opds g (memReads false m) [(d, 32)]) (.ld g .b32 false false false d m) 0 (isScalarDest d)
       (fun l => accessFault (s.loadAccess false false 4 (s.address m l) l)) ∧
     StopsOnPoison s (.opds g ((c, 32) :: memReads false m) []) (.st g .b32 false false false m c) 1
       (isUniform m.base && isUniform m.index && isUniform c) (fun l => accessFault (s.laneAccess .store false false 4 (s.address m l) l)) ∧
     (s.inRecipe = false → StopsOnPoison s { Pre.opds g ((c, 32) :: memReads false m) [(d, 32)] with pins := true }
       (.atom g .u32 .add false d m c) 2 (isScalarDest d) (fun l => accessFault (s.flatAccess .rmw true 4 (s.address m l))))) ∧
  (∀ (s : State) (g : Guard) (w : Width) (sys : Bool) (m : MemOp) (d : Opd),
     let act := s.active g
     let at_ := s.address m (lowest act)
     (∀ l, laneIn act l = true → s.address m l % w.bytes ≠ 0) →
     (s.ready { Pre.opds g (memReads false m) [(d, regBits w)] with pins := true } = true →
       exec (.ld g w true sys false d m) s = .next (s.clearMark.trap 0x14 act at_ 0)) ∧
     (s.ready { Pre.opds g ((d, regBits w) :: memReads false m) [] with pins := true } = true →
       exec (.st g w true sys false m d) s = .next (s.clearMark.trap 0x14 act at_ (2 ^ 20))))

/-! ### Across lanes -/

/-- R364: SHFL gives lane l the value of its source lane when that lane lies in l's segment of 2^seg lanes and is active, and
its own value otherwise; its predicate tells which. -/
def Obligations.LaneMoves : Prop :=
  ∀ (s : State) (g : Guard) (mode : ShflMode) (seg : Nat) (ty : Ty) (d a b : Opd) (p : Nat),
    s.ready (.opds g [(a, ty.w), (b, 32)] [(d, ty.w)]) = true →
    let act := s.active g
    let w := 2 ^ seg
    let src := fun (l : Nat) =>
      let x := s.get (if mode = .off then .arith else .logic) 32 b l
      let base := l - l % w
      match mode with
      | .lane => some (base + x % w)
      | .rot => some (base + (l - base + x) % w)
      | .bfly => some (l ^^^ (x % w))
      | .off =>
        let j : Int := (l : Int) + toSigned 32 x
        if (base : Int) ≤ j ∧ j < (base + w : Nat) then some j.toNat else none
    let from_ := fun (l : Nat) => (src l).filter (fun j => act.getLsbD j)
    ∃ m u : State, exec (.shfl g mode seg ty d a b p) s = .next (u.advance (Instr.shfl g mode seg ty d a b p).bytes) ∧
      Wrote s.clearMark m act d ty.w (fun l => s.get .logic ty.w a ((from_ l).getD l)) (fun _ => 0) ∧
      WrotePred m u act p (fun l => (from_ l).isSome)

/-- R376, R339: VOTE shares the mask, the count, the first, or the agreement of the active lanes in which the predicate, or its
complement, is true; LRED of an integer type the sum, the least or the greatest of the active lanes' values; of a float type,
.add the contract's sum with the flags it sets and IV for a signalling NaN, and .min and .max their fold in lane order by the
rule of FMIN and FMAX. That the fold begins with the first value taken with itself is the model's reading (log entry 9). R193,
R333: LANERD and LANEWR, in a handler, read and write the lane that a scalar names, whatever the split's mask. That the constant
lane as LANEWR's source is the number of the lane written is the model's choice (log entry 116). -/
def Obligations.VotesAndReductions : Prop :=
  (∀ (s : State) (g : Guard) (n k : Nat) (l : Opd), s.inHandler = true →
    s.ready { Pre.opds g [(l, 64)] [(.s n, 64)] with runs := [(k, 1)] } = true →
    ∃ u : State, exec (.lanerd g (.s n) (.v k) l) s = .next (u.advance (Instr.lanerd g (.s n) (.v k) l).bytes) ∧
      Wrote s.clearMark u (s.active g) (.s n) 64 (fun _ => s.getV k 1 (s.get .arith 64 l 0 % 32) % 2 ^ 32) (fun _ => 0)) ∧
  (∀ (s : State) (g : Guard) (n : Nat) (l a : Opd), s.inHandler = true →
    s.ready (.opds g [(l, 64), (a, 32)] [(.v n, 32)]) = true →
    let lane := s.get .arith 64 l 0 % 32
    ∃ u : State, exec (.lanewr g (.v n) l a) s = .next (u.advance (Instr.lanewr g (.v n) l a).bytes) ∧
      Wrote s.clearMark u (laneBit lane) (.v n) 32 (fun _ => s.get .arith 32 a lane) (fun _ => 0)) ∧
  (∀ (s : State) (g : Guard) (neg : Bool) (o : Opd) (a : Nat), s.ready (.opds g [] [(o, 32)]) = true →
    let act := s.active g
    let q := fun l => laneIn act l && (s.getP a l != neg)
    (∃ v, v < 2 ^ 32 ∧ (∀ l, l < 32 → v.testBit l = q l) ∧
      ∃ u : State, exec (.vote g .mask neg (.reg o) a) s = .next (u.advance (Instr.vote g .mask neg (.reg o) a).bytes) ∧
        Wrote s.clearMark u act o 32 (fun _ => v) (fun _ => 0)) ∧
    (∃ u : State, exec (.vote g .count neg (.reg o) a) s = .next (u.advance (Instr.vote g .count neg (.reg o) a).bytes) ∧
      Wrote s.clearMark u act o 32 (fun _ => (List.range 32).countP q) (fun _ => 0)) ∧
    ∃ u : State, exec (.vote g .first neg (.reg o) a) s = .next (u.advance (Instr.vote g .first neg (.reg o) a).bytes) ∧
      Wrote s.clearMark u act o 32 (fun _ => ((List.range 32).find? q).getD 32) (fun _ => 0)) ∧
  (∀ (s : State) (g : Guard) (neg : Bool) (p a : Nat), s.ready (.opds g [] []) = true →
    let act := s.active g
    let q := fun l => laneIn act l && (s.getP a l != neg)
    let every := (List.range 32).all (fun l => !laneIn act l || q l)
    (∃ u : State, exec (.vote g .some neg (.pred p) a) s = .next (u.advance (Instr.vote g .some neg (.pred p) a).bytes) ∧
      WrotePred s.clearMark u act p (fun _ => (List.range 32).any q)) ∧
    (∃ u : State, exec (.vote g .every neg (.pred p) a) s = .next (u.advance (Instr.vote g .every neg (.pred p) a).bytes) ∧
      WrotePred s.clearMark u act p (fun _ => every)) ∧
    ∃ u : State, exec (.vote g .agree neg (.pred p) a) s = .next (u.advance (Instr.vote g .agree neg (.pred p) a).bytes) ∧
      WrotePred s.clearMark u act p (fun _ => every || !(List.range 32).any q)) ∧
  ∀ (s : State) (o : A1) (op : LredOp), s.ready (.opds o.g [(o.a, o.ty.w)] [(o.d, lredW op o.ty)]) = true →
    let act := s.active o.g
    let xs := (lanesOf act).map (s.get .logic o.ty.w o.a)
    ∃ r : Nat × Nat,
      (∃ u : State, exec (.lred o op) s = .next (u.advance (Instr.lred o op).bytes) ∧
        Wrote s.clearMark u act o.d (lredW op o.ty) (fun _ => r.1) (fun _ => r.2)) ∧
      if o.ty.isInt then
        r.2 = 0 ∧ ∃ v : Int, r.1 = o.ty.place ((v % (2 ^ o.ty.w : Int)).toNat) ∧
          match op with
          | .add => v = (xs.map o.ty.intVal).sum
          | .min => v ∈ xs.map o.ty.intVal ∧ ∀ x ∈ xs, v ≤ o.ty.intVal x
          | .max => v ∈ xs.map o.ty.intVal ∧ ∀ x ∈ xs, o.ty.intVal x ≤ v
          | .rsv _ => True
      else
        match op with
        | .add =>
          let vs := xs.map (o.ty.operand s.record)
          r = ((contractSum s.record (fdotTy o.ty).fmt vs (.fin true 0 0)).1,
            (contractSum s.record (fdotTy o.ty).fmt vs (.fin true 0 0)).2 ||| sigFlag vs)
        | .min | .max =>
          let f := fp2 o.ty s.record .rne (fminmax (op != .min))
          ∃ x rest, xs = x :: rest ∧ r = rest.foldl (fun acc y => ((f acc.1 y).1, acc.2 ||| (f acc.1 y).2)) (f x x)
        | .rsv _ => True

/-! ### Memory -/

/-- R335, R336, R129, R50: where every access of LD is granted, each active lane's destination receives the bytes at its address
as a little-endian number, extended as WIDTH says, with FLAGS.STAMP where a page is stamped for another contract; the
destination then waits for its data; a strong load pins the fibre (R216); nothing else changes. A scalar destination makes one
access. That the data are those at the issue is the model's choice, and where a scalar destination sets its flags its reading
(log entries 20 and 33). -/
def Obligations.Load : Prop :=
  ∀ (s : State) (g : Guard) (w : Width) (strong sys loc : Bool) (d : Opd) (m : MemOp) (ps : Nat → List Phys),
    s.ready { Pre.opds g (memReads loc m) [(d, regBits w)] with pins := strong } = true →
    let act := s.active g
    let ls := accessLanes (isScalarDest d) act
    (∀ l ∈ ls, s.loadAccess loc strong w.bytes (s.addressOf loc m l) l = .ok (ps l)) →
    ∃ u : State, Wrote s.clearMark u act d (regBits w) (fun l => Width.extend w (s.dev.gather (ps l)))
        (fun l => if (ps l).any s.stampMiss then flagSTAMP else 0) ∧
      let v := u.awaitData d (regBits w)
        ((ls.map (fun l => bytesRead l (s.laneBytes loc w.bytes (s.addressOf loc m l) l) (ps l))).flatten)
      exec (.ld g w strong sys loc d m) s = .next (
        (if strong then ({ v with fib := { v.fib with pinned := true } } : State) else v).advance (Instr.ld g w strong sys loc d m).bytes)

/-- R366 to R368: where every access of ST is granted, a byte of memory that no access names reads as before; a byte that
accesses name holds what one of them stores there, byte i of the little-endian value of its lane; nothing else changes but the
notes that stores leave (State.sansStores). The stored addresses are those that R336 computes and translation grants. R206: the
stored bytes are lost data no longer: exactly their marks are gone, the model's reading (log entry 10). That weak and strong
stores alike stand in memory in the very next state is the model's choice (log entry 20), as is how memory holds a byte, as its
difference from the free value of a commit that changed its run (log entry 79). -/
def Obligations.Store : Prop :=
  ∀ (s : State) (g : Guard) (w : Width) (strong sys loc : Bool) (m : MemOp) (c : Opd) (ps : Nat → List Phys),
    s.ready { Pre.opds g ((c, regBits w) :: memReads loc m) [] with pins := strong } = true →
    let ls := accessLanes (!loc && isUniform m.base && isUniform m.index && isUniform c) (s.active g)
    (∀ l ∈ ls, s.laneAccess .store loc strong w.bytes (s.addressOf loc m l) l = .ok (ps l)) →
    ∃ u : State, exec (.st g w strong sys loc m c) s = .next (u.advance (Instr.st g w strong sys loc m c).bytes) ∧
      u.sansStores = s.clearMark.sansStores ∧
      (∀ a, (∀ l ∈ ls, ∀ p ∈ ps l, p.pa ≠ a) → u.dev.mem.read a = s.dev.mem.read a) ∧
      (∀ a, a ∈ u.dev.marked ↔ a ∈ s.dev.marked ∧ (s.dev.inKeys a = true ∨ ∀ l ∈ ls, ∀ p ∈ ps l, p.pa ≠ a)) ∧
      ∀ a, s.dev.inKeys a = false → (∃ l ∈ ls, ∃ p ∈ ps l, p.pa = a) →
        ∃ l ∈ ls, ∃ i p, (ps l)[i]? = some p ∧ p.pa = a ∧
          u.dev.mem.read a ^^^ s.dev.blank a = BitVec.ofNat 8 (s.get .arith (regBits w) c l / 256 ^ i)

/-- R278 to R280, R290, R352, R353: where every access of ATOM, RED or CAS is granted, the lanes' read-modify-writes happen one
whole after another in some order of the lanes; a byte that no access names reads as before. ATOM and RED store what combine
makes of the word and the operand; CAS stores its new value where the word equals the expected one, and nothing elsewhere. The
fibre is pinned. R279: combine of an integer type: the sum modulo 2^W, the lesser or greater value as TYPE compares, the
operation bit by bit, or the operand. R206: what they store, but for the plain exchange, keeps the marks of the word's bytes,
and the destination has those read (the model's reading, log entry 10). The order among lanes is a free value (log entry 19);
that they are performed at the issue is the model's choice (log entry 20). -/
def Obligations.Atomics : Prop :=
  (∀ (s : State) (g : Guard) (m : MemOp) (ps : Nat → List Phys),
     let act := s.active g
     let granted := fun (w : Nat) (ls : List Nat) => ∀ l ∈ ls, s.flatAccess .rmw true (w / 8) (s.address m l) = .ok (ps l)
     let runs := fun (i : Instr) (w : Nat) (one : Bool) (d : Option Opd) (keeps : Bool) (f : Nat → Nat → Option Nat × Nat) =>
       let ls := accessLanes one act
       let va := fun l => s.laneBytes false (w / 8) (s.address m l) l
       ∃ order, List.Perm order ls ∧ ∃ t : State, (t = s.clearMark ∨ t = s.clearMark.free.2) ∧
         let u := order.foldl (State.rmwLane w d (fun l => if one then lanesOf act else [l]) keeps f ps va) (t, [])
         let v := match d with
           | some o => u.1.awaitData o w ((ls.map (fun l => bytesRead l (va l) (ps l))).flatten) u.2
           | none => u.1
         exec i s = .next (({ v with fib := { v.fib with pinned := true } } : State).advance i.bytes) ∧
         ∀ a, (∀ l ∈ ls, ∀ p ∈ ps l, p.pa ≠ a) → v.dev.mem.read a = s.dev.mem.read a
     (∀ (ty : Ty) (op : AtomOp) (sys : Bool) (d b : Opd),
       s.ready { Pre.opds g ((b, ty.w) :: memReads false m) [(d, ty.w)] with pins := true } = true →
       granted ty.w (accessLanes (isScalarDest d) act) →
       runs (.atom g ty op sys d m b) ty.w (isScalarDest d) (some d) (op != .exch) (fun l x =>
         (some (combine op ty s.record x (s.get (atomCls ty) ty.w b l)).1, (combine op ty s.record x (s.get (atomCls ty) ty.w b l)).2))) ∧
     (∀ (ty : Ty) (op : AtomOp) (sys : Bool) (b : Opd),
       s.ready { Pre.opds g ((b, ty.w) :: memReads false m) [] with pins := true } = true → granted ty.w (lanesOf act) →
       runs (.red g ty op sys m b) ty.w false none (op != .exch) (fun l x =>
         (some (combine op ty s.record x (s.get (atomCls ty) ty.w b l)).1, (combine op ty s.record x (s.get (atomCls ty) ty.w b l)).2))) ∧
     ∀ (b64 sys : Bool) (d e n : Opd),
       let w := if b64 then 64 else 32
       s.ready { Pre.opds g ((e, w) :: (n, w) :: memReads false m) [(d, w)] with pins := true } = true →
       granted w (accessLanes (isScalarDest d) act) →
       runs (.cas g b64 sys d m e n) w (isScalarDest d) (some d) true (fun l x =>
         (if x = s.get .arith w e l then some (s.get .arith w n l) else none, 0))) ∧
  (∀ (ty : Ty) (rec x y : Nat), ty.isInt = true →
     combine .add ty rec x y = ((x + y) % 2 ^ ty.w, 0) ∧
     combine .min ty rec x y = (if ty.intVal y < ty.intVal x then y else x, 0) ∧
     combine .max ty rec x y = (if ty.intVal x < ty.intVal y then y else x, 0) ∧
     (∀ i, (combine .and ty rec x y).1.testBit i = (x.testBit i && y.testBit i)) ∧
     (∀ i, (combine .or ty rec x y).1.testBit i = (x.testBit i || y.testBit i)) ∧
     (∀ i, (combine .xor ty rec x y).1.testBit i = (x.testBit i ^^ y.testBit i)) ∧
     combine .exch ty rec x y = (y, 0))

/-- R338, R359: LOADM reads word i of each active lane from local address p + 4i into v[n + i] and then adds 4 × CNT to p; SAVEM
takes 4 × CNT off p first and stores v[n + i] at p + 4i. The registers named lie in one window; every other register and every
byte of memory that is not named keeps its value, and exactly the stored bytes' marks of lost data are gone (the model's
reading, log entry 10). That LOADM checks no stamp and leaves FLAGS as they were is its reading (log entry 35); that data and
stores are those at the issue (log entry 20), and how memory holds a byte (log entry 79), are its choices. -/
def Obligations.LoadAndSaveMultiple : Prop :=
  ∀ (s : State) (g : Guard) (pn nn c : Nat) (ps : Nat → List (List Phys)),
    let act := s.active g
    let k := c + 1
    let vs := (List.range k).map (fun i => (Opd.v (nn + i), 32))
    let p := fun l => s.getV pn 1 l
    (nn ≤ pn → nn + c < pn) →
    (s.ready { Pre.opds g [(.v pn, 32)] ((.v pn, 32) :: vs) with runs := [(nn, k)] } = true →
      (∀ l, laneIn act l = true → s.wordsAccess .load k (p l) l = .ok (ps l)) →
      ∃ u : State, exec (.loadm g (.v pn) (.v nn) c) s = .next (u.advance (Instr.loadm g (.v pn) (.v nn) c).bytes) ∧
        (∀ l i, laneIn act l = true → i < k → u.getV (nn + i) 1 l = s.dev.gather ((ps l).getD i []) % 2 ^ 32) ∧
        (∀ l, laneIn act l = true → u.getV pn 1 l = (p l + 4 * k) % 2 ^ 32) ∧
        (∀ q l, l < 32 →
          (laneIn act l = true → q ≠ s.phys pn 1 ∧ ∀ i, i < k → q ≠ s.phys (nn + i) 1) → u.warp.reg q l = s.warp.reg q l) ∧
        u.dev = s.dev ∧ u.fib.s = s.fib.s ∧ u.fib.preds = s.fib.preds ∧ u.fib.flags = s.fib.flags) ∧
    (s.ready { Pre.opds g ((.v pn, 32) :: vs) [(.v pn, 32)] with runs := [(nn, k)] } = true →
      let low := fun l => ((p l : Int) - 4 * k) % (2 ^ 32 : Int)
      (∀ l, laneIn act l = true → s.wordsAccess .store k (low l).toNat l = .ok (ps l)) →
      ∃ u : State, exec (.savem g (.v pn) (.v nn) c) s = .next (u.advance (Instr.savem g (.v pn) (.v nn) c).bytes) ∧
        (∀ l, laneIn act l = true → u.getV pn 1 l = (low l).toNat) ∧
        (∀ q l, l < 32 → (laneIn act l = true → q ≠ s.phys pn 1) → u.warp.reg q l = s.warp.reg q l) ∧
        u.sansRegs.sansStores = s.clearMark.sansRegs.sansStores ∧
        (∀ a, (∀ l, laneIn act l = true → ∀ w ∈ ps l, ∀ q ∈ w, q.pa ≠ a) → u.dev.mem.read a = s.dev.mem.read a) ∧
        (∀ a, a ∈ u.dev.marked ↔ a ∈ s.dev.marked ∧
          (s.dev.inKeys a = true ∨ ∀ l, laneIn act l = true → ∀ w ∈ ps l, ∀ q ∈ w, q.pa ≠ a)) ∧
        ∀ a, s.dev.inKeys a = false → (∃ l i q, laneIn act l = true ∧ q ∈ (ps l).getD i [] ∧ q.pa = a) →
          ∃ l i j q, laneIn act l = true ∧ ((ps l).getD i [])[j]? = some q ∧ q.pa = a ∧
            u.dev.mem.read a ^^^ s.dev.blank a = BitVec.ofNat 8 (s.getV (nn + i) 1 l / 256 ^ j))

/-- R250, R253: memory under keys. A byte stored to device memory is read back by an access of the same slot, by the host, and
by no access of another slot: such a read gives a free value. Where a commit changes the slot's key, the line is written back
under the old one: the slot then reads what AES-256-XTS makes of that ciphertext under its new key, the line's address the
tweak, and so does every other slot that takes its key at that commit. A byte that no store names reads as before in another
line, and for accesses of the storing slot. That the host's accesses read under every slot, and that a slot which takes no key
then reads a free value, are the model's choices (log entry 29); the cipher is that of FIPS 197 and IEEE 1619 (log entry 121). -/
def Obligations.MemoryUnderKeys : Prop :=
  ∀ (d : Dev) (p q : Phys) (b : Byte), isDevice p.pa = true → d.inKeys p.pa = false →
    let e := d.writeByte p b
    e.readByte p = b ∧
    (q.pa = p.pa → q.slot = none → e.readByte q = b) ∧
    (q.pa = p.pa → ∀ j k, p.slot = some j → q.slot = some k → j < 128 → k < 128 → j ≠ k →
      e.readByte q = Config.otherKey e.freeCount q.pa) ∧
    (∀ j x, p.slot = some j → j < 128 → Tab.find d.keyPending j = some x → (d.keyPending.map (·.1)).Nodup →
      let a := p.pa / 64 * 64
      let held := xtsEncrypt (Tab.get 0 d.keys j) a (e.gather (physRange (some j) a 64))
      ∀ k i, k < 128 → i < 64 →
        (∀ y, Tab.find d.keyPending k = some y →
          (e.loadKeys.readByte ⟨a + i, 15, some k⟩).toNat = xtsDecrypt y a held / 256 ^ i % 256) ∧
        (Tab.find d.keyPending k = none → e.loadKeys.readByte ⟨a + i, 15, some k⟩ = Config.otherKey e.freeCount (a + i))) ∧
    (q.pa ≠ p.pa → q.pa / 64 ≠ p.pa / 64 ∨ q.slot = p.slot → e.readByte q = d.readByte q)

/-- R153, R154, R377, R378: WAITA, where its accesses are granted, is over with the words loaded when one differs from the
expected value, when its timeout is 0 or when the split reloads after a park, and a lost sector poisons the destination (R206);
otherwise the split parks on the lines of its words until its timeout lapses, and no register changes. A reload is of the
addresses that were checked before the park. R155, R158, R379, R154: WAKE wakes, of the splits parked on the line of its
address, the n whose parks are earliest, or all when n is 0; the fibre is pinned. A strong store wakes every split parked on a
line that it touches, and no other. That the PC stays at a parked WAITA, that a split restored meanwhile forms its addresses
anew, and that WAKE translates as a load are the model's readings (log entries 22 and 36); that the constant lane as WAKE's
count, and as the timeout of a WAITA with a vector destination, is that of lane 0 (log entry 107), and that WAKE wakes splits of
frozen fibres too (log entry 70), are its choices. -/
def Obligations.WaitAndWake : Prop :=
  (∀ (s : State) (g : Guard) (b64 sys : Bool) (d base : Opd) (off : Option Nat) (e : Opd) (tmo : Tmo) (ps : Nat → List Phys),
     let w := if b64 then 64 else 32
     let act := s.active g
     let ls := accessLanes (isScalarDest d) act
     let m : MemOp := ⟨base, .zero, 0, off⟩
     let i := Instr.waita g b64 sys d base off e tmo
     s.ready { Pre.opds g ((e, w) :: (base, 64) :: (match tmo with | .reg o => [(o, 64)] | _ => [])) [(d, w)] with pins := true } = true →
     let at_ := fun l => match s.split.st with
       | .woken (some p) => (Tab.find p.addr l).getD (s.address m l)
       | _ => s.address m l
     (∀ l ∈ ls, s.flatAccess .load true (w / 8) (at_ l) = .ok (ps l)) →
     let wait := s.timeout (if isScalarDest d then lowest act else 0) tmo
     let isOver := wait = 0 ∨ (∃ l ∈ ls, s.dev.gather (ps l) ≠ s.get .arith w e l) ∨ s.split.st.reloads = true
     (isOver → ∃ u : State, Wrote s.clearMark u act d w (fun l => s.dev.gather (ps l)) (fun _ => 0) ∧
       let v := u.poisonNow d w ((ls.map (fun l => bytesRead l (s.laneBytes false (w / 8) (at_ l) l) (ps l))).flatten)
       exec i s = .next (({ v with fib := { v.fib with pinned := true } } : State).advance i.bytes)) ∧
     (¬ isOver → ∃ k : Park,
       exec i s = .next { s.clearMark with
         split := { s.split with st := .parked k },
         fib := { s.clearMark.fib with pinned := true }, dev := { s.dev with nextId := s.dev.nextId + 1 } } ∧
       k.lanes = act ∧ k.seq = s.dev.nextId ∧ k.deadline = s.dev.cycles.toNat + wait ∧
       (∀ l ∈ ls, Tab.find k.addr l = some (at_ l)) ∧
       ∀ line, line ∈ k.lines ↔ ∃ l ∈ ls, ∃ p ∈ ps l, p.pa / 64 = line)) ∧
  ((∀ (s : State) (g : Guard) (sys : Bool) (base : Opd) (off : Option Nat) (n : WakeN) (p : Phys),
     s.ready { Pre.opds g ((base, 64) :: (match n with | .reg o => [(o, 64)] | _ => [])) [] with pins := true } = true →
     s.flatAccess .load false 1 (s.address ⟨base, .zero, 0, off⟩ (lowest (s.active g))) = .ok [p] →
     (s.parks.map (·.seq)).Nodup →
     let k := match n with | .reg o => s.get .arith 64 o 0 | .imm k => k | .rsv _ _ _ => 0
     let on := fun (q : Park) => q.lines.contains (p.pa / 64)
     let u := s.clearMark.wake (fun q => on q && (k == 0 || decide ((s.parks.filter on).countP (fun r => decide (r.seq < q.seq)) < k)))
     exec (.wake g sys base off n) s = .next (({ u with fib := { u.fib with pinned := true } } : State).advance
       (Instr.wake g sys base off n).bytes)) ∧
   ∀ (s : State) (pas : List Phys) (x f i : Nat) (fb : Fib) (y : SplitSt) (k : Park),
     Tab.find s.dev.fibs f = some fb → Tab.find fb.splits i = some y → y.st = .parked k →
     ∃ fb', Tab.find (s.store pas x true).dev.fibs f = some fb' ∧
       Tab.find fb'.splits i = some (if ∃ p ∈ pas, p.pa / 64 ∈ k.lines then { y with st := .woken (some k) } else y))

/-- R329, R330: ILOCK adds its range to the workgroup's locks and writes true when it is granted, and only writes false when
not; IUNLOCK removes one range that equals its own. R329: it is granted exactly when the range has 1 to 65,536 bytes, the
workgroup holds fewer than 16, every line of 128 bytes that the range touches has a translation with EX, and the distinct lines
locked on the core stay within 64 KiB, where a range that is held counts the lines that it was granted. R134, R136 to R138,
R140: a translation: bits 63 to 57 are clear; stage 1 and stage 2 walk five levels, the leaf has the rights that the access
needs and U at level U, and the key is loaded; else the access fails as not present, without permission, at stage 2 or by its
key. R135, R142, R69, R336: the addresses that an access forms, and its faults in their order: 0x14 for alignment, 0x13 past the
local window, then the first byte that translation refuses. R129: LD checks the stamp last. That stage-2 tables are read under
the device key (log entry 29), which access stands for which right and that at privilege H every address from the end of device
memory on, host memory's too, is not present (both log entry 27), that a strong local access needs its alignment within one unit
too, though a weak one does not (log entry 85), and that a table entry is read with no check of its key without a stage 2, and
fails as stage 2 whatever stage 2 refuses with one (log entry 97), and that a key that is not loaded comes before a POL that
does not match (log entry 106), are the model's readings and choices. -/
def Obligations.InstructionLocks : Prop :=
  (∀ (s : State) (g : Guard) (p : Nat) (a n : Opd), s.ready (.opds g [(a, 64), (n, 64)] []) = true →
    let got := s.lockFor (s.get .arith 64 a 0) (s.get .arith 64 n 0)
    let t : State := { s.clearMark with wg := { s.wg with locks := match got with | some r => s.wg.locks ++ [r] | none => s.wg.locks } }
    ∃ u : State, exec (.ilock g p a n) s = .next (u.advance (Instr.ilock g p a n).bytes) ∧
      WrotePred t u (s.active g) p (fun _ => got.isSome)) ∧
  (∀ (s : State) (g : Guard) (a n : Opd), s.ready (.opds g [(a, 64), (n, 64)] []) = true →
    let its := fun (r : Lock) => r.addr = s.get .arith 64 a 0 ∧ r.bytes = s.get .arith 64 n 0
    ∃ ls : List Lock,
      exec (.iunlock g a n) s =
        .next (({ s.clearMark with wg := { s.wg with locks := ls } } : State).advance (Instr.iunlock g a n).bytes) ∧
      ((∀ r ∈ s.wg.locks, ¬ its r) → ls = s.wg.locks) ∧
      ∀ before r after, s.wg.locks = before ++ r :: after → (∀ q ∈ before, ¬ its q) → its r → ls = before ++ after) ∧
  (∀ (s : State) (a n : Nat) (x : Lock), s.lockFor a n = some x ↔
    0 < n ∧ n ≤ 65536 ∧ s.wg.locks.length < 16 ∧ ∃ new : Nat → Nat,
      (∀ l, a / 128 ≤ l → l ≤ (a + n - 1) / 128 →
        ∃ p, s.dev.translate s.space .fetch (l * 128 % 2 ^ 64) = .ok p ∧ new l = p.pa / 128) ∧
      x = ⟨a, n, (List.range ((a + n - 1) / 128 - a / 128 + 1)).map (fun i => new (a / 128 + i))⟩ ∧
      (s.coreLocks ++ x.lines).eraseDups.length * 128 ≤ 65536) ∧
  (∀ s : State, s.coreLocks.Nodup ∧ ∀ x, x ∈ s.coreLocks ↔ ∃ r : Lock,
    (r ∈ s.wg.locks ∨ ∃ g ∈ s.dev.wgs.map (·.2), g.slice = s.wg.slice ∧ g.core = s.wg.core ∧ r ∈ g.locks) ∧ x ∈ r.lines) ∧
  ((∀ (d : Dev) (sp : Space) (acc : Access) (va : Nat), 2 ^ 57 ≤ va → d.translate sp acc va = .error .notPresent) ∧
   (∀ (d : Dev) (p root : Nat) (acc : Access) (va : Nat), va < 2 ^ 57 → root ≠ 0 → ∃ r,
     Walked (d.readPte p) (leafValid false (d.s2root p == 0)) root va r ∧
     d.translate ⟨p, root, .u⟩ acc va = match r with
       | .error x => .error x
       | .ok none => .error .notPresent
       | .ok (some (e, sh)) =>
         let gpa := entryAddr e + va % 2 ^ sh
         if (e.testBit 52 && rightsFor acc e) = false then .error .permission
         else if d.s2root p = 0 then
           if e / 2 ^ 5 % 4 = 2 then .ok ⟨gpa, e / 2 ^ 60 % 16, none⟩
           else if d.keyOk (d.keyix p) then .ok ⟨gpa, e / 2 ^ 60 % 16, some (d.keyix p)⟩ else .error .key
         else match d.stage2 p acc gpa with
           | .error x => .error x
           | .ok (q, pol) => if e / 2 ^ 5 % 4 = 2 ↔ pol = 2 then .ok { q with stamp := e / 2 ^ 60 % 16 } else .error .stage2) ∧
   (∀ (d : Dev) (p : Nat) (acc : Access) (gpa : Nat), ∃ r,
     (2 ^ 52 ≤ gpa → d.stage2 p acc gpa = .error .stage2) ∧
     (gpa < 2 ^ 52 → Walked (fun a => .ok (d.readOwn 8 a)) (leafValid true true) (d.s2root p) gpa r ∧
      d.stage2 p acc gpa = match r with
        | .error x => .error x
        | .ok none => .error .stage2
        | .ok (some (e, sh)) =>
          let key := if e.testBit 52 then 0 else if e / 2 ^ 53 % 128 = 0 then d.keyix p else e / 2 ^ 53 % 128
          if rightsFor acc e = false then .error .stage2
          else if e / 2 ^ 5 % 4 = 2 then .ok (⟨entryAddr e + gpa % 2 ^ sh, 15, none⟩, 2)
          else if d.keyOk key then .ok (⟨entryAddr e + gpa % 2 ^ sh, 15, some key⟩, e / 2 ^ 5 % 4) else .error .key)) ∧
   (∀ (d : Dev) (p a : Nat),
     (d.s2root p = 0 → d.readPte p a = .ok (d.gather (physRange (if 0x10000000000 ≤ a then none else some (d.keyix p)) a 8))) ∧
     (d.s2root p ≠ 0 → (∀ q, d.stage2 p .load a = .ok q → d.readPte p a = .ok (d.gather (physRange q.1.slot q.1.pa 8))) ∧
       ∀ x, d.stage2 p .load a = .error x → d.readPte p a = .error .stage2)) ∧
   (∀ (d : Dev) (p root : Nat) (acc : Access) (va : Nat), va < 2 ^ 57 →
     d.translate ⟨p, root, .h⟩ acc va = (if va < 0xC000000000 then .ok ⟨va, 15, some 0⟩ else .error .notPresent) ∧
     (d.s2root p ≠ 0 → d.translate ⟨p, root, .s⟩ acc va = (d.stage2 p acc va).map (·.1)) ∧
     (d.s2root p = 0 → d.translate ⟨p, root, .s⟩ acc va =
       if va < 0xC000000000 then (if d.keyOk (d.keyix p) then .ok ⟨va, 15, some (d.keyix p)⟩ else .error .key)
       else if 0x10000000000 ≤ va then .ok ⟨va, 15, none⟩ else .error .notPresent) ∧
     d.translate ⟨p, 0, .u⟩ acc va = d.translate ⟨p, 0, .s⟩ acc va) ∧
   ∀ (d : Dev) (sp : Space) (acc : Access) (n va : Nat),
     match d.translateRange sp acc n va with
     | .ok ps => ps.length = n ∧ ∀ i p, ps[i]? = some p → d.translate sp acc ((va + i) % 2 ^ 64) = .ok p
     | .error (x, a) => ∃ i, i < n ∧ a = (va + i) % 2 ^ 64 ∧ d.translate sp acc a = .error x ∧
         ∀ j, j < i → ∃ p, d.translate sp acc ((va + j) % 2 ^ 64) = .ok p) ∧
  (∀ (s : State) (m : MemOp) (l : Nat),
     let off : ℤ := toSigned 32 (m.off.getD 0)
     s.address m l = (((s.get .arith 64 m.base l : ℤ) + (s.get .arith 32 m.index l : ℤ) * 2 ^ m.scale + off) % 2 ^ 64).toNat ∧
     s.localAddress m l = (((s.get .arith 32 m.base l : ℤ) + (s.get .arith 32 m.index l : ℤ) * 2 ^ m.scale + off) % 2 ^ 32).toNat ∧
     ∀ a, s.fib.flat a l = s.fib.lwbase.toNat + a / 4 * 128 + 4 * l + a % 4) ∧
  ∀ (s : State) (acc : Access) (aligned : Bool) (w a l : Nat),
    let code := fun x => match x with | XErr.notPresent => 0x10 | .permission => 0x11 | .stage2 => 0x12 | .key => 0x18
    ((aligned = true → a % w ≠ 0 → s.laneAccess acc false aligned w a l = .error ⟨0x14, a⟩) ∧
     (aligned = false ∨ a % w = 0 → s.laneAccess acc false aligned w a l = match s.dev.translateRange s.space acc w a with
       | .error (x, at_) => .error ⟨code x, at_⟩
       | .ok ps => .ok ps)) ∧
    (let at_ := s.fib.flat a l
     let misplaced := a % w ≠ 0 ∧ (aligned = true ∨ 4 < a % 4 + w)
     (misplaced → s.laneAccess acc true aligned w a l = .error ⟨0x14, at_⟩) ∧
     (¬ misplaced → s.fib.lwsize.toNat / 32 < a + w → s.laneAccess acc true aligned w a l = .error ⟨0x13, at_⟩) ∧
     (¬ misplaced → a + w ≤ s.fib.lwsize.toNat / 32 →
       let byteAt := fun i => s.fib.flat ((a + i) % 2 ^ 32) l % 2 ^ 64
       match s.laneAccess acc true aligned w a l with
       | .ok ps => ps.length = w ∧ ∀ i p, ps[i]? = some p → s.dev.translate s.space acc (byteAt i) = .ok p
       | .error x => ∃ i e, i < w ∧ x = ⟨code e, byteAt i⟩ ∧ s.dev.translate s.space acc (byteAt i) = .error e ∧
           ∀ j, j < i → ∃ p, s.dev.translate s.space acc (byteAt j) = .ok p)) ∧
    ∀ (loc : Bool) (ps : List Phys), s.laneAccess .load loc aligned w a l = .ok ps →
      let missed := fun p : Phys => p.stamp ≠ 15 ∧ p.stamp ≠ s.wg.contract
      (s.fib.trapen.getLsbD 7 = false ∨ (∀ p ∈ ps, ¬ missed p) → s.loadAccess loc aligned w a l = .ok ps) ∧
      (s.fib.trapen.getLsbD 7 = true → (∃ p ∈ ps, missed p) → ∃ x, s.loadAccess loc aligned w a l = .error ⟨0x16, x⟩ ∧
        x ∈ s.laneBytes loc w a l)

/-! ### Tiles and the matrix unit -/

/-- R70, R71, R74, R369, R371: TALLOC binds an unbound handle to a zero tile of its shape where the shape is legal and fits the
core, and otherwise traps with 0x15, 0x19 or 0x1A in that order; TFREE unbinds and TZERO clears the contents of a bound handle
and trap with 0x19 on an unbound one. That order of TALLOC's faults is the model's choice (log entry 84). Each waits for the
commands that name the handle: while one is unfinished the split stalls on it. R70, R19: the shapes that each level accepts, the
granules they take (1,024 bytes at T and W, one tile at A, an entry of 512 bytes at Q), and what a core holds: 1,536 granules of
T, or 1,024 in configuration 1, 32 of A, 512 of W, 64 of Q, and 512 handles, over the workgroups on the core. -/
def Obligations.TileBinding : Prop :=
  (∀ (s : State) (g : Guard) (h : Nat), s.ready { Pre.opds g [] [] with deps := [.users s.wgKey h] } = true →
     let fault := fun c => s.clearMark.trap c (s.active g) 0 (7 * 2 ^ 20 + h * 2 ^ 32)
     (∀ lvl rows1 rb1, lvl < 4 →
       let lv : Level := if lvl = 0 then .t else if lvl = 1 then .a else if lvl = 2 then .w else .q
       let rows := rows1 + 1
       let rb := 16 * (rb1 + 1)
       exec (.talloc g lvl h rows1 rb1) s = .next (
         if shapeOk lv rows rb = false then fault 0x15
         else if (Tab.find s.wg.tiles h).isSome then fault 0x19
         else if tileFits s.wg.config s.coreTiles lv rows rb = false then fault 0x1A
         else (s.clearMark.withTile h ⟨lv, rows, rb, [], [], [], [], []⟩).advance (Instr.talloc g lvl h rows1 rb1).bytes)) ∧
     (Tab.find s.wg.tiles h = none → exec (.tfree g h) s = .next (fault 0x19) ∧ exec (.tzero g h) s = .next (fault 0x19)) ∧
     ∀ t, Tab.find s.wg.tiles h = some t →
       exec (.tfree g h) s = .next (({ s.clearMark with
         wg := { s.wg with tiles := Tab.del s.wg.tiles h }, fib := { s.clearMark.fib with wroteB := true } } : State).advance
           (Instr.tfree g h).bytes) ∧
       exec (.tzero g h) s = .next ((s.clearMark.withTile h { t with data := [], md := [], queue := [], poison := [] }).advance
         (Instr.tzero g h).bytes)) ∧
  ((∀ rows rb, shapeOk .t rows rb = true ↔ 1 ≤ rows ∧ rows ≤ 4096 ∧ 16 ≤ rb ∧ rb ≤ 8192 ∧ rb % 16 = 0) ∧
   (∀ rows rb, shapeOk .a rows rb = true ↔ rows = 32 ∧ rb = 256) ∧
   (∀ rows rb, shapeOk .w rows rb = shapeOk .t rows rb) ∧
   (∀ rows rb, shapeOk .q rows rb = true ↔ 1 ≤ rows ∧ rows ≤ 64 ∧ rb = 512) ∧
   (∀ rows rb, 0 < rows * rb → (granules .t rows rb - 1) * 1024 < rows * rb ∧ rows * rb ≤ granules .t rows rb * 1024) ∧
   (∀ rows rb, granules .w rows rb = granules .t rows rb ∧ granules .a rows rb = 1 ∧ granules .q rows rb = rows) ∧
   ∀ (config : Nat) (ts : List Tile) (lv : Level) (rows rb : Nat),
     let held := ((ts.filter (fun t => decide (t.lvl = lv))).map (fun t => granules lv t.rows t.rb)).sum
     tileFits config ts lv rows rb = true ↔ ts.length < 512 ∧ held + granules lv rows rb ≤
       match lv with
       | .t => if config = 1 then 1024 else 1536
       | .a => 32
       | .w => 512
       | .q => 64) ∧
  (∀ (s : State) (t : Tile), t ∈ s.coreTiles ↔ t ∈ s.wg.tiles.vals ∨
     ∃ g ∈ s.dev.wgs.vals, g.slice = s.wg.slice ∧ g.core = s.wg.core ∧ t ∈ g.tiles.vals) ∧
  ∀ (s : State) (g : Guard) (h : Nat), s.cur.isSome = true → s.active g ≠ 0 →
    (∃ c ∈ s.dev.cmds.vals, c.wg = s.wgKey ∧ h ∈ cmdWrites c.kind ++ cmdReads c.kind) →
    let waits := s.clearMark.stall [.users s.wgKey h]
    (∀ lvl rows1 rb1, exec (.talloc g lvl h rows1 rb1) s = .next waits) ∧
    exec (.tfree g h) s = .next waits ∧ exec (.tzero g h) s = .next waits

/-- R72, R372, R373: TLD writes the element at each active lane's coordinate, extended as WIDTH says, and TST stores each active
lane's value there, where lanes meet that of the highest; every other byte of the tile keeps its value. For both instructions a
coordinate out of bounds traps with 0x15 in the lanes that have one, and a handle that is unbound, or bound at a level that
holds no bytes, traps with 0x19. That poisoned tile bytes poison the register is the model's reading (log entry 10). -/
def Obligations.TileElements : Prop :=
  (∀ (s : State) (g : Guard) (w : Width) (c : Coord),
    (∀ x, Tab.find s.wg.tiles c.h = some x → x.lvl = .a ∨ x.lvl = .q) →
    let fault := s.clearMark.trap 0x19 (s.active g) 0 (7 * 2 ^ 20 + c.h * 2 ^ 32)
    (∀ d : Opd, s.ready { Pre.opds g (coordReads c) [(d, regBits w)] with deps := [.writers s.wgKey c.h] } = true →
      exec (.tld g w d c) s = .next fault) ∧
    ∀ v : Opd, s.ready { Pre.opds g ((v, regBits w) :: coordReads c) [] with deps := [.users s.wgKey c.h] } = true →
      exec (.tst g w c v) s = .next fault) ∧
  ∀ (s : State) (g : Guard) (w : Width) (c : Coord) (x : Tile),
    let act := s.active g
    let n := w.bytes
    let row := fun l => s.coordVal c.row l
    let col := fun l => s.coordVal c.col l * n
    let inside := fun l => row l < x.rows ∧ s.coordVal c.col l < x.rb / n
    Tab.find s.wg.tiles c.h = some x → (x.lvl = .t ∨ x.lvl = .w) →
    (∀ d : Opd, s.ready { Pre.opds g (coordReads c) [(d, regBits w)] with deps := [.writers s.wgKey c.h] } = true →
      ((∀ l, laneIn act l = true → inside l) →
        ∃ u : State, exec (.tld g w d c) s = .next ((u.poisonDest d (regBits w)
            ((lanesOf act).map (fun l => (l, x.poisoned (row l) (col l) n)))).advance (Instr.tld g w d c).bytes) ∧
          Wrote s.clearMark u act d (regBits w) (fun l => Width.extend w (rowBytes (x.row (row l)) (col l) n)) (fun _ => 0)) ∧
      ((∃ l, laneIn act l = true ∧ ¬ inside l) →
        exec (.tld g w d c) s = .next (s.clearMark.trap 0x15 (maskOf ((lanesOf act).filter (fun l => ¬ inside l))) 0
          (7 * 2 ^ 20 + c.h * 2 ^ 32)))) ∧
    ∀ v : Opd, s.ready { Pre.opds g ((v, regBits w) :: coordReads c) [] with deps := [.users s.wgKey c.h] } = true →
      ((∃ l, laneIn act l = true ∧ ¬ inside l) →
        exec (.tst g w c v) s = .next (s.clearMark.trap 0x15 (maskOf ((lanesOf act).filter (fun l => ¬ inside l))) 0
          (7 * 2 ^ 20 + c.h * 2 ^ 32))) ∧
      ((∀ l, laneIn act l = true → inside l) →
      ∃ y : Tile, exec (.tst g w c v) s = .next ((s.clearMark.withTile c.h y).advance (Instr.tst g w c v).bytes) ∧
        y.lvl = x.lvl ∧ y.rows = x.rows ∧ y.rb = x.rb ∧ y.dicts = x.dicts ∧
        ∀ r b, rowBytes (y.row r) b 1 =
          match (lanesOf act).reverse.find? (fun l => row l = r ∧ col l ≤ b ∧ b < col l + n) with
          | some l => s.get .arith (regBits w) v l / 2 ^ (8 * (b - col l)) % 2 ^ 8
          | none => rowBytes (x.row r) b 1)

/-- R161, R167, R341, R342, R166: where their handles pass the checks and no operand is poisoned, MMA and MMAG multiply the
active lanes' rows with B and accumulate, and MMAS does so with the sparse B that the head of its queue describes, which it
takes off; a group of MMAG takes in lanes in order, each with its own W handle. That poisoned bytes of B or of its dictionary
stop the product is the model's reading (log entry 10). -/
def Obligations.MatrixMultiply : Prop :=
  (∀ (s : State) (o : MmaArgs) (w : Tile),
    let b64 := o.ty == .f64
    let u := s.clearMark.product (lanesOf (s.active o.g)) o.ty o.nzc o.hc o.a (denseB o.ty o.pal s.record w o.row0 o.cb)
    s.ready { Pre.opds o.g [(o.a, 512)] [] with deps := s.mmaDeps b64 o.hc [o.hw] } = true →
    (s.accPair b64 o.hc).isSome = true → Tab.find s.wg.tiles o.hw = some w →
    s.wFault o.ty o.pal o.hw o.row0 (mmaK o.ty) o.cb = none → s.wPoison o.ty o.pal o.hw o.row0 (mmaK o.ty) o.cb = 0 →
    exec (.mma o) s = .next (({ u with fib := { u.fib with wroteB := true } } : State).advance (Instr.mma o).bytes)) ∧
  (∀ (s : State) (o : MmaArgs) (hq : Nat) (w q : Tile) (e : Nat) (rest : List Nat),
    let popped : Tile := { q with
      queue := rest, poison := (q.poison.filter (fun p => decide (8192 ≤ p.1))).map (fun p => (p.1 - 8192, p.2)) }
    let t := { s.clearMark with wg := { s.wg with tiles := Tab.put s.wg.tiles hq popped } }
    let u := State.product t (lanesOf (s.active o.g)) o.ty o.nzc o.hc o.a (sparseB o.ty o.pal s.record w o.row0 o.cb e)
    s.ready { Pre.opds o.g [(o.a, 512)] [] with deps := s.mmaDeps false o.hc [o.hw] } = true →
    (s.accPair false o.hc).isSome = true → Tab.find s.wg.tiles o.hw = some w → s.tileAt .q hq = some q → q.queue = e :: rest →
    s.wFault o.ty o.pal o.hw o.row0 (mmaK o.ty / 2) o.cb = none → sparseBad o.ty e = false →
    s.wPoison o.ty o.pal o.hw o.row0 (mmaK o.ty / 2) o.cb = 0 → q.poisoned 0 0 512 = 0 →
    exec (.mmas o hq) s = .next (({ u with fib := { u.fib with wroteB := true } } : State).advance (Instr.mmas o hq).bytes)) ∧
  ∀ (s : State) (g : Guard) (ty : Ty) (pal : Pal) (nzc : Bool) (hc hw ng1 k : Nat) (a : Opd) (ws : Nat → Tile),
    let b64 := ty == .f64
    let i := Instr.mmag g ty pal nzc hc hw ng1 a (.s k)
    let counts := (List.range (ng1 + 1)).map (fun j => s.getS (k + j) % 2 ^ 32)
    let gs := (List.range (ng1 + 1)).filter (fun j => counts.getD j 0 != 0)
    let lanes := fun j => (lanesOf (s.active g)).filter (fun l =>
      decide ((counts.take j).sum ≤ l ∧ l < (counts.take j).sum + counts.getD j 0))
    let u := gs.foldl (fun u j => State.product u (lanes j) ty nzc hc a (denseB ty pal s.record (ws j) 0 0)) s.clearMark
    s.ready { Pre.opds g ((a, 512) :: (List.range (ng1 + 1)).map (fun j => (Opd.s (k + j), 32))) [] with
      deps := s.mmaDeps b64 hc (gs.map (fun j => hw + j)) } = true →
    counts.sum ≤ 32 → (s.accPair b64 hc).isSome = true →
    (∀ j ∈ gs, Tab.find s.wg.tiles (hw + j) = some (ws j) ∧ s.wFault ty pal (hw + j) 0 (mmaK ty) 0 = none ∧
      s.wPoison ty pal (hw + j) 0 (mmaK ty) 0 = 0) →
    exec i s = .next (({ u with fib := { u.fib with wroteB := true } } : State).advance i.bytes)

/-- R159 to R161: one product: row l of an FP32 accumulator holds for each column j the sum under the running contract of the
old element and the products of the lane's K elements with column j of B; the rows of other lanes keep their elements. R124:
that sum, for terms and an addend of any kind: the terms are taken G at a time; the sum of a group is NaN, an infinity or a
signed zero where its terms say so, and else the exact sum of its terms, each cut toward zero to A bits below the group's
greatest exponent, with NX where a cut changes one; after each group, or once after all, the addend and the sum are added and
rounded; and one flush of the result. Adding and rounding are those of PlacementAndRounding. -/
def Obligations.MatrixElements : Prop :=
  (∀ (rec : Nat) (f : Fmt) (p : List FVal) (c : FVal), f ∈ [fp16, fpb16, fp32, fp64] → rec / 2 ^ 10 % 2 ^ 3 ≤ 4 →
    let G := [1, 4, 8, 16, 32].getD (rec / 2 ^ 10 % 2 ^ 3) 1
    let A := rec / 2 ^ 13 % 2 ^ 5
    let rm := [Rm.rne, .rz, .ru, .rd].getD (rec / 2 ^ 22 % 2 ^ 2) .rne
    let gs := (List.range ((p.length + G - 1) / G)).map (fun g => (p.drop (g * G)).take G)
    A = 0 ∨ (24 ≤ A ∧ A ≤ 30) →
    ∃ S : List FVal → FVal × Nat,
      (∀ q : List FVal,
        ((∃ x ∈ q, x.isNan = true) → S q = (.nan false, 0)) ∧
        ((∀ x ∈ q, x.isNan = false) →
          (.inf false ∈ q → .inf true ∈ q → S q = (.nan false, flagIV)) ∧
          (∀ neg, .inf neg ∈ q → .inf (!neg) ∉ q → S q = (.inf neg, 0)) ∧
          ((∀ x ∈ q, x.isZero = true) → S q = (.fin (q.all FVal.neg) 0 0, 0)) ∧
          ∀ e : ℤ, (∀ x ∈ q, x.isInf = false) → (∃ x ∈ q, (2 : ℚ) ^ e ≤ |x.rat|) → (∀ x ∈ q, |x.rat| < (2 : ℚ) ^ (e + 1)) →
            let w : ℚ := 2 ^ (e + 1 - ((A + if f = fp64 then 29 else 0 : Nat) : ℤ))
            let cut := fun x : FVal => if A = 0 then x.rat else (if x.neg then -1 else 1) * w * (⌊|x.rat| / w⌋ : ℚ)
            (S q).1.isNan = false ∧ (S q).1.isInf = false ∧ (S q).1.rat = (q.map cut).sum ∧
            ((q.map cut).sum = 0 → (S q).1.neg = decide (rm = .rd)) ∧
            ((∀ x ∈ q, cut x = x.rat) → (S q).2 = 0) ∧ ((∃ x ∈ q, cut x ≠ x.rat) → (S q).2 = flagNX))) ∧
      contractSum rec f p c =
        if rec.testBit 18 then
          let T := gs.foldl (fun t q => let u := t.1.add rm (S q).1; (u.1, t.2 ||| (S q).2 ||| u.2)) (FVal.fin true 0 0, 0)
          let u := c.add rm T.1
          let x := f.flushOut rec (f.round rm u.1)
          (x.1, x.2 ||| T.2 ||| u.2)
        else
          let T := gs.foldl (fun t q =>
            let u := t.1.add rm (S q).1
            let x := f.round rm u.1
            (f.decode x.1, t.2 ||| (S q).2 ||| u.2 ||| x.2)) (c, 0)
          let x := f.flushOut rec (f.round rm T.1)
          (x.1, x.2 ||| T.2)) ∧
  ∀ (s : State) (lanes : List Nat) (ty : Ty) (nzc : Bool) (h : Nat) (a : Opd) (b : BTab) (x : Tile),
    ty ≠ .f64 → lanes.Nodup → Tab.find s.wg.tiles h = some x → x.lvl = .a →
    ∃ y, Tab.find (s.product lanes ty nzc h a b).wg.tiles h = some y ∧
      ∀ r j, j < 64 →
        let old := rowBytes (x.row r) (4 * j) 4
        let av := (List.range (mmaK ty)).map (aElem ty s.record (s.get .logic 512 a r))
        let ps := (av.zip (b.map (fun q => q.getD j none))).map (fun p => (mmaProduct ty s.record nzc p.1 p.2).1)
        rowBytes (y.row r) (4 * j) 4 =
          if r ∈ lanes then (contractSum s.record fp32 ps (fp32.decode old)).1 % 2 ^ 32 else old

/-- R170, R272 to R275: ACCRD reads elements of rows that pass their check and traps with 0x50 on one that does not; ACCRD.md
reads words of the metadata; ACCWR writes elements, where lanes meet that of the highest; ACCZ zeroes the active lanes' rows
with their metadata; ACCCHK only checks. Each of them traps with 0x19 on an accumulator that is unbound, at another level, or
for an FP64 row odd or without its partner. R160, R162: where the elements of an FP32 and of an FP64 row lie, and the product
into an FP64 row, whose second handle keeps its metadata. R166: the stored rows that a metadata entry gives to the four
positions of each group and column, no product at the other two, and the entries that are refused. R169, R118: what a product
and ACCWR make of a row's checksum, magnitude and bound, each one exact sum rounded once, and of the NaN count. R170: when a row
fails. That these roundings set flags in the row's lane, and in the lane that writes, and that those of ACCRD's and ACCCHK's
check set none, is the model's reading and choice (log entry 111). -/
def Obligations.Accumulators : Prop :=
  (∀ (s : State) (g : Guard) (b64 : Bool) (h : Nat) (xs : Tile × Tile),
    let act := s.active g
    let w := if b64 then 64 else 32
    s.accPair b64 h = some xs →
    (∀ (d : Opd) (r c : CoordSrc),
      s.ready { Pre.opds g (coordReads ⟨h, r, c⟩) [(d, w)] with deps := (accHandles b64 h).map (Dep.writers s.wgKey) } = true →
      (∀ l, laneIn act l = true → s.coordVal r l < 32 ∧ s.coordVal c l < 64) →
      if (lanesOf act).all (fun l => !rowFails b64 xs (s.coordVal r l)) then
        ∃ u : State, exec (.accrd g b64 d ⟨h, r, c⟩) s = .next (u.advance (Instr.accrd g b64 d ⟨h, r, c⟩).bytes) ∧
          Wrote s.clearMark u act d w (fun l => accElem b64 xs (s.coordVal r l) (s.coordVal c l)) (fun _ => 0)
      else
        exec (.accrd g b64 d ⟨h, r, c⟩) s = .next (s.clearMark.trap 0x50
          (maskOf ((lanesOf act).filter (fun l => rowFails b64 xs (s.coordVal r l)))) 0 (h * 2 ^ 32))) ∧
    (∀ (d : Opd) (r c : CoordSrc), b64 = false →
      s.ready { Pre.opds g (coordReads ⟨h, r, c⟩) [(d, 32)] with deps := [.writers s.wgKey h] } = true →
      (∀ l, laneIn act l = true → s.coordVal r l < 32 ∧ s.coordVal c l < 8) →
      ∃ u : State, exec (.accrdMd g d ⟨h, r, c⟩) s = .next (u.advance (Instr.accrdMd g d ⟨h, r, c⟩).bytes) ∧
        Wrote s.clearMark u act d 32
          (fun l => (xs.1.meta (s.coordVal r l)).toNat / 2 ^ (32 * s.coordVal c l) % 2 ^ 32) (fun _ => 0)) ∧
    (∀ (v : Opd) (r c : CoordSrc),
      s.ready { Pre.opds g ((v, w) :: coordReads ⟨h, r, c⟩) [] with deps := (accHandles b64 h).map (Dep.users s.wgKey) } = true →
      (∀ l, laneIn act l = true → s.coordVal r l < 32 ∧ s.coordVal c l < 64) →
      let one := fun (ys : Tile × Tile) l => accWrite b64 ys (s.coordVal r l) (s.coordVal c l) (s.get .arith w v l)
      ∃ (ys : Nat → Tile × Tile) (u : State),
        exec (.accwr g b64 ⟨h, r, c⟩ v) s =
          .next (({ u.setAcc b64 h (ys (lanesOf act).length) with fib := { u.fib with wroteB := true } } : State).advance
            (Instr.accwr g b64 ⟨h, r, c⟩ v).bytes) ∧
        ys 0 = xs ∧ (∀ k l, (lanesOf act)[k]? = some l → ys (k + 1) = (one (ys k) l).1) ∧
        WroteFlags s.clearMark u act (fun l => (one (ys ((lanesOf act).idxOf l)) l).2) ∧
        ∀ i j, j < 64 → accElem b64 (ys (lanesOf act).length) i j =
          match (lanesOf act).reverse.find? (fun l => s.coordVal r l == i && s.coordVal c l == j) with
          | some l => s.get .arith w v l
          | none => accElem b64 xs i j) ∧
    (s.ready { Pre.opds g [] [] with deps := (accHandles b64 h).map (Dep.users s.wgKey) } = true →
      ∃ ys : Tile × Tile, exec (.accz g b64 h) s =
          .next (({ s.clearMark.setAcc b64 h ys with fib := { s.clearMark.fib with wroteB := true } } : State).advance
            (Instr.accz g b64 h).bytes) ∧
        ∀ i, ((∀ j, j < 64 → accElem b64 ys i j = if laneIn act i then 0 else accElem b64 xs i j) ∧
          Tab.get 0 ys.1.md i = if laneIn act i then 0 else Tab.get 0 xs.1.md i)) ∧
    (s.ready { Pre.opds g [] [] with deps := (accHandles b64 h).map (Dep.writers s.wgKey) } = true →
      exec (.accchk g b64 h) s = .next (
        if (lanesOf act).all (fun l => !rowFails b64 xs l) then s.clearMark.advance (Instr.accchk g b64 h).bytes
        else s.clearMark.trap 0x50 (maskOf ((lanesOf act).filter (rowFails b64 xs))) 0 (h * 2 ^ 32)))) ∧
  (∀ (s : State) (g : Guard) (b64 : Bool) (h : Nat), s.accPair b64 h = none →
    let w := if b64 then 64 else 32
    let fault := s.clearMark.trap 0x19 (s.active g) 0 (7 * 2 ^ 20 + h * 2 ^ 32)
    (∀ (d : Opd) (r c : CoordSrc),
      (s.ready { Pre.opds g (coordReads ⟨h, r, c⟩) [(d, w)] with deps := (accHandles b64 h).map (Dep.writers s.wgKey) } = true →
        exec (.accrd g b64 d ⟨h, r, c⟩) s = .next fault) ∧
      (b64 = false → s.ready { Pre.opds g (coordReads ⟨h, r, c⟩) [(d, 32)] with deps := [.writers s.wgKey h] } = true →
        exec (.accrdMd g d ⟨h, r, c⟩) s = .next fault) ∧
      (s.ready { Pre.opds g ((d, w) :: coordReads ⟨h, r, c⟩) [] with deps := (accHandles b64 h).map (Dep.users s.wgKey) } = true →
        exec (.accwr g b64 ⟨h, r, c⟩ d) s = .next fault)) ∧
    (s.ready { Pre.opds g [] [] with deps := (accHandles b64 h).map (Dep.users s.wgKey) } = true →
      exec (.accz g b64 h) s = .next fault) ∧
    (s.ready { Pre.opds g [] [] with deps := (accHandles b64 h).map (Dep.writers s.wgKey) } = true →
      exec (.accchk g b64 h) s = .next fault)) ∧
  (∀ (s : State) (h : Nat) (x y : Tile),
    (s.accPair false h = some (x, y) ↔ Tab.find s.wg.tiles h = some x ∧ x.lvl = .a ∧ y = x) ∧
    (s.accPair true h = some (x, y) ↔ h % 2 = 0 ∧ Tab.find s.wg.tiles h = some x ∧ x.lvl = .a ∧
      Tab.find s.wg.tiles (h + 1) = some y ∧ y.lvl = .a)) ∧
  (∀ (x y : Tile) (r j : Nat),
    accElem false (x, y) r j = x.row r / 2 ^ (32 * j) % 2 ^ 32 ∧
    accElem true (x, y) r j = if j < 32 then x.row r / 2 ^ (64 * j) % 2 ^ 64 else y.row r / 2 ^ (64 * (j - 32)) % 2 ^ 64) ∧
  (∀ (s : State) (lanes : List Nat) (nzc : Bool) (h : Nat) (a : Opd) (b : BTab) (x y : Tile),
    lanes.Nodup → s.accPair true h = some (x, y) →
    ∃ x' y', (s.product lanes .f64 nzc h a b).accPair true h = some (x', y') ∧ y'.md = y.md ∧
      ∀ r j, j < 64 →
        let old := accElem true (x, y) r j
        let av := (List.range 8).map (fun k => fp64.operand s.record (s.get .logic 512 a r / 2 ^ (64 * k) % 2 ^ 64))
        let ps := (av.zip (b.map (fun q => q.getD j none))).map (fun p => (mmaProduct .f64 s.record nzc p.1 p.2).1)
        accElem true (x', y') r j =
          if r ∈ lanes then (contractSum s.record fp64 ps (fp64.decode old)).1 % 2 ^ 64 else old) ∧
  (∀ (ty : Ty) (pal : Pal) (rec : Nat) (w : Tile) (row0 cb e : Nat),
    let pos := fun g j h => e / 2 ^ (4 * (64 * g + j) + 2 * h) % 4
    (sparseBad ty e = true ↔ ∃ g j, g < mmaK ty / 4 ∧ j < 64 ∧ pos g j 1 ≤ pos g j 0) ∧
    ∀ k j, k < mmaK ty → j < 64 →
      ((sparseB ty pal rec w row0 cb e).getD k []).getD j none =
        if k % 4 = pos (k / 4) j 0 then some (bElem ty pal rec w (row0 + 2 * (k / 4)) cb j)
        else if k % 4 = pos (k / 4) j 1 then some (bElem ty pal rec w (row0 + 2 * (k / 4) + 1) cb j)
        else none) ∧
  (∀ (b64 : Bool) (xs : Tile × Tile) (r : Nat),
    let f := if b64 then fp64 else fp32
    let m := xs.1.meta r
    let fin := fun v : FVal => v.isNan = false ∧ v.isInf = false
    let es := (List.range 64).map (fun j => f.decode (accElem b64 xs r j))
    let v := sumVals .rne es
    let t := fp64.decode (fp64.round .rne v).1
    ((∀ e ∈ es, fin e) → fin v ∧ v.rat = (es.map FVal.rat).sum) ∧
    (rowFails b64 xs r = true ↔
      fin (fp64.decode m.chk) ∧ fin (fp64.decode m.mag) ∧ fin (fp64.decode m.bnd) ∧ (∀ e ∈ es, fin e) ∧
      (t.isInf = true ∨ (fp64.decode m.bnd).rat < |t.rat - (fp64.decode m.chk).rat|))) ∧
  (∀ (ty : Ty) (rec : Nat) (nzc : Bool) (a : List FVal) (b : BTab) (es : List Nat) (m : Md),
    a.length = b.length → es.length = 64 → (∀ q ∈ b, q.length = 64) →
    let f := if ty = .f64 then fp64 else fp32
    let m' := (mmaRow ty rec nzc a b es m).2.2
    let fin := fun v : FVal => v.isNan = false ∧ v.isInf = false
    let seen := fun v : FVal => if nzc = true ∧ v.isNan = true then FVal.fin false 0 0 else v
    let av := a.map seen
    let bv := b.map (fun q => q.map (fun v => seen (v.getD (.fin false 0 0))))
    let hit := fun (x : FVal) (q : Option FVal) => decide (nzc = true ∧ q.any (fun y => x.isNan || y.isNan) = true)
    let chk := (fp64.decode m.chk).rat + (List.zipWith (fun x q => x.rat * (q.map FVal.rat).sum) av bv).sum
    let mag := (fp64.decode m.mag).rat + (List.zipWith (fun x q => |x.rat| * (q.map (fun v => |v.rat|)).sum) av bv).sum
    let k := a.length
    let grp := recGroup rec
    let nr : ℚ := if recPoint rec then 1 else ((k + grp - 1) / grp : Nat)
    let eps : ℚ := if ty = .f64 then 2 ^ (-53 : ℤ) else 2 ^ (-24 : ℤ)
    let cut : ℚ := match recAlign rec f with | none => 0 | some al => (min grp k : Nat) * (2 : ℚ) ^ (1 - (al : ℤ))
    let mp : ℚ := if rec.testBit 20 then (2 : ℚ) ^ ty.fmt.emin else 0
    let mo : ℚ := if rec.testBit 19 then (2 : ℚ) ^ f.emin else 0
    let bnd := (fp64.decode m.bnd).rat + (nr * eps + cut + 2 ^ (-52 : ℤ)) * (fp64.decode m'.mag).rat + 64 * k * mp + 64 * mo
    let cell := fun j =>
      let ps := (a.zip (b.map (fun q => q.getD j none))).map (fun p => mmaProduct ty rec nzc p.1 p.2)
      ps.foldl (fun x p => x ||| p.2.1) (contractSum rec f (ps.map (·.1)) (f.decode (es.getD j 0))).2
    m'.nanc = min (m.nanc + (List.zipWith (fun x q => q.countP (hit x)) a b).sum) (2 ^ 32 - 1) ∧
    ((∀ v ∈ av, fin v) → (∀ q ∈ bv, ∀ v ∈ q, fin v) →
      (fin (fp64.decode m.chk) → ∃ v, fin v ∧ v.rat = chk ∧ m'.chk = (fp64.round .rne v).1) ∧
      (fin (fp64.decode m.mag) → ∃ v, fin v ∧ v.rat = mag ∧ m'.mag = (fp64.round .ru v).1) ∧
      (fin (fp64.decode m.bnd) → fin (fp64.decode m'.mag) → ∃ v, fin v ∧ v.rat = bnd ∧ m'.bnd = (fp64.round .ru v).1) ∧
      (fin (fp64.decode m.chk) → fin (fp64.decode m.mag) → fin (fp64.decode m.bnd) → fin (fp64.decode m'.mag) →
        ∃ x y z, fin x ∧ fin y ∧ fin z ∧ x.rat = chk ∧ y.rat = mag ∧ z.rat = bnd ∧
          (mmaRow ty rec nzc a b es m).2.1 =
            (List.range 64).foldl (fun n j => n ||| cell j) ((fp64.round .rne x).2 ||| (fp64.round .ru y).2 ||| (fp64.round .ru z).2)))) ∧
  ∀ (b64 : Bool) (xs : Tile × Tile) (r j v : Nat), j < 64 →
    let f := if b64 then fp64 else fp32
    let fin := fun v : FVal => v.isNan = false ∧ v.isInf = false
    let m := xs.1.meta r
    let m' := (accWrite b64 xs r j v).1.1.meta r
    let o := f.decode (accElem b64 xs r j)
    let n := f.decode v
    let chk := (fp64.decode m.chk).rat + (n.rat - o.rat)
    let mag := (fp64.decode m.mag).rat + |n.rat|
    let bnd := (fp64.decode m.bnd).rat + 2 ^ (-52 : ℤ) * (|n.rat| + |o.rat|)
    m'.nanc = m.nanc ∧
    (fin o → fin n →
      (fin (fp64.decode m.chk) → ∃ x, fin x ∧ x.rat = chk ∧ m'.chk = (fp64.round .rne x).1) ∧
      (fin (fp64.decode m.mag) → ∃ x, fin x ∧ x.rat = mag ∧ m'.mag = (fp64.round .ru x).1) ∧
      (fin (fp64.decode m.bnd) → ∃ x, fin x ∧ x.rat = bnd ∧ m'.bnd = (fp64.round .ru x).1) ∧
      (fin (fp64.decode m.chk) → fin (fp64.decode m.mag) → fin (fp64.decode m.bnd) →
        ∃ x y z, fin x ∧ fin y ∧ fin z ∧ x.rat = chk ∧ y.rat = mag ∧ z.rat = bnd ∧
          (accWrite b64 xs r j v).2 = (fp64.round .rne x).2 ||| (fp64.round .ru y).2 ||| (fp64.round .ru z).2))

/-! ### Engine commands -/

/-- R12, R23, R171, R294, R295, R300, R381: the copy-engine instructions, where the handles they name pass the checks of R72,
issue their command and mark the token register; nothing is transferred yet. In a partition that owns no engine they end at once
with 0x46 in the token register instead (R23), which a trailing shadow receives too (the model's choice, log entry 28), and for
that they stall while the register is pending (its reading of R172, log entry 99). -/
def Obligations.CopyCommands : Prop :=
  ∀ (s : State) (tok : Nat),
    let runs := fun (i : Instr) (g : Guard) (kind : CmdKind) =>
      ∃ u : State, exec i s = .next (u.advance i.bytes) ∧ IssuedCopy s.clearMark u (s.active g) [tok] kind
    let pre := fun (g : Guard) (rs : List Opd) =>
      { Pre.opds g (rs.map (fun o => (o, 64))) [] with
        pins := true, deps := if s.dev.engines s.wg.part = 0 then [.sreg s.key tok] else [] }
    let stalls := fun (i : Instr) (g : Guard) (rs : List Opd) =>
      s.ready { pre g rs with deps := [] } = true → s.dev.engines s.wg.part = 0 → s.depMet (.sreg s.key tok) = false →
      exec i s = .next (s.clearMark.stall [.sreg s.key tok])
    ((∀ o : CpyArgs, o.tok = .s tok → stalls (.cpy o) o.g [o.a]) ∧ (∀ o : CpygArgs, o.tok = .s tok → stalls (.cpyg o) o.g [o.a, o.i]) ∧
      ∀ (g : Guard) (a : Opd) (h n1 : Nat), stalls (.cpyq g (.s tok) h n1 a) g [a] ∧ stalls (.wload g (.s tok) h a) g [a] ∧
        ∀ (p6 : Bool) (cb : Nat), stalls (.dict g p6 (.s tok) h cb n1 a) g [a]) ∧
    (∀ o : CpyArgs, o.tok = .s tok → s.ready (pre o.g [o.a]) = true →
      let rows := o.rows1 + 1
      let rb := 16 * (o.rb1 + 1)
      s.regionFault .t o.ht o.row (16 * o.col16) rows rb = none →
      (o.a = .zero → s.regionFault .t o.hs (o.x % 4096) (16 * (o.x / 4096)) rows rb = none →
        runs (.cpy o) o.g (.tiles o.ht o.row (16 * o.col16) o.hs (o.x % 4096) (16 * (o.x / 4096)) rows rb)) ∧
      (o.a ≠ .zero → runs (.cpy o) o.g
        (if o.dirMem then .toMem o.ht o.row (16 * o.col16) rows rb (16 * o.x) (s.get .arith 64 o.a 0)
         else .toTile o.ht o.row (16 * o.col16) rows rb (16 * o.x) (s.get .arith 64 o.a 0)))) ∧
    (∀ o : CpygArgs, o.tok = .s tok → s.ready (pre o.g [o.a, o.i]) = true →
      s.regionFault .t o.ht o.row (16 * o.col16) (o.rows1 + 1) (16 * (o.rb1 + 1)) = none →
      runs (.cpyg o) o.g (.gather o.ht o.row (16 * o.col16) (o.rows1 + 1) (16 * (o.rb1 + 1)) (16 * o.x)
        (s.get .arith 64 o.a 0) (s.get .arith 64 o.i 0))) ∧
    ∀ (g : Guard) (a : Opd), s.ready (pre g [a]) = true →
      (∀ h n1, (s.tileAt .q h).isSome = true →
        runs (.cpyq g (.s tok) h n1 a) g (.entries h (n1 + 1) (s.get .arith 64 a 0))) ∧
      (∀ h, (s.tileAt .w h).isSome = true → runs (.wload g (.s tok) h a) g (.weights h (s.get .arith 64 a 0))) ∧
      ∀ (p6 : Bool) (h cb n1 : Nat) (t : Tile), s.tileAt .w h = some t → cb + n1 < t.rb / (if p6 then 48 else 32) →
        runs (.dict g p6 (.s tok) h cb n1 a) g (.dict h p6 cb (n1 + 1) (s.get .arith 64 a 0))

/-- R12, R55, R56, R172, R175, R292, R334, R374, R380: COLL, LAUNCH and WGTAKE issue their commands, WGTAKE marking a pair of
registers; TOKQ tells at once, without waiting, whether its register is pending. -/
def Obligations.OtherCommands : Prop :=
  ∀ (s : State) (n : Nat),
    let runs := fun (i : Instr) (g : Guard) (toks : List Nat) (kind : CmdKind) =>
      ∃ u : State, exec i s = .next (u.advance i.bytes) ∧ Issued s.clearMark u (s.active g) toks kind
    (∀ o : CollArgs, o.tok = .s n →
      s.ready { Pre.opds o.g ((o.c, 64) :: (o.src, 64) :: (o.dst, 64) :: (o.n, 64) ::
        (match o.cond with | some (w, v) => [(w, 64), (v, 64)] | none => [])) [] with pins := true } = true →
      let v := fun x => s.get .arith 64 x 0
      runs (.coll o) o.g [n] (.coll o.op o.red o.ty (v o.c % 2 ^ 32) (v o.src) (v o.dst) (v o.n % 2 ^ 32) (v o.n / 2 ^ 32 % 2 ^ 16)
        (o.cond.map (fun p => (v p.1, v p.2))) false (((Tab.find s.dev.parts s.wg.part).map (·.collw)).getD 1))) ∧
    (∀ (g : Guard) (a q : Opd), s.ready { Pre.opds g [(a, 64), (q, 64)] [] with pins := true } = true →
      runs (.launch g (.s n) a q) g [n] (.enqueue (s.get .arith 64 a 0) (s.get .arith 64 q 0))) ∧
    (∀ g : Guard, s.ready { Pre.opds g [] [] with pins := true } = true → runs (.wgtake g (.s n)) g [n, n + 1] .take) ∧
    ∀ (g : Guard) (p : Nat), s.ready (.opds g [] []) = true →
      ∃ u : State, exec (.tokq g p (.s n)) s = .next (u.advance (Instr.tokq g p (.s n)).bytes) ∧
        WrotePred s.clearMark u (s.active g) p (fun _ => (Tab.find s.fib.pend n).isNone)

/-! ### Control flow -/

/-- R82, R88, R286, R288, R234, R237, R354, R43: where a branch sends lanes. Each active lane of BRA and CALL goes to 4 × OFF
from the branch, of BRX and CALLX to its own target, which the permitted-target table at 4 × OFF from the branch must list, of
RET to its v30 with the upper address bits of the RET; every other lane of the split goes behind the branch. CALL and CALLX put
the low half of the address behind into v30 of the active lanes. A BRX or CALLX whose table is malformed, or that has an active
lane with another target, traps with 0x0A. R43, R44, R45: lanes that all go to one place move the split there; lanes that go to
two places divide it, where the slot's table has room and nothing else of the fibre is to fuse: the split becomes the parent of
two, which take the smallest free ids and leave the other splits of the fibre and of the slot as they are, the one at the lower
address issues next, and each lane is in exactly the split of its place. That the child at the lower address issues next is the
model's reading (log entry 23). -/
def Obligations.Branches : Prop :=
  (∀ (s : State) (g : Guard) (h : Hints) (off : Nat), s.inRecipe = false →
     let act := s.active g
     let dest := s.split.pc + BitVec.ofInt 64 (4 * toSigned 24 off)
     let next := s.split.pc + 8
     let stay := groupAt next (s.split.mask &&& ~~~ act)
     let linked := fun (u v : State) => Wrote u v act (.v 30) 32 (fun _ => next.toNat % 2 ^ 32) (fun _ => 0)
     (s.ready (.opds g [] []) = true →
       exec (.bra g h off) s = .next (s.clearMark.branch act id (groupAt dest act ++ stay))) ∧
     (s.ready (.opds g [] [(.v 30, 32)]) = true →
       ∃ pre : State → State, (∀ u : State, u.split.pc = s.split.pc → linked u (pre u)) ∧
         exec (.call g h off) s = .next (s.clearMark.branch act pre (groupAt dest act ++ stay))) ∧
     (∀ (t : Opd) (es : List Nat),
       let target := s.get .arith 64 t
       let bad := (lanesOf act).filter (fun l => !es.contains (target l))
       let groups := (es.map (fun e => groupAt (BitVec.ofNat 64 e) (maskOf ((lanesOf act).filter (fun l => target l == e))))).flatten
       (s.ready (.opds g [(t, 64)] []) = true →
         (s.targetTable dest.toNat = .ok none → exec (.brx g h t off) s = .next (s.clearMark.trap 0x0A act 0 0)) ∧
         (s.targetTable dest.toNat = .ok (some es) →
           (bad ≠ [] → exec (.brx g h t off) s = .next (s.clearMark.trap 0x0A (maskOf bad) 0 0)) ∧
           (bad = [] → exec (.brx g h t off) s = .next (s.clearMark.branch act id (groups ++ stay))))) ∧
       (s.ready (.opds g [(t, 64)] [(.v 30, 32)]) = true →
         (s.targetTable dest.toNat = .ok none → exec (.callx g h t off) s = .next (s.clearMark.trap 0x0A act 0 0)) ∧
         (s.targetTable dest.toNat = .ok (some es) →
           (bad ≠ [] → exec (.callx g h t off) s = .next (s.clearMark.trap 0x0A (maskOf bad) 0 0)) ∧
           (bad = [] → ∃ pre : State → State, (∀ u : State, u.split.pc = s.split.pc → linked u (pre u)) ∧
             exec (.callx g h t off) s = .next (s.clearMark.branch act pre (groups ++ stay)))))) ∧
     (s.ready (.opds g [(.v 30, 32)] []) = true →
       let back := fun l => if act.getLsbD l then s.split.pc.toNat / 2 ^ 32 % 2 ^ 25 * 2 ^ 32 + s.getV 30 1 l % 2 ^ 32 else next.toNat
       ∃ places : List (Word64 × Word32), exec (.ret g h) s = .next (s.clearMark.branch act id places) ∧
         (∀ l, laneIn s.split.mask l = true →
           ∃ q ∈ places, q.1 = BitVec.ofNat 64 (back l) ∧ laneIn q.2 l = true ∧
             ∀ r ∈ places, laneIn r.2 l = true → r = q) ∧
         places.Pairwise (fun a b => a.1.toNat ≤ b.1.toNat))) ∧
  ((∀ (s : State) (act m : Word32) (pre : State → State) (pc : Word64) (rest : List (Word64 × Word32)),
     (∀ q ∈ rest, q.1 = pc) → s.branch act pre ((pc, m) :: rest) = (pre s).goto pc) ∧
   ∀ (s : State) (c : Cur) (act m n : Word32) (a b : Word64) (pre : State → State), s.cur = some c → c.handler = false → a ≠ b →
     s.residents + 2 ≤ 32 → s.fib.spilled = [] → (∀ p ∈ s.dev.fibs, p.1 / 4 = s.warpKey → p.2.spilled = []) →
     (s.nest s.split).step = none → s.fib.tree.length ≤ 30 → Tab.find s.fib.splits c.id = none → Tab.find s.fib.tree c.id = none →
     (∀ p ∈ s.fib.splits, p.2.parent ≠ c.id) →
     (pre s).cur = s.cur → (pre s).dev = s.dev → (pre s).fib.spilled = [] → (pre s).fib.marks = s.fib.marks →
     let held := fun k => k = c.id ∨ (Tab.find s.fib.splits k).isSome = true ∨ (Tab.find s.fib.tree k).isSome = true
     let one : SplitSt := { parent := c.id, pc := a, mask := m, st := .ready, sos := false, last := s.split.last, wait := none }
     let two : SplitSt := { one with pc := b, mask := n }
     let low := decide (b.toNat < a.toNat)
     ∃ (i j : Nat) (splits : Tab SplitSt) (tree : Tab Nat),
       1 ≤ i ∧ i < j ∧ ¬ held i ∧ ¬ held j ∧ (∀ k, 1 ≤ k → k < j → k ≠ i → held k) ∧
       s.branch act pre [(a, m), (b, n)] =
         { pre s with
           cur := some { c with id := if low then j else i }, split := if low then two else one,
           fib := { (pre s).fib with splits := splits, tree := tree } } ∧
       (∀ k, Tab.find splits k = if k = (if low then i else j) then some (if low then one else two) else Tab.find s.fib.splits k) ∧
       ∀ k, Tab.find tree k = if k = c.id then some s.split.parent else Tab.find s.fib.tree k)

/-- R54, R44: where the instruction leaves the split. In an undivided fibre, and in a handler, it moves the split's pc and
readies it, and changes nothing else; an element of a sequence leaves it where it is; wherever it divides or fuses splits,
vector registers, predicates and brackets keep their values, and so do scalar registers and flags while no status waits for the
warp's shadow, to come in where a spilled split's record faults (log entry 28), and memory while no split is spilled. -/
def Obligations.Advance : Prop :=
  ∀ (s : State) (n : Nat),
    (s.inner.isSome = true → s.advance n = s) ∧
    (s.inner = none → s.alone = true →
      s.advance n = { s with split := { s.split with pc := s.split.pc + BitVec.ofNat 64 n, st := .ready, sos := false } }) ∧
    (s.cur.isSome = true →
      (s.advance n).warp.v = s.warp.v ∧ (s.advance n).fib.preds = s.fib.preds ∧ (s.advance n).fib.brk = s.fib.brk ∧
      ((∀ c ∈ s.dev.cmds, c.2.fib / 4 = s.warpKey → c.2.stage ≠ .finished) →
        (s.advance n).fib.s = s.fib.s ∧ (s.advance n).fib.flags = s.fib.flags)) ∧
    (s.fib.spilled = [] → s.dev.fibs.all (fun p => p.2.spilled.isEmpty) = true → (s.advance n).dev = s.dev)

/-- R281 to R283, R178 to R180: an arrival at a BAR, BAR.arrive or FBAR that completes the barrier closes the phase and goes on,
its waiting splits released; one that does not is counted, once for each fibre, and the split waits behind the word, or goes on
where the instruction only arrives. In a handler they trap with 0x48 and 0x49. R282: a barrier that completes makes the splits
of the completing fibre that wait at it ready, and changes no other of them. R283: a BAR whose count differs from its phase's,
or exceeds the workgroup's fibres, traps with 0x48 and does not arrive, and so does an arrival after which the phase would need
more arrivals than fibres are left that have neither exited nor arrived: the phase is closed then, and each fibre that waits at
it freezes with 0x48, its waiting splits back at their BAR, the frame that of one of them, whose TPC is its BAR even under an
SOS (the model's choice, log entry 118). That a waiting split's PC stands behind its BAR or FBAR is the model's reading (log
entry 22). That only an arrival pins the fibre, and what a handler's barrier does, are the model's readings (log entries 41 and
61). -/
def Obligations.Barriers : Prop :=
  (∀ (s : State) (g : Guard), s.ready { Pre.opds g [] [] with pins := true } = true →
     let act := s.active g
     let wait := fun (u : State) (st : SplitState) => { u with split := { u.split with pc := u.split.pc + 8, st := st, sos := false } }
     let pinned := fun (u : State) => ({ u with fib := { u.fib with pinned := true } } : State)
     (∀ (n : Nat) (cnt1 : Option Nat),
       let all := s.wg.nwarps * s.wg.nfibs
       let old := Tab.find s.wg.bars n
       let e := match old, cnt1 with | some p, _ => p.expected | none, some c => c + 1 | none, none => all
       let was := old.getD ⟨0, e, []⟩
       let now : BarPhase := ⟨was.count + 1, e, was.arrived ++ [s.key]⟩
       (s.inHandler = true → exec (.bar g n cnt1) s = .next (s.clearMark.trap 0x48 act 0 n) ∧
         exec (.barArrive g n cnt1) s = .next (s.clearMark.trap 0x48 act 0 n)) ∧
       (s.inHandler = false → (∀ c, cnt1 = some c → c + 1 ≤ all ∧ (old.isSome = true → c + 1 = e)) →
         (s.key ∈ was.arrived →
           exec (.bar g n cnt1) s = .next (wait s.clearMark (.barWait n act)) ∧
           exec (.barArrive g n cnt1) s = .next (s.clearMark.advance 8)) ∧
         (s.key ∉ was.arrived → s.unreachable now = false →
           let open_ : State := pinned { s.clearMark with wg := { s.wg with bars := Tab.put s.wg.bars n now } }
           let done := (pinned { s.clearMark with wg := { s.wg with bars := Tab.del s.wg.bars n } }).releaseAll now.arrived (3, n)
           if now.count = e then exec (.bar g n cnt1) s = .next done ∧ exec (.barArrive g n cnt1) s = .next done
           else exec (.bar g n cnt1) s = .next (wait open_ (.barWait n act)) ∧
             exec (.barArrive g n cnt1) s = .next (open_.advance 8)) ∧
         (s.key ∉ was.arrived → s.unreachable now = true →
           let closed := (if old.isSome then s.clearMark.closeBar n else s.clearMark).trap 0x48 act 0 n
           exec (.bar g n cnt1) s = .next closed ∧ exec (.barArrive g n cnt1) s = .next closed)) ∧
       (s.inHandler = false → (∃ c, cnt1 = some c ∧ (all < c + 1 ∨ (old.isSome = true ∧ c + 1 ≠ e))) →
         exec (.bar g n cnt1) s = .next (s.clearMark.trap 0x48 act 0 n) ∧
         exec (.barArrive g n cnt1) s = .next (s.clearMark.trap 0x48 act 0 n))) ∧
     ∀ m : Nat,
       let old := Tab.get 0 s.warp.fbars m
       let arr := old ||| 2 ^ s.fibNo
       let t := if bitAt old s.fibNo then s.clearMark else pinned s.clearMark
       (s.inHandler = true ∨ s.fbarMisuse m = true → exec (.fbar g m) s = .next (s.clearMark.trap 0x49 act 0 m)) ∧
       (s.inHandler = false → s.fbarMisuse m = false →
         exec (.fbar g m) s = .next (
           if arr = m then
             ({ t with warp := { s.warp with fbars := Tab.del s.warp.fbars m } } : State).releaseAll (s.maskKeys m) (4, m)
           else wait { t with warp := { s.warp with fbars := Tab.put s.warp.fbars m arr } } (.fbarWait m act)))) ∧
  (∀ (s : State) (keys : List Nat) (c : Nat × Nat),
     (s.key ∈ keys → ∀ i x, Tab.find s.fib.splits i = some x →
       Tab.find (s.release keys c).fib.splits i = some (if 3 ≤ x.st.code.1 ∧ x.st.code = c then { x with st := .ready } else x)) ∧
     (s.fib.spilled = [] → s.dev.fibs.all (fun p => p.2.spilled.isEmpty) = true →
       s.releaseAll keys c = (s.release keys c).advance 8)) ∧
  (∀ (s : State) (p : BarPhase), s.unreachable p = true ↔
     (s.wgFibs.countP (fun q => !q.2.exited && !p.arrived.contains q.1)) < p.expected - p.count) ∧
  ∀ (s : State) (n k : Nat) (f : Fib), (s.closeBar n).wg.bars = Tab.del s.wg.bars n ∧
     (Tab.find s.dev.fibs k = some f → k / 256 = s.wgKey → (s.warpAt (k / 4)).isSome = true → f.trapped = none → f.inService = false →
      (∃ p ∈ f.splits, p.2.st.code = (3, n)) →
      ∃ f', Tab.find (s.closeBar n).dev.fibs k = some f' ∧ f'.frozen = true ∧
        (∃ p ∈ f.splits, p.2.st.code = (3, n) ∧
          f'.frame = TrapIn.frame ⟨0x48, p.2.st.waitLanes, 0, n, p.2.pc - 8, p.1, p.2.parent⟩) ∧
        f'.splits = f.splits.map (fun p => (p.1,
          if p.2.st.code = (3, n) then { p.2 with st := .ready, pc := p.2.pc - 8 } else p.2)))

/-- R42, R302: EXIT of some lanes takes them off the split, which goes on; the exit of a fibre's last lanes leaves nothing
issuing and the fibre exited. R44: a split whose last lanes exit leaves the table while the fibre has others, which go on: with
nothing to fuse or rename they stay as they are, and where one child is left of a parent it takes the parent's id and place. An
EXIT in a handler traps with 0x02. R91: SOS governs the word behind it and is no point at which the split rests. R214, R215,
R216: a PPT records the rewind point of an undivided fibre and clears its dirty record; in a divided fibre or a handler it does
nothing. -/
def Obligations.ExitSosPpt : Prop :=
  (∀ (s : State) (g : Guard), s.ready (.opds g [] []) = true →
    let rest := s.split.mask &&& ~~~ s.active g
    (s.inHandler = true → exec (.exit g) s = .next (s.trap 0x02 s.split.mask 0 0)) ∧
    (s.inHandler = false →
      (rest ≠ 0 → exec (.exit g) s = .next (({ s.clearMark with split := { s.split with mask := rest } } : State).advance 8)) ∧
      (rest = 0 → s.lastSplit = true →
        ∃ u : State, exec (.exit g) s = .next u ∧ u.cur = none ∧
          (Tab.find u.dev.fibs s.key).map (·.exited) = some true) ∧
      (rest = 0 → s.lastSplit = false → s.fib.spilled = [] → s.dev.fibs.all (fun p => p.2.spilled.isEmpty) = true → s.fib.marks = [] →
        ∃ (u : State) (f : Fib), exec (.exit g) s = .next u ∧ u.cur = none ∧ Tab.find u.dev.fibs s.key = some f ∧
          f.exited = s.fib.exited ∧ ((s.fib.nest 64).step = none → f.splits = s.fib.splits ∧ f.tree = s.fib.tree) ∧
          ∀ (j p q : Nat) (y : SplitSt), s.fib.splits = [(j, y)] → s.fib.tree = [(p, q)] → y.parent = p → p ≠ q →
            f.splits = [(p, { y with parent := q })] ∧ f.tree = []))) ∧
  (∀ s : State, s.ready (.opds ⟨false, 7⟩ [] []) = true →
    exec .sos s = .next { s.clearMark with split := { s.split with pc := s.split.pc + 8, sos := true, st := .ready } }) ∧
  ∀ (s : State) (vmask smask roff tcnt tlo : Nat), s.inRecipe = false → s.ready (.opds ⟨false, 7⟩ [] []) = true →
    let i := Instr.ppt vmask smask roff tcnt tlo
    let r : Rewind := ⟨s.split.pc, vmask, smask, roff, tcnt, tlo, s.splitId, s.split.mask, s.fib.preds⟩
    (s.inHandler = true ∨ s.lastSplit = false → exec i s = .next (s.clearMark.advance i.bytes)) ∧
    (s.inHandler = false → s.lastSplit = true → s.fib.stop = none → s.warp.retries.find? (fun x => x.fib == s.fibNo) = none →
      exec i s = .next (({ s.clearMark with
        fib := { s.clearMark.fib with rewind := some r, wroteV := 0, wroteS := 0, wroteB := false, pinned := false },
        warp := { s.warp with shWrote := Tab.set 0 s.warp.shWrote s.fibNo 0 } } : State).advance i.bytes))

/-! ### Special registers, traps -/

/-- R64 to R67, R199, R323, R361, R362: GETSR writes the register's value in each active lane; SETSR writes FLAGS of the active
lanes from their own values, and every other register from the lowest active lane's, where LWBASE and LWSIZE keep their rules; a
value that breaks them traps with 0x02 (R68). R64: what every number reads, and what each write leaves: the frame's registers
their bits, TQSTAT as its write (R207), SFQW and COLLW a weight between 1 and the entry's. That the limits of R66 act on the low
8 bits is the model's choice (log entry 103), and so is that QUANTUM reads 0 while another sharer has the turn (log entry 114).
R5, R64, R65: at level U, GETSR of TQSTAT and SETSR of LWBASE, LWSIZE and TQSTAT trap with 0x06 in every lane of the split,
whatever the guard; a GETSR of a number that is no register, and a SETSR of one that no level writes, traps with 0x02. -/
def Obligations.SpecialRegisters : Prop :=
  ((∀ (s : State) (g : Guard) (b64 : Bool) (d : Opd) (n : Nat),
     let w := if b64 then 64 else 32
     srNamed n = true → (srPerLane n && isScalarDest d) = false → (n = 0x048 → s.fib.priv ≠ .u) →
     s.ready (.opds g [] [(d, w)]) = true →
     ∃ u : State, exec (.getsr g b64 d n) s = .next (u.advance (Instr.getsr g b64 d n).bytes) ∧
       Wrote s.clearMark u (s.active g) d w (fun l => s.readSr n l % 2 ^ w) (fun _ => 0)) ∧
   (∀ (s : State) (l : Nat),
     s.readSr 0x000 l = l ∧ s.readSr 0x001 l = s.fibNo ∧ s.readSr 0x010 l = s.wg.contract ∧ s.readSr 0x021 l = 5 ∧
     s.readSr 0x030 l = (s.getFlags l).toNat ∧ s.readSr 0x031 l = s.fib.trapen.toNat ∧
     s.readSr 0x032 l = s.fib.frame.tcause.toNat ∧ s.readSr 0x033 l = s.fib.frame.tpc.toNat ∧
     s.readSr 0x034 l = s.fib.frame.tmask.toNat ∧ s.readSr 0x035 l = s.fib.frame.taddr.toNat ∧
     s.readSr 0x036 l = s.fib.frame.tinfo.toNat ∧ s.readSr 0x037 l = s.fib.frame.tsplit.toNat ∧
     s.readSr 0x040 l = s.fib.lwbase.toNat ∧ s.readSr 0x041 l = s.fib.lwsize.toNat ∧ s.readSr 0x059 l = s.dev.cycles.toNat ∧
     s.readSr 0x002 l = s.key / 4 % 64 ∧ s.readSr 0x003 l = s.wg.x ∧ s.readSr 0x004 l = s.wg.y ∧ s.readSr 0x005 l = s.wg.z ∧
     (∀ k y, s.wg.launch = some k → Tab.find s.dev.launches k = some y →
       s.readSr 0x006 l = y.gx ∧ s.readSr 0x007 l = y.gy ∧ s.readSr 0x008 l = y.gz) ∧
     s.readSr 0x009 l = s.wg.slice ∧ s.readSr 0x00A l = s.wg.core ∧
     (∀ n, n < 16 → let r := s.dev.flash.contracts.getD n 0;
       s.readSr (0x011 + n) l = if r.testBit 31 then r / 2 ^ 26 % 4 else 0) ∧
     (∀ i j, i < 6 → j < 8 → s.readSr (0x022 + i) l / 256 ^ j % 256 =
       ((digestBytes (sha384 ((List.range 2048).map (Tab.get 0 s.core.table) ++ (List.range 8192).map (Tab.get 0 s.core.store)))).getD
         (8 * i + j) 0).toNat) ∧
     (let x := s.dev.slice s.wg.slice;
       s.readSr 0x048 l = (if x.drop then 2 ^ 63 else 0) + (if x.overwrote then 2 ^ 62 else 0) + (if x.full then 2 ^ 61 else 0) +
         x.base * 2 ^ 16 + x.tail * 2 ^ 8 + x.head) ∧
     (∀ q, Tab.find s.dev.parts s.wg.part = some q → s.readSr 0x050 l = q.sfqw ∧ s.readSr 0x051 l = q.collw) ∧
     ((∀ t ∈ s.dev.turns, t.2.part ≠ s.wg.part) → s.readSr 0x058 l = 0) ∧
     ∀ k t, s.dev.turns = [(k, t)] → t.part = s.wg.part → s.readSr 0x058 l = t.ends - s.dev.cycles.toNat) ∧
   (∀ (s : State) (g : Guard) (b64 : Bool) (b : Opd),
     let w := if b64 then 64 else 32
     s.ready (.opds g [(b, w)] []) = true →
     (∃ u : State, exec (.setsr g b64 0x030 b) s = .next (u.advance (Instr.setsr g b64 0x030 b).bytes) ∧
       (∀ l, u.getFlags l = if laneIn (s.active g) l then BitVec.ofNat 8 (s.get .logic w b l) else s.getFlags l) ∧
       { u with fib := { u.fib with flags := [] } } = { s.clearMark with fib := { s.clearMark.fib with flags := [] } }) ∧
     ∀ n, n ≠ 0x030 → srWritten n = true → (n = 0x040 ∨ n = 0x041 ∨ n = 0x048 → s.fib.priv ≠ .u) →
       let x := s.get .logic w b (lowest (s.active g))
       let size := x % 2 ^ 33
       let breaks := (n = 0x040 ∧ x % 2 ^ 16 ≠ 0) ∨ (n = 0x041 ∧ (size % 2 ^ 12 ≠ 0 ∨ size < 2 ^ 12 ∨ 2 ^ 32 < size))
       (breaks → exec (.setsr g b64 n b) s = .next (s.clearMark.trap 0x02 s.split.mask 0 0)) ∧
       (¬ breaks → exec (.setsr g b64 n b) s = .next ((s.clearMark.writeSr n x).advance (Instr.setsr g b64 n b).bytes))) ∧
   ∀ (s : State) (x : Nat),
     let framed := fun (f : Frame) => { s with fib := { s.fib with frame := f } }
     let fr := s.fib.frame
     let bits := fun n : Nat => (BitVec.ofNat 64 (x % 2 ^ n) : Word64)
     s.writeSr 0x031 x = { s with fib := { s.fib with trapen := BitVec.ofNat 8 x } } ∧
     s.writeSr 0x032 x = framed { fr with tcause := bits 7 } ∧ s.writeSr 0x033 x = framed { fr with tpc := bits 57 } ∧
     s.writeSr 0x034 x = framed { fr with tmask := bits 32 } ∧
     s.writeSr 0x035 x = framed { fr with taddr := BitVec.ofNat 64 (x % 2 ^ 57 / 2 ^ 5 * 2 ^ 5) } ∧
     s.writeSr 0x036 x = framed { fr with tinfo := BitVec.ofNat 64 x } ∧ s.writeSr 0x037 x = framed { fr with tsplit := bits 12 } ∧
     (s.cur = none → s.wg.slice < 12 → x < 2 ^ 64 → exec (.tqstatWrite s.wg.slice x) s = .next (s.writeSr 0x048 x)) ∧
     (∀ q, Tab.find s.dev.parts s.wg.part = some q →
       let weight := fun most : Nat => min (max (x % 2 ^ 8) 1) most
       let with_ := fun (p : Part) => { s with dev := { s.dev with parts := Tab.put s.dev.parts s.wg.part p } }
       s.writeSr 0x050 x = with_ { q with sfqw := weight q.entry.sfqw } ∧
       s.writeSr 0x051 x = with_ { q with collw := weight q.entry.collw }) ∧
     s.writeSr 0x040 x = { s with fib := { s.fib with lwbase := BitVec.ofNat 64 (x % 2 ^ 57) } } ∧
     s.writeSr 0x041 x = { s with fib := { s.fib with lwsize := BitVec.ofNat 64 (x % 2 ^ 33) } }) ∧
  (∀ (s : State) (g : Guard) (b64 : Bool) (o : Opd) (n : Nat), s.cur.isSome = true →
     let w := if b64 then 64 else 32
     (srNamed n = false → exec (.getsr g b64 o n) s = .next (s.trap 0x02 s.split.mask 0 0)) ∧
     (srWritten n = false → exec (.setsr g b64 n o) s = .next (s.trap 0x02 s.split.mask 0 0)) ∧
     (s.fib.priv = .u →
       (s.windowsOk (.opds g [] [(o, w)]) = true → exec (.getsr g b64 o 0x048) s = .next (s.trap 0x06 s.split.mask 0 0)) ∧
       (s.windowsOk (.opds g [(o, w)] []) = true → n = 0x040 ∨ n = 0x041 ∨ n = 0x048 →
         exec (.setsr g b64 n o) s = .next (s.trap 0x06 s.split.mask 0 0))))

/-- R192, R196, R197, R199, R200, R202, R375: TRAP, outside a handler and with a handler address: the frame takes cause 0x5E,
the word's address, the active lanes, no address, the immediate and the split's names; the split stays at the word; the handler
split starts at the handler's address in the lowest active lane. Without a handler address the launch's fatal record waits
instead and the fibre is in service. R204: a trap in a handler, of whatever cause that has no record of its own, leaves the
frame as it was and ends in the fatal record of cause 0x5C that names both causes and the first trap's address. R197, R142: a
page that is not present leaves registers as they were, writes the frame outside a handler, and freezes the fibre until the
fault service answers the replayable record. That recipe code, whose pinning events raise 0x02 (R223), raises it for such a page
too is the model's reading (log entry 74). -/
def Obligations.TakingATrap : Prop :=
  (∀ (s : State) (g : Guard) (imm : Nat), s.ready (.opds g [] []) = true → s.inHandler = false → s.inner = none →
     let act := s.active g
     let target := ((s.wg.launch.bind (Tab.find s.dev.launches)).map (·.desc.handler)).getD 0
     let fr : Frame :=
       { tcause := 0x5E, tpc := BitVec.ofNat 64 (s.tpc.toNat % 2 ^ 57), tmask := BitVec.ofNat 64 act.toNat, taddr := 0,
         tinfo := BitVec.ofNat 64 imm, tsplit := BitVec.ofNat 64 (s.splitId + 64 * s.split.parent) }
     let split := { s.split with pc := s.tpc, st := .ready, sos := false }
     (target ≠ 0 → exec (.trap g imm) s = .next { s.clearMark with
       split := split,
       fib := { s.clearMark.fib with
         frame := fr, trapped := some ⟨0x5E, s.tpc, s.splitId⟩,
         handler := some { parent := 63, pc := target, mask := laneBit (lowest act), st := .ready, sos := false, last := 0, wait := none } } }) ∧
     (target = 0 → ∃ r : Rec, exec (.trap g imm) s = .next { s.clearMark with
         split := split, fib := { s.clearMark.fib with frame := fr, inService := true },
         dev := s.dev.setSlice s.wg.slice
           { s.dev.slice s.wg.slice with waiting := (s.dev.slice s.wg.slice).waiting ++ [r] } } ∧
       r.data.kind = 2 ∧ r.data.cause = 0x5E ∧ r.data.pc = s.tpc.toNat % 2 ^ 57 ∧ r.data.mask = act.toNat ∧ r.data.info = imm ∧
       r.fibs = [s.key] ∧ r.launch = s.wg.launch)) ∧
  ((∀ (s : State) (cause : Nat) (lanes : Word32) (addr info : Nat) (first : TrapSt), s.inHandler = true →
     routeOf cause ≠ .record → s.fib.trapped = some first →
     ∃ r : Rec, (s.trap cause lanes addr info).fib = { s.fib with inService := true } ∧
       (s.trap cause lanes addr info).dev = s.dev.setSlice s.wg.slice
         { s.dev.slice s.wg.slice with waiting := (s.dev.slice s.wg.slice).waiting ++ [r] } ∧
       r.data.kind = 2 ∧ r.data.cause = 0x5C ∧
       r.data.info = cause + first.cause * 2 ^ 32 + first.tpc.toNat % 2 ^ 25 * 2 ^ 39) ∧
   (∀ (s : State) (lanes : Word32) (addr info : Nat), s.inRecipe = true →
     s.trap 0x10 lanes addr info = s.trap 0x02 s.split.mask 0 0) ∧
   ∀ (s : State) (lanes : Word32) (addr info : Nat), s.inHandler = false → s.inRecipe = false → s.inner = none →
     let u := s.trap 0x10 lanes addr info
     u.warp = s.warp ∧ u.fib = { s.fib with
       inService := true, pinned := true,
       frame := { tcause := 0x10, tpc := BitVec.ofNat 64 (s.tpc.toNat % 2 ^ 57), tmask := BitVec.ofNat 64 lanes.toNat,
                  taddr := BitVec.ofNat 64 (addr % 2 ^ 57 / 32 * 32), tinfo := BitVec.ofNat 64 info,
                  tsplit := BitVec.ofNat 64 (s.splitId + 64 * s.split.parent) } } ∧
     u.split = { s.split with pc := s.tpc, st := .ready, sos := false })

/-- R191, R201, R194, R355, R370: TFENCE traps on the lowest enabled flag of any active lane, naming the lanes that hold an
enabled flag, and passes when there is none; RFT ends the handler and the trapped split goes on at TPC, RFT.skip behind the word
at TPC, and the mark of an interrupted INV stays with the split only where RFT returns to that INV (R186); neither stands
outside a handler. That the slot goes on with the trapped split is the model's reading (log entry 24). -/
def Obligations.FenceAndReturn : Prop :=
  (∀ (s : State) (g : Guard), s.ready (.opds g [] []) = true →
    let m := fun l => (s.getFlags l &&& s.fib.trapen).toNat
    let ls := (lanesOf (s.active g)).filter (fun l => m l != 0)
    (ls = [] → exec (.tfence g) s = .next (s.clearMark.advance (Instr.tfence g).bytes)) ∧
    (ls ≠ [] → ∃ i all, i < 8 ∧ (∃ l ∈ ls, (m l).testBit i = true) ∧ (∀ l ∈ ls, ∀ j, j < i → (m l).testBit j = false) ∧
      (∀ j, all.testBit j = ls.any (fun l => (m l).testBit j)) ∧
      exec (.tfence g) s = .next (s.clearMark.trap (0x28 + i) (maskOf ls) 0 all))) ∧
  ∀ (s : State) (c : Cur) (t : TrapSt) (x : SplitSt),
    s.ready (.opds ⟨false, 7⟩ [] []) = true → s.cur = some c →
    (c.handler = false → exec .rft s = .next (s.trap 0x02 s.split.mask 0 0) ∧ exec .rftSkip s = .next (s.trap 0x02 s.split.mask 0 0)) ∧
    (c.handler = true → s.fib.trapped = some t → Tab.find s.fib.splits t.id = some x →
      let back := fun (pc : Nat) (keep : Option Word64) => ({ s.clearMark with
        cur := some { c with id := t.id, handler := false }, split := { x with pc := BitVec.ofNat 64 pc, st := .ready, sos := false },
        fib := { s.clearMark.fib with
          splits := Tab.del s.fib.splits t.id, trapped := none, handler := none,
          marks := s.clearMark.fib.marks.filter (fun m => m.id != t.id || keep == some m.addr) },
        inner := none } : State)
      let to_ := s.fib.frame.tpc
      exec .rft s = .next ((back to_.toNat (some to_)).arrive (back to_.toNat (some to_)).split) ∧
      exec .rftSkip s = .next ((back (s.skipFrom to_.toNat) none).arrive (back (s.skipFrom to_.toNat) none).split))

/-! ### Brackets, INV, replacement -/

/-- R183, R189, R190: BSET opens a bracket register in the active lanes with the two ends given and nothing evaluated; BGET
writes the field that its selector names. R181, R184, R185: an evaluation of INV at a midpoint leaves the lane done, or its
bracket not wider than the larger half, one more evaluation counted and fewer than the cap made. The key of every number is the
key of its own unkey. -/
def Obligations.BracketsAndHalving : Prop :=
  ((∀ (s : State) (g : Guard) (n : Nat) (a b : Opd), s.ready (.opds g [(a, 32), (b, 32)] []) = true →
     ∃ u : State, exec (.bset g n a b) s = .next (u.advance (Instr.bset g n a b).bytes) ∧
       (∀ k l, l < 32 → u.getB k l = if k = n ∧ laneIn (s.active g) l then
         ⟨BitVec.ofNat 32 (s.get .arith 32 a l), BitVec.ofNat 32 (s.get .arith 32 b l), 0, 0, 0⟩ else s.getB k l) ∧
       { u with fib := { u.fib with brk := [], wroteB := true } } =
         { s.clearMark with fib := { s.clearMark.fib with brk := [], wroteB := true } }) ∧
   ∀ (s : State) (g : Guard) (sel : BrkSel) (d : Opd) (n : Nat), s.ready (.opds g [] [(d, 32)]) = true →
     ∃ u : State, exec (.bget g sel d n) s = .next (u.advance (Instr.bget g sel d n).bytes) ∧
       Wrote s.clearMark u (s.active g) d 32 (fun l =>
         let b := s.getB n l
         (match sel with
           | .lo => b.lo | .hi => b.hi | .ylo => b.ylo | .yhi => b.yhi | .st => b.st | .rsv _ => 0).toNat) (fun _ => 0)) ∧
  ((∀ (p : InvPlan) (b : Bracket) (ev t y : Nat), 2 ≤ ev → b.count + 1 < 256 →
     let lo := keyOf p.f32 b.lo.toNat
     let hi := keyOf p.f32 b.hi.toNat
     let r := p.take b ev t y
     lo ≤ hi → r.result = none →
       let lo' := keyOf p.f32 r.b.lo.toNat
       let hi' := keyOf p.f32 r.b.hi.toNat
       lo ≤ lo' ∧ lo' ≤ hi' ∧ hi' ≤ hi ∧ 2 * (hi' - lo') ≤ hi - lo + 1 ∧ r.b.count = b.count + 1 ∧ r.b.count < p.cap) ∧
   ∀ (f32 : Bool) (k : Int), -2 ^ 31 < k → k < 2 ^ 31 → keyOf f32 (unkey f32 k) = k)

/-- R181, R182, R185, R186: an INV whose body is legal starts in the active lanes: where every lane's bracket is improper it is
over at once, with the failing result and IV in each lane, and the split goes behind the body; otherwise it evaluates, and the
state is that of its evaluations from the first on. A body that is not legal traps with its cause. That the evaluations run in
one step is the model's choice (log entry 21). -/
def Obligations.Inverse : Prop :=
  ∀ (s : State) (o : InvArgs) (x t d : Nat), o.x = .v x → o.t = .v t → o.d = .v d → s.fib.marks = [] → s.inner = none →
    let len := (Instr.inv o).bytes
    let p : InvPlan := ⟨invUp o.kind, invF32 o.kind, o.tol, o.cap1 + 1⟩
    s.ready (.opds o.g [(o.t, 32)] [(o.d, 32), (o.x, 32)]) = true →
    (∀ e, s.readBody [o.x, o.t, o.d] (o.nlen1 + 1) 0 (s.split.pc.toNat + len) = .error e →
      exec (.inv o) s = .next (s.trap e.cause s.lanes e.addr e.info)) ∧
    ∀ (body : List (Nat × Nat × Instr)) (behind : Nat),
      s.readBody [o.x, o.t, o.d] (o.nlen1 + 1) 0 (s.split.pc.toNat + len) = .ok (body, behind) →
      let act := s.active o.g
      let start := fun l => p.start (s.getB o.brk l) (s.get .arith 32 o.t l)
      let y := ((body.getLast?).bind (fun b => bodyDest b.2.2)).elim .zero (·.1)
      let stop := if s.dev.evals = 0 then invFuel else s.dev.evals
      ∃ u : State, exec (.inv o) s = .next (State.invRun s o p body behind y invFuel stop 0
          ((lanesOf act).filter (fun l => (start l).result.isNone)) u) ∧
        (∀ k l, l < 32 → u.getB k l = if k = o.brk ∧ laneIn act l then (start l).b else s.getB k l) ∧
        (∀ l, u.getFlags l = if laneIn act l then s.getFlags l ||| BitVec.ofNat 8 (start l).flags else s.getFlags l) ∧
        u.dev = s.dev ∧ u.split = s.split ∧
        ((∀ l, laneIn act l = true → keyOf p.f32 (s.getB o.brk l).hi.toNat < keyOf p.f32 (s.getB o.brk l).lo.toNat) →
          exec (.inv o) s = .next (u.goto (BitVec.ofNat 64 behind)) ∧
          ∀ l, laneIn act l = true → u.getV d 1 l = if p.f32 then 0x7FC00000 else 0x80000000)

/-- R94, R97, R98: XIMM and XFLD, in a substitute sequence, write the intercepted word's immediate, as its class and TYPE read
it, and a field of its bits; a destination that names no vector register, even pair, scalar register or zero traps with 0x07 in
every lane of the split; anywhere else they trap with 0x01. A word that entry e intercepts runs e's elements, holes filled from
the word's fields, in the lanes in which its guard is true, and where none traps or has to wait the split goes on behind that
one word. A sequence of one MOV between vector registers completes where that MOV would in those lanes, with its result. That
the sequence runs in the guarded lanes is the model's reading (log entry 13), the scratch registers start as free values (log
entry 1), which class reads an immediate how is its reading (log entry 68), what XIMM writes for a word that carries none is its
choice (log entry 119), how wide XIMM and XFLD write is its choice (log entry 69), and so is what a field of XFLD that reaches
past the end of the word takes from behind it (log entry 89). -/
def Obligations.Replacement : Prop :=
  (∀ (s : State) (i : Inner) (g : Guard) (d : Opd) (pos len1 : Nat), s.inner = some i → i.body = false → s.cur.isSome = true →
    let w := immW i.word
    let wf := if len1 < 32 then 32 else 64
    (Opd.dstOk true w d = false → exec (.ximm g d) s = .next (s.trap 0x07 s.split.mask 0 0)) ∧
    (Opd.dstOk true w d = true → s.ready (.opds g [] [(d, w)]) = true →
      ∃ u : State, exec (.ximm g d) s = .next (u.advance (Instr.ximm g d).bytes) ∧
        Wrote s.clearMark u (s.active g) d w (fun _ => immOf i.word) (fun _ => 0)) ∧
    (Opd.dstOk true wf d = false → exec (.xfld g d pos len1) s = .next (s.trap 0x07 s.split.mask 0 0)) ∧
    (Opd.dstOk true wf d = true → s.ready (.opds g [] [(d, wf)]) = true →
      ∃ u : State, exec (.xfld g d pos len1) s = .next (u.advance (Instr.xfld g d pos len1).bytes) ∧
        Wrote s.clearMark u (s.active g) d wf (fun _ => i.word / 2 ^ pos % 2 ^ (len1 + 1)) (fun _ => 0))) ∧
  (∀ (s : State) (g : Guard) (d : Opd) (pos len1 : Nat), s.cur.isSome = true → s.inner = none →
    exec (.ximm g d) s = .next (s.trap 0x01 s.split.mask 0 0) ∧ exec (.xfld g d pos len1) s = .next (s.trap 0x01 s.split.mask 0 0)) ∧
  ∀ (s : State) (e w : Nat) (xs : List Instr),
    s.fetchAt s.split.pc.toNat = .word w → s.matchWord w = some e → s.inner = none →
    s.core.elements e (imageNat s.core.table 1 (32 * e + 0x12)) 0 = some xs →
    s.ready (.opds ⟨false, 7⟩ [] []) = true →
    let i : Inner := ⟨false, s.tpc, s.split.pc, s.active (.ofCode (w / 2 ^ 12 % 2 ^ 4)), false, [], 0, 0, w,
      freshScratch s.dev.freeCount, s.dev.freeCount, []⟩
    let u := ({ s.clearMark with dev := { s.dev with freeCount := s.dev.freeCount + 1 } } : State).runInner i
      (xs.zipIdx.map (fun p => (p.2, s.split.pc.toNat, Instr.mapOpd (Opd.fill w) (fillNum w) p.1)))
    (∀ j, u.inner = some j → j.hit = false →
      exec (.substituteSequence e) s = .next (({ u with inner := none } : State).advance (lenBytes (w % 4)))) ∧
    ∀ (ty : Ty) (d a : Nat), xs = [.mov ⟨⟨false, 7⟩, ty, .v d, .v a⟩] → xs.all (fun x => x.wellFormed true) = true →
      s.ready (.opds (.ofCode (w / 2 ^ 12 % 2 ^ 4)) [(.v a, ty.w)] [(.v d, ty.w)]) = true →
      ∃ v : State, exec (.substituteSequence e) s = .next (v.advance (lenBytes (w % 4))) ∧
        Wrote { s.clearMark with dev := { s.dev with freeCount := s.dev.freeCount + 1 } } v
          (s.active (.ofCode (w / 2 ^ 12 % 2 ^ 4))) (.v d) ty.w (fun l => ty.place (s.get .arith ty.w (.v a) l)) (fun _ => 0)

/-! ### The device's own steps -/

/-- R23, R171, R173, R219, R295: a ready copy-engine command takes a free engine, or that of a CPYQ of a workgroup being saved
which is to be carried (log entry 50); a running one ends with the status that its transfer meets, its data moved when it meets
none; CPYQ appends an entry at a time to a queue that has room, waits for no page then (R142), and ends when none is left. -/
def Obligations.CopyEngines : Prop :=
  ∀ (s : State) (c : Nat) (k : Cmd), s.cur = none → Tab.find s.dev.cmds c = some k →
    (s.dev.canDispatch c = true →
      exec (.engineDispatch c) s = .next (s.onDev (fun d => (d.freeEngine k.part).updCmd c (fun k => { k with stage := .running }))) ∧
      ((s.dev.copies k.part .running).length < s.dev.engines k.part → s.dev.freeEngine k.part = s.dev) ∧
      (s.dev.engines k.part ≤ (s.dev.copies k.part .running).length → ∃ x ∈ s.dev.yielding k.part,
        s.dev.freeEngine k.part = s.dev.updCmd x.1 (fun k => { k with stage := .waiting }))) ∧
    (k.stage = .running → k.kind.isCopy = true → (∀ h n a, k.kind ≠ .entries h n a) →
      (∀ m : Moved, s.transfer k = .ok m →
        exec (.engineCommandComplete c) s = .next (m.state.onDev (fun d => d.finish c m.stamp m.code))) ∧
      (∀ st, s.transfer k = .status st → exec (.engineCommandComplete c) s = .next (s.onDev (fun d => d.complete c st)))) ∧
    ∀ h left addr, k.stage = .running → k.kind = .entries h left addr →
      (left = 0 → exec (.engineCommandComplete c) s = .next (s.onDev (fun d => d.complete c (if k.stamp then 0x16 else 0)))) ∧
      ∀ (w : Wg) (t : Tile) (ps : List Phys), 0 < left → Tab.find s.dev.wgs k.wg = some w → Tab.find w.tiles h = some t →
        placeOk (512 * left) [addr] = true → t.queue.length < t.rows →
        s.dev.engineRange k.space .load 512 addr = .ok ps → s.dev.lostBytes addr ps = [] →
        exec (.cpyqAppend c) s = .next ((s.putTile k.wg h { t with queue := t.queue ++ [s.dev.gather ps] }).onDev (fun d =>
          d.updCmd c (fun k => { k with
            kind := .entries h (left - 1) (addr + 512), stamp := k.stamp || stampDiffers k.contract ps, asked := none, askedRoot := 0 })))

/-- R12, R172, R173: a command of a placed workgroup that ends is gone, and its token register holds the status and is pending
no more, unless another command has marked it since; R220: while its workgroup is saved out it keeps its status instead; that it
does so too while the queue to its warp's shadow is full is the model's choice (log entry 28). R295: a copy into a tile leaves
every byte of the rectangle as the byte of memory it comes from and every other byte of the tile as it was; memory is not
changed. R295, R296, R381: which rows CPY, CPYG and WLOAD move: row i from or to address + i × pitch, from address + idx[i] ×
pitch under an index list of 32-bit words, and from address + i × rowbytes for a whole handle. A copy to memory leaves each byte
that a row names as the tile's byte of the last such row, and every other byte as it was; one between tiles takes every byte
from the source as it was before. R301, R164, R165: DICT gives each named block its dictionary, of the size named, where the
core's 512 units suffice, and else takes the named blocks' away with 0x40; the bytes of the tile stay. That it ends so, without
room, before it reads its source is the model's choice (log entry 104), and so is how memory holds a byte (log entry 79). -/
def Obligations.CommandEnds : Prop :=
  (∀ (d : Dev) (c st : Nat) (k : Cmd), Tab.find d.cmds c = some k → k.stage ≠ .finished → k.stage = .carried ∨ d.queueRoom k.fib = false →
     d.complete c st = d.updCmd c (fun k => { k with stage := .finished, status := st })) ∧
  (∀ (d : Dev) (c st : Nat) (k : Cmd) (f : Fib), Tab.find d.cmds c = some k → k.stage ≠ .carried → k.stage ≠ .finished →
     d.queueRoom k.fib = true → Tab.find d.fibs k.fib = some f →
     Tab.find (d.complete c st).cmds c = none ∧
     ∃ f', Tab.find (d.complete c st).fibs k.fib = some f' ∧
       (Tab.find f.pend k.tok = some c →
         Tab.get 0 f'.s k.tok = BitVec.ofNat 64 st ∧ Tab.find f'.pend k.tok = none ∧
         ∀ n, n ≠ k.tok → Tab.get 0 f'.s n = Tab.get 0 f.s n ∧ Tab.find f'.pend n = Tab.find f.pend n) ∧
       (Tab.find f.pend k.tok ≠ some c → f'.s = f.s ∧ f'.pend = f.pend)) ∧
  (∀ (s : State) (k : Cmd) (h row col rb : Nat) (addrs : List Nat) (w : Wg) (t : Tile) (rows : List (List Phys)),
     Tab.find s.dev.wgs k.wg = some w → Tab.find w.tiles h = some t →
     s.dev.engineRows k.space .load rb addrs = (rows, .ok ()) →
     ∃ m : Moved, s.moveIn k h row col rb addrs = .ok m ∧ m.state.dev.mem = s.dev.mem ∧
       ∃ w' t', Tab.find m.state.dev.wgs k.wg = some w' ∧ Tab.find w'.tiles h = some t' ∧
         ∀ r b, rowBytes (t'.row r) b 1 =
           if row ≤ r ∧ r < row + rows.length ∧ col ≤ b ∧ b < col + rb then
             (match ((rows.getD (r - row) [])[b - col]?) with | some p => (s.dev.readByte p).toNat | none => 0)
           else rowBytes (t.row r) b 1) ∧
  ((∀ (s : State) (k : Cmd) (h row col rows rb pitch addr : Nat),
     let as_ := (List.range rows).map (fun i => addr + i * pitch)
     let placed := ∀ a ∈ as_, a % 16 = 0 ∧ a + rb ≤ 2 ^ 57
     (k.kind = .toTile h row col rows rb pitch addr → (placed → s.transfer k = s.moveIn k h row col rb as_) ∧
       (¬ placed → s.transfer k = .status 0x38)) ∧
     (k.kind = .toMem h row col rows rb pitch addr → (placed → s.transfer k = s.moveOut k h row col rb as_) ∧
       (¬ placed → s.transfer k = .status 0x38)) ∧
     (∀ (idx : Nat) (ps : List Phys) (m : Moved), k.kind = .gather h row col rows rb pitch addr idx →
       addr % 16 = 0 → idx % 16 = 0 → idx + 4 * rows ≤ 2 ^ 57 →
       s.dev.engineRange k.space .load (4 * rows) idx = .ok ps → s.dev.lostBytes idx ps = [] →
       let bs := (List.range rows).map (fun i => addr + s.dev.gather ps / 2 ^ (32 * i) % 2 ^ 32 * pitch)
       (∀ a ∈ bs, a % 16 = 0 ∧ a + rb ≤ 2 ^ 57) → s.moveIn k h row col rb bs = .ok m →
       s.transfer k = .ok { m with stamp := m.stamp || stampDiffers k.contract ps }) ∧
     ∀ (w : Wg) (t : Tile), k.kind = .weights h addr → Tab.find s.dev.wgs k.wg = some w → Tab.find w.tiles h = some t →
       s.transfer k = if addr % 16 = 0 then s.moveIn k h 0 0 t.rb ((List.range t.rows).map (fun i => addr + i * t.rb)) else .status 0x38) ∧
   (∀ (s : State) (k : Cmd) (h row col rb : Nat) (addrs : List Nat) (w : Wg) (t : Tile) (rows : List (List Phys)),
     Tab.find s.dev.wgs k.wg = some w → Tab.find w.tiles h = some t →
     s.dev.engineRows k.space .store rb addrs = (rows, .ok ()) →
     ∃ m : Moved, s.moveOut k h row col rb addrs = .ok m ∧ m.state.dev.wgs = s.dev.wgs ∧ (t.poison = [] → m.status = 0) ∧
       (∀ a, (∀ ps ∈ rows, ∀ p ∈ ps, p.pa ≠ a) → m.state.dev.mem.read a = s.dev.mem.read a) ∧
       ∀ a, s.dev.inKeys a = false → (∃ ps ∈ rows, ∃ p ∈ ps, p.pa = a) →
         ∃ i j p, (rows.getD i [])[j]? = some p ∧ p.pa = a ∧ (∀ i', i < i' → ∀ q ∈ rows.getD i' [], q.pa ≠ a) ∧
           m.state.dev.mem.read a ^^^ s.dev.blank a = BitVec.ofNat 8 (t.row (row + i) / 2 ^ (8 * (col + j)))) ∧
   (∀ (s : State) (k : Cmd) (hd rowd cold hs rows2 cols2 rows rb : Nat) (w : Wg) (x y : Tile),
     Tab.find s.dev.wgs k.wg = some w → Tab.find w.tiles hd = some x → Tab.find w.tiles hs = some y →
     k.kind = .tiles hd rowd cold hs rows2 cols2 rows rb →
     ∃ m : Moved, s.transfer k = .ok m ∧ m.state.dev.mem = s.dev.mem ∧ (y.poison = [] → m.status = 0) ∧
       ∃ w' x', Tab.find m.state.dev.wgs k.wg = some w' ∧ Tab.find w'.tiles hd = some x' ∧
         ∀ r b, rowBytes (x'.row r) b 1 =
           if rowd ≤ r ∧ r < rowd + rows ∧ cold ≤ b ∧ b < cold + rb then rowBytes (y.row (rows2 + (r - rowd))) (cols2 + (b - cold)) 1
           else rowBytes (x.row r) b 1) ∧
   ∀ (s : State) (k : Cmd) (h : Nat) (p6 : Bool) (cb n addr : Nat) (w : Wg) (t : Tile),
     Tab.find s.dev.wgs k.wg = some w → Tab.find w.tiles h = some t → k.kind = .dict h p6 cb n addr → addr % 16 = 0 →
     let named := fun b => decide (cb ≤ b ∧ b < cb + n)
     let sz := if p6 then 128 else 32
     let room := s.dev.unitsOn w.slice w.core k.wg h named + n * (sz / 32) ≤ 512
     let gives := fun (m : Moved) (f : Nat → Option (Bool × Nat)) => s.transfer k = .ok m ∧
       ∃ w' t', Tab.find m.state.dev.wgs k.wg = some w' ∧ Tab.find w'.tiles h = some t' ∧ t'.data = t.data ∧
         ∀ b, Tab.find t'.dicts b = if named b then f b else Tab.find t.dicts b
     (¬ room → ∃ m, gives m (fun _ => none) ∧ m.status = 0x40) ∧
     ∀ rows, room → s.dev.engineRows k.space .load sz ((List.range n).map (fun i => addr + i * sz)) = (rows, .ok ()) →
       (∀ ps ∈ rows, s.dev.lostBytes 0 ps = []) → ∃ m, gives m (fun b => some (p6, s.dev.gather (rows.getD (b - cb) []))) ∧ m.status = 0)

/-- R55, R56, R175 to R177, R293: the distributor copies the 128 bytes of a LAUNCH into the ring of the queue and moves its
tail, and answers WGTAKE with the next workgroup's coordinates, or a top bit when none is left; a collective that nothing holds
back starts, or ends with the status of the check it fails, and a started one ends with its result or with the status that it or
another member found as it ran, and with FLAGS.STAMP where its source pages hold a foreign stamp (R129). R175: nothing holds it
back when every earlier collective of its communicator has ended, where of COLLs with no order between their issues the one
issued first counts as the earlier (the model's choice, log entry 108). R293: the checks in their order. R175, R131: what the
destination receives, in every byte that it names, and no other byte changes: the reduction over the ranks of each element, its
chunk, the ranks' data one after another, or the root's; and the reduction itself: the wrapped sum, the least or the greatest of
integers, and for floats the contract's sum in rank order or the fold of FMIN or FMAX, whose first value taken with itself is
the model's reading (log entry 9). That a COLL reads its whole source before it writes, and sets FLAGS.STAMP whatever its
status, is its reading too (log entry 87), how memory holds a byte its choice (log entry 79), and that every member of a .bcast
reads its own source its choice as well (log entry 130). -/
def Obligations.DistributorAndCollectives : Prop :=
  (∀ (s : State) (c : Nat) (k : Cmd), s.cur = none → Tab.find s.dev.cmds c = some k →
    (∀ (addr q : Nat) (x : QDesc) (ps qs : List Phys), k.kind = .enqueue addr q → s.dev.cmdReady k = true → k.stage ≠ .finished → q < 256 →
      s.dev.queueDesc q = some (k.part, x) → addr % 128 = 0 → s.dev.engineRange k.space .load 128 addr = .ok ps →
      s.dev.lostBytes addr ps = [] → (s.dev.queue q).waiting ≠ 2 ^ x.log2n →
      s.dev.engineRange (queueSpace k.part x) .store 128 (x.base + (s.dev.queue q).tail % 2 ^ x.log2n * 128) = .ok qs →
      exec (.launchTokenComplete c) s = .next ((s.store qs (s.dev.gather ps) false).onDev (fun d =>
        (d.setQueue q { s.dev.queue q with tail := ((s.dev.queue q).tail + 1) % 2 ^ 32 }).complete c 0))) ∧
    (∀ (l : Nat) (x : Launch), k.kind = .take → s.dev.cmdReady k = true → s.dev.queueRoom k.fib = true → k.launch = some l →
      Tab.find s.dev.launches l = some x →
      ∃ u : State, exec (.wgtakeAnswer c) s = .next u ∧ Tab.find u.dev.cmds c = none ∧ u.dev.mem = s.dev.mem ∧
        (x.nextWg < x.total → ∃ y, Tab.find u.dev.launches l = some y ∧ y.nextWg = x.nextWg + 1 ∧ y.finished = x.finished + 1) ∧
        ∀ f, Tab.find s.dev.fibs k.fib = some f → Tab.find f.pend k.tok = some c → Tab.find f.pend (k.tok + 1) = some c →
          ∃ f', Tab.find u.dev.fibs k.fib = some f' ∧
            Tab.get 0 f'.s k.tok = BitVec.ofNat 64 (if x.nextWg < x.total
              then x.nextWg % x.gx + 2 ^ 32 * (x.nextWg / x.gx % x.gy) else 0) ∧
            Tab.get 0 f'.s (k.tok + 1) = BitVec.ofNat 64 (if x.nextWg < x.total then x.nextWg / (x.gx * x.gy) else 2 ^ 63)) ∧
    ∀ (op : CollOp) (red : CollRed) (ty : Ty) (id src dst count root w : Nat) (cond : Option (Nat × Nat)), k.stage ≠ .finished →
      let st := s.dev.collCheck k.part op ty id src dst count root cond
      (k.kind = .coll op red ty id src dst count root cond false w → s.dev.cmdReady k = true →
        s.dev.collBehind c k.part id = false →
        (st ≠ 0 → exec (.collStartPoll c) s = .next (s.onDev (fun d => d.complete c st))) ∧
        (st = 0 → s.dev.condMet k cond = .ok true → exec (.collStartPoll c) s = .next (s.onDev (fun d => d.updCmd c (fun k =>
          { k with kind := .coll op red ty id src dst count root cond true w, asked := none, askedRoot := 0,
                   stage := if k.stage = .waiting then .running else k.stage }))))) ∧
      ∀ peers, k.kind = .coll op red ty id src dst count root cond true w →
        (∀ bad, (0x38 ≤ bad ∧ bad ≤ 0x3D) ∨ (0x41 ≤ bad ∧ bad ≤ 0x45) → bad ≠ 0x3C →
          exec (.collComplete c peers bad) s = .next (s.onDev (fun d =>
            d.finish c (stampDiffers k.contract (s.dev.reach k.space .load (count * (ty.w / 8)) src)) bad))) ∧
        ∀ bad, bad = 0 ∨ bad = 0x16 ∨ bad = 0x3C →
          exec (.collComplete c peers bad) s = .next (s.finishColl c k op red ty id src dst count root peers bad)) ∧
  ((∀ (d : Dev) (c p id : Nat), d.collBehind c p id = true ↔ ∃ n k, (n, k) ∈ d.cmds ∧ n < c ∧ k.part = p ∧ k.stage ≠ .finished ∧
     ∃ op red ty src dst count root cond started w, k.kind = .coll op red ty id src dst count root cond started w) ∧
   (∀ (d : Dev) (p : Nat) (op : CollOp) (ty : Ty) (id src dst count root : Nat) (cond : Option (Nat × Nat)),
     let st := d.collCheck p op ty id src dst count root cond
     let out := fun n : Nat => if op = .redscat then count / n else if op = .allgat then count * n else count
     if src % 16 ≠ 0 ∨ dst % 16 ≠ 0 ∨ (∃ x, cond = some x ∧ x.1 % 8 ≠ 0) then st = 0x38
     else if count = 0 then st = 0x41
     else match Tab.find d.comms (id * 16 + p) with
       | none => st = 0x42
       | some m =>
         if m.status = 0x44 then st = 0x44
         else if m.status ≠ 0 then st = 0x42
         else if (op = .redscat ∧ count % m.nranks ≠ 0) ∨ (op = .bcast ∧ m.nranks ≤ root) ∨
             (src ≠ dst ∧ dst < src + count * (ty.w / 8) ∧ src < dst + out m.nranks * (ty.w / 8)) ∨
             (src = dst ∧ (op = .redscat ∨ op = .allgat)) then st = 0x41
         else st = 0) ∧
   (∀ (rec : Nat) (red : CollRed) (ty : Ty) (xs : List Nat), xs ≠ [] →
     let v := collReduce rec red ty xs
     (ty.isInt = true →
       (red = .add → v = xs.sum % 2 ^ ty.w) ∧
       (red = .max → v ∈ xs ∧ ∀ x ∈ xs, ty.intVal x ≤ ty.intVal v) ∧ (red = .min → v ∈ xs ∧ ∀ x ∈ xs, ty.intVal v ≤ ty.intVal x)) ∧
     (ty.isInt = false →
       (red = .add → v = (contractSum rec ty.fmt (xs.map (ty.operand rec)) (.fin true 0 0)).1) ∧
       (red = .max ∨ red = .min → ∃ x rest, xs = x :: rest ∧
         let f := fun a b => (fp2 ty rec .rne (fminmax (red == .max)) a b).1
         v = rest.foldl f (f x x)))) ∧
   ∀ (s : State) (c : Nat) (k : Cmd) (op : CollOp) (red : CollRed) (ty : Ty) (id src dst count root : Nat)
     (peers : List (Nat × List Nat)) (m : Comm) (ps qs : List Phys) (x : Nat → Nat),
     ty ∈ [.f32, .f64, .f16, .bf16, .s32, .u32] → Tab.find s.dev.comms (id * 16 + k.part) = some m → m.rank < m.nranks →
     (op = .bcast → root < m.nranks) →
     let w := ty.w
     let each := count / m.nranks
     let nd := (if op = .redscat then each else if op = .allgat then count * m.nranks else count)
     s.dev.engineRange k.space .load (count * (w / 8)) src = .ok ps → s.dev.engineRange k.space .store (nd * (w / 8)) dst = .ok qs →
     x m.rank = s.dev.gather ps →
     (∀ r, r < m.nranks → r ≠ m.rank →
       peers.find? (fun p => p.1 == r) = some (r, (leBytes (count * (w / 8)) (x r)).map BitVec.toNat)) →
     let el := fun r i => x r / 2 ^ (w * i) % 2 ^ w
     let over_ := fun i => collReduce (s.dev.flash.contracts.getD m.contract 0) red ty ((List.range m.nranks).map (fun r => el r i))
     let out := fun j => match op with
       | .allred => over_ j
       | .redscat => over_ (m.rank * each + j)
       | .allgat => el (j / count) (j % count)
       | .bcast => el root j
     let u := s.finishColl c k op red ty id src dst count root peers 0
     (∀ a, (∀ q ∈ qs, q.pa ≠ a) → u.dev.mem.read a = s.dev.mem.read a) ∧
     ∀ a, s.dev.inKeys a = false → (∃ q ∈ qs, q.pa = a) →
       ∃ j q, qs[j]? = some q ∧ q.pa = a ∧
         u.dev.mem.read a ^^^ s.dev.blank a = BitVec.ofNat 8 (out (j / (w / 8)) / 2 ^ (8 * (j % (w / 8)))))

/-- R50, R154, R206: the oldest load of a fibre returns and its registers wait no more; where a sector is lost, the lanes whose
bytes lie there are poisoned. A parked split wakes when its timeout has lapsed, not before, and at any time of the device's
choice. That a returning load changes no register, its data being those at the issue, is the model's choice (log entry 20). -/
def Obligations.WaitsEnd : Prop :=
  (∀ (s : State) (f : Nat) (lost : Option Nat) (w : Warp) (early late : List Outstanding) (o : Outstanding), s.cur = none →
    Tab.find s.dev.warps (f / 4) = some w → w.out = early ++ o :: late → o.fib = f % 4 → (∀ x ∈ early, x.fib ≠ f % 4) →
    ∃ (u : State) (w' : Warp), exec (.loadDataReturn f lost) s = .next u ∧ Tab.find u.dev.warps (f / 4) = some w' ∧
      w'.out = early ++ late ∧ w'.v = w.v ∧ u.dev.mem = s.dev.mem ∧
      (lost = none → s.dev.bad = [] → o.marked = [] → w'.poison = w.poison) ∧
      ∀ x l va pa, lost = some x → (∀ y ∈ o.marked, y.2 ≠ 0) → (l, va, pa) ∈ o.bytes → pa / 32 = x →
        ∀ p ∈ o.v, Tab.get 0 w'.poison (p * 32 + l) ≠ 0) ∧
  ∀ (s : State) (f sp : Nat) (fb : Fib) (x : SplitSt) (k : Park), s.cur = none → Tab.find s.dev.fibs f = some fb → sp ≠ 64 →
    Tab.find fb.splits sp = some x → x.st = .parked k →
    let woken := fun (i : Instr) => ∃ (u : State) (fb' : Fib), exec i s = .next u ∧ Tab.find u.dev.fibs f = some fb' ∧
      Tab.find fb'.splits sp = some { x with st := .woken (some k) } ∧ fb'.s = fb.s ∧ u.dev.mem = s.dev.mem
    (k.deadline ≤ s.dev.cycles.toNat → woken (.waitaTimeout f sp)) ∧
    (s.dev.cycles.toNat < k.deadline → exec (.waitaTimeout f sp) s = .next s) ∧ woken (.spuriousWake f sp)

/-- R45, R48, R49, R50: the choice of the split that issues next. A slot's current split keeps it while it is a candidate, has
not yielded and no other has been passed over too long; of splits passed over too long the one that has waited longest issues; a
slot issuable for 16 cycles is chosen by its own step, and an overdue held split by its own when its slot has its turn; a
current split stalled without SOS keeps its slot for 1,024 cycles. R47, R46: a long spilled split swaps with an idle one, and
one returns where an entry is free. R225, R226: a shadow that trails has a slot of its own that is offered too, and issues the
oldest instruction by which it trails, with the registers behind it; one that its leading warp issues is added behind the
others, with an entry for what it received; what leaves the warp waits for the shadow, and what receives a value for room among
64 entries. The exact opportunity of the bound is the model's reading (log entry 31), and so is how a shadow trails (log entry
28). -/
def Obligations.SlotChoices : Prop :=
  (∀ (d : Dev) (w : Nat) (wp : Warp) (f id : Nat) (fb : Fib) (x : SplitSt), f < 4 → wp.cur = some (f, id, false) →
    wp.pass = false → Tab.find d.fibs (w * 4 + f) = some fb → (id, false, x) ∈ fb.candidates →
    (∀ c ∈ d.claims w wp.opps, c.due wp.opps (d.claims w wp.opps) = false) → d.slotChoice w wp = some (f, id, false)) ∧
  (∀ (d : Dev) (w : Nat) (wp : Warp), (∃ c ∈ d.claims w wp.opps, c.due wp.opps (d.claims w wp.opps) = true) → wp.cur = none →
    ∃ c ∈ d.claims w wp.opps, d.slotChoice w wp = some c.pick ∧
      ∀ x ∈ d.claims w wp.opps, x.held = false ∨ x.due wp.opps (d.claims w wp.opps) = true → c.since ≤ x.since) ∧
  (∀ (s : State) (pick : Option (Nat × Nat)),
    let t := s.flush.refresh
    (t.dev.choose (pick.map (·.1)) = none →
      exec (.slotSelect pick) s = .next (t.onDev (fun d => { d.noteIssuable none with chosen := false }))) ∧
    ∀ x, t.dev.choose (pick.map (·.1)) = some x → exec (.slotSelect pick) s = .next (t.issueFrom x ((pick.map (·.2)).getD 0))) ∧
  (∀ (s : State) (w : Nat),
    let t := s.flush.refresh
    let due := fun x : ReadySlot => x.w = w ∧ x.since ≠ 0 ∧ x.since + 15 ≤ t.dev.cycles.toNat ∧
      ∀ y ∈ t.dev.issuable, y.place.subKey = x.place.subKey → y.since ≠ 0 → x.since ≤ y.since
    ((∃ x ∈ t.dev.issuable, due x) → ∃ x ∈ t.dev.issuable, due x ∧ exec (.slotAgeExpiry w) s = .next (t.issueFrom x 0)) ∧
    ((∀ x ∈ t.dev.issuable, ¬ due x) → exec (.slotAgeExpiry w) s = .next s)) ∧
  (∀ (s : State) (x : ReadySlot) (evals : Nat),
    (x.shadow = false → s.issueFrom x evals = (s.onDev (fun d => d.noteIssuable (some (x.w, false)))).chooseSplit x.w x.pick evals) ∧
    (x.shadow = true → s.issueFrom x evals = s.onDev (fun d => { (d.noteIssuable (some (x.w, true))).shadowIssue x.w with
      chosen := false, lastSub := x.place.subKey, lastSlot := Tab.put d.lastSlot x.place.subKey (x.place.slot + 1) }))) ∧
  (∀ (d : Dev) (w : Nat) (wp : Warp) (h : Shadow) (p : Nat × Nat) (x : ShadowStep) (rest : List ShadowStep),
    wp.shadow = some h → wp.place.shadow = some p → h.trail = x :: rest →
    ((w, wp) ∈ d.warps → ∃ y ∈ d.issuable, y.w = w ∧ y.shadow = true ∧ y.place = { wp.place with slot := p.1 }) ∧
    (Tab.find d.warps w = some wp → (∀ c ∈ d.cmds, c.2.fib / 4 ≠ w) →
      Tab.find (d.shadowIssue w).warps w =
        some { wp with shadow := some { h with v := x.v, fibs := Tab.put h.fibs x.fib x.after, trail := rest } })) ∧
  (∀ (s : State) (c : Cur) (i : Instr) (h : Shadow), s.cur = some c → s.warp.shadow = some h →
    (s.split.held = false → (State.passOn (some c) i s).warp.trail = s.warp.trail ++
      [⟨s.fibNo, (s.fib.putBack c s.split).shadowed, s.warp.v,
        if receivesValues i = true ∧ s.fib.inService = false ∧ (s.fib.trapped = none ∨ c.handler = true) then 1 else 0⟩]) ∧
    (s.guarded = true → leavesWarp i = true → h.trail ≠ [] → s.shadowWait i = some (.shadow s.warpKey false)) ∧
    (s.guarded = true → receivesValues i = true → leavesWarp i = false → 64 ≤ (h.trail.map (·.entries)).sum →
      s.shadowWait i = some (.shadow s.warpKey true))) ∧
  (∀ (s : State) (f sp : Nat), s.flush.refresh.dev.overdue f sp = true → s.flush.refresh.dev.slotTurn (f / 4) = true →
    exec (.heldSplitOverdue f sp) s =
      .next ((s.flush.refresh.onDev (fun d => d.noteIssuable (some (f / 4, false)))).chooseSplit (f / 4) (f % 4, sp, false) 0)) ∧
  (∀ (s : State) (ds : List Dep) (c : Nat) (r : Option (Option Park)), s.cur.isSome = true → s.split.st = .stalled false ds c r →
    exec .stallRelease s = .next (
      if c + 1024 ≤ s.dev.cycles.toNat then { s with warp := { s.warp with pass := true } } else s)) ∧
  ∀ (s : State) (w : Nat) (wp : Warp) (g : Wg), s.cur = none →
    Tab.find s.dev.warps w = some wp → Tab.find s.dev.wgs (w / 64) = some g →
    (∀ (k i n : Nat) (f : Fib) (x : SplitSt), s.dev.longSpilled w wp = some n → s.dev.idleResident w wp = some (k, i, x) →
      Tab.find s.dev.fibs k = some f → exec (.spillSwap w) s = .next ((s.spillOut k i x g wp f).fillOne w)) ∧
    (s.dev.longSpilled w wp = none → exec (.spillSwap w) s = .next (s.fillMany w 32))

/-- R30, R33 to R35, R385: the distributor reads the record at the head of a queue and moves the head; a record that passes
every check becomes a launch with the record's fields and nothing placed; one that does not leaves its completion word with the
status of the first check that fails. R8, R31, R41, R58, R68, R235: a fibre at its first instruction: one split with every lane
at the entry point, the arguments in the scalar registers from s0 on and zero in the others, no predicate but p7, no flag and no
trap enabled; v31 of each window that reaches it holds the stack pointer and every other vector register zero; the shadow of a
guarded warp has the same vector registers and does not trail (R225). When the record is read is the model's reading (log entry
45). -/
def Obligations.LaunchAndFirstInstruction : Prop :=
  (∀ (s : State) (q p v : Nat) (x : QDesc), s.cur = none → s.dev.queueDesc q = some (p, x) → s.dev.headReady q = true →
     let pos := (s.dev.queue q).head
     let r := launchRec v
     let sp := queueSpace p x
     s.dev.isCancelled p q pos = false → s.dev.readVirtual sp 128 (x.base + pos % 2 ^ x.log2n * 128) = some v →
     ∃ u : State, exec (.launchHeadCheck q) s = .next u ∧ (u.dev.queue q).head = (pos + 1) % 2 ^ 32 ∧
       (u.dev.queue q).tail = (s.dev.queue q).tail ∧
       (∀ e, s.dev.checkLaunch p sp r = .ok e → u.dev.mem = s.dev.mem ∧
         (u.dev.queue q).last = some s.dev.nextId ∧
         ∃ l, Tab.find u.dev.launches s.dev.nextId = some l ∧ l.desc = e ∧ l.queue = q ∧ l.pos = pos ∧ l.part = p ∧
           l.gx = r.gx ∧ l.gy = r.gy ∧ l.gz = r.gz ∧ l.warps = r.warps ∧ l.args = r.args ∧ l.done = r.done ∧ l.dep = r.dep ∧
           l.depval = r.depval ∧ l.nextWg = 0 ∧ l.finished = 0 ∧ l.cap = ((s.dev.entry p).map (·.pcap)).getD 0 ∧
           l.prio = min x.prio l.cap ∧ l.status = 0 ∧ l.ending = false) ∧
       ∀ st ps, s.dev.checkLaunch p sp r = .error st → r.done ≠ 0 → r.done % 8 = 0 →
         s.dev.translateRange sp .store 8 r.done = .ok ps →
         u.dev.mem = (s.dev.scatter ps (2 ^ 63 + st)).mem ∧ (u.dev.queue q).last = none) ∧
  ((∀ (x : Desc) (args : List Word64) (f base : Nat),
     let fb := Fib.atEntry x args f base
     fb.splits = [(0, ⟨63, x.entry.getD f 0, BitVec.allOnes 32, .ready, false, 0, none, none⟩)] ∧
     (∀ i, Tab.get 0 fb.s i = args.getD i 0) ∧ (∀ n, fb.pred n = if n = 7 then BitVec.allOnes 32 else 0) ∧ fb.flags = [] ∧
     fb.trapen = 0 ∧ fb.frame = ⟨0, 0, 0, 0, 0, 0⟩ ∧ fb.lwbase = BitVec.ofNat 64 base ∧ fb.lwsize = BitVec.ofNat 64 x.lwsize ∧
     fb.priv = .u) ∧
   ∀ (x : Desc) (args : List Word64) (p : Place), (Warp.atEntry x args p).trails = false ∧
     (Warp.atEntry x args p).shadow.map (·.v) = p.shadow.map (fun _ => (Warp.atEntry x args p).v) ∧
     ∀ r l, l < 32 → (Warp.atEntry x args p).reg r l =
       if ∃ f, f < x.p.length ∧ 32 ≤ x.p.getD f 0 ∧ r = (x.p.take f).sum + 31 then BitVec.ofNat 32 (x.lwsize / 32 - 16) else 0)

/-- R32, R35 to R38, R40, R41, R74, R76, R156, R302: the distributor's other steps. A dependence word that is reached makes its
launch eligible; a workgroup goes to a core that fits it, and with its first a launch may be promised that all of its workgroups
go before another's; a launch passed over rises one level; a waiting workgroup, of a launch or saved out, has a core reserved,
or one changed to its configuration, while no other launch is promised to go first (the model's choice, log entry 120) and no
core stands in it already (log entry 115); a workgroup whose fibres have all exited, with no command and no trailing shadow
left, is freed and counted; an ended launch leaves the device with its completion word written. That a dependence stays met,
what the promise passes over, and which core is taken of equals, are the model's readings (log entries 71, 72, 73). That the
2,500,000 cycles of R37 count from when the launch becomes eligible (log entry 100), that the round robin begins with the lowest
queue number (log entry 113), and that a release waits for a trailing shadow (log entry 28), are its choices. -/
def Obligations.DistributorSteps : Prop :=
  ∀ (s : State) (l : Nat) (x : Launch), s.cur = none → Tab.find s.dev.launches l = some x →
    let now := s.dev.cycles.toNat
    (x.depMet = false → s.dev.depHolds x = true → exec (.dependenceReread l) s = .next (s.onDev (fun d =>
      d.updLaunch l (fun k => { k with depMet := true, waitFrom := now, fitFrom := none })))) ∧
    (∀ sl c ps bs, s.dev.mayPlace l sl c = true → s.dev.fits x sl c = some (ps, bs) →
      exec (.workgroupPlace l sl c) s = .next (s.onDev (fun d =>
        ({ d with nextId := d.nextId + 1 }.place l x d.nextId sl c ps bs).updLaunch l (fun k =>
          { k with hold := x.hold || s.dev.promised l x sl c })))) ∧
    (s.dev.promotes x = true → exec (.priorityPromotion l) s = .next (s.onDev (fun d =>
      d.updLaunch l (fun k => { k with prio := k.prio + 1, waitFrom := now, higher := none })))) ∧
    (∀ g c, s.dev.coreToReserve l x = some (g, c) → exec (.coreReservation l) s = .next (s.onDev (fun d =>
      match g with
      | none => d.updLaunch l (fun k => { k with reserved := some c })
      | some g => { d with saved := d.saved.upd g (fun k => { k with reserved := some c }) })) ∧
      ∀ y ∈ s.dev.coresOf x.part, (s.dev.core y.1 y.2).config = x.desc.config → s.dev.keptFrom none none y.1 y.2 = false →
        (∀ k v, g = some k → (k, v) ∈ s.dev.saved → v.left ≠ some y) → s.dev.groupsLacked x c.1 c.2 ≤ s.dev.groupsLacked x y.1 y.2) ∧
    (∀ g c, s.dev.coreToChange l x = some (g, c) → exec (.coreStoreChange l) s = .next (s.onDev (fun d =>
      let e : Dev := match g with
        | none => d.updLaunch l (fun k => { k with reserved := some c })
        | some g => { d with saved := d.saved.upd g (fun k => { k with reserved := some c }) }
      if d.warpsOn c.1 c.2 = 0 ∧ d.heldBack l x.part = false then e.setCore c.1 c.2 { e.core c.1 c.2 with config := x.desc.config }
      else e))) ∧
    (∀ (w : Nat) (g : Wg), Tab.find s.dev.wgs w = some g → g.launch = some l →
      (∀ p ∈ s.dev.fibs, p.1 / 256 = w → p.2.exited = true) → (∀ k ∈ s.dev.cmds, k.2.wg ≠ w) →
      (∀ p ∈ s.dev.warps, p.1 / 64 = w → p.2.trails = false) →
      exec (.workgroupRelease w) s = .next (s.onDev (fun d =>
        (d.dropWg w).updLaunch l (fun k => { k with finished := k.finished + 1 })))) ∧
    (x.total ≤ x.nextWg → x.total ≤ x.finished → (∀ k ∈ s.dev.cmds, k.2.launch ≠ some l) → s.dev.wgsOf l = [] →
      x.answer = false → ∃ u : State, exec (.completionWordWrite l) s = .next u ∧ Tab.find u.dev.launches l = none ∧
        ∀ ps, x.done ≠ 0 → x.done % 8 = 0 → s.dev.translateRange ⟨x.part, x.s1root, .u⟩ .store 8 x.done = .ok ps →
          u.dev.mem = (s.dev.scatter ps (2 ^ 63 + x.status)).mem)

/-- R197, R205, R207 to R211: the trap queue. A waiting fault becomes the record at TAIL, every field of it in memory (R208),
with SEQ one higher and VALID, and TAIL moves, while two records are free; a write of TQSTAT clears DROP and OVER by ones and
takes BASE while the queue is empty; ACT 1 in RESP makes the record's fibres run again; ACT 2 gives the recorded fibre a trap to
its handler with the reflected cause and the frame it has, or ends the engine commands that asked for the page, and the joined
ones run again; ACT 3 makes the record fatal and ends its launch, and joined fibres of others run again; a handler for which a
save has waited 1,000,000 cycles ends in the fatal record 0x4B, whatever the handler waits for itself. R213: a fatal record that
is written ends its launch, whose workgroups leave the device and whose completion word will carry 0x07 for 0x5D and else 0x06.
The model's readings and choices: that ACT 3 leaves KIND in the ring at 2, and that a record of an engine has no recorded fibre
(log entry 26); that a HEAD past TAIL is ignored alone (log entry 40); how memory holds a byte (log entry 79). -/
def Obligations.TrapQueue : Prop :=
  (∀ (s : State) (sl : Nat) (r : Rec) (rest : List Rec), s.cur = none →
    let x := s.dev.slice sl
    x.waiting = r :: rest → 2 ≤ x.free → r.data.kind ≠ 2 →
    ∃ u : State, exec (.trapQueueRecordWrite sl) s = .next u ∧
      (u.dev.slice sl).tail = (x.tail + 1) % 256 ∧ (u.dev.slice sl).seq = x.seq + 1 ∧ (u.dev.slice sl).waiting = rest ∧
      Tab.find (u.dev.slice sl).live x.tail = some r ∧
      let d := r.data
      let fields : List (Nat × Nat × Nat) :=
        [(0x00, 8, d.pc), (0x08, 8, d.addr), (0x10, 8, d.info), (0x18, 4, d.mask), (0x1C, 2, d.split), (0x1E, 1, d.cause), (0x1F, 1, d.kind),
         (0x20, 4, d.loc), (0x24, 2, r.joined.length), (0x26, 2, 0), (0x28, 8, d.lid), (0x30, 8, 0), (0x38, 8, 2 ^ 63 + (x.seq + 1) % 2 ^ 63)]
      ∀ q ∈ fields, ∀ j, j < q.2.1 →
        let a := x.recordAt x.tail + q.1 + j
        s.dev.inKeys a = false → u.dev.mem.read a ^^^ s.dev.blank a = BitVec.ofNat 8 (q.2.2 / 256 ^ j)) ∧
  (∀ (s : State) (sl l : Nat) (r : Rec) (rest : List Rec) (y : Launch), s.cur = none → (s.dev.slice sl).waiting = r :: rest →
    2 ≤ (s.dev.slice sl).free → r.data.kind = 2 → r.launch = some l → Tab.find s.dev.launches l = some y →
    ∃ (u : State) (y' : Launch), exec (.trapQueueRecordWrite sl) s = .next u ∧ u.dev.wgsOf l = [] ∧
      Tab.find u.dev.launches l = some y' ∧ y'.ending = true ∧ y'.nextWg = y.gx * y.gy * y.gz ∧ y'.finished = y.gx * y.gy * y.gz ∧
      y'.status = if y.ending then y.status else if r.data.cause = 0x5D then 0x07 else 0x06) ∧
  (∀ (s : State) (sl v : Nat), s.cur = none → sl < 12 → v < 2 ^ 64 → (s.dev.slice sl).head < 256 →
    let x := s.dev.slice sl
    ∃ u : State, exec (.tqstatWrite sl v) s = .next u ∧
      (u.dev.slice sl).drop = (x.drop && !v.testBit 63) ∧ (u.dev.slice sl).overwrote = (x.overwrote && !v.testBit 62) ∧
      (u.dev.slice sl).base = (if x.used = 0 then v / 2 ^ 16 % 2 ^ 41 else x.base) ∧
      (u.dev.slice sl).head = (if (v + 256 - x.head) % 256 ≤ x.used then v % 256 else x.head) ∧
      u.dev.mem = s.dev.mem) ∧
  (∀ (s : State) (sl i v : Nat) (r : Rec), s.cur = none → Tab.find (s.dev.slice sl).live i = some r → r.data.kind = 1 →
    r.answered = false → v < 2 ^ 64 → v % 4 = 1 →
    ∃ u : State, exec (.respWrite sl i v) s = .next u ∧
      Tab.find (u.dev.slice sl).live i = some { r with answered := true } ∧
      ∀ k ∈ r.fibs, ∀ f, Tab.find s.dev.fibs k = some f → ∃ f', Tab.find u.dev.fibs k = some f' ∧ f'.inService = false ∧ f'.s = f.s) ∧
  (∀ (s : State) (sl i v k : Nat) (r : Rec) (f : Fib) (g : Wg) (w : Warp) (l : Nat) (y : Launch), s.cur = none →
    Tab.find (s.dev.slice sl).live i = some r → r.data.kind = 1 → r.answered = false → v < 2 ^ 64 → v % 4 = 2 →
    r.fibre = some k → k ∉ r.joined → Tab.find s.dev.fibs k = some f → f.handler = none → Tab.find s.dev.wgs (k / 256) = some g →
    Tab.find s.dev.warps (k / 4) = some w → g.launch = some l → Tab.find s.dev.launches l = some y → y.desc.handler ≠ 0 →
    ∃ (u : State) (f' : Fib), exec (.respWrite sl i v) s = .next u ∧
      Tab.find (u.dev.slice sl).live i = some { r with answered := true } ∧ Tab.find u.dev.fibs k = some f' ∧
      f'.inService = false ∧ f'.s = f.s ∧ f'.frame.tcause = BitVec.ofNat 64 (v / 2 ^ 8 % 2 ^ 7) ∧ f'.frame.tinfo = f.frame.tinfo ∧
      f'.trapped.map (·.cause) = some (v / 2 ^ 8 % 2 ^ 7) ∧
      (let m := laneBit (lowest (f.frame.tmask.setWidth 32))
       f'.handler = some { parent := 63, pc := y.desc.handler, mask := m, st := .ready, sos := false, last := 0, wait := none }) ∧
      ∀ j ∈ r.joined, ∀ e, Tab.find s.dev.fibs j = some e → ∃ e', Tab.find u.dev.fibs j = some e' ∧ e'.inService = false ∧ e'.s = e.s) ∧
  (∀ (s : State) (sl i v : Nat) (r : Rec), s.cur = none → Tab.find (s.dev.slice sl).live i = some r → r.data.kind = 1 →
    r.answered = false → v < 2 ^ 64 → v % 4 = 2 → r.fibre = none → r.data.cause = 0x10 →
    ∃ u : State, exec (.respWrite sl i v) s = .next u ∧ Tab.find (u.dev.slice sl).live i = some { r with answered := true } ∧
      (∀ c k, Tab.find s.dev.cmds c = some k → k.part = r.data.part → k.asked = some r.data.addr → k.stage ≠ .carried →
        k.stage ≠ .finished → (∀ x, Tab.find s.dev.warps (k.fib / 4) = some x → x.shadow = none) → Tab.find u.dev.cmds c = none) ∧
      ∀ j ∈ r.joined, ∀ e, Tab.find s.dev.fibs j = some e → ∃ e', Tab.find u.dev.fibs j = some e' ∧ e'.inService = false) ∧
  (∀ (s : State) (sl i v l : Nat) (r : Rec) (y : Launch), s.cur = none → Tab.find (s.dev.slice sl).live i = some r → r.data.kind = 1 →
    r.answered = false → v < 2 ^ 64 → v % 4 = 3 → r.launch = some l → Tab.find s.dev.launches l = some y →
    ∃ (u : State) (y' : Launch), exec (.respWrite sl i v) s = .next u ∧
      Tab.find (u.dev.slice sl).live i = some { r with data := { r.data with kind := 2 }, answered := true } ∧ u.dev.wgsOf l = [] ∧
      Tab.find u.dev.launches l = some y' ∧ y'.ending = true ∧ y'.status = (if y.ending then y.status else if r.data.cause = 0x5D then 0x07 else 0x06) ∧
      (∀ j ∈ r.joined, ∀ e, j / 256 ∉ s.dev.wgsOf l → Tab.find s.dev.fibs j = some e →
        ∃ e', Tab.find u.dev.fibs j = some e' ∧ e'.inService = false) ∧
      let a := (s.dev.slice sl).recordAt i + 0x1F
      (s.dev.inKeys a = false → u.dev.mem.read a ^^^ s.dev.blank a = 2)) ∧
  ∀ (s : State) (f : Nat) (x : Fib) (g : Wg) (w : Warp) (h : SplitSt), s.cur = none → Tab.find s.dev.fibs f = some x →
    Tab.find s.dev.wgs (f / 256) = some g → Tab.find s.dev.warps (f / 4) = some w → x.handler = some h →
    s.dev.handlerLate f = true → s.dev.watchdogRang f = false →
    ∃ (u : State) (r : Rec), exec (.handlerWatchdog f) s = .next u ∧
      (u.dev.slice g.slice).waiting = (s.dev.slice g.slice).waiting ++ [r] ∧ r.data.cause = 0x4B ∧ r.data.kind = 2 ∧
      r.launch = g.launch ∧ ∃ x', Tab.find u.dev.fibs f = some x' ∧ x'.inService = true

/-- R218, R219, R221 to R223, R249, R258: a pre-emption asks for the save of a placed workgroup; each of its fibres takes the
first KIND whose condition holds and stops, or runs forward, for 16,384 cycles at most. A workgroup whose fibres have all
stopped leaves its core, with its save area in memory and what the device keeps of it among the saved; while the pool has no
room for the area, or a page of it waits for an answer, the save waits. What the area holds: the header, the barriers, handles
and lock ranges, the warp blocks, and of each fibre the fields of its block, with the registers of the blocks that VMASK and
SMASK name. A saved workgroup that fits a core is put back: it stands there, its barriers as they were, handles that were not
live as if just bound, live ones, the fibres and their registers with the contents of the area, and a recipe's fibre at the
recipe; while another launch is promised to go first it is not put back (the model's choice, log entry 120). The quantum of a
time-shared partition lapses by asking for the save of its workgroups; once none is placed, the next sharer's turn starts, less
what it owes. The model's readings and choices: which fibres run forward (log entry 54); when the record is raised, and that the
PC it tells is the one saved (log entries 43 and 80); that a workgroup which leaves a core being retired may come back to its
number (log entry 83). -/
def Obligations.ContextSwitch : Prop :=
  let bytesAt := fun (l : List Byte) (off n : Nat) => bytesNat ((l.drop off).take n)
  let below := fun (m b : Nat) => ((List.range b).filter (bitAt m)).length
  let pcOf := fun (f : Fib) (kind : Nat) =>
    let low := (f.splits.head?.map (fun p => p.2.pc.toNat)).getD 0
    if kind = 6 then 0
    else if kind = 4 then ((Tab.find f.splits (f.frame.tsplit.toNat % 64)).map (fun x => x.pc.toNat)).getD low
    else if kind = 5 then (f.marks.head?.map (fun m => m.addr.toNat)).getD low
    else low
  (∀ (s : State) (w : Nat) (g : Wg), s.cur = none → Tab.find s.dev.wgs w = some g → g.saving = none → g.core ≠ 24 →
    ∃ u : State, exec (.preemptRequest w) s = .next u ∧
      (∃ told, Tab.find u.dev.wgs w = some { g with saving := some ⟨0x59, s.dev.cycles.toNat, told, none, none, none, false, false⟩ }) ∧
      ∀ (k : Nat) (f : Fib) (x : Warp), k / 256 = w → Tab.find s.dev.fibs k = some f → Tab.find s.dev.warps (k / 4) = some x →
        f.stop = none → Tab.find u.dev.fibs k = some (
          let stops := fun n : Nat => { f with stop := some (.stopped n (pcOf f n)) }
          if f.exited then stops 6
          else if f.handler.isSome then f
          else if f.inService then stops 4
          else if f.marks ≠ [] then stops 5
          else if (∃ p ∈ f.splits, p.2.waits = true) then stops 3
          else if f.rewindable x (k % 4) then { f.rewound with stop := some (.stopped 0 (pcOf f.rewound 0)) }
          else { f with stop := some (.forward s.dev.cycles.toNat) })) ∧
  (∀ (s : State) (f since : Nat) (x : Fib) (w : Warp), s.cur = none → Tab.find s.dev.fibs f = some x →
    Tab.find s.dev.warps (f / 4) = some w → x.stop = some (.forward since) → x.handler = none →
    (s.dev.cycles.toNat < since + 16384 → exec (.forwardBoundLapse f) s = .next s) ∧
    (since + 16384 ≤ s.dev.cycles.toNat → ∃ u : State, exec (.forwardBoundLapse f) s = .next u ∧
      let kind := if x.exited then 6 else if x.inService then 4 else if x.marks ≠ [] then 5
        else if (∃ p ∈ x.splits, p.2.waits = true) then 3 else 2
      Tab.find u.dev.fibs f = some { x with stop := some (.stopped kind (pcOf x kind)) })) ∧
  (∀ (s : State) (w : Nat) (g g' : Wg) (v v' : Saving), s.cur = none → Tab.find s.dev.wgs w = some g → g.saving = some v →
    s.dev.waitsFor g.part v.asked = false →
    let u := s.onDev (fun d => (d.classify w).tellSave w)
    Tab.find u.dev.wgs w = some g' → g'.saving = some v' →
    let img := u.saveImage w g'
    ((u.dev.stopped w && (firstFibre u.dev.fibs w).isSome) = false ∨ u.dev.areaFor g'.part img.length = none →
      exec (.contextSave w) s = .next u) ∧
    ∀ a, u.dev.stopped w = true → (firstFibre u.dev.fibs w).isSome = true → u.dev.areaFor g'.part img.length = some a →
      (∀ e b, u.dev.translateRange ⟨g'.part, 0, .s⟩ .store img.length a = .error (e, b) →
        ∃ t : State, exec (.contextSave w) s = .next t ∧
          Tab.find t.dev.wgs w = some { g' with saving := some { v' with
            asked := some (b / 4096 * 4096), waited := some (v'.waited.getD s.dev.cycles.toNat) } }) ∧
      ∀ ps, u.dev.translateRange ⟨g'.part, 0, .s⟩ .store img.length a = .ok ps →
        ∃ (t : State) (x : Saved), exec (.contextSave w) s = .next t ∧ t.dev.mem = (u.dev.scatter ps (bytesNat img)).mem ∧
          Tab.find t.dev.wgs w = none ∧ (∀ p ∈ t.dev.fibs, p.1 / 256 ≠ w) ∧ (∀ p ∈ t.dev.warps, p.1 / 64 ≠ w) ∧
          Tab.find t.dev.saved w = some x ∧
          x.wg = (if (u.dev.core g'.slice g'.core).retiring = true ∧
              ∀ p ∈ u.dev.wgs, p.1 = w ∨ p.2.slice ≠ g'.slice ∨ p.2.core ≠ g'.core then
            { g' with saving := some { v' with coreGone := true } } else g') ∧ x.area = a ∧ x.bytes = img.length ∧ x.carried = u.dev.carriedOf w ∧
          x.fibs = u.dev.fibs.filter (fun p => p.1 / 256 == w) ∧ x.warps = u.dev.warps.filter (fun p => p.1 / 64 == w)) ∧
  (∀ (s : State) (g : Nat) (w : Wg),
    let l := s.saveImage g w
    bytesAt l 0 4 = 1 ∧ bytesAt l 4 1 = w.nwarps % 256 ∧ bytesAt l 5 1 = w.nfibs % 256 ∧
    bytesAt l 8 8 = ((w.launch.bind (Tab.find s.dev.launches)).map (·.descAddr)).getD 0 % 2 ^ 64 ∧
    bytesAt l 0x10 8 = s.dev.lid w.launch % 2 ^ 64 ∧ bytesAt l 0x18 4 = w.x % 2 ^ 32 ∧ bytesAt l 0x1C 4 = w.y % 2 ^ 32 ∧
    bytesAt l 0x20 4 = w.z % 2 ^ 32 ∧ bytesAt l 0x24 4 = (w.config + 16 * w.contract) % 2 ^ 32 ∧
    bytesAt l 0x28 8 = l.length % 2 ^ 64 ∧ bytesAt l 0x34 4 = (s.dev.carriedOf g).length % 2 ^ 32 ∧
    (∀ n, n < 16 → match Tab.find w.bars n with
      | none => bytesAt l (0x40 + 48 * n) 48 = 0
      | some p => bytesAt l (0x40 + 48 * n) 32 = p.arrived.foldl (fun m k => m ||| 2 ^ (k % 256)) 0 % 2 ^ 256 ∧
        bytesAt l (0x60 + 48 * n) 2 = p.count % 2 ^ 16 ∧ bytesAt l (0x62 + 48 * n) 2 = p.expected % 2 ^ 16 ∧
        bytesAt l (0x64 + 48 * n) 1 = 1) ∧
    (∀ h, h < 64 → bytesAt l (0x340 + 8 * h) 8 = match Tab.find w.tiles h with
      | none => 0
      | some t => ((match t.lvl with | .t => 1 | .a => 2 | .w => 3 | .q => 4) + 8 * b2n ((s.dev.liveHandles g w).contains h) +
          2 ^ 4 * t.rows + 2 ^ 17 * t.rb + 2 ^ 31 * t.queue.length) % 2 ^ 64) ∧
    (∀ i, i < 16 → bytesAt l (0x540 + 16 * i) 8 = (w.locks.getD i ⟨0, 0, []⟩).addr % 2 ^ 64 ∧
      bytesAt l (0x548 + 16 * i) 8 = (w.locks.getD i ⟨0, 0, []⟩).bytes % 2 ^ 64) ∧
    ∃ h t, h.length = 0x640 ∧ l = h ++ ((s.dev.warps.filter (fun p => p.1 / 64 == g)).map (fun p =>
      warpBytes (p.1 % 64) p.2 ++ ((s.dev.fibs.filter (fun q => q.1 / 4 == p.1)).map (fun q =>
        let m := s.savedMasks q.1 q.2
        fibreBytes p.2 (q.1 % 4) q.2 m.1 m.2)).flatten)).flatten ++ t) ∧
  (∀ (s : State) (k : Nat) (f : Fib),
    (2 ≤ f.kind → f.kind ≤ 4 → s.savedMasks k f = (2 ^ 64 - 1, 2 ^ 8 - 1)) ∧
    ∀ r, f.kind ≤ 1 → f.rewind = some r → s.savedMasks k f = (r.vmask, r.smask)) ∧
  (∀ (w : Warp) (n vm sm : Nat) (f : Fib),
    let l := fibreBytes w n f vm sm
    (f.kind = 6 → l.length = 0x16C0 ∧ ∀ i, i < 0x16C0 → bytesAt l i 1 = if i = 8 then 6 else 0) ∧
    (f.kind ≠ 6 →
      (∀ k pc, f.stop = some (.stopped k pc) → bytesAt l 0 8 = pc % 2 ^ 64) ∧ bytesAt l 8 1 = f.kind % 256 ∧ bytesAt l 9 1 = f.splits.length % 256 ∧
      bytesAt l 0x10 8 = vm % 2 ^ 64 ∧ bytesAt l 0x18 1 = sm % 256 ∧
      (∀ i, i < 32 → ∀ p, f.splits[i]? = some p → bytesAt l (0x20 + 16 * i) 16 = p.2.record p.1 % 2 ^ 128) ∧
      (∀ i, i < 32 → bytesAt l (0x220 + i) 1 = (Tab.get (0 : Byte) f.flags i).toNat) ∧
      (∀ i p, i < 32 → p < 7 → (bytesAt l (0x240 + i) 1).testBit p = (f.pred p).getLsbD i) ∧
      bytesAt l 0x260 8 = f.frame.tcause.toNat ∧ bytesAt l 0x268 8 = f.frame.tpc.toNat ∧ bytesAt l 0x270 8 = f.frame.tmask.toNat ∧
      bytesAt l 0x278 8 = f.frame.taddr.toNat ∧ bytesAt l 0x280 8 = f.frame.tinfo.toNat ∧ bytesAt l 0x288 8 = f.frame.tsplit.toNat ∧
      bytesAt l 0x290 8 = f.trapen.toNat ∧ bytesAt l 0x2A0 8 = f.lwbase.toNat ∧ bytesAt l 0x2A8 8 = f.lwsize.toNat ∧
      (∀ i, i < 256 → let b := Tab.get Bracket.zero f.brk i
        bytesAt l (0x2B0 + 20 * i) 4 = b.lo.toNat ∧ bytesAt l (0x2B4 + 20 * i) 4 = b.hi.toNat ∧
        bytesAt l (0x2B8 + 20 * i) 4 = b.ylo.toNat ∧ bytesAt l (0x2BC + 20 * i) 4 = b.yhi.toNat ∧
        bytesAt l (0x2C0 + 20 * i) 4 = b.st.toNat) ∧
      (∀ b i j, b < 64 → i < 4 → j < 32 → bitAt vm b = true → bytesAt l (0x16C0 + 512 * below vm b + 128 * i + 4 * j) 4 =
        match w.phys n (4 * b + i) 1 with | some p => (w.reg p j).toNat | none => 0) ∧
      ∀ b i, b < 8 → i < 8 → bitAt sm b = true → bytesAt l (0x16C0 + 512 * below vm 64 + 64 * below sm b + 8 * i) 8 =
        (Tab.get (0 : Word64) f.s (8 * b + i)).toNat)) ∧
  (∀ (s : State) (w sl c : Nat) (x : Saved) (ps : List Place) (as_ : List Phys), s.cur = none →
    Tab.find s.dev.saved w = some x → s.dev.waitsFor x.wg.part x.asked = false → s.dev.mayRestore w sl c = true →
    s.dev.restoreRoom x sl c = some ps → s.dev.translateRange ⟨x.wg.part, 0, .s⟩ .load x.bytes x.area = .ok as_ →
    let img := s.dev.gather as_
    exec (.contextRestore w sl c) s = .next (s.onDev (fun d => d.putBack w x sl c ps img)) ∧
    ∃ (t : State) (g : Wg), exec (.contextRestore w sl c) s = .next t ∧ Tab.find t.dev.saved w = none ∧
      Tab.find t.dev.wgs w = some g ∧ g.slice = sl ∧ g.core = c ∧ g.saving = none ∧ g.launch = x.wg.launch ∧ g.part = x.wg.part ∧
      g.contract = x.wg.contract ∧ g.config = x.wg.config ∧ g.x = x.wg.x ∧ g.y = x.wg.y ∧ g.z = x.wg.z ∧
      (∀ n, n < 16 → Tab.find g.bars n = if bitAt (fieldAt img (0x64 + 48 * n) 1) 0 then
        some ⟨fieldAt img (0x60 + 48 * n) 2, fieldAt img (0x62 + 48 * n) 2,
          (bitsSet 256 (fieldAt img (0x40 + 48 * n) 32)).map (· + 256 * w)⟩ else none) ∧
      (∀ h y, (x.wg.tiles.map (·.1)).Nodup → Tab.find x.wg.tiles h = some y → bitAt (fieldAt img (0x340 + 8 * h) 8) 3 = false →
        Tab.find g.tiles h = some (Tile.fresh y.lvl y.rows y.rb)) ∧
      ∀ (k : Nat) (y : Warp) (f : Fib) (p : Place), x.warps = [(k / 4, y)] → x.fibs = [(k, f)] → ps = [p] → k / 256 = w →
        x.carried = [] → (∀ c ∈ s.dev.cmds, c.2.fib / 4 ≠ k / 4) →
        let b := img / 2 ^ (8 * (0x640 + 64))
        let r := fibreOf b f y.opps
        ∃ f' y', Tab.find t.dev.fibs k = some f' ∧ Tab.find t.dev.warps (k / 4) = some y' ∧ y'.place = p ∧ y'.n = y.n ∧ y'.p = y.p ∧
          y'.shared = y.shared ∧ f'.s = r.s ∧ f'.preds = r.preds ∧ f'.flags = r.flags ∧ f'.brk = r.brk ∧ f'.frame = r.frame ∧
          f'.trapen = r.trapen ∧ f'.lwbase = r.lwbase ∧ f'.lwsize = r.lwsize ∧ f'.stop = none ∧
          (fieldAt b 8 1 ≠ 6 → ∀ q i j m, q < 64 → i < 4 → j < 32 → bitAt (fieldAt b 0x10 8) q = true →
            y'.phys (k % 4) (4 * q + i) 1 = some m →
            y'.reg m j = BitVec.ofNat 32 (fieldAt b (0x16C0 + 512 * below (fieldAt b 0x10 8) q + 128 * i + 4 * j) 4))) ∧
  (∀ (x now : Nat) (kept : Fib), let r := fibreOf x kept now
    (fieldAt x 8 1 = 6 → r = { kept with stop := none }) ∧
    (fieldAt x 8 1 ≠ 6 →
      let vm := fieldAt x 0x10 8
      let sm := fieldAt x 0x18 1
      (∀ b i, b < 8 → i < 8 → (Tab.get 0 r.s (8 * b + i) : Word64) = if bitAt sm b then
        BitVec.ofNat 64 (fieldAt x (0x16C0 + 512 * below vm 64 + 64 * below sm b + 8 * i) 8) else 0) ∧
      (∀ p l, p < 7 → l < 32 → (r.pred p).getLsbD l = (fieldAt x (0x240 + l) 1).testBit p) ∧
      (∀ l, l < 32 → (Tab.get 0 r.flags l : Byte) = BitVec.ofNat 8 (fieldAt x (0x220 + l) 1)) ∧
      r.frame.tcause = BitVec.ofNat 64 (fieldAt x 0x260 8 % 2 ^ 7) ∧ r.frame.tpc = BitVec.ofNat 64 (fieldAt x 0x268 8 % 2 ^ 57) ∧
      r.frame.tmask = BitVec.ofNat 64 (fieldAt x 0x270 8 % 2 ^ 32) ∧
      r.frame.taddr = BitVec.ofNat 64 (fieldAt x 0x278 8 % 2 ^ 57 / 32 * 32) ∧
      r.frame.tinfo = BitVec.ofNat 64 (fieldAt x 0x280 8) ∧ r.frame.tsplit = BitVec.ofNat 64 (fieldAt x 0x288 8 % 2 ^ 12) ∧
      r.trapen = BitVec.ofNat 8 (fieldAt x 0x290 8) ∧ r.lwbase = BitVec.ofNat 64 (fieldAt x 0x2A0 8 % 2 ^ 57) ∧
      (∀ i, i < 256 → Tab.get Bracket.zero r.brk i = ⟨BitVec.ofNat 32 (fieldAt x (0x2B0 + 20 * i) 4),
        BitVec.ofNat 32 (fieldAt x (0x2B4 + 20 * i) 4), BitVec.ofNat 32 (fieldAt x (0x2B8 + 20 * i) 4),
        BitVec.ofNat 32 (fieldAt x (0x2BC + 20 * i) 4), BitVec.ofNat 32 (fieldAt x (0x2C0 + 20 * i) 4 % 2 ^ 13)⟩) ∧
      (2 ≤ fieldAt x 8 1 → r.recipe = kept.recipe) ∧
      (fieldAt x 9 1 = 1 → ∃ y, r.splits = [(fieldAt x 0x2C 1, y)] ∧ y.parent = fieldAt x 0x2D 1 ∧
        y.mask = BitVec.ofNat 32 (fieldAt x 0x28 4) ∧ y.sos = false ∧
        (fieldAt x 0x2E 1 = 2 → y.st = .woken none) ∧ (fieldAt x 0x2E 1 = 3 → ∃ m, y.st = .barWait (fieldAt x 0x2F 1) m) ∧
        (fieldAt x 0x2E 1 = 4 → ∃ m, y.st = .fbarWait (fieldAt x 0x2F 1) m) ∧
        match kept.rewind with
        | some q => if fieldAt x 8 1 ≤ 1 ∧ q.roff ≠ 0 then
            r.recipe = some q.addr ∧ y.pc = q.addr + BitVec.ofInt 64 (4 * toSigned 20 q.roff)
          else y.pc = BitVec.ofNat 64 (fieldAt x 0x20 8)
        | none => y.pc = BitVec.ofNat 64 (fieldAt x 0x20 8)))) ∧
  (∀ (t : Tile) (n x : Nat),
    (t.lvl ≠ .q → ∀ r, r < t.rows → (t.fromBytes n x).1.row r = fieldAt x (r * t.rb) t.rb) ∧
    (t.lvl = .a → ∀ r, r < 32 → Tab.get 0 (t.fromBytes n x).1.md r = fieldAt x (8192 + 32 * r) 32) ∧
    (t.lvl = .q → (t.fromBytes n x).1.queue = (List.range n).map (fun i => fieldAt x (512 * i) 512))) ∧
  ∀ (s : State) (p k : Nat) (x : Turn), s.cur = none → s.dev.turns.find? (fun t => t.2.part == p) = some (k, x) →
    let now := s.dev.cycles.toNat
    (now < x.ends → exec (.quantumEnd p) s = .next s) ∧
    (x.ends ≤ now → x.ending = false → s.dev.noneOn p = false → ∃ u : State, exec (.quantumEnd p) s = .next u ∧
      Tab.find u.dev.turns k = some { x with ending := true, saves := true } ∧
      ∀ w g, Tab.find s.dev.wgs w = some g → g.part = p → g.core ≠ 24 → g.saving = none →
        ∃ told, Tab.find u.dev.wgs w = some { g with saving := some ⟨0x58, now, told, none, none, none, false, false⟩ }) ∧
    ∀ q, (s.dev.wgs.map (·.1)).Nodup → x.ends ≤ now → s.dev.noneOn p = true → Tab.find s.dev.parts x.part = some q →
      let ss := s.dev.sharers k q.entry.nsl
      let next := match ss.find? (fun n => decide (x.part < n)) with | some n => n | none => ss.headD x.part
      exec (.quantumEnd p) s = .next (s.onDev (fun d =>
        { d with turns := d.turns.put k { x with ending := true } }.nextTurn k { x with ending := true })) ∧
      ∀ y, Tab.find s.dev.parts next = some y → ∃ (u : State) (y' : Part), exec (.quantumEnd p) s = .next u ∧
        let waits := ((s.dev.saved.filter (fun y => y.2.wg.part == x.part)).filterMap (·.2.waited)).map (fun c => x.ends - c)
        let late := (now - x.ends) + waits.sum
        let owed := if next = x.part ∧ x.saves then y.debt + late else y.debt
        Tab.find u.dev.turns k = some ⟨y.entry.nsl, next, now + (y.entry.quantum - owed), false, false⟩ ∧
        Tab.find u.dev.parts next = some y' ∧ y'.debt = 0 ∧
        (next ≠ x.part → ∃ z, Tab.find u.dev.parts x.part = some z ∧
          z.debt = if x.saves then q.debt + late else q.debt)

/-- R216, R217: a rewound fibre stands at its rewind point's PPT with the predicates it had there, its registers as they are; a
fibre is rewindable only with one split, the one of the rewind point with its mask, unpinned and with no block of a live
register written since. -/
def Obligations.Rewinding : Prop :=
  (∀ (f : Fib) (r : Rewind), f.rewind = some r →
    f.rewound.preds = r.preds ∧ f.rewound.s = f.s ∧ f.rewound.flags = f.flags ∧ f.rewound.brk = f.brk ∧
    ∀ p ∈ f.rewound.splits, p.2.pc = r.addr ∧ p.2.st = .ready) ∧
  ∀ (f : Fib) (w : Warp) (n : Nat), f.rewindable w n = true →
    ∃ r i x, f.rewind = some r ∧ f.splits = [(i, x)] ∧ i = r.id ∧ x.mask = r.mask ∧ f.spilled = [] ∧ f.pinned = false ∧
      f.wroteB = false ∧ (∀ b, r.vmask.testBit b = true → f.wroteV.testBit b = false ∧ (Tab.get 0 w.shWrote n).testBit b = false) ∧
      ∀ b, r.smask.testBit b = true → f.wroteS.testBit b = false

/-- R17, R227 to R230, R174, R130, R293: a first shadow mismatch of a rewindable fibre is counted and rewinds it, with the
shadow where it stands and the queue empty (the model's choice, log entry 28); a second before the retry is over raises 0x51 and
asks for the save of the workgroup, which is to resume on another core; a mismatch of a fibre that is not rewindable ends in the
fatal record 0x55. A suspect core that passes its test is used again, and one that fails takes no work, its workgroups are asked
to leave it, with a save under the cause 0x59 (its choice, the spec names none, log entry 88), and once none stands on it the
slice's spare takes its number, with what the retired core held (the model's choice, log entry 83), or, that being used, it is
retired. An error that a retry clears is counted; a lasting one takes a way or a row out, poisons what is lost and raises the
notice 0x54 with the count. A communicator takes the highest contract that every member offers; where its member is lost it
takes CSTATUS 0x44, every COLL on it that is outstanding ends with 0x44, its token readable where no shadow's queue keeps it
back, and one that comes to it later is ended with 0x44 by its checks. Which mismatches are counted is the model's reading (log
entry 53). -/
def Obligations.Reliability : Prop :=
  (∀ (s : State) (k a : Nat) (x : Warp) (g : Wg) (f : Fib) (p : Rewind) (sh : Nat × Nat), s.cur = none →
    Tab.find s.dev.warps (k / 4) = some x → Tab.find s.dev.wgs (k / 256) = some g → Tab.find s.dev.fibs k = some f →
    x.place.shadow = some sh → f.runs = true →
    let co := s.dev.core g.slice g.core
    let d := s.dev.setCore g.slice g.core { co with disagreements := co.disagreements + 1 }
    let again := fun (e : Dev) => ((e.updFib k Fib.rewound).updWarp (k / 4) (fun x =>
      { x with retries := x.retries.filter (fun r => r.fib != k % 4) ++ [⟨k % 4, p.addr, false⟩] })).pairUp (k / 4)
    (f.rewindable x (k % 4) = true → f.rewind = some p → (∀ r ∈ x.retries, r.fib ≠ k % 4) →
      exec (.shadowMismatch k a) s = .next (s.onDev (fun _ => again d)) ∧
      ∃ y, Tab.find (again d).warps (k / 4) = some y ∧ y.trails = false ∧ y.queued = 0) ∧
    (f.rewindable x (k % 4) = true → f.rewind = some p → g.core ≠ 24 → g.saving = none →
      ∀ r, x.retries.find? (fun r => r.fib == k % 4) = some r →
        ∃ (u : State) (y : Rec), exec (.shadowMismatch k a) s = .next u ∧
          (u.dev.slice g.slice).waiting = (s.dev.slice g.slice).waiting ++ [y] ∧ y.data.cause = 0x51 ∧ y.data.kind = 4 ∧
          y.data.addr = a % 2 ^ 64 ∧ y.data.info = r.addr.toNat ∧ y.fibs = [] ∧
          ∃ told, Tab.find u.dev.wgs (k / 256) = some { g with saving := some ⟨0, s.dev.cycles.toNat, told, some (k / 4), none, none, false, false⟩ }) ∧
    (f.rewindable x (k % 4) = false → ∃ (u : State) (r : Rec), exec (.shadowMismatch k a) s = .next u ∧
      (u.dev.slice g.slice).waiting = (s.dev.slice g.slice).waiting ++ [r] ∧ r.data.cause = 0x55 ∧ r.data.kind = 2 ∧
      r.launch = g.launch)) ∧
  (∀ (s : State) (sl c : Nat), s.cur = none → (s.dev.core sl c).suspect = true →
    exec (.coreTestResult sl c true) s = .next (s.onDev (fun d => d.setCore sl c { d.core sl c with suspect := false }))) ∧
  (∀ (s : State) (sl c : Nat), s.cur = none → (s.dev.core sl c).suspect = true →
    let k := s.dev.core sl c
    ((∀ g ∈ s.dev.wgs, g.2.slice ≠ sl ∨ g.2.core ≠ c) → ∃ u : State, exec (.coreTestResult sl c false) s = .next u ∧
      u.dev.core sl c = { k with
        suspect := false, retiring := false, retired := k.retired || (s.dev.slice sl).spareUsed,
        disagreements := if (s.dev.slice sl).spareUsed then k.disagreements else 0 } ∧
      (u.dev.slice sl).spareUsed = true ∧ u.dev.wgs = s.dev.wgs) ∧
    ∀ w g, Tab.find s.dev.wgs w = some g → g.slice = sl → g.core = c → c ≠ 24 → g.saving = none →
      ∃ u : State, exec (.coreTestResult sl c false) s = .next u ∧ u.dev.core sl c = { k with suspect := false, retiring := true } ∧
        (∀ p, u.dev.coreUsable p sl c = false) ∧ (u.dev.slice sl).spareUsed = (s.dev.slice sl).spareUsed ∧
        ∃ told, Tab.find u.dev.wgs w = some { g with saving := some ⟨0x59, s.dev.cycles.toNat, told, none, none, none, false, false⟩ }) ∧
  (∀ (d : Dev) (sl c : Nat), let k := d.core sl c
    (k.retiring = true → (∀ g ∈ d.wgs, g.2.slice ≠ sl ∨ g.2.core ≠ c) →
      (d.vacate sl c).core sl c = { k with
        retiring := false, retired := k.retired || (d.slice sl).spareUsed,
        disagreements := if (d.slice sl).spareUsed then k.disagreements else 0 } ∧ ((d.vacate sl c).slice sl).spareUsed = true) ∧
    (k.retiring = false ∨ (∃ g ∈ d.wgs, g.2.slice = sl ∧ g.2.core = c) → d.vacate sl c = d)) ∧
  (∀ (s : State) (sl a way : Nat) (row : Bool) (lost : List Nat), s.cur = none → sl < 12 →
    let x := s.dev.slice sl
    exec (.errorRetirement sl row a way none) s = .next (s.onDev (fun d =>
      d.setSlice sl { x with transients := x.transients + 1 })) ∧
    ((if row then ∃ o, s.dev.home a = some (sl, o) else way < 32) → (∀ b ∈ lost, ∃ o, s.dev.home (b * 32) = some (sl, o)) →
      ∃ (u : State) (r : Rec), exec (.errorRetirement sl row a way (some lost)) s = .next u ∧
        (u.dev.slice sl).waiting = x.waiting ++ [r] ∧ (u.dev.slice sl).transients = 0 ∧
        (u.dev.slice sl).ways = (if row then x.ways else x.ways ||| 2 ^ way) ∧
        (∀ b, b ∈ (u.dev.slice sl).rows ↔ b ∈ x.rows ∨ (row = true ∧ b = a)) ∧
        (∀ b, b ∈ u.dev.bad ↔ b ∈ s.dev.bad ∨ b ∈ lost) ∧ u.dev.mem = s.dev.mem ∧
        r.data.cause = 0x54 ∧ r.data.kind = 4 ∧ r.data.addr = a % 2 ^ 64 ∧ r.fibs = [] ∧
        r.data.info = (if row then 1 else way * 2) + x.transients % 2 ^ 32 * 2 ^ 32)) ∧
  (∀ (s : State) (p id n rank home members at_ : Nat) (offered : List Nat) (e : Entry) (ps : List Phys), s.cur = none →
    s.dev.entry p = some e → id < 2 ^ 32 → 2 ≤ n → n ≤ 4096 → rank < n → e.first ≤ home → home < e.first + e.nsl →
    s.dev.translateRange ⟨p, 0, .s⟩ .store 64 at_ = .ok ps →
    ∃ (u : State) (m : Comm), exec (.communicatorSetup p id n rank home members at_ offered) s = .next u ∧
      Tab.find u.dev.comms (id * 16 + p) = some m ∧ m.nranks = n ∧ m.rank = rank ∧ m.home = home ∧
      (m.status = 0 → ∀ x ∈ s.dev.carriedSet p :: offered, x.testBit m.contract = true ∧ m.contract < 15) ∧
      ∀ k, k < 15 → (∀ x ∈ s.dev.carriedSet p :: offered, x.testBit k = true) → m.status = 0 ∧ k ≤ m.contract) ∧
  (∀ (s : State) (p id : Nat) (m : Comm), s.cur = none → Tab.find s.dev.comms (id * 16 + p) = some m →
    ∃ u : State, exec (.memberLost p id) s = .next u ∧
      Tab.find u.dev.comms (id * 16 + p) = some { m with status := 0x44 } ∧
      ∀ (c : Nat) (k : Cmd) (f : Fib) (op : CollOp) (red : CollRed) (ty : Ty) (src dst count root : Nat) (cond : Option (Nat × Nat))
        (started : Bool) (w : Nat), Tab.find s.dev.cmds c = some k → k.part = p →
        k.kind = .coll op red ty id src dst count root cond started w → k.stage ≠ .carried → k.stage ≠ .finished →
        (∀ x, Tab.find s.dev.warps (k.fib / 4) = some x → x.shadow = none) →
        Tab.find u.dev.cmds c = none ∧
        (Tab.find s.dev.fibs k.fib = some f → Tab.find f.pend k.tok = some c → ∃ f', Tab.find u.dev.fibs k.fib = some f' ∧
          (Tab.get 0 f'.s k.tok : Word64) = 0x44)) ∧
  ∀ (s : State) (c : Nat) (k : Cmd) (op : CollOp) (red : CollRed) (ty : Ty) (id src dst count root : Nat)
    (cond : Option (Nat × Nat)) (w : Nat) (m : Comm), s.cur = none → Tab.find s.dev.cmds c = some k →
    k.kind = .coll op red ty id src dst count root cond false w → s.dev.cmdReady k = true → k.stage ≠ .finished →
    s.dev.collBehind c k.part id = false → Tab.find s.dev.comms (id * 16 + k.part) = some m → m.status = 0x44 →
    src % 16 = 0 → dst % 16 = 0 → (∀ x, cond = some x → x.1 % 8 = 0) → count ≠ 0 →
    exec (.collStartPoll c) s = .next (s.onDev (fun d => d.complete c 0x44))

/-- R245 to R247, R253: a strong store to GEN or SGEN commits when it changes the value last committed, or after a weak store
did, and otherwise changes nothing; a commit of GEN leaves the result word of its generation, and a table that fails a check
changes no partition. A table passes the checks that R245 lists, and a nonzero entry 0 fails them with 0x04; one that passes
gives every partition whose entry is valid that entry, with its running weights lowered to it, and takes the others away; the
written keys take effect and HOSTW is taken unless it is 0. R247: a CANCEL without GO does nothing; with GO, a position that is
not yet read is marked, and read later its record places nothing and its completion word holds 0x07; a launch that has not ended
is named by a fatal record of cause 0x5D in the trap queue of the partition's first slice, and answered when it ends; one that
has ended, by a fatal record or with its last workgroup and command, though its completion word wait, a queue the partition has
not, or a nonzero zero field, gives FOUND 0. A key written to a slot waits for the next commit, and slot 0 takes none. The
model's readings: that a position less than 2^31 ahead of the head is unread (log entry 110); what a failed commit leaves in GEN
(log entry 47); that HOSTW keeps its value where the written one is 0 (log entry 46); how memory holds a byte (log entry 79). -/
def Obligations.Commits : Prop :=
  ∀ s : State, s.cur = none →
    (∀ v, s.dev.ready = false ∨ (v = s.dev.gen ∧ s.dev.genWeak = false) → exec (.genCommit v) s = .next s) ∧
    (∀ v, s.dev.ready = true → v ≠ s.dev.gen ∨ s.dev.genWeak = true →
      let area := s.dev.flash.managerArea
      let raw := fun i : Nat => s.dev.readOwn 64 (area + 64 * i)
      let valid := fun i : Nat => 1 ≤ i ∧ i < 16 ∧ (raw i).testBit 16 = true
      let es := ((List.range 16).filter (fun i => decide (valid i))).map (fun i => (i, entryOf (raw i)))
      ∃ (u : State) (f : Option Failure), exec (.genCommit v) s = .next u ∧ u.dev.gen = v ∧ u.dev.genWeak = false ∧
        f = s.dev.tableFailure ((List.range 16).map raw) es ∧ (raw 0 ≠ 0 → f.map (·.status) = some 0x04 ∧ f.map (·.entry) = some 0) ∧
        (f ≠ none → u.dev.parts = s.dev.parts ∧ u.dev.applied = s.dev.applied ∧ u.dev.keys = s.dev.keys) ∧
        (f = none →
          (∀ i, valid i → let e := entryOf (raw i)
            e.nsl ∈ [1, 2, 3, 4, 6, 12] ∧ e.first % e.nsl = 0 ∧ e.first ≤ 11 ∧ e.pcap ≤ 3 ∧ e.ceng ≤ 48 ∧ 1 ≤ e.sfqw ∧ 1 ≤ e.collw ∧
            1 ≤ e.keyix ∧ e.keyix ≤ 127 ∧ e.qfirst + e.qquota ≤ 256) ∧
          (∀ i j, valid i → valid j → i < j → let a := entryOf (raw i); let b := entryOf (raw j)
            (a.first + a.nsl ≤ b.first ∨ b.first + b.nsl ≤ a.first ∨
              (a.tshare = true ∧ b.tshare = true ∧ a.first = b.first ∧ a.nsl = b.nsl)) ∧
            (a.qfirst + a.qquota ≤ b.qfirst ∨ b.qfirst + b.qquota ≤ a.qfirst ∨ a.qquota = 0 ∨ b.qquota = 0)) ∧
          (es.map (fun x => x.2.ceng)).sum ≤ 48 ∧
          (∀ i, ¬ valid i → Tab.find u.dev.parts i = none) ∧
          (∀ i, valid i → ∃ q, Tab.find u.dev.parts i = some q ∧ q.entry = entryOf (raw i) ∧
            (Tab.find s.dev.parts i = none → q.sfqw = q.entry.sfqw ∧ q.collw = q.entry.collw ∧ q.sgen = 0 ∧ q.block = SBlock.zero) ∧
            ∀ p, Tab.find s.dev.parts i = some p → q.sfqw = min p.sfqw q.entry.sfqw ∧ q.collw = min p.collw q.entry.collw ∧
              q.sgen = p.sgen ∧ q.cancelled = p.cancelled ∧
              (p.entry.qfirst = q.entry.qfirst → p.entry.qquota = q.entry.qquota → q.block = p.block)) ∧
          (∀ i, i < 1024 → Tab.get 0 u.dev.applied i = s.dev.readByte ⟨area + i, 15, some 0⟩) ∧
          (let h := s.dev.readOwn 1 (area + 0x410); u.dev.hostw = if h = 0 then s.dev.hostw else h) ∧
          ∀ n x, (s.dev.keyPending.map (·.1)).Nodup → Tab.find s.dev.keyPending n = some x →
            Tab.find u.dev.keys n = some x ∧ Tab.find u.dev.keyLoaded n = some true) ∧
        ∀ i, i < 8 → u.dev.mem.read (area + 0x408 + i) ^^^ u.dev.blank (area + 0x408 + i) =
          BitVec.ofNat 8 ((2 ^ 63 + v % 2 ^ 16 * 2 ^ 32 + ((f.map (·.entry)).getD 0) * 2 ^ 24 + (f.map (·.status)).getD 0) / 256 ^ i)) ∧
    (∀ p v q, Tab.find s.dev.parts p = some q →
      (v = q.sgen → q.sgenWeak = false → exec (.sgenCommit p v) s = .next s) ∧
      (v ≠ q.sgen ∨ q.sgenWeak = true → ∃ (u : State) (q' : Part), exec (.sgenCommit p v) s = .next u ∧
        Tab.find u.dev.parts p = some q' ∧ q'.sgen = v ∧ q'.entry = q.entry ∧
        (∀ st, s.dev.readBlock p q = .error st → q'.block = q.block) ∧ ∀ b, s.dev.readBlock p q = .ok b → q'.block = b)) ∧
    (∀ p v, v.testBit 63 = false → exec (.cancel p v) s = .next s) ∧
    (∀ p v e, s.dev.entry p = some e → v.testBit 63 = true →
      let q := e.qfirst + v % 2 ^ 8
      let pos := v / 2 ^ 8 % 2 ^ 32
      let bad := v / 2 ^ 40 % 2 ^ 22 ≠ 0 ∨ e.qquota ≤ v % 2 ^ 8
      let unread := (pos + 2 ^ 32 - (s.dev.queue q).head) % 2 ^ 32 < 2 ^ 31
      let ended := fun (l : Nat) (x : Launch) =>
        let mine := s.dev.wgs.filter (fun g => g.2.launch == some l)
        x.gx * x.gy * x.gz ≤ x.nextWg ∧ x.gx * x.gy * x.gz ≤ x.finished + mine.length ∧
        (∀ g ∈ mine, (∀ f ∈ s.dev.fibs, f.1 / 256 = g.1 → f.2.exited = true) ∧ (∀ k ∈ s.dev.cmds, k.2.wg ≠ g.1) ∧
          ∀ w ∈ s.dev.warps, w.1 / 64 = g.1 → w.2.trails = false) ∧
        (∀ g ∈ s.dev.saved, g.2.wg.launch ≠ some l) ∧ ∀ k ∈ s.dev.cmds, k.2.launch ≠ some l
      let answered := fun (u : State) (found : Nat) => u.dev.launches = s.dev.launches ∧ u.dev.parts.map (·.1) = s.dev.parts.map (·.1) ∧
        ∀ as_, (List.range 8).mapM (fun i => (s.dev.guest p .store (e.sblock + 0x50 + i)).toOption) = some as_ →
          u.dev.mem = (s.dev.scatter as_ (s.dev.gather as_ % 2 ^ 62 + found * 2 ^ 62)).mem
      (bad → ∃ u : State, exec (.cancel p v) s = .next u ∧ answered u 0) ∧
      (¬ bad → unread → ∃ (u : State) (x : Part), exec (.cancel p v) s = .next u ∧ u.dev.mem = s.dev.mem ∧
        u.dev.launches = s.dev.launches ∧ Tab.find u.dev.parts p = some x ∧ (q, pos) ∈ x.cancelled) ∧
      (¬ bad → ¬ unread → (∀ l ∈ s.dev.launches, l.2.queue ≠ q ∨ l.2.pos ≠ pos) →
        ∃ u : State, exec (.cancel p v) s = .next u ∧ answered u 0) ∧
      ∀ l x, ¬ bad → ¬ unread → s.dev.launches.find? (fun l => l.2.queue == q && l.2.pos == pos) = some (l, x) →
        Tab.find s.dev.launches l = some x → x.answer = false →
        (x.ending = true ∨ ended l x → ∃ u : State, exec (.cancel p v) s = .next u ∧ answered u 0) ∧
        (x.ending = false → ¬ ended l x → ∃ (u : State) (r : Rec), exec (.cancel p v) s = .next u ∧
          (u.dev.slice e.first).waiting = (s.dev.slice e.first).waiting ++ [r] ∧ r.data.cause = 0x5D ∧ r.data.kind = 2 ∧
          r.launch = some l ∧ u.dev.mem = s.dev.mem ∧ Tab.find u.dev.launches l = some { x with answer := true })) ∧
    (∀ q p x v, s.dev.queueDesc q = some (p, x) → s.dev.headReady q = true →
      let pos := (s.dev.queue q).head
      let sp := queueSpace p x
      s.dev.isCancelled p q pos = true → s.dev.readVirtual sp 128 (x.base + pos % 2 ^ x.log2n * 128) = some v →
      ∃ u : State, exec (.launchHeadCheck q) s = .next u ∧ u.dev.launches = s.dev.launches ∧
        (u.dev.queue q).head = (pos + 1) % 2 ^ 32 ∧ u.dev.isCancelled p q pos = false ∧
        ∀ ps as_ e, (launchRec v).done ≠ 0 → (launchRec v).done % 8 = 0 → s.dev.entry p = some e →
          s.dev.translateRange sp .store 8 (launchRec v).done = .ok ps →
          let d := s.dev.scatter ps (2 ^ 63 + 0x07)
          (List.range 8).mapM (fun i => (d.guest p .store (e.sblock + 0x50 + i)).toOption) = some as_ →
          u.dev.mem = (d.scatter as_ (d.gather as_ % 2 ^ 62 + 2 ^ 62)).mem) ∧
    ∀ k v, exec (.keySlotWrite k v) s = .next (
      if 1 ≤ k ∧ k ≤ 127 then s.onDev (fun d => { d with keyPending := d.keyPending.put k (v % 2 ^ 512) }) else s)

/-- R34, R149, R251, R252, R255: what the host does. A tail moves only forward, by no more than the ring holds, or OVERRUN is
set; QHEAD clears LOST and OVERRUN by ones; offsets of BAR0 take 8-byte writes to the nonce, the report and the queue registers;
a host store to device or host memory is a strong store. A report is made on request: its version, the digest of the identity
key, the four measurement registers, the digest of the partition table as applied, the nonce and the signature, each in its
field, and the registers from offset 0x200 on read it. The key is the device's own, so its digest and its signature are free
values (log entry 65). How memory holds a byte is the model's choice (log entry 79). -/
def Obligations.HostInterface : Prop :=
  ∀ s : State, s.cur = none →
    (∀ p i v q x, s.dev.hostQueue p i = some (q, x) →
      let y := s.dev.queue q
      let n := (v % 2 ^ 32 + 2 ^ 32 - y.head) % 2 ^ 32
      let held := (y.tail + 2 ^ 32 - y.head) % 2 ^ 32
      let tailed := s.onDev (fun d => d.setQueue q
        (if held ≤ n ∧ n ≤ 2 ^ x.log2n then { y with tail := v % 2 ^ 32 } else { y with overrun := true }))
      let headed := s.onDev (fun d => d.setQueue q
        { y with lost := y.lost && !v.testBit 33, overrun := y.overrun && !v.testBit 32 })
      exec (.qtailWrite p i v) s = .next tailed ∧ exec (.qheadWrite p i v) s = .next headed ∧
      (p ≠ 0 → i < 0xF00 → exec (.mmioRegisterWrite p (0x1000 + 16 * i) v) s = .next tailed ∧
        exec (.mmioRegisterWrite p (0x1008 + 16 * i) v) s = .next headed)) ∧
    (∀ off v, 0x100 ≤ off → off < 0x120 → off % 8 = 0 → ∃ u : State, exec (.mmioRegisterWrite 0 off v) s = .next u ∧
      (∀ i, i < 8 → u.dev.nonce / 256 ^ (off - 0x100 + i) % 256 = v / 256 ^ i % 256) ∧
      ∀ i, (i < off - 0x100 ∨ off - 0x100 + 8 ≤ i) → u.dev.nonce / 256 ^ i % 256 = s.dev.nonce / 256 ^ i % 256) ∧
    exec .attestationRequest s = exec (.mmioRegisterWrite 0 0x120 1) s ∧
    (∃ u : State, exec .attestationRequest s = .next u ∧ u.dev.reportDone = true ∧ u.dev.reports = s.dev.reports + 1 ∧
      let at_ := fun i : Nat => (Tab.get 0 u.dev.report i : Byte)
      let holds := fun (off n x : Nat) => ∀ i, i < n → at_ (off + i) = BitVec.ofNat 8 (x / 256 ^ i)
      holds 0 4 1 ∧ holds 4 4 0 ∧ (∀ i, i < 48 → at_ (8 + i) = Config.identityDigest i) ∧
      (∀ k, k < 4 → holds (56 + 48 * k) 48 (Tab.get 0 s.dev.mr k)) ∧
      (∀ i, i < 48 → at_ (248 + i) = (digestBytes (sha384 ((List.range 1024).map (Tab.get 0 s.dev.applied)))).getD i 0) ∧
      holds 296 32 s.dev.nonce ∧ (∀ i, i < 96 → at_ (328 + i) = Config.reportSignature s.dev.reports i) ∧
      ∀ off i, 0x200 ≤ off → off < 0x3A8 → i < 8 → off + i < 0x3A8 →
        BitVec.ofNat 8 (u.dev.bar0 0 off / 256 ^ i) = at_ (off - 0x200 + i)) ∧
    (∀ a bs, a + bs.length ≤ deviceEnd → exec (.hostCxlMemAccess a (some bs)) s = .next (s.hostStore a bs)) ∧
    (∀ a, exec (.hostCxlMemAccess a none) s = .next s) ∧
    (∀ a bs, hostStart ≤ a → exec (.hostStoreObserved a bs) s = .next (s.hostStore a bs)) ∧
    ∀ a bs i, i < bs.length → (∀ j, j < bs.length → s.dev.inKeys (a + j) = false) →
      (s.hostStore a bs).dev.mem.read (a + i) ^^^ s.dev.blank (a + i) = BitVec.ofNat 8 (bs.getD i 0)

/-- R22, R25, R99, R101, R177, R248: a flit refused is one sent on one of the 18 ports that its receiver has yet to take; it and
those behind it stand to be sent again, and those before it are delivered. A table that is signed and passes the loader's checks
replaces the core's; one that is not signed, or has an entry that fails a check, changes nothing; which destinations count for a
sequence's last element is the model's reading (log entry 58), and that an entry loads only with LENC from 1 to 3, SEQLEN from 1
to 8 and legal instructions in its slots is its choice (log entry 94). While nothing is refused a port's receiver takes its
flits one by one, in order and none twice, until it has all that were sent; how many a step moves is the model's (log entry 98).
A request reaches the controller of its byte's home slice, and starts at the later of the controller's virtual time and the end
of its stream's last request; a fair queue serves the request of the least start, the oldest of equals, and its virtual time
becomes that start. -/
def Obligations.FabricAndQueues : Prop :=
  ∀ s : State, s.cur = none →
    (∀ port k sent, let x := s.dev.port port
      (port < 18 → x.taken ≤ k → k < sent → x.sent ≤ sent → ∃ u : State, exec (.flitRefuse port (k, sent)) s = .next u ∧
        (u.dev.port port).taken = k ∧ (u.dev.port port).sent = sent ∧ (∀ n, n ∈ (u.dev.port port).resends ↔ k ≤ n ∧ n < sent) ∧
        ∀ q, q ≠ port → u.dev.port q = s.dev.port q) ∧
      (18 ≤ port ∨ k < x.taken ∨ sent ≤ k ∨ sent < x.sent → exec (.flitRefuse port (k, sent)) s = .next s)) ∧
    (∀ (p : Nat) (x : Port), Tab.find s.dev.ports p = some x → x.taken ≤ x.next → x.next ≤ x.sent →
      (∃ y, Tab.find s.tick.dev.ports p = some y ∧ y.sent = x.sent ∧ x.taken ≤ y.taken ∧ y.taken ≤ x.taken + 1 ∧
        x.next ≤ y.next ∧ y.next ≤ x.next + 1 ∧ y.taken ≤ y.next ∧ y.next ≤ y.sent ∧
        (y.taken = x.taken ↔ x.taken = x.next) ∧ (y.next = x.next ↔ x.next = x.sent)) ∧
      ∀ n, x.sent - x.taken < n → Tab.find ((State.tick^[n]) s).dev.ports p = some ⟨x.sent, x.sent, x.sent⟩) ∧
    (∀ sl c table store, exec (.tableReload sl c table store false) s = .next s) ∧
    (∀ sl c table store e, e < 64 → entryLoads { s.dev.core sl c with table := imageOf table, store := imageOf store } e = false →
      exec (.tableReload sl c table store true) s = .next s) ∧
    (∀ (k : CoreSt) (e : Nat), imageNat k.table 1 (32 * e + 0x13) % 2 = 1 → entryLoads k e = true →
      let n := imageNat k.table 1 (32 * e + 0x12)
      let len := imageNat k.table 1 (32 * e + 0x10)
      1 ≤ len ∧ len ≤ 3 ∧ 1 ≤ n ∧ n ≤ 8 ∧
        imageNat k.table 8 (32 * e) &&& imageNat k.table 8 (32 * e + 8) = imageNat k.table 8 (32 * e + 8) ∧
        ∀ i, i < n → ∃ x, decodeWord true (imageNat k.store 16 (128 * e + 16 * i)) = .ok x ∧ (elementOf x).barred = false ∧
          (i + 1 < n → (elementOf x).stores = false ∧ (elementOf x).flags = false ∧ (elementOf x).others = 0 ∧
            ∀ d ∈ (elementOf x).dests, isArchDest d = false) ∧
          (i + 1 = n → ((elementOf x).dests.filter isArchDest).length + (elementOf x).others ≤ 1 ∧ (elementOf x).accesses ≤ 1)) ∧
    (∀ sl c table store, s.dev.ready = true → table.length = 2048 → store.length = 8192 → sl < 12 → c < 25 →
      let k := s.dev.core sl c
      let new : CoreSt := { k with table := imageOf table, store := imageOf store, generation := k.generation + 1 }
      (∀ e, e < 64 → entryLoads new e = true) →
      exec (.tableReload sl c table store true) s = .next (s.onDev (fun d => d.setCore sl c new))) ∧
    (∀ a m o kind p b c w, s.dev.home a = some (m, o) → kind ≤ 2 → s.dev.streamOf m kind p = true → (kind = 2 → p = 0) →
      s.dev.carriedWeight kind p c = some w →
      exec (.sfqArrival a kind p b c) s = .next (s.onDev (fun d =>
        { d with nextId := d.nextId + 1,
                 sfq := d.sfq.put m ((d.fairQueue m).arrive kind p b (max 1 (d.weight kind p w)) d.nextId) }))) ∧
    (∀ c k op red ty id src dst count root cond started w, Tab.find s.dev.cmds c = some k →
      k.kind = .coll op red ty id src dst count root cond started w →
      s.dev.carriedWeight 1 k.part c = some w ∧ ∀ p, p ≠ k.part → s.dev.carriedWeight 1 p c = none) ∧
    (∀ (q : Sfq) (kind p b w seq : Nat), let k := kind * 16 + p
      let f := Tab.get (0, 1) q.f k
      let u := q.arrive kind p b w seq
      0 < q.vden → 0 < f.2 → 0 < w → ∃ n d : Nat, u.reqs = q.reqs ++ [⟨kind, p, b, n, d, seq⟩] ∧ 0 < d ∧
        (n : ℚ) / d = max ((q.vnum : ℚ) / q.vden) ((f.1 : ℚ) / f.2) ∧
        ∃ n' d' : Nat, Tab.find u.f k = some (n', d') ∧ 0 < d' ∧ (n' : ℚ) / d' = (n : ℚ) / d + (b : ℚ) / w) ∧
    ∀ m q r, Tab.find s.dev.sfq m = some q → q.next = some r → (∀ x ∈ q.reqs, 0 < x.den) →
      let q' : Sfq := { q with vnum := r.num, vden := r.den, reqs := q.reqs.filter (fun x => x.seq != r.seq), last := some r }
      exec (.sfqServe m) s = .next (s.onDev (fun d => { d with sfq := d.sfq.put m q' })) ∧
      r ∈ q.reqs ∧ ∀ x ∈ q.reqs, x.before r = false

/-- R27, R28, R254, R256: a power window above 3,000 W takes the arithmetic clock one step down, not below 0.625 GHz, and any
other one step up, not above 2.5 GHz; after a thermal trip no step but a reset goes on. R99, R121: a reset whose record and
images all verify and pass their checks leaves the device ready, nothing placed but its firmware, which stands at its first word
on the Charon core of its slice at its level (R5, R18); one that does not leaves it not ready, its cause in DSTAT and no
partition, which is the model's choice (log entry 123). The measurement register of an image that verified is extended by it,
and that of another is zero. Host memory keeps its contents. What a reset leaves in memory is the model's reading (log entry
15), and so is what firmware starts with (log entry 57), and so is the zero of a measurement register whose image did not verify
(log entry 8). -/
def Obligations.PowerAndReset : Prop :=
  ∀ s : State,
    (s.cur = none → ∀ watts, exec (.powerWindow watts) s = .next (s.onDev (fun d =>
      { d with clock := if 3000 < watts then max 5 (d.clock - 1) else min 20 (d.clock + 1) }))) ∧
    (s.cur = none → exec .thermalTrip s = .next (s.onDev (fun d => { d with thermal := true }))) ∧
    (s.dev.thermal = true → (∀ verified why r, s.dev.agenda ≠ .reset verified why :: r) → step s = .fault .clocksStopped) ∧
    ∀ verified why, let f := s.dev.flash
      let checked := ∀ i, i < 16 → let x := f.contracts.getD i 0
        x.testBit 31 = true → x / 2 ^ 28 % 2 ^ 3 = 0 ∧ x / 2 ^ 4 % 2 ^ 6 = 0 ∧ x % 16 = i ∧ i ≠ 15
      let ok := verified % 16 = 15 ∧ checked ∧ ∀ e, e < 64 → entryLoads (CoreSt.start f) e = true
      ∃ u : State, exec (.reset verified why) s = .next u ∧ u.cur = none ∧
      u.dev.launches = [] ∧ u.dev.cmds = [] ∧ u.dev.saved = [] ∧ u.dev.thermal = false ∧ (u.dev.ready = true ↔ ok) ∧
      (∀ g ∈ u.dev.wgs, g.2.core = 24) ∧
      (∀ i, i < 4 → (verified.testBit i = true ∧ (i = 0 → checked) → Tab.find u.dev.mr i = some (measured i)) ∧
        (¬ (verified.testBit i = true ∧ (i = 0 → checked)) → Tab.find u.dev.mr i = some 0)) ∧
      (¬ ok → u.dev.dcause = why % 2 ^ 8 ∧ u.dev.parts = [] ∧ u.dev.fibs = [] ∧ u.dev.warps = [] ∧ u.dev.wgs = []) ∧
      (ok → u.dev.dcause = 0 ∧ u.dev.parts = State.reset.dev.parts ∧
        (f.boots = [] → u.dev.fibs = [] ∧ u.dev.warps = [] ∧ u.dev.wgs = []) ∧
        ∀ i b, f.boots[i]? = some b → ∃ x g, Tab.find u.dev.fibs (i * 256) = some x ∧ Tab.find u.dev.wgs i = some g ∧
          x.priv = b.priv ∧ (∃ y, x.splits = [(0, y)] ∧ y.pc = b.entry ∧ y.mask = BitVec.allOnes 32) ∧
          g.part = b.part ∧ g.slice = b.slice ∧ g.core = 24 ∧ g.contract = 6) ∧
      ∀ a, u.dev.mem.read a = if isHost a then s.dev.mem.read a else Memory.unlisted

/-! ### The whole machine -/

/-- Every instruction of the table has a meaning: none is refused, and only an instruction executed while no split issues
faults. A step of the device happens to all of it: with a split in issue it is what it is with that split in its tables, and the
split is taken out again afterwards, under the id that the tables give it then. The fault of an instruction executed while no
split issues, noIssuer, is the model's own (log entry 64). -/
def Obligations.EverythingExecutes : Prop :=
  (∀ (i : Instr) (s : State),
     (∃ t : State, exec i s = .next t) ∨ (exec i s = .fault .noIssuer ∧ s.cur = none ∧ isDeviceStep i = false)) ∧
  (∀ (s : State) (c : Cur) (i : Instr), s.cur = some c → isDeviceStep i = true →
     exec i s = mapNext (fun t => t.load (t.dev.renamed c)) (exec i s.flush))

/-- R50, R54, R77 to R80, R91, R95, R226: where the chosen split may issue and no input waits, and the word at its PC is not in
the core's table and decodes, a step executes the decoded instruction, after the slot's opportunity is counted and before the
cycles of the step are. Where the instruction turns out to have to wait, nothing has issued: the split waits, and no opportunity
is counted; the slot passes where an SOS governs the instruction, and where the split parks, waits at a barrier or freezes (R11,
R49). A guarded warp stalls first where the instruction must wait for its shadow, or where its trap's record would pin the fibre
while the shadow trails, and what it receives is passed on to it; what counts as that is the model's reading (log entry 28). How
many cycles a step takes is a free value (log entry 32). -/
def Obligations.StepRunsDecoded : Prop :=
  ∀ (s : State) (w : Nat) (i : Instr), s.dev.thermal = false → s.dev.agenda = [] → s.dev.chosen = true → s.canIssue = true →
    let a := s.split.pc.toNat
    s.fetchAt a = .word w → s.matchWord w = none → a % 32 + lenBytes (w % 4) ≤ 32 → decodeWord false w = .ok i →
    (opcodeOf w = 0x25C → s.sosMisplaced a = false) →
    (0x260 ≤ opcodeOf w → opcodeOf w ≤ 0x263 → s.invMisplaced a (lenBytes (w % 4)) = false) →
    let ends := fun (t : State) => ∃ u, s.Ends t u ∧ step s = .next u.tick
    (s.begin.warp.opps = s.warp.opps + 1 ∧ s.begin.split.last = s.warp.opps + 1 ∧ s.attempt.warp.opps = s.warp.opps ∧
      s.attempt.split.last = s.split.last) ∧
    (s.guarded = false → ∀ t, exec i s.begin = .next t → ends t) ∧
    (s.guarded = true →
      (∀ x, s.shadowWait i = some x →
        let st := (s.attempt.stall [x]).split.st
        (s.inner = none → ∃ ds n r, st = .stalled s.split.sos ds n r) ∧
        step s = .next (({ s.attempt with
          split := { s.attempt.split with st := st }, warp := { s.attempt.warp with pass := st.passes } } : State).tick)) ∧
      (s.shadowWait i = none →
        let passed := fun (t : State) => mapNext (State.passOn s.cur i) (exec i t)
        let pins := s.begin.warp.trails = true ∧
          ∃ c t f, s.cur = some c ∧ passed { s.begin with fib := { s.begin.fib with pinned := false } } = .next t ∧
            (if t.cur.map (·.key) = some c.key then some t.fib else Tab.find t.dev.fibs c.key) = some f ∧ f.inService = true ∧ f.pinned = true
        (pins → ends (s.begin.stall [.shadow s.warpKey false])) ∧
        (¬ pins → ∀ t, passed s.begin = .next t → ends t)))

/-- R50, R79, R95, R97: what else stands at the PC. A word that an entry of the table matches executes as its substitute
sequence; the block-end filler moves the split 4 bytes, and its slot issues in the next step (R50); a length code of 0, a word
across the end of its block and an unknown opcode trap with 0x00, 0x03 and 0x01; a PC that is not a multiple of 4 traps with
0x08. -/
def Obligations.StepOtherwise : Prop :=
  ∀ s : State, s.dev.thermal = false → s.dev.agenda = [] → s.dev.chosen = true → s.canIssue = true →
    let a := s.split.pc.toNat
    let trapped := fun c =>
      let t := s.begin.trap c s.split.mask 0 0
      step s = .next ({ t with warp := { t.warp with pass := t.fib.inService } } : State).tick
    (a % 4 ≠ 0 → trapped 0x08) ∧
    (s.fetchAt a = .filler → step s =
      .next ((s.arrive { s.split with pc := s.split.pc + 4 }).tick)) ∧
    ∀ w, s.fetchAt a = .word w →
      (∀ e t, s.matchWord w = some e → s.shadowWait (.substituteSequence e) = none →
        (if s.guarded then mapNext (State.passOn s.cur (.substituteSequence e)) (exec (.substituteSequence e) s.begin)
          else exec (.substituteSequence e) s.begin) = .next t →
        ∃ u, s.Ends t u ∧ step s = .next u.tick) ∧
      (s.matchWord w = none →
        (w % 4 = 0 → trapped 0x00) ∧
        (w % 4 ≠ 0 → 32 < a % 32 + lenBytes (w % 4) → trapped 0x03) ∧
        (w % 4 ≠ 0 → a % 32 + lenBytes (w % 4) ≤ 32 → decodeWord false w = .error .illegalOpcode → trapped 0x01))

/-- R245, R34, R207: what reset leaves, with the values of the model itself (log entries 5, 6 and 7): nothing issues, is placed
or is launched; partition 1 alone, with the entry that stands before the first commit; every queue and every trap queue as zero;
memory in canonical form. -/
def Obligations.AfterReset : Prop :=
  let d := State.reset.dev
  MemoryOk State.reset ∧ State.reset.cur = none ∧ d.fibs = [] ∧ d.warps = [] ∧ d.wgs = [] ∧ d.launches = [] ∧ d.cmds = [] ∧
  d.gen = 0 ∧ d.ready = true ∧ d.thermal = false ∧ d.dcause = 0 ∧ d.hostw = 8 ∧ d.clock = 20 ∧
  (∀ q, d.queue q = Queue.zero) ∧ (∀ sl, d.slice sl = Slice.zero) ∧
  (∀ p, p ≠ 1 → d.entry p = none) ∧
  ∃ e, d.entry 1 = some e ∧ e.first = 0 ∧ e.nsl = 12 ∧ e.pcap = 3 ∧ e.ceng = 48 ∧ e.qquota = 256 ∧ e.cmask = 0x7F ∧ e.s2root = 0

/-- Every step keeps memory in canonical form: addresses strictly rising, no entry equal to what an unlisted address reads as.
The form is the model's own (log entry 2). -/
def Obligations.MemoryStaysCanonical : Prop :=
  ∀ s t : State, MemoryOk s → step s = .next t → MemoryOk t

/-- R1, R2, R3, R77 to R98: the encoding admits no second reading. Every well-formed instruction has a word, whose length code
is the one it was encoded with, and the word decodes to it with every operand; and a word that decodes, in code or in the
replacement store, is the word of the instruction that it decodes to, so that no bit of it goes unread. -/
def Obligations.EncodingAgrees : Prop :=
  (∀ i : Instr, WellFormed i → ∃ len w, encode i = some (len, w) ∧ w % 4 = len ∧ 1 ≤ len ∧ w < 2 ^ (8 * lenBytes len) ∧
    decodeWord false w = .ok i) ∧
  (∀ i : Instr, i.substituteOnly = true → i.shapeOk = true → i.regsOk true = true →
    ∃ len w, encode i = some (len, w) ∧ decodeWord true w = .ok i) ∧
  ∀ (sub : Bool) (w : Nat) (i : Instr), decodeWord sub w = .ok i →
    encode i = some (w % 4, w % 2 ^ (8 * lenBytes (w % 4))) ∧ i.wellFormed sub = true

/-- Decoding is right on six words that the spec writes out: the four worked encodings built from R81 to R84, R88 and R91, which
are fadd.f32 v4, v2, v3, then iadd v1, s8, lane, a bra under p1 and sos; the iadd.co.u64 of R326; and the shl s8, s8, #5 of
R356. -/
def Obligations.WorkedWords : Prop :=
  decodeWord false 0x8000000C04047201 = .ok (.fadd ⟨⟨false, 7⟩, .f32, .v 4, .v 2, .v 3⟩ .rne) ∧
  decodeWord false 0x0000050A10017001 = .ok (.iadd ⟨⟨false, 7⟩, .u32, .v 1, .s 8, .lane⟩ none none) ∧
  decodeWord false 0x2400802000047001 = .ok (.iadd ⟨⟨false, 7⟩, .u64, .v 4, .v 0, .v 8⟩ none (some 1)) ∧
  decodeWord false 0x0010001611087061 = .ok (.shl ⟨⟨false, 7⟩, .u32, .s 8, .s 8, .imm16 5⟩) ∧
  decodeWord false 0x000000FFFFF01901 = .ok (.bra ⟨false, 1⟩ ⟨false, false, false⟩ 0xFFFFF0) ∧
  decodeWord false 0x7971 = .ok .sos
end

