-- ==== Sys2Proof/Laws/Tab.lean ====
section
/-!
SUPPORT. The laws of finite maps and of memory: what a lookup finds after an update, and that every update keeps the canonical
form.
-/
namespace Sys2Proof.Machine

variable {α : Type}

/-! ### Lookup -/

theorem Tab.find_del_self (m : Tab α) (k : Nat) : Tab.find (Tab.del m k) k = none := by
  induction m with
  | nil => rfl
  | cons p r ih =>
    by_cases h : p.1 = k <;> simp_all [Tab.del, Tab.find]

theorem Tab.find_del_ne (m : Tab α) {k j : Nat} (h : j ≠ k) : Tab.find (Tab.del m k) j = Tab.find m j := by
  induction m with
  | nil => rfl
  | cons p r ih =>
    by_cases hp : p.1 = k
    · have hj : p.1 ≠ j := fun e => h (e.symm.trans hp)
      simp_all [Tab.del, Tab.find]
    · by_cases hj : p.1 = j <;> simp_all [Tab.del, Tab.find]

theorem Tab.find_ins_self (m : Tab α) {k : Nat} (x : α) (h : Tab.find m k = none) : Tab.find (Tab.ins k x m) k = some x := by
  induction m with
  | nil => simp [Tab.ins, Tab.find]
  | cons p r ih =>
    obtain ⟨j, y⟩ := p
    by_cases hj : j = k
    · simp [Tab.find, hj] at h
    · by_cases hk : k < j
      · simp [Tab.ins, Tab.find, hk]
      · simp [Tab.find, hj] at h
        simp [Tab.ins, Tab.find, hk, hj, ih h]

theorem Tab.find_ins_ne (m : Tab α) {k j : Nat} (x : α) (h : j ≠ k) : Tab.find (Tab.ins k x m) j = Tab.find m j := by
  induction m with
  | nil => simp [Tab.ins, Tab.find, Ne.symm h]
  | cons p r ih =>
    obtain ⟨i, y⟩ := p
    by_cases hk : k < i
    · simp [Tab.ins, Tab.find, hk, Ne.symm h]
    · simp [Tab.ins, Tab.find, hk, ih]

/-- A stored entry is found. -/
theorem Tab.find_put_self (m : Tab α) (k : Nat) (x : α) : Tab.find (Tab.put m k x) k = some x :=
  Tab.find_ins_self _ x (Tab.find_del_self m k)

/-- A store leaves every other key alone. -/
theorem Tab.find_put_ne (m : Tab α) {k j : Nat} (x : α) (h : j ≠ k) : Tab.find (Tab.put m k x) j = Tab.find m j := by
  rw [Tab.put, Tab.find_ins_ne _ x h, Tab.find_del_ne m h]

section
variable [DecidableEq α]

/-- What was stored is read. -/
theorem Tab.get_set_self (d : α) (m : Tab α) (k : Nat) (x : α) : Tab.get d (Tab.set d m k x) k = x := by
  by_cases h : x = d
  · simp [Tab.set, h, Tab.get, Tab.find_del_self]
  · simp [Tab.set, h, Tab.get, Tab.find_put_self]

/-- A store leaves what is read elsewhere. -/
theorem Tab.get_set_ne (d : α) (m : Tab α) {k j : Nat} (x : α) (h : j ≠ k) :
    Tab.get d (Tab.set d m k x) j = Tab.get d m j := by
  by_cases hx : x = d
  · simp [Tab.set, hx, Tab.get, Tab.find_del_ne m h]
  · simp [Tab.set, hx, Tab.get, Tab.find_put_ne m x h]

/-- What a key holds after a store at k. -/
theorem Tab.get_set (d : α) (m : Tab α) (k j : Nat) (x : α) :
    Tab.get d (Tab.set d m k x) j = if j = k then x else Tab.get d m j := by
  by_cases h : j = k
  · subst h; simp [Tab.get_set_self]
  · simp [h, Tab.get_set_ne d m x h]

/-! ### The canonical form -/

/-- The canonical form, entry by entry: the keys rise and no entry is the default. -/
def Tab.Canon (d : α) (m : Tab α) : Prop := m.Pairwise (fun p q => p.1 < q.1) ∧ ∀ p ∈ m, p.2 ≠ d

theorem Tab.wf_cons (d : α) (j : Nat) (x : α) (r : Tab α) :
    Tab.wf d ((j, x) :: r) = true ↔ x ≠ d ∧ (∀ p ∈ r.head?, j < p.1) ∧ Tab.wf d r = true := by
  cases r with
  | nil => simp [Tab.wf]
  | cons q r =>
    obtain ⟨k, y⟩ := q
    simp [Tab.wf]
    constructor
    · rintro ⟨⟨a, b⟩, c⟩; exact ⟨b, a, c⟩
    · rintro ⟨b, a, c⟩; exact ⟨⟨a, b⟩, c⟩

theorem Tab.wf_iff (d : α) (m : Tab α) : Tab.wf d m = true ↔ Tab.Canon d m := by
  induction m with
  | nil => simp [Tab.wf, Tab.Canon]
  | cons p r ih =>
    obtain ⟨j, x⟩ := p
    rw [Tab.wf_cons, ih]
    constructor
    · rintro ⟨hx, hj, hp, hd⟩
      refine ⟨List.pairwise_cons.mpr ⟨?_, hp⟩, ?_⟩
      · intro q hq
        cases r with
        | nil => cases hq
        | cons a t =>
          have ha : j < a.1 := hj a rfl
          rcases List.mem_cons.mp hq with rfl | ht
          · exact ha
          · exact Nat.lt_trans ha ((List.pairwise_cons.mp hp).1 q ht)
      · intro q hq
        rcases List.mem_cons.mp hq with rfl | ht
        · exact hx
        · exact hd q ht
    · rintro ⟨hp, hd⟩
      obtain ⟨h1, h2⟩ := List.pairwise_cons.mp hp
      refine ⟨hd (j, x) List.mem_cons_self, ?_, h2, fun q hq => hd q (List.mem_cons_of_mem _ hq)⟩
      intro a ha
      exact h1 a (List.mem_of_mem_head? ha)

omit [DecidableEq α] in
/-- Leaving entries out keeps the canonical form. -/
theorem Tab.Canon.filter {d : α} {m : Tab α} (h : Tab.Canon d m) (p : Nat × α → Bool) : Tab.Canon d (m.filter p) :=
  ⟨h.1.filter p, fun q hq => h.2 q (List.mem_filter.mp hq).1⟩

omit [DecidableEq α] in
theorem Tab.mem_ins {k : Nat} {x : α} {m : Tab α} {q : Nat × α} (h : q ∈ Tab.ins k x m) : q = (k, x) ∨ q ∈ m := by
  induction m with
  | nil => simpa [Tab.ins] using h
  | cons p r ih =>
    obtain ⟨j, y⟩ := p
    by_cases hk : k < j
    · simpa [Tab.ins, hk] using h
    · simp only [Tab.ins, hk, if_false] at h
      rcases List.mem_cons.mp h with rfl | h
      · exact .inr List.mem_cons_self
      · exact (ih h).imp id (List.mem_cons_of_mem _)

omit [DecidableEq α] in
theorem Tab.Canon.ins {d : α} {m : Tab α} (h : Tab.Canon d m) {k : Nat} {x : α} (hx : x ≠ d)
    (hk : ∀ p ∈ m, p.1 ≠ k) : Tab.Canon d (Tab.ins k x m) := by
  refine ⟨?_, fun q hq => (Tab.mem_ins hq).elim (fun e => e ▸ hx) (h.2 q)⟩
  induction m with
  | nil => simp [Tab.ins]
  | cons p r ih =>
    obtain ⟨j, y⟩ := p
    obtain ⟨h1, h2⟩ := List.pairwise_cons.mp h.1
    by_cases hj : k < j
    · simp only [Tab.ins, hj, if_true]
      refine List.pairwise_cons.mpr ⟨?_, h.1⟩
      intro q hq
      rcases List.mem_cons.mp hq with rfl | hq
      · exact hj
      · exact Nat.lt_trans hj (h1 q hq)
    · simp only [Tab.ins, hj, if_false]
      have hne : j ≠ k := hk (j, y) List.mem_cons_self
      refine List.pairwise_cons.mpr ⟨?_, ih ⟨h2, fun q hq => h.2 q (List.mem_cons_of_mem _ hq)⟩
        (fun q hq => hk q (List.mem_cons_of_mem _ hq))⟩
      intro q hq
      rcases Tab.mem_ins hq with rfl | hq
      · show j < k; omega
      · exact h1 q hq

/-- A store keeps the canonical form. -/
theorem Tab.Canon.set {d : α} {m : Tab α} (h : Tab.Canon d m) (k : Nat) (x : α) : Tab.Canon d (Tab.set d m k x) := by
  by_cases hx : x = d
  · simp only [Tab.set, hx, if_true]; exact h.filter _
  · simp only [Tab.set, hx, if_false]
    refine (h.filter _).ins hx ?_
    intro p hp
    simpa using (List.mem_filter.mp hp).2

end

/-! ### Memory -/

theorem Memory.wf_iff (m : Memory) : m.wf = true ↔ Tab.Canon Memory.unlisted m := Tab.wf_iff _ _

/-- Storing a byte keeps the canonical form. -/
theorem Memory.wf_write {m : Memory} (h : m.wf = true) (a : Nat) (b : Byte) : (m.write a b).wf = true :=
  (Memory.wf_iff _).mpr (((Memory.wf_iff m).mp h).set a b)

theorem Memory.wf_writeNat {m : Memory} (h : m.wf = true) (n a x : Nat) : (m.writeNat n a x).wf = true := by
  induction n generalizing m a x with
  | zero => exact h
  | succ n ih => exact ih (Memory.wf_write h _ _) _ _

theorem Memory.wf_writeBytes {m : Memory} (h : m.wf = true) (a : Nat) (bs : List Byte) : (m.writeBytes a bs).wf = true := by
  induction bs generalizing m a with
  | nil => exact h
  | cons b r ih => exact ih (Memory.wf_write h _ _) _

theorem Memory.wf_filter {m : Memory} (h : m.wf = true) (p : Host.Cell → Bool) : Memory.wf (m.filter p) = true :=
  (Memory.wf_iff _).mpr (((Memory.wf_iff m).mp h).filter p)

/-- A fold of byte stores keeps the canonical form. -/
theorem Memory.wf_foldl {β : Type} (f : Memory → β → Memory) (hf : ∀ m x, m.wf = true → (f m x).wf = true) {m : Memory}
    (h : m.wf = true) (l : List β) : (l.foldl f m).wf = true := by
  induction l generalizing m with
  | nil => exact h
  | cons x r ih => exact ih (hf m x h)

@[simp] theorem Memory.read_write_self (m : Memory) (a : Nat) (b : Byte) : (m.write a b).read a = b :=
  Tab.get_set_self _ _ _ _

theorem Memory.read_write_ne (m : Memory) {a c : Nat} (b : Byte) (h : c ≠ a) : (m.write a b).read c = m.read c :=
  Tab.get_set_ne _ _ _ h

/-- A store of n bytes leaves every address outside them alone. -/
theorem Memory.read_writeNat_outside (m : Memory) (n a x : Nat) {c : Nat} (h : c < a ∨ a + n ≤ c) :
    (m.writeNat n a x).read c = m.read c := by
  induction n generalizing m a x with
  | zero => rfl
  | succ n ih =>
    rw [Memory.writeNat, ih _ _ _ (by omega), Memory.read_write_ne _ _ (by omega)]

/-- Equal reads make equal numbers. -/
theorem Memory.readNat_congr {m k : Memory} (n a : Nat) (h : ∀ i, i < n → k.read (a + i) = m.read (a + i)) :
    k.readNat n a = m.readNat n a := by
  induction n generalizing a with
  | zero => rfl
  | succ n ih =>
    have h0 := h 0 (by omega)
    rw [Memory.readNat, Memory.readNat, ih (a + 1) (fun i hi => by
      have := h (i + 1) (by omega)
      rwa [show a + 1 + i = a + (i + 1) by omega])]
    rw [Nat.add_zero] at h0
    rw [h0]

/-- A number stored is read back, up to its width. -/
theorem Memory.readNat_writeNat (m : Memory) (n a x : Nat) : (m.writeNat n a x).readNat n a = x % 256 ^ n := by
  induction n generalizing m a x with
  | zero => simp [Memory.readNat, Nat.mod_one]
  | succ n ih =>
    rw [Memory.readNat, Memory.writeNat, ih, Memory.read_writeNat_outside _ _ _ _ (by omega), Memory.read_write_self]
    rw [Nat.pow_succ', Nat.mod_mul, BitVec.toNat_ofNat]

end Sys2Proof.Machine
end

