-- ==== Sys2Proof/Laws/State.lean ====
section
/-!
SUPPORT. One lemma for each field of the current fibre, warp and device under each update of a register, a predicate or a
flag, so that no later proof unfolds an update.
-/
namespace Sys2Proof.Machine

/-! ### Lanes -/

theorem mem_lanesOf {m : Word32} {l : Nat} : l ∈ lanesOf m ↔ laneIn m l = true := by
  simp [lanesOf, laneIn]

theorem lanesOf_lt {m : Word32} {l : Nat} (h : l ∈ lanesOf m) : l < 32 := by
  simp [lanesOf] at h; exact h.1

/-! ### Vector registers -/

@[simp] theorem Warp.setReg_p (w : Warp) (p l : Nat) (x : Word32) : (w.setReg p l x).p = w.p := rfl
@[simp] theorem Warp.setReg_shared (w : Warp) (p l : Nat) (x : Word32) : (w.setReg p l x).shared = w.shared := rfl
@[simp] theorem Warp.setReg_shWrote (w : Warp) (p l : Nat) (x : Word32) : (w.setReg p l x).shWrote = w.shWrote := rfl

theorem Warp.setReg_rest (w : Warp) (p l : Nat) (x : Word32) :
    w.setReg p l x = { w with v := (w.setReg p l x).v, poison := (w.setReg p l x).poison } := rfl

theorem Warp.setRegs_rest (w : Warp) (k p l x : Nat) :
    w.setRegs k p l x = { w with v := (w.setRegs k p l x).v, poison := (w.setRegs k p l x).poison } := by
  induction k generalizing w p x with
  | zero => rfl
  | succ k ih =>
    rw [Warp.setRegs, ih]
    rfl

@[simp] theorem Warp.setRegs_p (w : Warp) (k p l x : Nat) : (w.setRegs k p l x).p = w.p := by rw [Warp.setRegs_rest]
@[simp] theorem Warp.setRegs_shared (w : Warp) (k p l x : Nat) : (w.setRegs k p l x).shared = w.shared := by
  rw [Warp.setRegs_rest]

/-- One register after one is written. -/
theorem Warp.reg_setReg (w : Warp) (p l q j : Nat) (x : Word32) (hl : l < 32) (hj : j < 32) :
    (w.setReg p l x).reg q j = if q = p ∧ j = l then x else w.reg q j := by
  simp only [Warp.reg, Warp.setReg, Tab.get_set]
  by_cases h : q = p ∧ j = l
  · simp [h.1, h.2]
  · rw [if_neg (by omega), if_neg h]

/-- One register after k are written from a number, the lowest register lowest (R59). -/
theorem Warp.reg_setRegs (w : Warp) (k p l q j x : Nat) (hl : l < 32) (hj : j < 32) :
    (w.setRegs k p l x).reg q j =
      if j = l ∧ p ≤ q ∧ q < p + k then BitVec.ofNat 32 (x / 2 ^ (32 * (q - p))) else w.reg q j := by
  induction k generalizing w p x with
  | zero => rw [if_neg (by omega)]; rfl
  | succ k ih =>
    rw [Warp.setRegs, ih, Warp.reg_setReg _ _ _ _ _ _ hl hj]
    by_cases h1 : j = l ∧ p + 1 ≤ q ∧ q < p + 1 + k
    · rw [if_pos h1, if_pos (by omega), Nat.div_div_eq_div_mul]
      congr 2
      rw [← Nat.pow_add]
      congr 1
      omega
    · rw [if_neg h1]
      by_cases h2 : q = p ∧ j = l
      · rw [if_pos h2, if_pos (by omega)]
        simp [h2.1]
      · rw [if_neg h2, if_neg (by omega)]

/-- k registers read back as the number that was written, up to their width. -/
theorem Warp.regs_setRegs (w : Warp) (k p l x : Nat) (hl : l < 32) : (w.setRegs k p l x).regs k p l = x % 2 ^ (32 * k) := by
  have key : ∀ (u : Warp) (j q y : Nat), (∀ i, i < j → u.reg (q + i) l = BitVec.ofNat 32 (y / 2 ^ (32 * i))) →
      u.regs j q l = y % 2 ^ (32 * j) := by
    intro u j
    induction j with
    | zero => intro q y _; simp [Warp.regs, Nat.mod_one]
    | succ j ih =>
      intro q y h
      have h0 : u.reg q l = BitVec.ofNat 32 y := by simpa using h 0 (Nat.succ_pos _)
      have h1 : u.regs j (q + 1) l = y / 2 ^ 32 % 2 ^ (32 * j) := by
        apply ih
        intro i hi
        rw [show q + 1 + i = q + (i + 1) by omega, h (i + 1) (by omega), Nat.div_div_eq_div_mul, ← Nat.pow_add]
        congr 3
        omega
      rw [Warp.regs, h0, h1, show 32 * (j + 1) = 32 + 32 * j by omega, Nat.pow_add, Nat.mod_mul, BitVec.toNat_ofNat]
  apply key
  intro i hi
  rw [Warp.reg_setRegs _ _ _ _ _ _ _ hl hl, if_pos (by omega)]
  congr 3
  omega

/-! ### The writes of State -/

@[simp] theorem State.dirtyV_dev (s : State) (n k : Nat) : (s.dirtyV n k).dev = s.dev := by
  unfold State.dirtyV; dsimp only; split <;> rfl
@[simp] theorem State.dirtyV_reg (s : State) (n k p l : Nat) : (s.dirtyV n k).warp.reg p l = s.warp.reg p l := by
  unfold State.dirtyV; dsimp only; split <;> rfl

theorem State.dirtyV_rest (s : State) (n k : Nat) :
    s.dirtyV n k = { s with fib := { s.fib with wroteV := (s.dirtyV n k).fib.wroteV },
                            warp := { s.warp with shWrote := (s.dirtyV n k).warp.shWrote } } := by
  unfold State.dirtyV; dsimp only; split <;> rfl

theorem State.setV_rest (s : State) (n k l x : Nat) :
    s.setV n k l x = { s with fib := { s.fib with wroteV := (s.setV n k l x).fib.wroteV },
                              warp := { s.warp with
                                v := (s.setV n k l x).warp.v, poison := (s.setV n k l x).warp.poison,
                                shWrote := (s.setV n k l x).warp.shWrote } } := by
  unfold State.setV; dsimp only
  rw [State.dirtyV_rest, Warp.setRegs_rest]

@[simp] theorem State.setV_phys (s : State) (n k l x m j : Nat) : (s.setV n k l x).phys m j = s.phys m j := by
  rw [State.setV_rest]; rfl

theorem State.setV_reg (s : State) (n k l x p j : Nat) (hl : l < 32) (hj : j < 32) :
    (s.setV n k l x).warp.reg p j =
      if j = l ∧ s.phys n k ≤ p ∧ p < s.phys n k + k then BitVec.ofNat 32 (x / 2 ^ (32 * (p - s.phys n k)))
      else s.warp.reg p j := by
  show (((s.dirtyV n k).warp).setRegs k (s.phys n k) l x).reg p j = _
  rw [Warp.reg_setRegs _ _ _ _ _ _ _ hl hj, State.dirtyV_reg]

@[simp] theorem State.getS_setS (s : State) (n x m : Nat) :
    (s.setS n x).getS m = if m = n then x % 2 ^ 64 else s.getS m := by
  simp only [State.getS, State.setS, Tab.get_set]
  by_cases h : m = n <;> simp [h]

@[simp] theorem State.getFlags_addFlags (s : State) (l fl j : Nat) :
    (s.addFlags l fl).getFlags j = if j = l then s.getFlags l ||| BitVec.ofNat 8 fl else s.getFlags j := by
  simp only [State.getFlags, State.addFlags, Tab.get_set]

@[simp] theorem State.addFlags_warp (s : State) (l fl : Nat) : (s.addFlags l fl).warp = s.warp := rfl
@[simp] theorem State.addFlags_dev (s : State) (l fl : Nat) : (s.addFlags l fl).dev = s.dev := rfl
@[simp] theorem State.addFlags_inner (s : State) (l fl : Nat) : (s.addFlags l fl).inner = s.inner := rfl
@[simp] theorem State.addFlags_getS (s : State) (l fl n : Nat) : (s.addFlags l fl).getS n = s.getS n := rfl
@[simp] theorem State.addFlags_phys (s : State) (l fl n k : Nat) : (s.addFlags l fl).phys n k = s.phys n k := rfl
@[simp] theorem State.addFlags_getP (s : State) (l fl n j : Nat) : (s.addFlags l fl).getP n j = s.getP n j := rfl

/-- A predicate after one is written; p7 is true in every lane and discards (R61). -/
theorem State.getP_setP (s : State) (n l m j : Nat) (b : Bool) (hl : l < 32) (hj : j < 32) :
    (s.setP n l b).getP m j = if m = n ∧ m ≠ 7 ∧ j = l then b else s.getP m j := by
  have hbit : (laneBit l).getLsbD j = decide (j = l) := by
    simp only [laneBit, BitVec.getLsbD_ofNat, Nat.testBit_two_pow, hj, decide_true, Bool.true_and]
    by_cases h : l = j <;> simp [h, eq_comm]
  unfold State.setP
  by_cases h7 : n = 7
  · rw [if_pos h7, if_neg (by omega)]
  · rw [if_neg h7]
    by_cases hm : m = 7
    · rw [if_neg (by omega)]; simp [State.getP, Fib.pred, hm]
    · simp only [State.getP, Fib.pred, hm, if_false, Tab.get_set]
      by_cases hmn : m = n
      · subst hmn
        cases b <;> by_cases hjl : j = l <;> simp [hjl, hl, hj, hm] <;> simp_all
      · simp [hmn]

end Sys2Proof.Machine
end

