-- ==== Sys2Proof/Laws/Issue.lean ====
section
/-!
SUPPORT. What the shared operations of Machine/Ops.lean do, said once: issuing an instruction that nothing keeps from its
effect, and writing a result or a predicate in each active lane.
-/
namespace Sys2Proof.Machine

/-! ### Issue -/

/-- Clearing the mark changes nothing else. -/
theorem State.clearMark_rest (s : State) : s.clearMark = { s with fib := { s.fib with marks := s.clearMark.fib.marks } } := by
  unfold State.clearMark State.dropMark
  split <;> rfl

@[simp] theorem State.clearMark_dev (s : State) : s.clearMark.dev = s.dev := by rw [State.clearMark_rest]
@[simp] theorem State.clearMark_warp (s : State) : s.clearMark.warp = s.warp := by rw [State.clearMark_rest]
@[simp] theorem State.clearMark_wg (s : State) : s.clearMark.wg = s.wg := by rw [State.clearMark_rest]
@[simp] theorem State.clearMark_cur (s : State) : s.clearMark.cur = s.cur := by rw [State.clearMark_rest]
@[simp] theorem State.clearMark_split (s : State) : s.clearMark.split = s.split := by rw [State.clearMark_rest]
@[simp] theorem State.clearMark_inner (s : State) : s.clearMark.inner = s.inner := by rw [State.clearMark_rest]

/-- The state in which an instruction has its effect. -/
def State.issued (s : State) (p : Pre) : State := if p.keepMark then s else s.clearMark

/-- An instruction that nothing keeps from its effect has it, in the active lanes. -/
theorem State.issue_ready {s : State} {p : Pre} (h : s.ready p = true) (body : Word32 → State → State) :
    s.issue p body = .next (body (s.active p.g) (s.issued p)) := by
  simp only [State.ready, Bool.and_eq_true, Bool.not_eq_true', bne_iff_ne, ne_eq] at h
  obtain ⟨⟨⟨⟨⟨⟨⟨⟨hc, hi⟩, hb⟩, hw⟩, hl⟩, ha⟩, hp⟩, hu⟩, hq⟩ := h
  obtain ⟨c, hc⟩ := Option.isSome_iff_exists.mp hc
  have hu : s.unmet p = [] := List.isEmpty_iff.mp hu
  have hq : s.poisoned p (s.active p.g) = [] := List.isEmpty_iff.mp hq
  simp only [State.issue, hc, hi, hb, hw, hl, hp, hu, hq, State.issued, Bool.false_eq_true, if_false, Bool.or_false, Bool.not_true]
  rw [if_neg ha]

/-- Readiness does not look at the length of the word. -/
theorem State.ready_len (s : State) (p : Pre) (n : Nat) : s.ready { p with len := n } = s.ready p := rfl

/-! ### Results -/

/-- One lane of perLane. -/
def State.laneResult (d : Opd) (w : Nat) (f : Nat → Nat × Nat) (t : State) (l : Nat) : State :=
  (t.put w d l (f l).1).addFlags l (f l).2

theorem State.sansRegs_put (s : State) (w : Nat) (d : Opd) (l x : Nat) : (s.put w d l x).sansRegs = s.sansRegs := by
  unfold State.put
  cases d with
  | v n => dsimp only; rw [State.setV_rest]; rfl
  | x n =>
    dsimp only
    split
    · rename_i i hi; simp [State.sansRegs, hi]
    · rfl
  | _ => rfl

theorem State.sansRegs_addFlags (s : State) (l fl : Nat) : (s.addFlags l fl).sansRegs = s.sansRegs := rfl

theorem State.sansRegs_lane (s : State) (d : Opd) (w : Nat) (f : Nat → Nat × Nat) (l : Nat) :
    (s.laneResult d w f l).sansRegs = s.sansRegs := by
  rw [State.laneResult, State.sansRegs_addFlags, State.sansRegs_put]

/-- What every element of a fold keeps, the fold keeps. -/
theorem foldl_keeps {σ β γ : Type} (q : σ → γ) (g : σ → β → σ) (hg : ∀ t x, q (g t x) = q t) (s : σ) (ls : List β) :
    q (ls.foldl g s) = q s := by
  induction ls generalizing s with
  | nil => rfl
  | cons x r ih => rw [List.foldl_cons, ih, hg]

/-- Equal shells place registers alike. -/
theorem State.phys_of_sansRegs {s u : State} (h : u.sansRegs = s.sansRegs) (n k : Nat) : u.phys n k = s.phys n k := by
  have h1 : u.sansRegs.phys n k = s.sansRegs.phys n k := by rw [h]
  exact h1

theorem State.namesReg_of_sansRegs {s u : State} (h : u.sansRegs = s.sansRegs) (d : Opd) (w p : Nat) :
    u.namesReg d w p = s.namesReg d w p := by
  cases d <;> simp [State.namesReg, State.phys_of_sansRegs h]

theorem State.firstReg_of_sansRegs {s u : State} (h : u.sansRegs = s.sansRegs) (d : Opd) (w : Nat) :
    u.firstReg d w = s.firstReg d w := by
  cases d <;> simp [State.firstReg, State.phys_of_sansRegs h]

/-- Vector registers after one lane's result. -/
theorem State.laneResult_reg (s : State) (d : Opd) (w : Nat) (f : Nat → Nat × Nat) (l p j : Nat) (hl : l < 32) (hj : j < 32) :
    (s.laneResult d w f l).warp.reg p j =
      if j = l ∧ s.namesReg d w p then BitVec.ofNat 32 ((f j).1 / 2 ^ (32 * (p - s.firstReg d w))) else s.warp.reg p j := by
  cases d with
  | v n =>
    show (s.setV n (regsFor w) l (f l).1).warp.reg p j = _
    rw [State.setV_reg _ _ _ _ _ _ _ hl hj]
    simp only [State.namesReg, State.firstReg, decide_eq_true_eq]
    by_cases h : j = l ∧ s.phys n (regsFor w) ≤ p ∧ p < s.phys n (regsFor w) + regsFor w
    · rw [if_pos h, if_pos h, h.1]
    · rw [if_neg h, if_neg h]
  | x n =>
    show ((s.put w (.x n) l (f l).1).addFlags l (f l).2).warp.reg p j = _
    unfold State.put
    dsimp only
    split <;> simp [State.namesReg]
  | _ => simp [State.namesReg, State.laneResult, State.put, State.setS, State.addFlags]

/-- One scratch register after k are written from a number, the lowest register lowest (R98). -/
theorem scratchPut_get (t : Tab Word32) (l k m x n : Nat) {j : Nat} (hl : l < 32) (hj : j < 32) :
    Tab.get 0 (scratchPut t l k m x) (n * 32 + j) =
      if j = l ∧ m ≤ n ∧ n < m + k then BitVec.ofNat 32 (x / 2 ^ (32 * (n - m))) else Tab.get 0 t (n * 32 + j) := by
  induction k generalizing t m x with
  | zero => rw [if_neg (by omega)]; rfl
  | succ k ih =>
    rw [scratchPut, ih]
    by_cases h1 : j = l ∧ m + 1 ≤ n ∧ n < m + 1 + k
    · rw [if_pos h1, if_pos (by omega), Nat.div_div_eq_div_mul, ← Nat.pow_add]
      congr 3
      omega
    · rw [if_neg h1]
      by_cases h2 : n = m ∧ j = l
      · obtain ⟨rfl, rfl⟩ := h2
        rw [if_pos (by omega), Tab.get, Tab.find_put_self]
        simp
      · rw [if_neg (by omega), Tab.get, Tab.find_put_ne _ _ (by omega), Tab.get]

/-- Scratch registers after one lane's result. -/
theorem State.laneResult_scratch (s : State) (d : Opd) (w : Nat) (f : Nat → Nat × Nat) (l n j : Nat) (hl : l < 32) (hj : j < 32)
    (hi : s.inner.isSome) :
    (s.laneResult d w f l).scratchReg n j =
      if j = l ∧ namesScratch d w n then BitVec.ofNat 32 ((f j).1 / 2 ^ (32 * (n - firstScratch d))) else s.scratchReg n j := by
  obtain ⟨i, hi⟩ := Option.isSome_iff_exists.mp hi
  cases d with
  | x m =>
    simp only [State.laneResult, State.put, hi, State.scratchReg, State.addFlags_inner, namesScratch, firstScratch,
      scratchPut_get _ _ _ _ _ _ hl hj, decide_eq_true_eq]
    by_cases h : j = l
    · rw [h]
    · simp [h]
  | v m =>
    have h : (s.laneResult (.v m) w f l).inner = s.inner := by
      show (s.setV m (regsFor w) l (f l).1).inner = _
      rw [State.setV_rest]
    simp [State.scratchReg, h, namesScratch]
  | _ => simp [State.scratchReg, namesScratch, State.laneResult, State.put, State.setS, State.addFlags]

/-- Flags after one lane's result. -/
theorem State.laneResult_flags (s : State) (d : Opd) (w : Nat) (f : Nat → Nat × Nat) (l j : Nat) :
    (s.laneResult d w f l).getFlags j = if j = l then s.getFlags l ||| BitVec.ofNat 8 (f l).2 else s.getFlags j := by
  have h : ∀ k, (s.put w d l (f l).1).getFlags k = s.getFlags k := by
    intro k
    unfold State.put
    cases d with
    | v n => dsimp only; rw [State.setV_rest]; rfl
    | x n => dsimp only; split <;> rfl
    | _ => rfl
  rw [State.laneResult, State.getFlags_addFlags, h, h]

/-- Scalar registers after one lane's result in an operand that is no scalar register. -/
theorem State.laneResult_getS (s : State) (d : Opd) (w : Nat) (f : Nat → Nat × Nat) (l n : Nat) (h : isScalarDest d = false) :
    (s.laneResult d w f l).getS n = s.getS n := by
  unfold State.laneResult State.put
  cases d with
  | s m => simp [isScalarDest] at h
  | v m => dsimp only; rw [State.addFlags_getS, State.setV_rest]; rfl
  | x m => dsimp only; split <;> rfl
  | _ => rfl

/-- The lanes of a list each take their own result. -/
theorem State.fold_reg (s : State) (d : Opd) (w : Nat) (f : Nat → Nat × Nat) (ls : List Nat) (hls : ∀ l ∈ ls, l < 32) (p j : Nat)
    (hj : j < 32) :
    (ls.foldl (State.laneResult d w f) s).warp.reg p j =
      if j ∈ ls ∧ s.namesReg d w p then BitVec.ofNat 32 ((f j).1 / 2 ^ (32 * (p - s.firstReg d w))) else s.warp.reg p j := by
  induction ls generalizing s with
  | nil => simp
  | cons l r ih =>
    have hs := State.sansRegs_lane s d w f l
    rw [List.foldl_cons, ih _ (fun x hx => hls x (List.mem_cons_of_mem _ hx)), State.namesReg_of_sansRegs hs,
      State.firstReg_of_sansRegs hs, State.laneResult_reg _ _ _ _ _ _ _ (hls l List.mem_cons_self) hj]
    by_cases hn : s.namesReg d w p <;> by_cases h1 : j ∈ r <;> by_cases h2 : j = l <;> simp [hn, h1, h2]

theorem State.sansRegs_fold (s : State) (d : Opd) (w : Nat) (f : Nat → Nat × Nat) (ls : List Nat) :
    (ls.foldl (State.laneResult d w f) s).sansRegs = s.sansRegs :=
  foldl_keeps State.sansRegs _ (fun t l => State.sansRegs_lane t d w f l) s ls

theorem State.inner_of_sansRegs {s u : State} (h : u.sansRegs = s.sansRegs) : u.inner.isSome = s.inner.isSome := by
  have h1 : u.sansRegs.inner.isSome = s.sansRegs.inner.isSome := by rw [h]
  simpa [State.sansRegs] using h1

theorem State.fold_scratch (s : State) (d : Opd) (w : Nat) (f : Nat → Nat × Nat) (ls : List Nat) (hls : ∀ l ∈ ls, l < 32)
    (n j : Nat) (hj : j < 32) (hi : s.inner.isSome) :
    (ls.foldl (State.laneResult d w f) s).scratchReg n j =
      if j ∈ ls ∧ namesScratch d w n then BitVec.ofNat 32 ((f j).1 / 2 ^ (32 * (n - firstScratch d))) else s.scratchReg n j := by
  induction ls generalizing s with
  | nil => simp
  | cons l r ih =>
    have hs := State.inner_of_sansRegs (State.sansRegs_lane s d w f l)
    rw [List.foldl_cons, ih _ (fun x hx => hls x (List.mem_cons_of_mem _ hx)) (hs.trans hi),
      State.laneResult_scratch _ _ _ _ _ _ _ (hls l List.mem_cons_self) hj hi]
    by_cases hn : namesScratch d w n <;> by_cases h1 : j ∈ r <;> by_cases h2 : j = l <;> simp [hn, h1, h2]

theorem State.fold_flags (s : State) (d : Opd) (w : Nat) (f : Nat → Nat × Nat) (ls : List Nat) (j : Nat) :
    (ls.foldl (State.laneResult d w f) s).getFlags j =
      if j ∈ ls then s.getFlags j ||| BitVec.ofNat 8 (f j).2 else s.getFlags j := by
  induction ls generalizing s with
  | nil => simp
  | cons l r ih =>
    rw [List.foldl_cons, ih, State.laneResult_flags]
    by_cases h1 : j ∈ r <;> by_cases h2 : j = l <;> simp [h1, h2, BitVec.or_assoc]

theorem State.fold_getS (s : State) (d : Opd) (w : Nat) (f : Nat → Nat × Nat) (ls : List Nat) (n : Nat)
    (h : isScalarDest d = false) : (ls.foldl (State.laneResult d w f) s).getS n = s.getS n :=
  foldl_keeps (fun t => t.getS n) _ (fun t l => State.laneResult_getS t d w f l n h) s ls

/-- What setting flags in one lane keeps, setting them in many keeps. -/
theorem State.addFlagsAll_keeps {γ : Type} (q : State → γ) (fl : Nat) (h : ∀ t l, q (State.addFlags t l fl) = q t) (s : State)
    (ls : List Nat) : q (s.addFlagsAll ls fl) = q s := foldl_keeps q _ (fun t l => h t l) s ls

theorem State.addFlagsAll_getFlags (s : State) (ls : List Nat) (fl j : Nat) :
    (s.addFlagsAll ls fl).getFlags j = if j ∈ ls then s.getFlags j ||| BitVec.ofNat 8 fl else s.getFlags j := by
  unfold State.addFlagsAll
  induction ls generalizing s with
  | nil => simp
  | cons l r ih =>
    rw [List.foldl_cons, ih, State.getFlags_addFlags]
    by_cases h1 : j ∈ r <;> by_cases h2 : j = l <;> simp [h1, h2, BitVec.or_assoc]

/-- A result is written as Wrote says, and nothing else changes. -/
theorem State.perLane_wrote (s : State) (act : Word32) (d : Opd) (w : Nat) (f : Nat → Nat × Nat) :
    Wrote s (s.perLane act d w f) act d w (fun l => (f l).1) (fun l => (f l).2) := by
  by_cases hd : isScalarDest d = true
  · cases d with
    | s n =>
      have he : s.perLane act (.s n) w f =
          (s.put w (.s n) 0 (f (lowest act)).1).addFlagsAll (lanesOf act) (f (lowest act)).2 := by
        rw [State.perLane, if_pos hd]
      rw [he]
      refine ⟨?_, ?_, ?_, ?_, ?_⟩
      · intro p l _
        simp only [State.namesReg, Bool.and_false, Bool.false_eq_true, if_false]
        exact (State.addFlagsAll_keeps (fun t => t.warp.reg p l) _ (fun _ _ => rfl) _ _).trans rfl
      · intro m
        refine (State.addFlagsAll_keeps (fun t => t.getS m) _ (fun _ _ => rfl) _ _).trans ?_
        show (s.setS n _).getS m = _
        rw [State.getS_setS]
        by_cases h : m = n
        · subst h
          rw [if_pos rfl, if_pos rfl]
          split <;> omega
        · rw [if_neg h, if_neg (fun e => h (Opd.s.inj e).symm)]
      · intro m l _ _
        simp only [namesScratch, Bool.and_false, Bool.false_eq_true, if_false]
        exact (State.addFlagsAll_keeps (fun t => t.scratchReg m l) _ (fun _ _ => rfl) _ _).trans rfl
      · intro l
        rw [State.addFlagsAll_getFlags, if_pos hd]
        simp only [mem_lanesOf]
        rfl
      · exact (State.addFlagsAll_keeps State.sansRegs _ (fun _ _ => rfl) _ _).trans rfl
    | _ => simp [isScalarDest] at hd
  · have hd : isScalarDest d = false := by simpa using hd
    have he : s.perLane act d w f = (lanesOf act).foldl (State.laneResult d w f) s := by
      rw [State.perLane, hd]; rfl
    rw [he]
    refine ⟨?_, ?_, ?_, ?_, State.sansRegs_fold _ _ _ _ _⟩
    · intro p l hl
      rw [State.fold_reg _ _ _ _ _ (fun _ h => lanesOf_lt h) _ _ hl]
      simp [mem_lanesOf]
    · intro m
      rw [State.fold_getS _ _ _ _ _ _ hd, if_neg]
      rintro rfl
      simp [isScalarDest] at hd
    · intro m l hl hi
      rw [State.fold_scratch _ _ _ _ _ (fun _ h => lanesOf_lt h) _ _ hl hi]
      simp [mem_lanesOf]
    · intro l
      rw [State.fold_flags, hd]
      simp [mem_lanesOf]

/-! ### Predicates -/

/-- A predicate is written as WrotePred says when the flags stay. -/
theorem State.perLanePred_wrote (s : State) (act : Word32) (p : Nat) (f : Nat → Bool) :
    WrotePred s (s.perLanePred act p (fun l => (f l, 0))) act p f := by
  have hlane : ∀ (t : State) l, ((t.setP p l (f l)).addFlags l 0).sansPreds = t.sansPreds := by
    intro t l; unfold State.setP; split <;> rfl
  have hflag : ∀ (t : State) l j, ((t.setP p l (f l)).addFlags l 0).getFlags j = t.getFlags j := by
    intro t l j
    have h : ∀ k, (t.setP p l (f l)).getFlags k = t.getFlags k := by intro k; unfold State.setP; split <;> rfl
    rw [State.getFlags_addFlags, h, h]
    by_cases e : j = l <;> simp [e]
  refine ⟨?_, fun j => ?_, foldl_keeps State.sansPreds _ hlane s _⟩
  · intro n j hj
    have key : ∀ (ls : List Nat) (t : State), (∀ l ∈ ls, l < 32) →
        (ls.foldl (fun u l => (u.setP p l (f l)).addFlags l 0) t).getP n j =
          if n = p ∧ n ≠ 7 ∧ j ∈ ls then f j else t.getP n j := by
      intro ls
      induction ls with
      | nil => intro t _; simp
      | cons l r ih =>
        intro t h
        rw [List.foldl_cons, ih _ (fun x hx => h x (List.mem_cons_of_mem _ hx)), State.addFlags_getP,
          State.getP_setP _ _ _ _ _ _ (h l List.mem_cons_self) hj]
        by_cases h0 : n = p ∧ n ≠ 7
        · by_cases h1 : j ∈ r <;> by_cases h2 : j = l <;> simp [h0.1, h1, h2] <;> simp_all
        · rw [if_neg (fun e => h0 ⟨e.1, e.2.1⟩), if_neg (fun e => h0 ⟨e.1, e.2.1⟩), if_neg (fun e => h0 ⟨e.1, e.2.1⟩)]
    have := key (lanesOf act) s (fun l h => lanesOf_lt h)
    simp only [mem_lanesOf] at this
    exact this
  · exact foldl_keeps (fun t => State.getFlags t j) (fun u l => State.addFlags (State.setP u p l (f l)) l 0)
      (fun t l => hflag t l j) s _

end Sys2Proof.Machine
end

