-- ==== Sys2Proof/Laws/Memory.lean ====
section
/-!
SUPPORT. What the operations that store to memory can do: they keep its canonical form, and they leave bytes that they do not name.
-/
namespace Sys2Proof.Machine

/-- The bits of a mask without bit i. -/
@[simp] theorem testBit_clearBit (m i j : Nat) : (clearBit m i).testBit j = (m.testBit j && decide (i ≠ j)) := by
  unfold clearBit
  by_cases hj : i = j
  · subst hj; by_cases h : m.testBit i <;> simp [h, Nat.testBit_two_pow_self]
  · by_cases h : m.testBit i <;> simp [h, hj]

/-! ### Lines under keys -/

/-- A line without seals reads as memory lists it. -/
@[simp] theorem Seal.reads_zero (i : Nat) (t : Option Nat) : Seal.zero.reads i t = .plain := by
  cases t <;> simp [Seal.reads, Seal.zero]

/-- What a store under a key has written, an access under that key reads as it was written. -/
theorem Seal.store_reads (x : Seal) (i : Nat) (t : Option Nat) : (x.store i t).reads i t = .plain := by
  cases t with
  | none => unfold Seal.store; dsimp only; split <;> simp [Seal.reads]
  | some t => unfold Seal.store; dsimp only; split <;> simp [Seal.reads, Nat.testBit_or, Nat.testBit_two_pow_self]

/-- Where nothing hides it, a byte reads as memory holds it. -/
theorem Dev.readByte_plain (d : Dev) (p : Phys) (h : d.readsAs p = .plain) : d.readByte p = d.mem.read p.pa ^^^ d.blank p.pa := by
  simp [Dev.readByte, h]

/-! ### Stores -/

/-- A stored byte changes memory at its address alone, or not at all where it lies in the key table. -/
theorem Dev.writeByte_mem (d : Dev) (p : Phys) (b : Byte) :
    (d.writeByte p b).mem = if d.inKeys p.pa then d.mem else d.mem.write p.pa (b ^^^ d.blank p.pa) := by
  unfold Dev.writeByte Dev.writeKey
  by_cases h : d.inKeys p.pa
  · simp only [h, if_true]; split <;> rfl
  · simp [h]

theorem Dev.wf_writeByte {d : Dev} (h : d.mem.wf = true) (p : Phys) (b : Byte) : (d.writeByte p b).mem.wf = true := by
  rw [Dev.writeByte_mem]
  split
  · exact h
  · exact Memory.wf_write h _ _

theorem Dev.read_writeByte_ne (d : Dev) (p : Phys) (b : Byte) {a : Nat} (h : a ≠ p.pa) : (d.writeByte p b).mem.read a = d.mem.read a := by
  rw [Dev.writeByte_mem]
  split
  · rfl
  · exact Memory.read_write_ne _ _ h

theorem Dev.wf_scatter {d : Dev} (h : d.mem.wf = true) (ps : List Phys) (x : Nat) : (d.scatter ps x).mem.wf = true := by
  induction ps generalizing d x with
  | nil => exact h
  | cons p r ih => exact ih (Dev.wf_writeByte h p _) _

theorem Dev.read_scatter_outside (d : Dev) (ps : List Phys) (x : Nat) {a : Nat} (h : ∀ p ∈ ps, p.pa ≠ a) :
    (d.scatter ps x).mem.read a = d.mem.read a := by
  induction ps generalizing d x with
  | nil => rfl
  | cons p r ih =>
    rw [Dev.scatter, ih _ _ (fun q hq => h q (List.mem_cons_of_mem _ hq)), Dev.read_writeByte_ne _ _ _ (h p (List.mem_cons_self ..)).symm]

/-! ### Marks and retirements leave memory as it is -/

@[simp] theorem Dev.mark_mem (d : Dev) (pas : List Nat) : (d.mark pas).mem = d.mem := rfl

/-- What a read-modify-write stores is the plain strong store; it may leave marks besides. -/
theorem State.storeBack_rest (s : State) (keeps : Bool) (ps : List Phys) (x : Nat) :
    s.storeBack keeps ps x = { s.store ps x true with
      dev := { (s.store ps x true).dev with marked := (s.storeBack keeps ps x).dev.marked } } := by
  unfold State.storeBack; dsimp only; split <;> split <;> rfl

@[simp] theorem State.storeBack_mem (s : State) (keeps : Bool) (ps : List Phys) (x : Nat) :
    (s.storeBack keeps ps x).dev.mem = (s.store ps x true).dev.mem := by rw [State.storeBack_rest]

/-- A core that its last workgroup leaves changes nothing but cores, the slice's spare and what saved workgroups may go back to. -/
theorem Dev.vacate_rest (d : Dev) (sl c : Nat) :
    d.vacate sl c = { d with cores := (d.vacate sl c).cores, slices := (d.vacate sl c).slices, saved := (d.vacate sl c).saved } := by
  unfold Dev.vacate; dsimp only; split
  · rfl
  · split <;> rfl

@[simp] theorem Dev.vacate_mem (d : Dev) (sl c : Nat) : (d.vacate sl c).mem = d.mem := by rw [Dev.vacate_rest]
@[simp] theorem Dev.vacate_fibs (d : Dev) (sl c : Nat) : (d.vacate sl c).fibs = d.fibs := by rw [Dev.vacate_rest]
@[simp] theorem Dev.vacate_warps (d : Dev) (sl c : Nat) : (d.vacate sl c).warps = d.warps := by rw [Dev.vacate_rest]
@[simp] theorem Dev.vacate_wgs (d : Dev) (sl c : Nat) : (d.vacate sl c).wgs = d.wgs := by rw [Dev.vacate_rest]
@[simp] theorem Dev.vacate_cmds (d : Dev) (sl c : Nat) : (d.vacate sl c).cmds = d.cmds := by rw [Dev.vacate_rest]

/-- Reset lists nothing. -/
theorem State.reset_wf : State.reset.dev.mem.wf = true := by decide

end Sys2Proof.Machine
end

