-- ==== Sys2Proof/Laws/Shadow.lean ====
section
/-!
SUPPORT. What can happen to the shadow of a guarded warp, and to a port of the fabric: one lemma for each operation (R25, R225, R226).
-/
namespace Sys2Proof.Machine

/-! ### The leading warp stays as it is -/

@[simp] theorem Warp.setReg_shadow (w : Warp) (p l : Nat) (x : Word32) : (w.setReg p l x).shadow = w.shadow := rfl
@[simp] theorem Warp.pushStep_v (w : Warp) (n k : Nat) (f : ShadowFib) : (w.pushStep n f k).v = w.v := rfl
@[simp] theorem Warp.pushStep_poison (w : Warp) (n k : Nat) (f : ShadowFib) : (w.pushStep n f k).poison = w.poison := rfl
@[simp] theorem Warp.pushStep_out (w : Warp) (n k : Nat) (f : ShadowFib) : (w.pushStep n f k).out = w.out := rfl
@[simp] theorem Warp.pushStep_place (w : Warp) (n k : Nat) (f : ShadowFib) : (w.pushStep n f k).place = w.place := rfl
@[simp] theorem Warp.pushStep_cur (w : Warp) (n k : Nat) (f : ShadowFib) : (w.pushStep n f k).cur = w.cur := rfl

theorem Warp.receive_rest (w : Warp) (n : Nat) (f : ShadowFib) : w.receive n f = { w with shadow := (w.receive n f).shadow } := by
  unfold Warp.receive; split <;> rfl

@[simp] theorem State.pushStep_dev (s : State) (k : Nat) : (s.pushStep k).dev = s.dev := by unfold State.pushStep; split <;> rfl
@[simp] theorem State.pushStep_fib (s : State) (k : Nat) : (s.pushStep k).fib = s.fib := by unfold State.pushStep; split <;> rfl
@[simp] theorem State.pushStep_split (s : State) (k : Nat) : (s.pushStep k).split = s.split := by unfold State.pushStep; split <;> rfl
@[simp] theorem State.pushStep_wg (s : State) (k : Nat) : (s.pushStep k).wg = s.wg := by unfold State.pushStep; split <;> rfl

/-! ### The trail -/

/-- An instruction goes behind those by which the shadow trails. -/
theorem Warp.trail_pushStep (w : Warp) (n k : Nat) (f : ShadowFib) (h : Shadow) (hs : w.shadow = some h) :
    (w.pushStep n f k).trail = w.trail ++ [⟨n, f, w.v, k⟩] := by simp [Warp.trail, Warp.pushStep, hs]

theorem Warp.queued_pushStep (w : Warp) (n k : Nat) (f : ShadowFib) (h : Shadow) (hs : w.shadow = some h) :
    (w.pushStep n f k).queued = w.queued + k := by simp [Warp.queued, w.trail_pushStep n k f h hs]

/-- The shadow comes to the oldest instruction by which it trails, with the registers behind it. -/
theorem Shadow.issue_cons (h : Shadow) (x : ShadowStep) (r : List ShadowStep) (ht : h.trail = x :: r) :
    h.issue = { h with v := x.v, fibs := h.fibs.put x.fib x.after, trail := r } := by simp [Shadow.issue, ht]

/-- A shadow that does not trail stays where it is. -/
theorem Shadow.issue_nil (h : Shadow) (ht : h.trail = []) : h.issue = h := by simp [Shadow.issue, ht]

/-- A warp without a shadow does not trail, and its queue has room. -/
theorem Warp.trails_none (w : Warp) (hs : w.shadow = none) : w.trails = false ∧ w.queued = 0 ∧ w.hasRoom = true := by
  simp [Warp.trails, Warp.hasRoom, Warp.queued, Warp.trail, hs]

/-! ### Records that are held -/

/-- A warp whose shadow does not trail runs at once. -/
theorem State.holdRecord_run (s : State) (run : State → Host.Outcome State Fault Refusal) (h : s.warp.trails = false) :
    s.holdRecord run = run s := by simp [State.holdRecord, h]

/-- Either the instruction runs, or the split stalls until the shadow has come to it. -/
theorem State.holdRecord_cases (s : State) (run : State → Host.Outcome State Fault Refusal) :
    s.holdRecord run = run s ∨
      (s.warp.trails = true ∧ s.wouldPin run = true ∧ s.holdRecord run = .next (s.stall [.shadow s.warpKey false])) := by
  unfold State.holdRecord
  by_cases h : s.warp.trails = true ∧ s.wouldPin run = true
  · right; simp [h.1, h.2]
  · left; rw [if_neg (by simpa using h)]

/-- Where nothing issues, no record pins anything. -/
theorem State.wouldPin_idle (s : State) (run : State → Host.Outcome State Fault Refusal) (h : s.cur = none) : s.wouldPin run = false := by
  simp [State.wouldPin, h]

/-- An evaluation that has loaded nothing since the INV's issue ends with its trap. -/
theorem State.invTrap_own (s0 s u : State) (ls : List Nat) (ev : Nat) (h : s.warp.trail.length = s0.warp.trail.length) :
    s0.invTrap s u ls ev = u.invMark s0.split.pc ls ev := by simp [State.invTrap, State.pinsEarly, h]

/-! ### Ports -/

@[simp] theorem Port.run_sent (x : Port) : x.run.sent = x.sent := rfl

/-- A port's flits move one place, in order, until all are taken. -/
theorem Port.run_spec (x : Port) (h1 : x.taken ≤ x.next) (h2 : x.next ≤ x.sent) :
    x.run.taken ≤ x.run.next ∧ x.run.next ≤ x.run.sent ∧ x.taken ≤ x.run.taken ∧ x.next ≤ x.run.next ∧
      (x.run = x ↔ x.taken = x.sent) := by
  obtain ⟨t, s, n⟩ := x
  simp only [Port.run, Port.mk.injEq]
  simp only at h1 h2
  by_cases h : t < n <;> by_cases k : n < s <;> simp [h, k] <;> omega

end Sys2Proof.Machine
end

