-- ==== Sys2Proof/Laws/Shapes.lean ====
section
/-!
SUPPORT. The shapes of Machine/Integer.lean that the integer and float instructions share: an operation of one, two or three
sources writes its result in each active lane and the split moves behind the word.
-/
namespace Sys2Proof.Machine

/-- Clearing the mark changes no operand. -/
theorem State.get_clearMark (s : State) (cls : ImmCls) (w : Nat) (o : Opd) (l : Nat) :
    s.clearMark.get cls w o l = s.get cls w o l := by rw [State.clearMark_rest]; rfl

theorem alu1_wrote {i : Instr} {o : A1} {cls : ImmCls} {wd wa : Nat} {f : Nat → Nat × Nat} {s : State}
    (h : s.ready (.opds o.g [(o.a, wa)] [(o.d, wd)]) = true) :
    ∃ u, alu1 i o cls wd wa f s = .next (u.advance i.bytes) ∧
      Wrote s.clearMark u (s.active o.g) o.d wd (fun l => (f (s.get cls wa o.a l)).1) (fun l => (f (s.get cls wa o.a l)).2) := by
  have e : alu1 i o cls wd wa f s =
      .next ((s.clearMark.perLane (s.active o.g) o.d wd (fun l => f (s.clearMark.get cls wa o.a l))).advance i.bytes) :=
    State.issue_ready (p := { Pre.opds o.g [(o.a, wa)] [(o.d, wd)] with len := i.bytes }) h
      (fun act t => (t.perLane act o.d wd (fun l => f (t.get cls wa o.a l))).advance i.bytes)
  simp only [State.get_clearMark] at e
  exact ⟨_, e, State.perLane_wrote _ _ _ _ _⟩

theorem alu2_wrote {i : Instr} {o : A2} {cls : ImmCls} {w wb : Nat} {f : Nat → Nat → Nat × Nat} {s : State}
    (h : s.ready (.opds o.g [(o.a, w), (o.b, wb)] [(o.d, w)]) = true) :
    ∃ u, alu2 i o cls w wb f s = .next (u.advance i.bytes) ∧
      Wrote s.clearMark u (s.active o.g) o.d w (fun l => (f (s.get cls w o.a l) (s.get cls wb o.b l)).1) (fun l => (f (s.get cls w o.a l) (s.get cls wb o.b l)).2) := by
  have e : alu2 i o cls w wb f s =
      .next ((s.clearMark.perLane (s.active o.g) o.d w (fun l => f (s.clearMark.get cls w o.a l) (s.clearMark.get cls wb o.b l))).advance i.bytes) :=
    State.issue_ready (p := { Pre.opds o.g [(o.a, w), (o.b, wb)] [(o.d, w)] with len := i.bytes }) h
      (fun act t => (t.perLane act o.d w (fun l => f (t.get cls w o.a l) (t.get cls wb o.b l))).advance i.bytes)
  simp only [State.get_clearMark] at e
  exact ⟨_, e, State.perLane_wrote _ _ _ _ _⟩

theorem alu3_wrote {i : Instr} {o : A3} {cls : ImmCls} {w wb : Nat} {f : Nat → Nat → Nat → Nat × Nat} {s : State}
    (h : s.ready (.opds o.g [(o.a, w), (o.b, wb), (o.c, w)] [(o.d, w)]) = true) :
    ∃ u, alu3 i o cls w wb f s = .next (u.advance i.bytes) ∧
      Wrote s.clearMark u (s.active o.g) o.d w (fun l => (f (s.get cls w o.a l) (s.get cls wb o.b l) (s.get cls w o.c l)).1) (fun l => (f (s.get cls w o.a l) (s.get cls wb o.b l) (s.get cls w o.c l)).2) := by
  have e : alu3 i o cls w wb f s =
      .next ((s.clearMark.perLane (s.active o.g) o.d w (fun l => f (s.clearMark.get cls w o.a l) (s.clearMark.get cls wb o.b l) (s.clearMark.get cls w o.c l))).advance i.bytes) :=
    State.issue_ready (p := { Pre.opds o.g [(o.a, w), (o.b, wb), (o.c, w)] [(o.d, w)] with len := i.bytes }) h
      (fun act t => (t.perLane act o.d w (fun l => f (t.get cls w o.a l) (t.get cls wb o.b l) (t.get cls w o.c l))).advance i.bytes)
  simp only [State.get_clearMark] at e
  exact ⟨_, e, State.perLane_wrote _ _ _ _ _⟩

end Sys2Proof.Machine
end

