-- ==== Sys2Proof/Laws/Steps.lean ====
section
/-!
SUPPORT. What a step does besides its instruction: an attempt, an issue opportunity, a wait, the passing of cycles, and a trap of a fibre
that does not issue (R50, R196, R323).
-/
namespace Sys2Proof.Machine

/-! ### Attempts and opportunities -/

@[simp] theorem State.attempt_cur (s : State) : s.attempt.cur = s.cur := rfl
@[simp] theorem State.attempt_fib (s : State) : s.attempt.fib = s.fib := rfl
@[simp] theorem State.attempt_wg (s : State) : s.attempt.wg = s.wg := rfl
@[simp] theorem State.attempt_inner (s : State) : s.attempt.inner = s.inner := rfl
@[simp] theorem State.attempt_pc (s : State) : s.attempt.split.pc = s.split.pc := rfl
@[simp] theorem State.attempt_mask (s : State) : s.attempt.split.mask = s.split.mask := rfl
@[simp] theorem State.attempt_last (s : State) : s.attempt.split.last = s.split.last := rfl
@[simp] theorem State.attempt_opps (s : State) : s.attempt.warp.opps = s.warp.opps := rfl
@[simp] theorem State.attempt_v (s : State) : s.attempt.warp.v = s.warp.v := rfl
@[simp] theorem State.attempt_mem (s : State) : s.attempt.dev.mem = s.dev.mem := rfl

@[simp] theorem State.begin_cur (s : State) : s.begin.cur = s.cur := rfl
@[simp] theorem State.begin_fib (s : State) : s.begin.fib = s.fib := rfl
@[simp] theorem State.begin_wg (s : State) : s.begin.wg = s.wg := rfl
@[simp] theorem State.begin_inner (s : State) : s.begin.inner = s.inner := rfl
@[simp] theorem State.begin_pc (s : State) : s.begin.split.pc = s.split.pc := rfl
@[simp] theorem State.begin_mask (s : State) : s.begin.split.mask = s.split.mask := rfl
@[simp] theorem State.begin_last (s : State) : s.begin.split.last = s.warp.opps + 1 := rfl
@[simp] theorem State.begin_opps (s : State) : s.begin.warp.opps = s.warp.opps + 1 := rfl
@[simp] theorem State.begin_v (s : State) : s.begin.warp.v = s.warp.v := rfl
@[simp] theorem State.begin_mem (s : State) : s.begin.dev.mem = s.dev.mem := rfl

/-- A wait changes no more than the split's state, whether the slot passes, and what an attempt changes. -/
theorem State.waitWith_spec (s : State) (x : SplitState) :
    s.waitWith x = { s.attempt with
      split := { s.attempt.split with st := x }, warp := { s.attempt.warp with pass := x.passes } } := rfl

@[simp] theorem State.waitWith_opps (s : State) (x : SplitState) : (s.waitWith x).warp.opps = s.warp.opps := rfl
@[simp] theorem State.waitWith_pass (s : State) (x : SplitState) : (s.waitWith x).warp.pass = x.passes := rfl
@[simp] theorem State.waitWith_last (s : State) (x : SplitState) : (s.waitWith x).split.last = s.split.last := rfl
@[simp] theorem State.waitWith_fib (s : State) (x : SplitState) : (s.waitWith x).fib = s.fib := rfl
@[simp] theorem State.waitWith_mem (s : State) (x : SplitState) : (s.waitWith x).dev.mem = s.dev.mem := rfl

/-- A split waits where it stalls, in the fibre that it was in. -/
theorem State.waits_iff (t : State) (c : Option Cur) :
    t.waits c = true ↔ t.cur.map (·.key) = c.map (·.key) ∧ ∃ o ds n r, t.split.st = .stalled o ds n r := by
  unfold State.waits
  cases t.split.st <;> simp

@[simp] theorem State.passSlot_cur (t : State) : t.passSlot.cur = t.cur := rfl
@[simp] theorem State.passSlot_split (t : State) : t.passSlot.split = t.split := rfl
@[simp] theorem State.passSlot_fib (t : State) : t.passSlot.fib = t.fib := rfl
@[simp] theorem State.passSlot_dev (t : State) : t.passSlot.dev = t.dev := rfl

/-- A slot whose split goes on stays as it is. -/
theorem State.passSlot_stays (t : State) (h : t.cur = none ∨ (t.split.st.passes = false ∧ t.fib.inService = false)) : t.passSlot = t := by
  rcases h with h | ⟨h1, h2⟩
  · cases t; simp only at h; simp [State.passSlot, h]
  · simp [State.passSlot, h1, h2]

/-- A slot whose split parks, waits at a barrier or freezes passes. -/
theorem State.passSlot_leaves (t : State) (h : t.cur.isSome = true) (hp : t.split.st.passes = true ∨ t.fib.inService = true) :
    t.passSlot = { t with warp := { t.warp with pass := true } } := by
  rcases hp with hp | hp <;> simp [State.passSlot, h, hp]

/-- Whatever the chosen split issues, either it has its effect, or nothing but the wait is left of it. -/
theorem State.issues_ends (s : State) (run : State → Host.Outcome State Fault Refusal) (t : State) (h : run s.begin = .next t) :
    ∃ u, s.Ends t u ∧ s.issues run = .next u := by
  refine ⟨if t.waits s.cur then s.waitWith t.split.st else t.passSlot, ⟨fun sos hw => ?_, fun hw hs hl => ?_, fun hw hs hl => ?_⟩,
    by simp only [State.issues, h]⟩
  · obtain ⟨ds, n, r, he⟩ := hw.2
    rw [if_pos ((State.waits_iff t s.cur).mpr ⟨hw.1, sos, ds, n, r, he⟩), State.waitWith_spec, he]; rfl
  · rw [if_neg (fun hc => hs ((State.waits_iff t s.cur).mp hc).2)]
    refine t.passSlot_leaves (by simpa [Option.isSome_iff_ne_none] using hl.1) ?_
    rcases hl.2 with ⟨_, e⟩ | ⟨_, _, e⟩ | ⟨_, _, e⟩ | e
    · simp [e, SplitState.passes]
    · simp [e, SplitState.passes]
    · simp [e, SplitState.passes]
    · exact .inr e
  · rw [if_neg (fun hc => hs ((State.waits_iff t s.cur).mp hc).2)]
    refine t.passSlot_stays ?_
    by_cases hc : t.cur = none
    · exact .inl hc
    · refine .inr ⟨?_, ?_⟩
      · cases he : t.split.st <;> simp [SplitState.passes]
        · exact absurd ⟨_, _, _, _, he⟩ hs
        · exact hl ⟨hc, .inl ⟨_, he⟩⟩
        · exact hl ⟨hc, .inr (.inl ⟨_, _, he⟩)⟩
        · exact hl ⟨hc, .inr (.inr (.inl ⟨_, _, he⟩))⟩
      · cases hi : t.fib.inService
        · rfl
        · exact absurd ⟨hc, .inr (.inr (.inr hi))⟩ hl

/-- What does not answer a next state is passed on. -/
theorem State.issues_next (s : State) (run : State → Host.Outcome State Fault Refusal) (u : State) (h : s.issues run = .next u) :
    ∃ t, run s.begin = .next t ∧ s.Ends t u := by
  cases hr : run s.begin with
  | next t =>
    obtain ⟨v, hv, he⟩ := s.issues_ends run t hr
    rw [h] at he; cases he
    exact ⟨t, rfl, hv⟩
  | fault x => simp [State.issues, hr] at h
  | refused x => simp [State.issues, hr] at h

/-! ### Cycles -/

/-- The count of cycles never decreases. -/
theorem laterBy_le (c : Word64) (n : Nat) : c.toNat ≤ (laterBy c n).toNat := by
  have h := c.isLt
  simp only [laterBy, BitVec.toNat_ofNat]
  omega

/-- Until it would pass its greatest value the count is exact. -/
theorem laterBy_eq (c : Word64) (n : Nat) (h : c.toNat + n < 2 ^ 64) : (laterBy c n).toNat = c.toNat + n := by
  simp only [laterBy, BitVec.toNat_ofNat]
  omega

theorem State.tick_cycles_le (s : State) : s.dev.cycles.toNat ≤ s.tick.dev.cycles.toNat := laterBy_le _ _

@[simp] theorem State.tick_mem (s : State) : s.tick.dev.mem = s.dev.mem := rfl
@[simp] theorem State.tick_fib (s : State) : s.tick.fib = s.fib := rfl
@[simp] theorem State.tick_split (s : State) : s.tick.split = s.split := rfl
@[simp] theorem State.tick_warp (s : State) : s.tick.warp = s.warp := rfl
@[simp] theorem State.tick_wg (s : State) : s.tick.wg = s.wg := rfl
@[simp] theorem State.tick_cur (s : State) : s.tick.cur = s.cur := rfl

/-! ### Traps of a fibre that does not issue -/

theorem Dev.deliver_mem (d : Dev) (c : Nat) : (d.deliver c).mem = d.mem := by
  unfold Dev.deliver Dev.settleCmd Dev.receive
  repeat' split
  all_goals rfl

/-- To bring a shadow up stores nothing. -/
theorem Dev.pairUp_mem (d : Dev) (w : Nat) : (d.pairUp w).mem = d.mem :=
  foldl_keeps Dev.mem _ Dev.deliver_mem _ _

/-- A trap changes no register and moves no split of the fibre. -/
theorem Dev.takeTrap_keeps (d : Dev) (key : Nat) (g : Wg) (w : Warp) (f : Fib) (inH : Bool) (t : TrapIn) :
    let u := (d.takeTrap key g w f inH t).2
    u.s = f.s ∧ u.preds = f.preds ∧ u.brk = f.brk ∧ u.flags = f.flags ∧ u.splits = f.splits ∧ u.tree = f.tree ∧ u.spilled = f.spilled := by
  cases h : routeOf t.cause <;> cases inH <;> simp only [Dev.takeTrap, Dev.takeTrapBy, h]
  all_goals try split_ifs
  all_goals simp

/-- A trap of a fibre in the tables leaves the split that issues, and what issues with it, as they are. -/
theorem State.trapFib_rest (s : State) (k : Nat) (t : TrapIn) : s.trapFib k t = { s with dev := (s.trapFib k t).dev } := by
  unfold State.trapFib
  dsimp only
  split <;> rfl

end Sys2Proof.Machine
end

