-- ==== Sys2Proof/Tests/Slice0.lean ====
section
/-!
SUPPORT. Tests: words of the spec and the instructions they decode to, terms and words that are refused, single steps with results
taken from the spec's examples, and for every obligation with hypotheses a state and operands that meet them together.
-/
namespace Sys2Proof.Tests

open Sys2Proof Sys2Proof.Machine

set_option maxRecDepth 8000
set_option exponentiation.threshold 5000

/-- The guard that is always true. -/
def g7 : Guard := ⟨false, 7⟩

/-- A split of lanes 0 and 1 that issues at 0x10000 in a fibre of the reset partition. -/
def two : State := { State.reset.fixture with split := { State.reset.fixture.split with mask := 3 } }

/-- The same in a handler. -/
def handler : State := { two with cur := some ⟨0, 64, true⟩, fib := { two.fib with trapped := some ⟨0x5E, 0x10000, 0⟩ } }

/-- Nothing issues. -/
def idle : State := State.reset

/-- An answer seen as an option. -/
theorem ok_of_some {ε α : Type} {x : Except ε α} {y : α} (h : x.toOption = some y) : x = .ok y := by
  cases x with
  | error _ => cases h
  | ok z => cases h; rfl

/-- What is no answer is a refusal. -/
theorem error_of_none {ε α : Type} {x : Except ε α} (h : x.toOption = none) : ∃ e, x = .error e := by
  cases x with
  | error e => exact ⟨e, rfl⟩
  | ok _ => cases h

/-- What holds in lanes 0 to 31 holds in every lane of a mask. -/
theorem of_lanes {m : Word32} {P : Nat → Prop} (h : ∀ l, l < 32 → laneIn m l = true → P l) : ∀ l, laneIn m l = true → P l := by
  intro l hl
  have : l < 32 := by simp [laneIn] at hl; exact hl.1
  exact h l this hl

/-! ### Words of the spec and the instructions they decode to -/

/-- Each word decodes to its instruction, and the encoder gives the word back. -/
def reads (l : List (Nat × Instr)) : Bool :=
  l.all (fun p => decide ((decodeWord false p.1).toOption = some p.2) && decide ((encode p.2).map (·.2) = some p.1))

/-- Words of R326, 05_encoding, R325, R331, R85, R328, R324, R277. -/
theorem test_decode_integer_1 :
    reads [
      (0x2400802000047001, .iadd ⟨g7, .u64, .v 4, .v 0, .v 8⟩ none (some 1)),
      (0x50A10017001, .iadd ⟨g7, .u32, .v 1, .s 8, .lane⟩ none none),
      (0xFFFFFFFF381018020D047006, .isub ⟨g7, .s64, .s 4, .s 6, .imm32 0xFFFFFFFF⟩ (some 3) none),
      (0xC04017009, .imul ⟨g7, .u32, .v 1, .v 2, .v 3⟩),
      (0x1013FFFC0401700D, .imulh ⟨g7, .s32, .v 1, .v 2, .imm16 0xFFFF⟩),
      (0x800000000020000C04017012, .imad ⟨g7, .u32, .v 1, .v 2, .v 3, .imm32 0x80000000⟩),
      (0xFFFFFFFFFFFFFFFF2010300008027013, .imad ⟨g7, .u64, .v 2, .v 4, .imm64 0xFFFFFFFFFFFFFFFF, .v 6⟩),
      (0x1200000C04017015, .idiv ⟨g7, .s32, .v 1, .v 2, .v 3⟩ true),
      (0x5000000C04017019, .imin ⟨g7, .s16, .v 1, .v 2, .v 3⟩),
      (0x6000050C0401701D, .imax ⟨g7, .u8, .v 1, .v 2, .ones⟩),
      (0x5000000004017021, .iabs ⟨g7, .s16, .v 1, .v 2⟩),
      (0x13FFFC02017041, .and ⟨g7, .u32, .v 1, .v 1, .imm16 0xFFFF⟩)] = true := by decide

/-- Words of R277, R346, R382, R356, R348, R287, R284. -/
theorem test_decode_integer_2 :
    reads [
      (0xC04017045, .andn ⟨g7, .u32, .v 1, .v 2, .v 3⟩),
      (0x44621137049, .or ⟨g7, .u32, .s 19, .s 16, .s 17⟩),
      (0x1000800205704D, .xor ⟨g7, .u32, .v 5, .v 1, .imm16 32⟩),
      (0x10001611087061, .shl ⟨g7, .u32, .s 8, .s 8, .imm16 5⟩),
      (0xC04017065, .shr ⟨g7, .u32, .v 1, .v 2, .v 3⟩),
      (0x1000000C04017069, .sar ⟨g7, .s32, .v 1, .v 2, .v 3⟩),
      (0xC0401706D, .rot ⟨g7, .u32, .v 1, .v 2, .v 3⟩),
      (0x4017081, .popc ⟨g7, .u32, .v 1, .v 2⟩),
      (0x22B157085, .clz ⟨g7, .u32, .s 21, .s 21⟩),
      (0x229157089, .brev ⟨g7, .u32, .s 21, .s 20⟩),
      (0x101020100203708D, .bfx ⟨g7, .s32, .v 3, .v 1, .imm16 0x0804⟩),
      (0x41C0010280004047092, .bfi ⟨g7, .u32, .v 4, .v 2, .imm32 0x041C, .v 5⟩)] = true := by decide

/-- Words of R327, R347, R360, R337, R343, R344. -/
theorem test_decode_integer_3 :
    reads [
      (0x10800500080170A1, .icmp g7 .s32 .lt 1 (.v 4) .zero),
      (0xEA000008020370A5, .plop g7 0xEA 3 1 2 (.pred 0)),
      (0x8088481C020570A5, .plop g7 0x80 5 1 7 (.sreg (.s 9))),
      (0x1808020470C1, .sel g7 .u32 (.v 4) (.v 1) (.v 2) 3),
      (0x2300050A001070C5, .lea g7 false false (.v 16) ⟨.s 0, .lane, 6, none⟩),
      (0x20000002011870C9, .mov ⟨g7, .u64, .s 24, .s 0⟩),
      (0x100008010870CD, .movi g7 .u32 (.s 8) (.imm16 2) false)] = true := by decide

/-- Words of 05_encoding, R303, R320, R307, R306, R314. -/
theorem test_decode_float_1 :
    reads [
      (0x8000000C04047201, .fadd ⟨g7, .f32, .v 4, .v 2, .v 3⟩ .rne),
      (0x9C00001804047205, .fsub ⟨g7, .f64, .v 4, .v 2, .v 6⟩ .rd),
      (0xA400000C04047209, .fmul ⟨g7, .f16, .v 4, .v 2, .v 3⟩ .rz),
      (0xF800280C0404720D, .ffma ⟨g7, .bf16x2, .v 4, .v 2, .v 3, .v 5⟩ .ru),
      (0x8000000C04047211, .fmin ⟨g7, .f32, .v 4, .v 2, .v 3⟩),
      (0x8000000C04047215, .fmax ⟨g7, .f32, .v 4, .v 2, .v 3⟩),
      (0x8080000C04017221, .fcmp g7 .f32 .lt 1 (.v 2) (.v 3)),
      (0x8000000004017225, .fclass ⟨g7, .f32, .v 1, .v 2⟩),
      (0x8210080C04017225, .fclassPred g7 .f32 1 (.v 2) 0x203),
      (0x8000000004017241, .frcp ⟨g7, .f32, .v 1, .v 2⟩ .rne),
      (0x9400000008027245, .frsq ⟨g7, .f64, .v 2, .v 4⟩ .rz),
      (0xA800000004017249, .fsqrt ⟨g7, .f16, .v 1, .v 2⟩ .ru)] = true := by decide

/-- Words of R314, R308, 23_ref_d_f, R319, R318, R316, R298, R297. -/
theorem test_decode_float_2 :
    reads [
      (0x8C00000C0401724D, .fdiv ⟨g7, .f32, .v 1, .v 2, .v 3⟩ .rd),
      (0x8000000004017261, .fexp2 ⟨g7, .f32, .v 1, .v 2⟩),
      (0x8000000004017265, .flog2 ⟨g7, .f32, .v 1, .v 2⟩),
      (0x8000000004037269, .fsin ⟨g7, .f32, .v 3, .v 2⟩),
      (0x800000000401726D, .fcos ⟨g7, .f32, .v 1, .v 2⟩),
      (0x8000000004047271, .frred ⟨g7, .f32, .v 4, .v 2⟩ .rne),
      (0x8013FFFC04017281, .fscale ⟨g7, .f32, .v 1, .v 2, .imm16 0xFFFF⟩ .rne),
      (0x8000000004017285, .fgetexp ⟨g7, .f32, .v 1, .v 2⟩),
      (0x3F000000C0200030100672A2, .fdot ⟨g7, .t8, .v 6, .v 8, .v 12, .imm32 0x3F000000⟩),
      (0x1E000000040372C1, .cvt g7 .s32 .f32 .rd (.v 3) (.v 2) none),
      (0x76000000040172C1, .cvt g7 .s8 .f32 .rz (.v 1) (.v 2) none),
      (0xE200000C040172C1, .cvt g7 .f16x2 .f32 .rne (.v 1) (.v 2) (some (.v 3)))] = true := by decide

/-- Words of R357, R289. -/
theorem test_decode_float_3 :
    reads [
      (0xC3084C20080572E1, .rqnt g7 .t8 .t8 (.v 5) (.v 4) (.s 8) (.s 9)),
      (0xC0000000040172E5, .bscl ⟨g7, .t8, .v 1, .v 2⟩)] = true := by decide

/-- Words of R364, R376, R339. -/
theorem test_decode_lane :
    reads [
      (0xE90000404037401, .shfl g7 .bfly 5 .u32 (.v 3) (.v 2) (.imm16 1) 7),
      (0x3097421, .vote g7 .mask false (.reg (.s 9)) 1),
      (0x40000003097421, .vote g7 .count false (.reg (.s 9)) 1),
      (0x300000002027421, .vote g7 .every true (.pred 2) 1),
      (0x8000000005087441, .lred ⟨g7, .f32, .s 8, .v 2⟩ .add)] = true := by decide

/-- Words of R335, R366, R278, R290, R352, R377, R379, R317, R351. -/
theorem test_decode_memory_1 :
    reads [
      (0x100050A00027501, .ld g7 .b32 false false false (.v 2) ⟨.s 0, .lane, 2, none⟩),
      (0xFFFFFFFC7C00050008027502, .ld g7 .s8 true true false (.v 2) ⟨.v 4, .zero, 0, some 0xFFFFFFFC⟩),
      (0x100200604007505, .st g7 .b32 false false false ⟨.s 2, .v 1, 2, none⟩ (.v 4)),
      (0x28084D0200002505, .st ⟨false, 2⟩ .b64 true false false ⟨.s 0, .zero, 0, none⟩ (.s 9)),
      (0x8080A0D0200017523, .atom g7 .u32 .add false (.v 1) ⟨.s 0, .zero, 0, some 8⟩ .one),
      (0x8000000002800350008027527, .cas g7 true false (.v 2) ⟨.v 4, .zero, 0, some 0⟩ (.v 6) (.v 8)),
      (0x301000000102D8010060000752B, .red g7 .s64 .min true ⟨.s 0, .v 1, 3, some 16⟩ (.v 2)),
      (0x2908319201047541, .waita g7 true false (.s 4) (.s 0) none (.s 6) (.units 100)),
      (0x880080600007545, .wake g7 false (.s 0) none (.imm 0x201)),
      (0x7561, .fence g7 false),
      (0x400000000007561, .fence g7 true),
      (0x50200007581, .pref g7 false ⟨.s 0, .zero, 0, none⟩)] = true := by decide

/-- Words of R291, R329, R359, R338. -/
theorem test_decode_memory_2 :
    reads [
      (0x40040050002007586, .cflush g7 true ⟨.v 1, .zero, 0, some 4⟩),
      (0x40E040175A1, .ilock g7 1 (.s 2) (.s 3)),
      (0x40E040075A5, .iunlock g7 (.s 2) (.s 3)),
      (0x3E207A61, .savem g7 (.v 31) (.v 32) 0),
      (0x3E207A65, .loadm g7 (.v 31) (.v 32) 0)] = true := by decide

/-- Words of R369, R371, R372, R340, R273, R274, R275. -/
theorem test_decode_tile_1 :
    reads [
      (0x1C01C00007701, .talloc g7 0 0 7 7),
      (0x7705, .tfree g7 0),
      (0x27711, .tzero g7 2),
      (0xC002000005080001770A, .tld g7 .b32 (.v 1) ⟨0, .imm 3, .reg .lane⟩),
      (0x10000000770E, .tst g7 .b32 ⟨0, .imm 0, .imm 0⟩ (.v 2)),
      (0x810400300000000DA00000010007803, .mma ⟨g7, .t6, .p6, true, 2, 1, 64, 3, .v 8⟩),
      (0x810000014000000A000000010007807, .mmas ⟨g7, .f16, .plain, false, 2, 1, 0, 0, .v 8⟩ 5),
      (0x810000000000003A00004101000780B, .mmag g7 .f16 .plain false 2 1 3 (.v 8) (.s 4)),
      (0x800C0020000050800017842, .accrd g7 false (.v 1) ⟨2, .imm 3, .reg .lane⟩),
      (0x800001D0010000284017842, .accrdMd g7 (.v 1) ⟨2, .reg .lane, .imm 7⟩),
      (0x800C0022000250800007846, .accwr g7 true ⟨2, .imm 3, .reg .lane⟩ (.v 4)),
      (0x6007849, .accz g7 false 3)] = true := by decide

/-- Words of R275. -/
theorem test_decode_tile_2 :
    reads [
      (0x200000000600784D, .accchk g7 true 3)] = true := by decide

/-- Words of R294, R381, R300, R292, R374, R334, R380. -/
theorem test_decode_engine :
    reads [
      (0x7038000002000000002010C7743, .cpy ⟨g7, .s 12, false, 0, 0, 7, 7, 0, 0, 32, .s 0⟩),
      (0x14001F0380100C010020040A010C7747, .cpyg ⟨g7, .s 12, 5, 31, 7, 2, 3, 1025, .s 0, .s 2⟩),
      (0x180000000000000700000002050C774B, .cpyq g7 (.s 12) 6 7 (.s 2)),
      (0x40000000000000000000002050D774F, .wload g7 (.s 13) 1 (.s 2)),
      (0x40090600000000000100002050D7753, .dict g7 true (.s 13) 1 9 3 (.s 2)),
      (0xC2A11068058240A030C7763, .coll ⟨g7, .s 12, .redscat, .max, .f32, .s 1, .s 2, .s 4, .s 6, some (.s 8, .s 10)⟩),
      (0x218017771, .tokq g7 1 (.s 12)),
      (0x406191079C1, .launch g7 (.s 16) (.s 12) (.s 1)),
      (0x11479C5, .wgtake g7 (.s 20))] = true := by decide

/-- Words of 05_encoding, R88, R354, R302, R269, R383, R214, R281. -/
theorem test_decode_control_1 :
    reads [
      (0xFFFFF01901, .bra ⟨false, 1⟩ ⟨false, false, false⟩ 0xFFFFF0),
      (0x8470000107905, .brx g7 ⟨true, true, true⟩ (.s 8) 16),
      (0x10400017909, .call g7 ⟨false, false, true⟩ 0x40001),
      (0x40000010790D, .callx g7 ⟨false, false, false⟩ (.v 8) 16),
      (0x7911, .ret g7 ⟨false, false, false⟩),
      (0x7921, .exit g7),
      (0x7925, .nop g7 .l64),
      (0x7926, .nop g7 .l96),
      (0x7927, .nop g7 .l128),
      (0x7929, .yield_ g7),
      (0x30000002001007943, .ppt 3 2 0 1 0),
      (0x7951, .bar g7 0 none)] = true := by decide

/-- Words of R281, R180, R91, R92, R189, R190. -/
theorem test_decode_control_2 :
    reads [
      (0x104FCC00007951, .barArrive g7 3 (some 63)),
      (0x1800007955, .fbar g7 6),
      (0x7971, .sos),
      (0x9C400820120A7985, .inv ⟨g7, .upI32, 39, 1, 0, 1, .v 8, .v 9, .v 10⟩),
      (0x10001E800179A1, .bset g7 1 .zero (.imm16 7)),
      (0x400000020279A5, .bget g7 .st (.v 2) 1)] = true := by decide

/-- Words of R323, R361, R375, R191, R355, R193. -/
theorem test_decode_system :
    reads [
      (0x7087A01, .getsr g7 false (.s 8) 3),
      (0x42000317A05, .setsr g7 false 0x031 (.s 8)),
      (0x10000400001A21, .trap ⟨false, 1⟩ 1),
      (0x7A25, .tfence g7),
      (0x7A29, .rft),
      (0x10000000007A29, .rftSkip),
      (0x45417147A41, .lanerd g7 (.s 20) (.v 11) (.s 21)),
      (0x45A2A0B7A45, .lanewr g7 (.v 11) (.s 21) (.s 22))] = true := by decide

/-! ### Words of the replacement store, and words that are refused -/

/-- R94, R98: XIMM and XFLD are words of the replacement store alone. -/
theorem test_decode_substitute_only :
    (decodeWord true (1 + 4 * 0x3F0 + 2 ^ 12 * 7 + 2 ^ 16 * 256)).toOption = some (.ximm g7 (.s 0)) ∧
    (decodeWord true (1 + 4 * 0x3F1 + 2 ^ 12 * 7 + 2 ^ 16 * 257 + 2 ^ 52 * (5 * 64 + 8))).toOption = some (.xfld g7 (.s 1) 5 8) ∧
    decodeWord false (1 + 4 * 0x3F0 + 2 ^ 12 * 7 + 2 ^ 16 * 256) = .error .illegalOpcode ∧
    decodeWord false (1 + 4 * 0x3F1 + 2 ^ 12 * 7 + 2 ^ 16 * 257 + 2 ^ 52 * (5 * 64 + 8)) = .error .illegalOpcode :=
  ⟨by decide, by decide, rfl, rfl⟩

/-- R77, R94, R91: length code 0; an unassigned opcode; SOS with a guard other than 7, and in 96 bits. -/
theorem test_decode_refused :
    decodeWord false 0x7000 = .error .illegalLength ∧ decodeWord false (1 + 4 * 0x3E0 + 2 ^ 12 * 7) = .error .illegalOpcode ∧
    decodeWord false 0x1971 = .error .sosMisuse ∧ decodeWord false 0x7972 = .error .sosMisuse := ⟨rfl, rfl, rfl, rfl⟩

/-- R3, R82, R83: a reserved bit of EXIT; guard !p7; specifier 324 as source a of IADD; the vector pair v1 of a 64-bit type. -/
theorem test_decode_refused_fields :
    decodeWord false 0x0010_0000_0000_7921 = .error .reservedField ∧ decodeWord false 0xF921 = .error .reservedField ∧
    decodeWord false (0x0000_050A_1001_7001 - 2 ^ 25 * 264 + 2 ^ 25 * 324) = .error .illegalRegister ∧
    decodeWord false (0x2400_8020_0004_7001 + 2 ^ 16) = .error .illegalRegister := ⟨rfl, rfl, rfl, rfl⟩

/-- R95: a word with a reserved field and an illegal register reports the reserved field. -/
theorem test_decode_refused_order :
    decodeWord false (0x2400_8020_0004_7001 + 2 ^ 16 + 2 ^ 54) = .error .reservedField := rfl

/-! ### Ill-formed terms, one for each check -/

/-- None of the terms is well-formed. -/
def refusesAll (l : List Instr) : Bool := l.all (fun i => !i.wellFormed false)

/-- The guard !p7, and one beyond p7 (R82); in every layout. -/
theorem test_ill_formed_guards :
    refusesAll [.exit ⟨true, 7⟩, .exit ⟨false, 8⟩, .iadd ⟨⟨true, 7⟩, .u32, .v 1, .v 2, .v 3⟩ none none, .mov ⟨⟨false, 8⟩, .u32, .v 1, .v 2⟩,
      .imad ⟨⟨true, 7⟩, .u32, .v 1, .v 2, .v 3, .v 4⟩, .bra ⟨true, 7⟩ ⟨false, false, false⟩ 0,
      .ld ⟨true, 7⟩ .b32 false false false (.v 1) ⟨.s 0, .zero, 0, none⟩, .tzero ⟨true, 7⟩ 0] = true := by decide

/-- A TYPE, width, condition, operation or mode that the entry does not list. -/
theorem test_ill_formed_codes :
    refusesAll [.and ⟨g7, .f32, .v 1, .v 2, .v 3⟩, .iabs ⟨g7, .u32, .v 1, .v 2⟩, .fadd ⟨g7, .t8, .v 1, .v 2, .v 3⟩ .rne,
      .fexp2 ⟨g7, .f16, .v 1, .v 2⟩, .frcp ⟨g7, .bf16, .v 1, .v 2⟩ .rne, .fgetexp ⟨g7, .t8, .v 1, .v 2⟩, .frred ⟨g7, .f16, .v 2, .v 2⟩ .rne,
      .fclass ⟨g7, .f16x2, .v 1, .v 2⟩, .bscl ⟨g7, .f32, .v 1, .v 2⟩, .lred ⟨g7, .u8, .s 8, .v 2⟩ .add, .lred ⟨g7, .u32, .s 8, .v 2⟩ (.rsv 3),
      .cvt g7 .f16x2 .s32 .rne (.v 1) (.v 2) (some (.v 3)), .cvt g7 .t8 .f32 .rz (.v 1) (.v 2) none,
      .cvt g7 .f16x2 .f32 .rne (.v 1) (.v 2) none, .rqnt g7 .f32 .t8 (.v 5) (.v 4) (.s 8) (.s 9),
      .rqnt g7 .t8 .f32 (.v 5) (.v 4) (.s 8) (.s 9)] = true := by decide

/-- The same in the other families. -/
theorem test_ill_formed_codes_more :
    refusesAll [.icmp g7 .u32 (.rsv 6) 1 (.v 1) (.v 2), .fcmp g7 .f32 (.rsv 13) 1 (.v 1) (.v 2), .fcmp g7 .t8 .eq 1 (.v 1) (.v 2),
      .ld g7 (.rsv 1) false false false (.v 2) ⟨.s 0, .zero, 0, none⟩, .st g7 .s8 false false false ⟨.s 0, .zero, 0, none⟩ (.v 2),
      .atom g7 .u32 (.rsv 7) false (.v 1) ⟨.s 0, .zero, 0, some 0⟩ (.v 2), .atom g7 .f32 .and false (.v 1) ⟨.s 0, .zero, 0, some 0⟩ (.v 2),
      .red g7 .u32 .exch false ⟨.s 0, .zero, 0, some 0⟩ (.v 2), .vote g7 (.rsv 6) false (.pred 1) 1, .vote g7 .mask false (.pred 1) 1,
      .shfl g7 .lane 5 .s32 (.v 3) (.v 2) (.v 1) 7, .shfl g7 .lane 6 .u32 (.v 3) (.v 2) (.v 1) 7, .bget g7 (.rsv 5) (.v 2) 1,
      .waita g7 false false (.s 4) (.s 0) none (.s 6) (.rsv 3 0), .wake g7 false (.s 0) none (.rsv 2 0 0),
      .mma ⟨g7, .u32, .plain, false, 2, 1, 0, 0, .v 8⟩, .mma ⟨g7, .f32, .p4, false, 2, 1, 0, 0, .v 8⟩,
      .mmas ⟨g7, .f32, .plain, false, 2, 1, 0, 0, .v 8⟩ 5, .mmag g7 .f16 .rsv false 2 1 3 (.v 8) (.s 4),
      .coll ⟨g7, .s 12, .allred, .rsv, .f32, .s 1, .s 2, .s 4, .s 6, none⟩, .coll ⟨g7, .s 12, .bcast, .max, .f32, .s 1, .s 2, .s 4, .s 6, none⟩,
      .coll ⟨g7, .s 12, .allred, .add, .u8, .s 1, .s 2, .s 4, .s 6, none⟩] = true := by decide

/-- An immediate where the entry takes none, in a form it does not take, or beyond its form (R85). -/
theorem test_ill_formed_immediates :
    refusesAll [.mov ⟨g7, .u32, .v 1, .imm16 0⟩, .iadd ⟨g7, .u32, .v 1, .imm16 0, .v 2⟩ none none, .iadd ⟨g7, .u32, .v 1, .v 2, .imm16 65536⟩ none none,
      .iadd ⟨g7, .u32, .v 1, .v 2, .imm16 1⟩ none (some 1), .iadd ⟨g7, .u32, .v 1, .v 2, .imm64 0⟩ none none,
      .imad ⟨g7, .u32, .v 1, .v 2, .imm16 1, .v 3⟩, .imad ⟨g7, .u32, .v 1, .v 2, .imm32 1, .imm32 1⟩,
      .fscale ⟨g7, .f64, .v 2, .v 4, .imm64 1⟩ .rne, .sel g7 .u32 (.v 4) (.v 1) (.imm16 2) 3, .movi g7 .u32 (.s 8) (.v 2) false,
      .movi g7 .u32 (.s 8) (.imm32 0) true, .shfl g7 .lane 5 .u32 (.v 3) (.v 2) (.imm16 1) 3, .setsr g7 true 0x031 (.imm64 0),
      .bset g7 1 .zero (.imm64 0), .rqnt g7 .t8 .t8 (.v 5) (.v 4) (.imm16 1) (.s 9), .tokq g7 1 (.imm16 1), .lanewr g7 (.v 1) (.s 1) (.imm16 1),
      .st g7 .b32 false false false ⟨.s 0, .zero, 0, none⟩ (.imm32 1)] = true := by decide

/-- Numbers beyond their fields, and forms that the entries rule out. -/
theorem test_ill_formed_ranges :
    refusesAll [.bra g7 ⟨false, false, false⟩ (2 ^ 24), .ppt (2 ^ 64) 0 0 0 0, .ppt 0 0 0 64 1, .bar g7 16 none, .bar g7 0 (some 256), .fbar g7 0,
      .fbar g7 16, .trap g7 65536, .plop g7 256 1 1 1 (.pred 1), .fclassPred g7 .f32 1 (.v 2) 1024, .talloc g7 4 0 7 7, .talloc g7 0 0 4096 7,
      .talloc g7 0 0 7 512, .cpyq g7 (.s 12) 64 7 (.s 2), .wload g7 (.s 13) 64 (.s 2), .dict g7 true (.s 13) 1 256 3 (.s 2),
      .cpy ⟨g7, .s 12, false, 0, 0, 4096, 7, 0, 0, 32, .s 0⟩, .cpy ⟨g7, .s 12, false, 0, 1, 7, 7, 0, 0, 32, .s 0⟩,
      .cpyg ⟨g7, .s 12, 5, 31, 7, 2, 3, 2 ^ 21, .s 0, .s 2⟩, .inv ⟨g7, .upI32, 64, 1, 0, 1, .v 8, .v 9, .v 10⟩, .savem g7 (.v 31) (.v 32) 32,
      .getsr g7 false (.s 8) 0x00B, .setsr g7 false 0x003 (.s 8), .atom g7 .u32 .add false (.v 1) ⟨.s 0, .zero, 0, none⟩ (.v 2),
      .lea g7 true true (.v 16) ⟨.zero, .lane, 6, some 0⟩, .lea g7 false true (.v 16) ⟨.zero, .lane, 6, none⟩,
      .lea g7 false false (.v 16) ⟨.s 0, .lane, 8, none⟩, .accrdMd g7 (.v 1) ⟨2, .imm 3, .reg .lane⟩, .accrd g7 false (.v 1) ⟨64, .imm 3, .imm 0⟩,
      .tld g7 .b32 (.v 1) ⟨0, .imm 4096, .reg .lane⟩] = true := by decide

/-- Registers: a specifier that names none, a pair that is not aligned, a scalar destination of a per-lane source, a predicate beyond
p7, a place that the entry does not allow. -/
theorem test_ill_formed_registers :
    refusesAll [.iadd ⟨g7, .u32, .v 1, .rsv 324, .v 2⟩ none none, .iadd ⟨g7, .u64, .v 1, .v 2, .v 4⟩ none none, .iadd ⟨g7, .u32, .s 64, .s 1, .s 2⟩ none none,
      .iadd ⟨g7, .u32, .one, .s 1, .s 2⟩ none none, .iadd ⟨g7, .u32, .s 1, .v 1, .s 2⟩ none none, .mov ⟨g7, .u32, .x 0, .v 2⟩, .mov ⟨g7, .u32, .hole 0, .v 2⟩,
      .icmp g7 .u32 .eq 8 (.v 1) (.v 2), .plop g7 0 8 1 1 (.pred 1), .plop g7 0 1 1 1 (.sreg (.v 1)), .sel g7 .u32 (.s 4) (.v 1) (.v 2) 3,
      .shfl g7 .lane 5 .u32 (.s 3) (.v 2) (.v 1) 7, .lea g7 false false (.s 16) ⟨.v 0, .lane, 6, none⟩, .vote g7 .mask false (.reg .one) 1,
      .lred ⟨g7, .u32, .s 8, .s 2⟩ .add, .frred ⟨g7, .f32, .v 5, .v 2⟩ .rne, .fdot ⟨g7, .t8, .v 6, .v 7, .v 12, .zero⟩,
      .fdot ⟨g7, .t8, .v 6, .v 8, .v 12, .one⟩, .getsr g7 false (.s 8) 0x000, .cvt g7 .f32 .f16x2 .rne (.v 5) (.v 2) none] = true ∧
    refusesAll [.ld g7 .b32 false false false (.s 2) ⟨.v 0, .zero, 0, none⟩, .ld g7 .b128 false false false (.s 4) ⟨.s 0, .zero, 0, none⟩,
      .ld g7 .b32 false false true (.v 2) ⟨.zero, .zero, 0, none⟩, .st g7 .b128 false false false ⟨.s 0, .zero, 0, none⟩ (.s 4),
      .cas g7 true false (.v 1) ⟨.s 0, .zero, 0, some 0⟩ (.v 6) (.v 8), .wake g7 false (.v 0) none (.imm 1), .ilock g7 1 (.v 2) (.s 3),
      .brx g7 ⟨false, false, false⟩ .zero 0, .tzero g7 64, .accz g7 false 64, .bset g7 8 .zero .zero, .bget g7 .st (.s 2) 1,
      .mma ⟨g7, .f16, .plain, false, 2, 1, 0, 0, .v 9⟩, .mmag g7 .f16 .plain false 2 62 3 (.v 8) (.s 4), .mmag g7 .f16 .plain false 2 1 3 (.v 8) (.s 61),
      .wgtake g7 (.s 21), .savem g7 (.v 32) (.v 32) 0, .lanerd g7 (.v 20) (.v 11) (.s 21), .launch g7 (.v 16) (.s 12) (.s 1),
      .tokq g7 1 (.v 12), .cpy ⟨g7, .v 12, false, 0, 0, 7, 7, 0, 0, 32, .s 0⟩] = true := by decide

/-- What only the replacement store holds, and a device step, which has no word. -/
theorem test_ill_formed_elsewhere : refusesAll [.ximm g7 (.s 0), .xfld g7 (.s 1) 5 8, .spillSwap 0] = true := by decide

/-! ### Single steps with the results of the spec's examples -/

/-- The next state of an instruction, if it has one. -/
def run (i : Instr) (s : State) : Option State :=
  match exec i s with
  | .next t => some t
  | _ => none

/-- Lane 0 holds x in v1 and y in v2. -/
def with2 (x y : Nat) : State := (two.setV 1 1 0 x).setV 2 1 0 y

/-- The value in v3 and the flags of lane 0 after an instruction on x in v1 and y in v2. -/
def out (i : Instr) (x y : Nat) : Option (Nat × Nat) := (run i (with2 x y)).map (fun t => (t.getV 3 1 0, (t.getFlags 0).toNat))

/-- v3 := v1 op v2. -/
def op2 (ty : Ty) : A2 := ⟨g7, ty, .v 3, .v 1, .v 2⟩

/-- v3 := op v1. -/
def op1 (ty : Ty) : A1 := ⟨g7, ty, .v 3, .v 1⟩

/-- v3 := v1 op b. -/
def opImm (ty : Ty) (b : Opd) : A2 := ⟨g7, ty, .v 3, .v 1, b⟩

/-- The table of R328: −7 ÷ 2, its remainder, the remainder of 7 by −2. -/
theorem test_step_idiv :
    out (.idiv (op2 .s32) false) 0xFFFFFFF9 2 = some (0xFFFFFFFD, 0) ∧ out (.idiv (op2 .s32) true) 0xFFFFFFF9 2 = some (0xFFFFFFFF, 0) ∧
    out (.idiv (op2 .s32) true) 7 0xFFFFFFFE = some (1, 0) := by decide

/-- The table of R328: division by zero sets DZ (bit 1), the quotient that does not fit sets OF (bit 2). -/
theorem test_step_idiv_corners :
    out (.idiv (op2 .u32) false) 7 0 = some (0xFFFFFFFF, 2) ∧ out (.idiv (op2 .s32) false) 0x80000000 0xFFFFFFFF = some (0x80000000, 4) := by
  decide

/-- The table of R356 for a = 0x8000_00F0. -/
theorem test_step_shifts :
    out (.shr (op2 .u32)) 0x800000F0 4 = some (0x0800000F, 0) ∧ out (.sar (op2 .u32)) 0x800000F0 4 = some (0xF800000F, 0) ∧
    out (.rot (op2 .u32)) 0x800000F0 36 = some (0x00000F08, 0) ∧ out (.shl (op2 .u32)) 0x800000F0 32 = some (0, 0) := by decide

/-- The table of R284. -/
theorem test_step_bfx :
    out (.bfx (opImm .s32 (.imm16 0x0804))) 0xF50 0 = some (0xFFFFFFF5, 0) ∧ out (.bfx (opImm .u32 (.imm16 0x0804))) 0xF50 0 = some (0xF5, 0) ∧
    out (.bfx (opImm .u32 (.imm16 0x041E))) 0xC0000000 0 = some (3, 0) := by decide

/-- The table of R284. -/
theorem test_step_bfi :
    out (.bfi ⟨g7, .u32, .v 3, .v 1, .imm32 0x041C, .v 2⟩) 0xFF 0 = some (0xF0000000, 0) ∧
    out (.bfi ⟨g7, .u32, .v 3, .v 1, .imm32 0x0820, .v 2⟩) 0xFF 0x12345678 = some (0x12345678, 0) := by decide

/-- The examples of R287, R331 and R348. -/
theorem test_step_counts_and_products :
    out (.brev (op1 .u32)) 0x20 0 = some (0x04000000, 0) ∧ out (.clz (op1 .u32)) 0x04000000 0 = some (5, 0) ∧
    out (.popc (op1 .u32)) 0xF0F00001 0 = some (9, 0) ∧ out (.imulh (op2 .u32)) 0xFFFFFFFF 2 = some (1, 0) ∧
    out (.imulh (op2 .s32)) 0xFFFFFFFF 2 = some (0xFFFFFFFF, 0) ∧ out (.imul (op2 .s32)) 0xFFFFFFFF 2 = some (0xFFFFFFFE, 0) := by decide

/-- The example of R326: the low halves carry into p1, and the high halves take it in. -/
theorem test_step_iadd_carry :
    ((run (.iadd ⟨g7, .u64, .v 4, .v 0, .v 8⟩ none (some 1)) ((two.setV 0 2 0 0xFFFFFFFFFFFFFFFF).setV 8 2 0 1)).bind (fun t =>
      (run (.iadd ⟨g7, .u64, .v 6, .v 2, .v 10⟩ (some 1) none) t).map (fun u => (u.getV 4 2 0, u.getV 6 2 0, u.getP 1 0, u.getP 1 1)))) =
      some (0, 1, true, false) := by decide

/-- R347: p3 = p1 or (p2 and p0), with p1 clear, p2 and p0 set in lane 0 alone. -/
theorem test_step_plop :
    (run (.plop g7 0xEA 3 1 2 (.pred 0)) (((two.setP 2 0 true).setP 0 0 true).setP 2 1 true)).map (fun t => (t.getP 3 0, t.getP 3 1)) =
      some (true, false) := by decide

/-- Lanes 0 to 7 run, and v2 holds 10 × lane. -/
def eight : State :=
  (List.range 8).foldl (fun t l => t.setV 2 1 l (10 * l)) { two with split := { two.split with mask := 0xFF } }

/-- v3 of lanes 0 to 7 after an instruction. -/
def out8 (i : Instr) : Option (List Nat) := (run i eight).map (fun t => (List.range 8).map (fun l => t.getV 3 1 l))

/-- The examples of R364. -/
theorem test_step_shfl :
    out8 (.shfl g7 .off 5 .u32 (.v 3) (.v 2) (.imm32 0xFFFFFFFF) 4) = some [0, 0, 10, 20, 30, 40, 50, 60] ∧
    out8 (.shfl g7 .rot 3 .u32 (.v 3) (.v 2) (.imm16 1) 7) = some [10, 20, 30, 40, 50, 60, 70, 0] ∧
    out8 (.shfl g7 .bfly 2 .u32 (.v 3) (.v 2) (.imm16 2) 7) = some [20, 30, 0, 10, 60, 70, 40, 50] := by decide

/-- The example of R364: p4 is set in lanes 0 to 5 of a move by 2. -/
theorem test_step_shfl_off :
    ((run (.shfl g7 .off 5 .u32 (.v 3) (.v 2) (.imm32 2) 4) eight).map (fun t => t.fib.pred 4)) = some 0x3F#32 ∧
    out8 (.shfl g7 .off 5 .u32 (.v 3) (.v 2) (.imm32 2) 4) = some [20, 30, 40, 50, 60, 70, 60, 70] := by decide

/-- The examples of R376: p1 is set in the even lanes of 0 to 7. -/
theorem test_step_vote :
    (let s := [0, 2, 4, 6].foldl (fun t l => t.setP 1 l true) eight
     [.vote g7 .mask false (.reg (.s 9)) 1, .vote g7 .count false (.reg (.s 9)) 1, .vote g7 .first true (.reg (.s 9)) 1].map (fun i =>
       (run i s).map (fun t => t.getS 9))) = [some 0x55, some 4, some 1] := by decide

/-- R82, R60: under a false guard nothing is written; a scalar destination clears bits 63 to 32. -/
theorem test_step_guard_and_scalar :
    (run (.mov ⟨⟨false, 0⟩, .u32, .v 3, .v 1⟩) (with2 7 0)).map (fun t => t.getV 3 1 0) = some 0 ∧
    (run (.movi g7 .u32 (.s 8) (.imm16 2) false) (two.setS 8 0xFFFFFFFFFFFFFFFF)).map (fun t => t.getS 8) = some 2 := by decide

/-- R320: the minimum of +0 and −0 is −0 in either order; the maximum of a quiet NaN and 3.0 is 3.0. -/
theorem test_step_fmin_fmax :
    out (.fmin (op2 .f32)) 0 0x80000000 = some (0x80000000, 0) ∧ out (.fmin (op2 .f32)) 0x80000000 0 = some (0x80000000, 0) ∧
    out (.fmax (op2 .f32)) 0x7FC00000 0x40400000 = some (0x40400000, 0) := by decide

/-- R303, with values of IEEE 754: 1.0 + 2.0; 2^24 + 1.0 is a tie that stays, inexact (bit 4). -/
theorem test_step_fadd :
    out (.fadd (op2 .f32) .rne) 0x3F800000 0x40000000 = some (0x40400000, 0) ∧
    out (.fadd (op2 .f32) .rne) 0x4B800000 0x3F800000 = some (0x4B800000, 16) := by decide

/-- The table of R298. -/
theorem test_step_cvt :
    out (.cvt g7 .s32 .f32 .rne (.v 3) (.v 1) none) 0xC0200000 0 = some (0xFFFFFFFE, 16) ∧
    out (.cvt g7 .s32 .f32 .rd (.v 3) (.v 1) none) 0xC0200000 0 = some (0xFFFFFFFD, 16) ∧
    out (.cvt g7 .u8 .f32 .rne (.v 3) (.v 1) none) 0x43960000 0 = some (0xFF, 1) := by decide

/-- The table of R298. -/
theorem test_step_cvt_formats :
    out (.cvt g7 .t6 .f32 .rne (.v 3) (.v 1) none) 0x41A00000 0 = some (0x1F, 20) ∧
    out (.cvt g7 .f16 .f32 .rne (.v 3) (.v 1) none) 0x3DCCCCCD 0 = some (0x2E66, 16) ∧
    out (.cvt g7 .f32 .t8 .rne (.v 3) (.v 1) none) 0x15 0 = some (0x3DD00000, 0) := by decide

/-- The examples of R319: 1.5 by 2^−150 rounds to the least subnormal, with UF and NX. -/
theorem test_step_fscale :
    out (.fscale (op2 .f32) .rne) 0x3FC00000 0xFFFFFF7E = some (0x000C0000, 0) ∧
    out (.fscale (op2 .f32) .rne) 0x3FC00000 0xFFFFFF6A = some (1, 24) := by decide

/-- R318: of 0 the result is 0x8000_0000 with DZ, of +Inf 0x7FFF_FFFF with IV. -/
theorem test_step_fgetexp :
    out (.fgetexp (op1 .f32)) 0x41200000 0 = some (3, 0) ∧ out (.fgetexp (op1 .f32)) 0 0 = some (0x80000000, 2) ∧
    out (.fgetexp (op1 .f32)) 0x7F800000 0 = some (0x7FFFFFFF, 1) := by decide

/-- The example of R306, and R307: a quiet NaN is unordered, and sets IV under lt. -/
theorem test_step_fclass_fcmp :
    (run (.fclassPred g7 .f32 2 (.v 1) 0x300) (with2 0x7FC00000 0)).map (fun t => (t.getP 2 0, t.getP 2 1)) = some (true, false) ∧
    (run (.fcmp g7 .f32 .lt 1 (.v 1) (.v 2)) (with2 0x7FC00000 0)).map (fun t => (t.getP 1 0, (t.getFlags 0).toNat)) = some (false, 1) := by
  decide

/-- R309: the functions' bypass cases. -/
theorem test_step_functions :
    out (.fsin (op1 .f32)) 0x80000000 0 = some (0x80000000, 0) ∧ out (.fcos (op1 .f32)) 0 0 = some (0x3F800000, 0) ∧
    out (.flog2 (op1 .f32)) 0 0 = some (0xFF800000, 2) ∧ out (.fexp2 (op1 .f32)) 0x43000000 0 = some (0x7F800000, 20) := by decide

/-- The example of R316: 32 products of 1.0 and 2.0 in T8, twice, and 0.5. -/
theorem test_step_fdot :
    (let s := [8, 9, 10, 11].foldl (fun t n => t.setV n 1 0 0x40404040) two
     let u := [12, 13, 14, 15].foldl (fun t n => t.setV n 1 0 0x50505050) s
     (run (.fdot ⟨g7, .t8, .v 6, .v 8, .v 12, .imm32 0x3F000000⟩) u).map (fun t => (t.getV 6 1 0, (t.getFlags 0).toNat))) =
      some (0x42020000, 0) := by decide

/-- R366, R335: a word stored to the local window is read back. -/
theorem test_step_store_load :
    ((run (.st g7 .b32 false false true ⟨.s 0, .zero, 0, none⟩ (.v 1)) (with2 0x12345678 0)).bind (fun t =>
      (run (.ld g7 .s8 false false true (.v 3) ⟨.s 0, .zero, 0, some 1⟩) t).map (fun u => u.getV 3 1 0))) = some 0x56 := by decide

/-- R375, R199: TRAP freezes or enters a handler with the address of its word in TPC. -/
theorem test_step_trap :
    (run (.trap g7 5) two).map (fun t => (t.fib.frame.tpc, t.fib.frame.tcause.toNat % 128)) = some (0x10000, 0x5E) := by decide

/-- The table of R339: the sum of 2^24, 1.0 and 1.0 under contracts 0, 1, 3 and 6. -/
theorem test_step_lred :
    (let s := ((two.setV 2 1 0 0x4B800000).setV 2 1 1 0x3F800000).setV 2 1 2 0x3F800000
     [0, 1, 3, 6].map (fun c =>
       (run (.lred ⟨g7, .f32, .s 8, .v 2⟩ .add) { s with split := { s.split with mask := 7 }, wg := { s.wg with contract := c } }).map (fun t =>
         (t.getS 8, (t.getFlags 2).toNat)))) = [some (0x4B800000, 16), some (0x4B800000, 16), some (0x4B800001, 0), some (0x4B800001, 0)] := by
  decide

/-! ### Witnesses of the hypotheses -/

/-- One source, two and three, as the statements of one shape ask. -/
theorem test_witness_Arithmetic :
    two.ready (.opds g7 [(.v 1, 32), (.v 2, 32)] [(.v 3, 32)]) = true ∧
    two.ready (.opds g7 [(.s 1, 64), (.imm32 5, 64)] [(.s 63, 64)]) = true ∧
    two.ready (.opds g7 [(.v 1, 32), (.v 2, 32), (.v 3, 32)] [(.v 255, 32)]) = true := by decide

theorem test_witness_DivideAndOrder :
    two.ready (.opds g7 [(.v 1, 32), (.zero, 32)] [(.v 3, 32)]) = true ∧ Ty.signed .s8 = true ∧
    two.ready (.opds g7 [(.v 1, 8)] [(.v 3, 8)]) = true := by decide

theorem test_witness_LogicAndShifts :
    Ty.isInt .s64 = true ∧ two.ready (.opds g7 [(.v 0, 64), (.ones, 64)] [(.v 2, 64)]) = true := by decide

theorem test_witness_CountsAndFields :
    Ty.isInt .u8 = true ∧ two.ready (.opds g7 [(.lane, 8)] [(.v 2, 8)]) = true ∧
    two.ready (.opds g7 [(.v 1, 32), (.imm16 0x804, 32)] [(.v 2, 32)]) = true ∧
    two.ready (.opds g7 [(.v 1, 32), (.imm32 0x804, 32), (.v 9, 32)] [(.v 2, 32)]) = true := by decide

theorem test_witness_PlacementAndRounding :
    Ty.isInt .s8 = true ∧ 31 < max 32 (Ty.w .s8) ∧ Ty.isInt .s64 = true ∧ 63 < max 32 (Ty.w .s64) ∧
    fp16 ∈ [fp16, fpb16, fp32, fp64] ∧ 0xFBFF < 2 ^ fp16.w ∧ 0xFBFF / 2 ^ (fp16.p - 1) % 2 ^ fp16.eb ≠ 2 ^ fp16.eb - 1 ∧
    (1 : Nat) / 2 ^ (fp16.p - 1) % 2 ^ fp16.eb ≠ 2 ^ fp16.eb - 1 := by decide

theorem test_witness_PredicateResults :
    two.ready (.opds g7 [(.v 1, 32), (.zero, 32)] []) = true ∧ two.ready (.opds g7 [] []) = true ∧
    two.ready (.opds g7 [(.s 9, 32)] []) = true := by decide

theorem test_witness_Moves :
    two.ready (.opds g7 [(.v 1, 16)] [(.v 3, 16)]) = true ∧ two.ready (.opds g7 [] [(.s 3, 64)]) = true ∧
    two.ready (.opds g7 [(.v 2, 64), (.imm32 1, 64)] [(.v 8, 64)]) = true ∧
    two.ready (.opds g7 [(.s 0, 32), (.lane, 32)] [(.v 8, 64)]) = true ∧
    two.ready (.opds g7 [(.zero, 64), (.lane, 32)] [(.v 8, 64)]) = true := by decide

theorem test_witness_FloatArithmetic :
    two.ready (.opds g7 [(.v 1, 32), (.imm16 0x3C0, 32)] [(.v 3, 32)]) = true ∧
    two.ready (.opds g7 [(.v 2, 64), (.v 4, 64), (.v 6, 64)] [(.v 8, 64)]) = true ∧
    two.ready (.opds g7 [(.v 1, 16)] [(.s 3, 16)]) = true := by decide

theorem test_witness_FloatFunctions :
    two.ready (.opds g7 [(.v 1, 32), (.v 2, 32)] [(.v 3, 32)]) = true ∧ two.ready (.opds g7 [(.v 1, 32)] [(.v 4, 64)]) = true ∧
    two.ready (.opds g7 [(.v 2, 64)] [(.v 4, 128)]) = true ∧ two.ready (.opds g7 [(.v 2, 64), (.imm16 1, 32)] [(.v 4, 64)]) = true ∧
    two.ready (.opds g7 [(.v 1, 32)] []) = true := by decide

theorem test_witness_DotProductAndConversions :
    two.ready (.opds g7 [(.v 8, (fdotTerms .t8).1 * (fdotTerms .t8).2), (.v 12, (fdotTerms .t8).1 * (fdotTerms .t8).2), (.zero, 32)]
      [(.v 6, 32)]) = true ∧
    two.ready (.opds g7 [(.v 1, 32), (.v 2, 32)] [(.v 3, cvtW .f16x2 .f32)]) = true ∧
    two.ready (.opds g7 [(.v 1, 32)] [(.v 4, cvtW .f32 .f16x2)]) = true ∧ Ty.isInt .s8 = true ∧ Ty.isInt .u64 = true ∧
    two.ready (.opds g7 [(.v 2, 32)] [(.v 1, 32)]) = true ∧
    two.ready (.opds g7 [(.v 4, 8), (.s 8, 16), (.s 9, 16)] [(.v 5, 8)]) = true := by decide

theorem test_witness_TimingOnly :
    two.ready (.opds g7 [] []) = true ∧ two.ready (.opds g7 (memReads true ⟨.v 1, .zero, 0, some 4⟩) []) = true ∧
    two.ready { Pre.opds g7 [] [] with pins := true } = true := by decide

/-- A fibre with a window of 32 registers, s5 pending and v7 poisoned in lane 1. -/
def kept : State :=
  { two with
    warp := { two.warp with n := 32, p := [32], poison := [(7 * 32 + 1, 9)] },
    fib := { two.fib with pend := [(5, 0)] },
    dev := { two.dev with cmds := [(0, { wg := 0, fib := 0, tok := 5, lanes := 1, launch := none, part := 1, s1root := 0, priv := .u, contract := 6, slice := 0, core := 0, kind := .take, after := [], stage := .waiting, status := 0, stamp := false, asked := none })] } }

/-- Each clause: the window ends at v31, the guard p0 is false, s5 is pending, v7 is poisoned; and a misaligned access. -/
theorem test_witness_WhatKeepsFromEffect :
    kept.cur.isSome = true ∧
    kept.windowsOk (Pre.opds g7 [(.v 32, 32)] [(.v 1, 32)]) = false ∧ kept.windowsOk (Pre.opds g7 [(.v 31, 32)] [(.v 1, 32)]) = true ∧
    kept.active ⟨false, 0⟩ = 0 ∧ kept.active g7 ≠ 0 ∧
    kept.unmet (Pre.opds g7 [(.s 5, 32)] [(.s 1, 32)]) ≠ [] ∧ kept.unmet (Pre.opds g7 [(.v 7, 32)] [(.v 1, 32)]) = [] ∧
    kept.poisoned (Pre.opds g7 [(.v 7, 32)] [(.v 1, 32)]) (kept.active g7) ≠ [] ∧
    two.ready { Pre.opds g7 (memReads false ⟨.zero, .zero, 0, some 3⟩) [(.v 1, 32)] with pins := true } = true ∧
    two.ready { Pre.opds g7 ((.v 1, 32) :: memReads false ⟨.zero, .zero, 0, some 3⟩) [] with pins := true } = true ∧
    ∀ l, laneIn (two.active g7) l = true → two.address ⟨.zero, .zero, 0, some 3⟩ l % Width.bytes .b32 ≠ 0 :=
  ⟨by decide, by decide, by decide, by decide, by decide, by decide, by decide, by decide, by decide, by decide,
    of_lanes (by decide)⟩

theorem test_witness_LaneMoves :
    two.ready (.opds g7 [(.v 2, 32), (.imm16 1, 32)] [(.v 3, 32)]) = true := by decide

theorem test_witness_VotesAndReductions :
    handler.inHandler = true ∧ handler.ready { Pre.opds g7 [(.s 21, 64)] [(.s 20, 64)] with runs := [(11, 1)] } = true ∧
    handler.ready (.opds g7 [(.s 21, 64), (.s 22, 32)] [(.v 11, 32)]) = true ∧
    two.ready (.opds g7 [] [(.s 9, 32)]) = true ∧ two.ready (.opds g7 [] []) = true ∧
    two.ready (.opds g7 [(.v 2, 64)] [(.v 4, lredW .add .u64)]) = true ∧
    two.ready (.opds g7 [(.v 2, 16)] [(.s 4, lredW .add .f16)]) = true := by decide

/-- The memory operand at address 64. -/
def at64 : MemOp := ⟨.zero, .zero, 0, some 64⟩

/-- What address 64 and the bytes behind it translate to. -/
def bytes64 (n : Nat) : List Phys := (List.range n).map (fun i => ⟨64 + i, 15, some 0⟩)

theorem test_witness_Load :
    two.ready { Pre.opds g7 (memReads false at64) [(.v 1, regBits .b32)] with pins := true } = true ∧
    two.ready { Pre.opds g7 (memReads false at64) [(.s 1, regBits .b64)] with pins := false } = true ∧
    ∀ l ∈ accessLanes (isScalarDest (.v 1)) (two.active g7),
      two.loadAccess false true (Width.bytes .b32) (two.addressOf false at64 l) l = .ok (bytes64 4) :=
  ⟨by decide, by decide, fun l h => ok_of_some ((by decide : ∀ l ∈ accessLanes (isScalarDest (.v 1)) (two.active g7),
      (two.loadAccess false true (Width.bytes .b32) (two.addressOf false at64 l) l).toOption = some (bytes64 4)) l h)⟩

theorem test_witness_Store :
    two.ready { Pre.opds g7 ((.v 1, regBits .b32) :: memReads false at64) [] with pins := true } = true ∧
    (∀ l ∈ accessLanes (!false && isUniform at64.base && isUniform at64.index && isUniform (.v 1)) (two.active g7),
      two.laneAccess .store false true (Width.bytes .b32) (two.addressOf false at64 l) l = .ok (bytes64 4)) ∧
    two.dev.inKeys 64 = false :=
  ⟨by decide, fun l h => ok_of_some ((by decide : ∀ l ∈ accessLanes (!false && isUniform at64.base && isUniform at64.index &&
      isUniform (.v 1)) (two.active g7), (two.laneAccess .store false true (Width.bytes .b32) (two.addressOf false at64 l) l).toOption
        = some (bytes64 4)) l h), by decide⟩

theorem test_witness_Atomics :
    two.ready { Pre.opds g7 ((.v 1, 32) :: memReads false at64) [(.v 2, 32)] with pins := true } = true ∧
    two.ready { Pre.opds g7 ((.v 1, 32) :: memReads false at64) [] with pins := true } = true ∧
    two.ready { Pre.opds g7 ((.v 1, 32) :: (.v 3, 32) :: memReads false at64) [(.s 2, 32)] with pins := true } = true ∧
    (∀ l ∈ lanesOf (two.active g7), two.flatAccess .rmw true (32 / 8) (two.address at64 l) = .ok (bytes64 4)) ∧
    Ty.isInt .s32 = true :=
  ⟨by decide, by decide, by decide, fun l h => ok_of_some ((by decide : ∀ l ∈ lanesOf (two.active g7),
      (two.flatAccess .rmw true (32 / 8) (two.address at64 l)).toOption = some (bytes64 4)) l h), by decide⟩

/-- v31 is 8 in lane 0, the only lane. -/
def stacked : State :=
  { State.reset.fixture with warp := { State.reset.fixture.warp with v := [(31 * 32, 8)] } }

/-- The bytes of the word at local address a of lane 0. -/
def local0 (a : Nat) : List (List Phys) := [(List.range 4).map (fun i => ⟨0x100000 + 32 * a + i, 15, some 0⟩)]

theorem test_witness_LoadAndSaveMultiple :
    (30 ≤ 31 → 30 + 0 < 31) ∧
    stacked.ready { Pre.opds g7 [(.v 31, 32)] [(.v 31, 32), (.v 30, 32)] with runs := [(30, 1)] } = true ∧
    stacked.wordsAccess .load 1 (stacked.getV 31 1 0) 0 = .ok (local0 8) ∧
    stacked.ready { Pre.opds g7 [(.v 31, 32), (.v 30, 32)] [(.v 31, 32)] with runs := [(30, 1)] } = true ∧
    stacked.wordsAccess .store 1 (((stacked.getV 31 1 0 : Int) - 4 * 1) % (2 ^ 32 : Int)).toNat 0 = .ok (local0 4) ∧
    ∀ l, laneIn (stacked.active g7) l = true → l = 0 :=
  ⟨by decide, by decide, ok_of_some (by decide), by decide, ok_of_some (by decide), of_lanes (by decide)⟩

/-- Lane 0 parked at address 64 since park 0 in fibre 0 of a workgroup in the tables, whose timeout is at cycle 100. -/
def parkAt64 : Park := ⟨0, 1, [(0, 64)], [1], 100⟩

/-- The same state with a second split parked. -/
def parked : State :=
  { State.reset.fixture with fib := { State.reset.fixture.fib with splits := [(1, { State.reset.fixture.split with st := .parked parkAt64 })] },
                             dev := { State.reset.dev with nextId := 1, fibs := [(1, { Fib.zero with splits := [(2, { State.reset.fixture.split with st := .parked { parkAt64 with seq := 1 } })] })] } }

theorem test_witness_WaitAndWake :
    two.ready { Pre.opds g7 [(.zero, 32), (.zero, 64), (.s 1, 64)] [(.v 1, 32)] with pins := true } = true ∧
    (∀ l ∈ accessLanes (isScalarDest (.v 1)) (two.active g7),
      two.flatAccess .load true (32 / 8) (two.address at64 l) = .ok (bytes64 4)) ∧
    two.timeout 0 (.cycles 0) = 0 ∧ two.timeout 1 (.cycles 1) ≠ 0 ∧ two.split.st.reloads = false ∧
    two.dev.gather (bytes64 4) = two.get .arith 32 .zero 0 ∧ two.dev.gather (bytes64 4) = two.get .arith 32 .zero 1 ∧
    parked.ready { Pre.opds g7 [(.zero, 64)] [] with pins := true } = true ∧
    parked.flatAccess .load false 1 (parked.address at64 (lowest (parked.active g7))) = .ok [⟨64, 15, some 0⟩] ∧
    (parked.parks.map (·.seq)).Nodup ∧ 1 < parked.parks.length ∧
    ∃ fb y, Tab.find parked.dev.fibs 1 = some fb ∧ Tab.find fb.splits 2 = some y ∧ y.st = .parked { parkAt64 with seq := 1 } :=
  ⟨by decide, fun l h => ok_of_some ((by decide : ∀ l ∈ accessLanes (isScalarDest (.v 1)) (two.active g7),
      (two.flatAccess .load true (32 / 8) (two.address at64 l)).toOption = some (bytes64 4)) l h), by decide, by decide, by decide,
    by decide, by decide, by decide, ok_of_some (by decide), by decide, by decide, _, _, rfl, rfl, rfl⟩

/-- s0 holds 64 and s1 holds 128. -/
def ranged : State := { two with fib := { two.fib with s := [(0, 64), (1, 128)] } }

theorem test_witness_InstructionLocks :
    ranged.ready (.opds g7 [(.s 0, 64), (.s 1, 64)] []) = true ∧ ranged.lockFor 64 128 = some ⟨64, 128, [0, 1]⟩ ∧
    ranged.lockFor 64 0 = none ∧ ranged.lockFor 64 65537 = none ∧ (∀ r ∈ ranged.wg.locks, ¬ (r.addr = 64 ∧ r.bytes = 128)) ∧
    (let held := [(⟨0, 1, [0]⟩ : Lock), ⟨64, 128, [0, 1]⟩, ⟨64, 128, [0, 1]⟩]
     ∃ before r after, held = before ++ r :: after ∧ (∀ q ∈ before, ¬ (q.addr = 64 ∧ q.bytes = 128)) ∧ r.addr = 64 ∧ r.bytes = 128) :=
  ⟨by decide, by decide, by decide, by decide, by decide, [⟨0, 1, [0]⟩], ⟨64, 128, [0, 1]⟩, [⟨64, 128, [0, 1]⟩], rfl, by decide, rfl, rfl⟩

/-- R329: a core that has 512 lines of 128 bytes locked grants no more; 0xC000000000 to 0xC00000FFFF, which hold them, have no translation. -/
theorem test_step_ilock_held :
    ({ ranged with wg := { ranged.wg with locks := [⟨0xC000000000, 65536, (List.range 512).map (· + 8)⟩] } } : State).lockFor 64 128 = none := by
  decide +kernel

/-! ### Witnesses: tiles, engines, control -/

/-- A zero tile. -/
def tileOf (lvl : Level) (rows rb : Nat) : Tile := ⟨lvl, rows, rb, [], [], [], [], []⟩

/-- Handles bound in the workgroup: h0 a T of 8 rows of 128 bytes, h1 a W of 64 rows of 256, h2 and h3 accumulators, h4 a queue
with one entry that puts both positions of a group in rising order, h5 a W. -/
def bound : State :=
  { two with wg := { two.wg with
      tiles := [(0, tileOf .t 8 128), (1, tileOf .w 64 512), (2, tileOf .a 32 256), (3, tileOf .a 32 256),
                (4, { tileOf .q 4 512 with queue := [(2 ^ 4096 - 1) / 15 * 4] }), (5, tileOf .w 64 512)] } }

theorem test_witness_TileBinding :
    bound.ready { Pre.opds g7 [] [] with deps := [.users bound.wgKey 0] } = true ∧
    shapeOk .t 4096 16 = true ∧ shapeOk .t 4097 16 = false ∧ (Tab.find bound.wg.tiles 0).isSome = true ∧
    tileFits bound.wg.config bound.coreTiles .t 4096 8192 = false ∧ tileFits bound.wg.config bound.coreTiles .t 1 16 = true ∧
    Tab.find bound.wg.tiles 63 = none ∧ Tab.find bound.wg.tiles 0 = some (tileOf .t 8 128) ∧ 0 < 1 * 16 := by decide

theorem test_witness_TileElements :
    Tab.find bound.wg.tiles 0 = some (tileOf .t 8 128) ∧ (tileOf .t 8 128).lvl = .t ∧
    bound.ready { Pre.opds g7 (coordReads ⟨0, .imm 7, .imm 31⟩) [(.v 1, regBits .b32)] with deps := [.writers bound.wgKey 0] } = true ∧
    bound.ready { Pre.opds g7 ((.v 1, regBits .b32) :: coordReads ⟨0, .imm 7, .imm 31⟩) [] with deps := [.users bound.wgKey 0] } = true ∧
    (∀ l, laneIn (bound.active g7) l = true → bound.coordVal (.imm 7) l < 8 ∧ bound.coordVal (.imm 31) l < 128 / Width.bytes .b32) ∧
    ∃ l, laneIn (bound.active g7) l = true ∧ ¬ (bound.coordVal (.imm 7) l < 8 ∧ bound.coordVal (.imm 32) l < 128 / Width.bytes .b32) :=
  ⟨by decide, by decide, by decide, by decide, of_lanes (by decide), 0, by decide⟩

theorem test_witness_MatrixMultiply :
    bound.ready { Pre.opds g7 [(.v 8, 512)] [] with deps := bound.mmaDeps false 2 [1] } = true ∧
    (bound.accPair false 2).isSome = true ∧ (bound.accPair true 2).isSome = true ∧ (bound.accPair true 3).isSome = false ∧
    Tab.find bound.wg.tiles 1 = some (tileOf .w 64 512) ∧
    bound.wFault .f16 .plain 1 (64 - mmaK .f16) (mmaK .f16) 3 = none ∧ bound.wPoison .f16 .plain 1 0 (mmaK .f16) 0 = 0 ∧
    ((bound.tileAt .q 4).map (fun q => q.queue.length)) = some 1 ∧
    bound.wFault .f16 .plain 1 0 (mmaK .f16 / 2) 0 = none := by decide

/-- The entry of h4 is a sparse B: p0 is 0 and p1 is 1 in every group. -/
theorem test_witness_MatrixMultiply_sparse : sparseBad .f16 ((2 ^ 4096 - 1) / 15 * 4) = false := by decide

/-- Counts of 1 and 1 in s4 and s5 for the two groups. -/
def grouped : State := { bound with fib := { bound.fib with s := [(4, 1), (5, 1)] } }

theorem test_witness_MatrixMultiply_grouped :
    grouped.ready { Pre.opds g7 [(.v 8, 512), (.s 4, 32), (.s 5, 32)] [] with deps := grouped.mmaDeps false 2 [1, 2] } = true ∧
    ((List.range 2).map (fun j => grouped.getS (4 + j) % 2 ^ 32)).sum ≤ 32 ∧ (grouped.accPair false 2).isSome = true ∧
    grouped.wFault .f16 .plain 1 0 (mmaK .f16) 0 = none ∧ grouped.wPoison .f16 .plain 1 0 (mmaK .f16) 0 = 0 ∧
    ((List.range 1).map (fun j => bound.getS (4 + j) % 2 ^ 32)).sum ≤ 32 := by decide

theorem test_witness_MatrixElements :
    Ty.f32 ≠ .f64 ∧ [0, 31].Nodup ∧ Tab.find bound.wg.tiles 2 = some (tileOf .a 32 256) ∧ (tileOf .a 32 256).lvl = .a ∧ 63 < 64 := by
  decide

/-- Row 1 of h2 has a checksum that its zeros do not have. -/
def broken : State := { bound with wg := { bound.wg with tiles := Tab.put bound.wg.tiles 2 { tileOf .a 32 256 with md := [(1, 0x3FF00000 <<< 192)] } } }

theorem test_witness_Accumulators :
    bound.accPair false 2 = some (tileOf .a 32 256, tileOf .a 32 256) ∧
    bound.ready { Pre.opds g7 (coordReads ⟨2, .imm 31, .imm 63⟩) [(.v 1, 32)] with deps := (accHandles false 2).map (Dep.writers bound.wgKey) } = true ∧
    (∀ l, laneIn (bound.active g7) l = true → bound.coordVal (.imm 31) l < 32 ∧ bound.coordVal (.imm 63) l < 64) ∧
    (∀ l, laneIn (bound.active g7) l = true → bound.coordVal (.imm 31) l < 32 ∧ bound.coordVal (.imm 7) l < 8) ∧
    bound.ready { Pre.opds g7 ((.v 1, 32) :: coordReads ⟨2, .imm 0, .imm 0⟩) [] with deps := (accHandles false 2).map (Dep.users bound.wgKey) } = true ∧
    bound.ready { Pre.opds g7 [] [] with deps := (accHandles false 2).map (Dep.users bound.wgKey) } = true ∧
    bound.ready { Pre.opds g7 [] [] with deps := (accHandles true 2).map (Dep.writers bound.wgKey) } = true ∧
    (lanesOf (bound.active g7)).all (fun l => !rowFails false (tileOf .a 32 256, tileOf .a 32 256) l) = true ∧
    (lanesOf (broken.active g7)).all (fun l => !rowFails false (tileOf .a 32 256, { tileOf .a 32 256 with md := [(1, 0x3FF00000 <<< 192)] }) l) = true ∧
    (lanesOf (broken.active g7)).all (fun l => !rowFails false ({ tileOf .a 32 256 with md := [(1, 0x3FF00000 <<< 192)] }, tileOf .a 32 256) l) = false :=
  ⟨by decide, by decide, of_lanes (by decide), of_lanes (by decide), by decide, by decide, by decide, by decide, by decide, by decide⟩

theorem test_witness_CopyCommands :
    bound.ready { Pre.opds g7 [(.s 0, 64)] [] with pins := true } = true ∧ bound.ready { Pre.opds g7 [(.zero, 64)] [] with pins := true } = true ∧
    bound.regionFault .t 0 0 0 8 128 = none ∧ bound.regionFault .t 0 1 0 8 128 ≠ none ∧
    bound.ready { Pre.opds g7 [(.s 0, 64), (.s 2, 64)] [] with pins := true } = true ∧
    (bound.tileAt .q 4).isSome = true ∧ (bound.tileAt .w 1).isSome = true ∧ 7 + 8 < (tileOf .w 64 512).rb / 32 ∧ 0 + 9 < (tileOf .w 64 512).rb / 48 ∧
    bound.dev.engines bound.wg.part ≠ 0 := by
  decide

/-- bound in a partition that owns no engine; s12 waits for a command. -/
def unowned : State :=
  { bound with
    wg := { bound.wg with part := 2 },
    fib := { bound.fib with pend := [(12, 7)] } }

theorem test_witness_CopyCommands_unowned :
    unowned.dev.engines unowned.wg.part = 0 ∧ unowned.depMet (.sreg unowned.key 12) = false ∧ unowned.depMet (.sreg unowned.key 13) = true ∧
    unowned.ready { Pre.opds g7 [(.s 0, 64)] [] with pins := true, deps := [.sreg unowned.key 13] } = true ∧
    unowned.ready { Pre.opds g7 [(.s 0, 64)] [] with pins := true, deps := [] } = true := by decide

/-- R172, R23: the command waits for its token register, and otherwise ends with 0x46 there. -/
theorem test_step_cpyq_unowned :
    (match exec (.cpyq g7 (.s 12) 4 0 (.s 0)) unowned, exec (.cpyq g7 (.s 13) 4 0 (.s 0)) unowned with
      | .next t, .next u => (match t.split.st with | .stalled _ ds _ _ => decide (ds = [.sreg 0 12]) | _ => false) && decide (t.fib.pend = [(12, 7)]) &&
          decide (u.getS 13 = 0x46) && u.dev.cmds.isEmpty
      | _, _ => false) = true := by decide

theorem test_witness_OtherCommands :
    two.ready { Pre.opds g7 [(.s 1, 64), (.s 2, 64), (.s 4, 64), (.s 6, 64), (.s 8, 64), (.s 10, 64)] [] with pins := true } = true ∧
    two.ready { Pre.opds g7 [(.s 12, 64), (.s 1, 64)] [] with pins := true } = true ∧ two.ready { Pre.opds g7 [] [] with pins := true } = true ∧
    two.ready (.opds g7 [] []) = true ∧ Tab.find kept.fib.pend 5 ≠ none := by decide

/-- Two lanes at 0x10000 with v0:v1 the address 0x10010 in lane 0 and the value t in lane 1; a table of one entry, 0x10010, at
0x10100. -/
def jumping (t : Nat) : State :=
  { two with
    warp := { two.warp with v := Tab.set 0 [(0, 0x10010)] 1 (BitVec.ofNat 32 t) },
    dev := { two.dev with mem := Memory.writeNat (Memory.writeNat [] 8 0x10100 1) 8 0x10108 0x10010 } }

theorem test_witness_Branches :
    (jumping 0).inRecipe = false ∧ (jumping 0).ready (.opds g7 [] []) = true ∧ (jumping 0).ready (.opds g7 [] [(.v 30, 32)]) = true ∧
    (jumping 0).ready (.opds g7 [(.v 0, 64)] [(.v 30, 32)]) = true ∧ (jumping 0).ready (.opds g7 [(.v 30, 32)] []) = true ∧
    (jumping 0).targetTable 0x10100 = .ok (some [0x10010]) ∧ (jumping 0).targetTable 0x10000 = .ok none ∧
    (lanesOf ((jumping 0).active g7)).filter (fun l => !List.contains [0x10010] ((jumping 0).get .arith 64 (.v 0) l)) ≠ [] ∧
    (lanesOf ((jumping 0x10010).active g7)).filter (fun l => !List.contains [0x10010] ((jumping 0x10010).get .arith 64 (.v 0) l)) = [] ∧
    (0x10010 : Word64) ≠ 0x10008 :=
  ⟨by decide, by decide, by decide, by decide, by decide, ok_of_some (by decide), ok_of_some (by decide), by decide, by decide, by decide⟩

/-- Split 1 of a divided fibre issues beside its sibling 2; fibre 1 of the warp holds n splits of its own. -/
def divided (n : Nat) : State :=
  { two with
    cur := some ⟨0, 1, false⟩, split := { two.split with parent := 0 },
    fib := { two.fib with splits := [(2, { two.split with parent := 0, mask := 4, pc := 0x20000 })], tree := [(0, 63)] },
    dev := { two.dev with fibs := [(1, { Fib.zero with splits := (List.range n).map (fun i => (i, two.split)) })] } }

/-- The table has room for two with 29 splits in the other fibre, and none with 30. -/
theorem test_witness_Branches_divided :
    (divided 29).cur = some ⟨0, 1, false⟩ ∧ (divided 29).residents + 2 ≤ 32 ∧ ¬ (divided 30).residents + 2 ≤ 32 ∧ (divided 29).fib.spilled = [] ∧
    (∀ p ∈ (divided 29).dev.fibs, p.1 / 4 = (divided 29).warpKey → p.2.spilled = []) ∧ ((divided 29).nest (divided 29).split).step = none ∧
    (divided 29).fib.tree.length ≤ 30 ∧ Tab.find (divided 29).fib.splits 1 = none ∧ Tab.find (divided 29).fib.tree 1 = none ∧
    (∀ p ∈ (divided 29).fib.splits, p.2.parent ≠ 1) := by decide

/-- R43, R44: two lanes part; the two children take the ids 3 and 4 and parent 1, and the sibling stays. -/
theorem test_step_divide :
    (let t := (divided 29).branch 3 id [(0x10010, 1), (0x10008, 2)]
     decide (t.cur = some ⟨0, 4, false⟩) && decide (t.split.pc = 0x10008 ∧ t.split.parent = 1 ∧ t.split.mask = 2) &&
     decide (t.fib.splits.map (fun p => (p.1, p.2.parent)) = [(2, 0), (3, 1)]) && decide (t.fib.tree = [(0, 63), (1, 0)])) = true := by decide

/-- An element of a substitute sequence runs. -/
def within : State := { two with inner := some ⟨false, 0x10000, 0x10000, 3, false, [], 0, 0, 0x0010000801087061, [], 0, []⟩ }

theorem test_witness_Advance :
    within.inner.isSome = true ∧ two.inner = none ∧ two.alone = true ∧ handler.alone = true ∧ two.cur.isSome = true ∧
    two.fib.spilled = [] ∧ two.dev.fibs.all (fun p => p.2.spilled.isEmpty) = true ∧ two.dev.cmds = [] := by decide

/-- Two fibres in a workgroup of one warp; the other has arrived at barrier 1 and FBAR mask 3. -/
def meeting : State :=
  { two with wg := { two.wg with nfibs := 2, bars := [(1, ⟨1, 2, [1]⟩), (2, ⟨1, 3, [0]⟩)] }, warp := { two.warp with fbars := [(3, 2)], p := [128, 128] },
             dev := { two.dev with fibs := [(1, { Fib.zero with splits := [(0, { two.split with st := .barWait 1 3 })] })] } }

theorem test_witness_Barriers :
    meeting.ready { Pre.opds g7 [] [] with pins := true } = true ∧ handler.ready { Pre.opds g7 [] [] with pins := true } = true ∧
    handler.inHandler = true ∧ meeting.inHandler = false ∧ meeting.key ∉ ([1] : List Nat) ∧ meeting.key ∈ ([0] : List Nat) ∧
    meeting.unreachable ⟨2, 2, [1, 0]⟩ = false ∧ meeting.unreachable ⟨1, 2, [0]⟩ = false ∧ (1 : Nat) + 1 ≤ 2 ∧
    meeting.fbarMisuse 3 = false ∧ meeting.fbarMisuse 2 = true ∧ Tab.get 0 meeting.warp.fbars 3 ||| 2 ^ meeting.fibNo = 3 ∧
    meeting.dev.fibs.all (fun p => p.2.spilled.isEmpty) = true ∧
    (∃ f x, Tab.find meeting.dev.fibs 1 = some f ∧ Tab.find f.splits 0 = some x ∧ x.st = .barWait 1 3) ∧
    Tab.find parked.fib.splits 1 = some { State.reset.fixture.split with st := .parked parkAt64 } :=
  ⟨by decide, by decide, by decide, by decide, by decide, by decide, by decide, by decide, by decide, by decide, by decide, by decide, by decide,
    ⟨_, _, rfl, rfl, rfl⟩, by decide⟩

theorem test_witness_ExitSosPpt :
    two.ready (.opds g7 [] []) = true ∧ handler.ready (.opds g7 [] []) = true ∧ two.inHandler = false ∧
    two.split.mask &&& ~~~ two.active g7 = 0 ∧ two.lastSplit = true ∧ two.inRecipe = false ∧ two.fib.stop = none ∧ two.warp.retries = [] ∧
    (let s := { two with fib := { two.fib with preds := [(0, 1)] } }; s.ready (.opds ⟨false, 0⟩ [] []) = true ∧
      s.split.mask &&& ~~~ s.active ⟨false, 0⟩ ≠ 0) ∧ parked.lastSplit = false := by decide

theorem test_witness_SpecialRegisters :
    srNamed 0x00A = true ∧ srNamed 0x00B = false ∧ srWritten 0x031 = true ∧ srWritten 0x000 = false ∧
    (srPerLane 0x030 && isScalarDest (.v 1)) = false ∧ two.ready (.opds g7 [] [(.v 1, 32)]) = true ∧ two.ready (.opds g7 [(.s 8, 64)] []) = true ∧
    srBreaks 0x031 0xFF = false ∧ two.fib.priv = .u ∧ two.cur.isSome = true ∧ two.windowsOk (.opds g7 [] [(.v 1, 64)]) = true ∧
    ({ two with fib := { two.fib with priv := .s } } : State).fib.priv ≠ .u ∧ srBreaks 0x040 0x100000 = false := by decide

/-- A launch with a handler at 0x20000. -/
def guarded : State :=
  { two with
    wg := { two.wg with launch := some 0 },
    dev := { two.dev with launches := [(0, { queue := 0, pos := 0, part := 1, prev := none, s1root := 0, descAddr := 0, desc := { nset := 5, contract := 6, fibres := 1, config := 0, guard := false, regs := 256, shared := 0, p := [256], lwsize := 0x10000, entry := [0x10000], handler := 0x20000, tiles := [] }, gx := 1, gy := 1, gz := 1, warps := 1, serial := false, done := 0, dep := 0, depval := 0, args := [], depMet := true, nextWg := 1, finished := 0, prio := 0, cap := 3, waitFrom := 0, higher := none, fitFrom := none, reserved := none, hold := false, status := 0, ending := false, answer := false })] } }

theorem test_witness_TakingATrap :
    two.ready (.opds g7 [] []) = true ∧ two.inHandler = false ∧ two.inner = none ∧
    ((two.wg.launch.bind (Tab.find two.dev.launches)).map (·.desc.handler)).getD 0 = 0 ∧
    guarded.ready (.opds g7 [] []) = true ∧ ((guarded.wg.launch.bind (Tab.find guarded.dev.launches)).map (·.desc.handler)).getD 0 ≠ 0 ∧
    handler.inHandler = true ∧ routeOf 0x14 ≠ .record ∧ handler.fib.trapped = some ⟨0x5E, 0x10000, 0⟩ := by decide

/-- A handler over the trapped split 0, and lane 1 with DZ and OF set, both enabled. -/
def returning : State :=
  { handler with fib := { handler.fib with splits := [(0, two.split)], flags := [(1, 6)], trapen := 6 } }

theorem test_witness_FenceAndReturn :
    two.ready (.opds g7 [] []) = true ∧ (lanesOf (two.active g7)).filter (fun l => (two.getFlags l &&& two.fib.trapen).toNat != 0) = [] ∧
    (lanesOf (returning.active g7)).filter (fun l => (returning.getFlags l &&& returning.fib.trapen).toNat != 0) ≠ [] ∧
    returning.ready (.opds ⟨false, 7⟩ [] []) = true ∧ returning.cur = some ⟨0, 64, true⟩ ∧
    returning.fib.trapped = some ⟨0x5E, 0x10000, 0⟩ ∧ Tab.find returning.fib.splits 0 = some two.split ∧ two.cur = some ⟨0, 0, false⟩ := by
  decide

theorem test_witness_BracketsAndHalving :
    two.ready (.opds g7 [(.zero, 32), (.imm16 7, 32)] []) = true ∧ two.ready (.opds g7 [] [(.v 1, 32)]) = true ∧
    2 ≤ 2 ∧ (⟨0, 8, 0, 10, 0⟩ : Bracket).count + 1 < 256 ∧ keyOf false 0 ≤ keyOf false 8 ∧
    (InvPlan.take ⟨true, false, 0, 40⟩ ⟨0, 8, 0, 10, 0⟩ 2 5 3).result = none ∧
    (-2 ^ 31 : Int) < -1 ∧ (2 ^ 31 - 1 : Int) < 2 ^ 31 := by decide

/-- An INV over b1 with x in v8, t in v9, d in v10 and a body of one word. -/
def inv1 : InvArgs := ⟨g7, .upI32, 39, 0, 0, 1, .v 8, .v 9, .v 10⟩

/-- The body of inv1 at 0x10008 is iadd v11, v8, v8, or the word w. -/
def inverting (w : Nat) : State := { two with dev := { two.dev with mem := Memory.writeNat [] 8 0x10008 w } }

theorem test_witness_Inverse :
    inv1.x = .v 8 ∧ inv1.t = .v 9 ∧ inv1.d = .v 10 ∧ (inverting 0x20100b7001).fib.marks = [] ∧ (inverting 0x20100b7001).inner = none ∧
    (inverting 0x20100b7001).ready (.opds inv1.g [(inv1.t, 32)] [(inv1.d, 32), (inv1.x, 32)]) = true ∧
    (∃ b, (inverting 0x20100b7001).readBody [inv1.x, inv1.t, inv1.d] (inv1.nlen1 + 1) 0 ((inverting 0x20100b7001).split.pc.toNat + (Instr.inv inv1).bytes)
      = .ok b) ∧
    (∃ e, (inverting 0).readBody [inv1.x, inv1.t, inv1.d] (inv1.nlen1 + 1) 0 ((inverting 0).split.pc.toNat + (Instr.inv inv1).bytes) = .error e) ∧
    (let s : State := { two with fib := { two.fib with brk := [(32, ⟨1, 0, 0, 0, 0⟩), (33, ⟨1, 0, 0, 0, 0⟩)] } }
     ∀ l, laneIn (s.active g7) l = true → keyOf false (s.getB 1 l).hi.toNat < keyOf false (s.getB 1 l).lo.toNat) :=
  ⟨rfl, rfl, rfl, by decide, by decide, by decide, ⟨_, ok_of_some (y := ([(0, 0x10008, .iadd ⟨g7, .u32, .v 11, .v 8, .v 8⟩ none none)], 0x10010))
    (by decide)⟩, error_of_none (by decide), of_lanes (by decide)⟩

/-- A word that entry 0 of the core's table intercepts, and ximm s8 in the store. -/
def replaced : State := State.reset.withFetchWord 64 0x1087fc1

theorem test_witness_Replacement :
    within.inner.isSome = true ∧ within.ready (.opds g7 [] [(.s 8, max 32 (Raw.ofWord 0x0010000801087061).ty.w)]) = true ∧
    within.ready (.opds g7 [] [(.v 8, 64)]) = true ∧ two.cur.isSome = true ∧ two.inner = none ∧
    (match replaced.fetchAt replaced.split.pc.toNat with | .word w => decide (w % 2 ^ 64 = nopWord) | _ => false) = true ∧
    replaced.matchWord nopWord = some 0 ∧ replaced.inner = none ∧
    replaced.core.elements 0 (imageNat replaced.core.table 1 0x12) 0 = some [.ximm g7 (.s 8)] ∧
    replaced.ready (.opds (.ofCode (nopWord / 2 ^ 12 % 2 ^ 4)) [] []) = true ∧
    (replaced.clearMark.runInner ⟨false, replaced.tpc, replaced.split.pc, 1, false, [], 0, 0, nopWord, [], 0, []⟩
      [(0, 0x10000, .ximm g7 (.s 8))]).inner.map (·.hit) = some false := by decide

/-! ### Witnesses: the device's own steps -/

/-- A command of fibre 0 of workgroup 0. -/
def cmdOf (k : CmdKind) (st : Stage) : Cmd :=
  { wg := 0, fib := 0, tok := 12, lanes := 3, launch := some 0, part := 1, s1root := 0, priv := .u, contract := 6, slice := 0,
    core := 0, kind := k, after := [], stage := st, status := 0, stamp := false, asked := none }

/-- A fibre whose s12 and s13 wait for command 7. -/
def fibre : Fib :=
  { Fib.zero with
    splits := [(0, two.split)], pend := [(12, 7), (13, 7)], lwbase := 0x100000, lwsize := 0x10000, entry := 0x10000 }

/-- A descriptor of one fibre of 32 registers with a local window of 64 KiB. -/
def desc1 : Desc :=
  { nset := 5, contract := 6, fibres := 1, config := 0, guard := false, regs := 32, shared := 0, p := [32], lwsize := 0x10000,
    entry := [0x10000], handler := 0, tiles := [] }

/-- A launch of two workgroups of one warp. -/
def launch1 : Launch :=
  { queue := 0, pos := 0, part := 1, prev := none, s1root := 0, descAddr := 0, desc := desc1, gx := 2, gy := 1, gz := 1, warps := 1,
    serial := false, done := 0x200, dep := 0x208, depval := 0, args := [], depMet := true, nextWg := 0, finished := 0, prio := 0, cap := 3,
    waitFrom := 0, higher := some 0, fitFrom := none, reserved := none, hold := false, status := 0, ending := false, answer := false }

/-- Partition 1 on slice 0 with a pool of local windows and a queue of 16 records at 0x40000. -/
def part1 : Part :=
  { Part.start { Entry.beforeCommit with nsl := 1 } with
    block := { SBlock.zero with
      lwBase := 0x1000000, lwSize := 0x1000000, ctxBase := 0x2000000, ctxSize := 0x1000000, queues := [(0, ⟨0x40000, 0, 4, 1, true⟩)] } }

/-- A machine in which nothing issues: a workgroup of launch 0 with one fibre, and command 7. -/
def busy (k : CmdKind) (st : Stage) : State :=
  { State.reset with dev := { State.reset.dev with
      cycles := 2500000, nextId := 8, parts := [(1, part1)], fibs := [(0, fibre)], warps := [(0, { Warp.zero with n := 32, p := [32], cur := some (0, 0, false) })],
      wgs := [(0, { Wg.zero with launch := some 0, part := 1, nwarps := 1, nfibs := 1, tiles := [(0, tileOf .t 8 128), (4, tileOf .q 4 512)] })],
      launches := [(0, launch1)], cmds := [(7, cmdOf k st)], comms := [(5 * 16 + 1, ⟨2, 0, 0, 0x5000, 6, 0⟩)] } }

theorem test_witness_CopyEngines :
    (busy (.toTile 0 0 0 1 16 16 0x300) .waiting).cur = none ∧
    Tab.find (busy (.toTile 0 0 0 1 16 16 0x300) .waiting).dev.cmds 7 = some (cmdOf (.toTile 0 0 0 1 16 16 0x300) .waiting) ∧
    (busy (.toTile 0 0 0 1 16 16 0x300) .waiting).dev.canDispatch 7 = true ∧
    (CmdKind.toTile 0 0 0 1 16 16 0x300).isCopy = true ∧
    (match (busy (.toTile 0 0 0 1 16 16 0x300) .running).transfer (cmdOf (.toTile 0 0 0 1 16 16 0x300) .running) with
      | .ok _ => true | _ => false) = true ∧
    (match (busy (.toTile 0 0 0 1 16 16 0x301) .running).transfer (cmdOf (.toTile 0 0 0 1 16 16 0x301) .running) with
      | .status st => decide (st = 0x38) | _ => false) = true := by decide

/-- CPYQ with nothing left, and with an entry left and room in its queue. -/
theorem test_witness_CopyEngines_entries :
    (cmdOf (.entries 4 1 0x400) .running).kind = .entries 4 1 0x400 ∧ 0 < 1 ∧
    Tab.find (busy (.entries 4 1 0x400) .running).dev.wgs 0 ≠ none ∧ placeOk (512 * 1) [0x400] = true ∧
    (tileOf .q 4 512).queue.length < (tileOf .q 4 512).rows ∧ (cmdOf (.entries 4 0 0x400) .running).stage = .running ∧
    (match (busy (.entries 4 1 0x400) .running).dev.engineRange (cmdOf (.entries 4 1 0x400) .running).space .load 512 0x400 with
      | .ok ps => ((busy (.entries 4 1 0x400) .running).dev.lostBytes 0x400 ps).isEmpty | _ => false) = true := by decide

theorem test_witness_CommandEnds :
    Tab.find (busy .take .running).dev.cmds 7 = some (cmdOf .take .running) ∧ (cmdOf .take .running).stage ≠ .carried ∧
    Tab.find (busy .take .running).dev.fibs 0 = some fibre ∧ Tab.find fibre.pend 12 = some 7 ∧
    Tab.find { fibre with pend := [(12, 8)] }.pend 12 ≠ some 7 ∧
    (Tab.find (busy .take .running).dev.wgs 0).bind (fun w => Tab.find w.tiles 0) = some (tileOf .t 8 128) ∧
    (match (busy .take .running).dev.engineRows (cmdOf .take .running).space .load 16 [0x300] with
      | (rows, .ok ()) => decide (rows.length = 1) && rows.all (fun ps => decide (ps.length = 16)) | _ => false) = true := by decide

theorem test_witness_DistributorAndCollectives :
    (busy (.enqueue 0x400 0) .waiting).dev.cmdReady (cmdOf (.enqueue 0x400 0) .waiting) = true ∧
    (busy (.enqueue 0x400 0) .waiting).dev.queueDesc 0 = some (1, ⟨0x40000, 0, 4, 1, true⟩) ∧ 0x400 % 128 = 0 ∧
    (match (busy (.enqueue 0x400 0) .waiting).dev.engineRange (cmdOf (.enqueue 0x400 0) .waiting).space .load 128 0x400 with
      | .ok ps => ((busy (.enqueue 0x400 0) .waiting).dev.lostBytes 0x400 ps).isEmpty | _ => false) = true ∧
    ((busy (.enqueue 0x400 0) .waiting).dev.queue 0).waiting ≠ 2 ^ 4 ∧
    (match (busy (.enqueue 0x400 0) .waiting).dev.engineRange (queueSpace 1 ⟨0x40000, 0, 4, 1, true⟩) .store 128 0x40000 with
      | .ok _ => true | _ => false) = true ∧
    (cmdOf .take .waiting).launch = some 0 ∧ Tab.find (busy .take .waiting).dev.launches 0 = some launch1 ∧ launch1.nextWg < launch1.total ∧
    Tab.find fibre.pend 12 = some 7 ∧ Tab.find fibre.pend 13 = some 7 := by decide

/-- A collective that passes its checks, one that fails them, and one that has started. -/
theorem test_witness_DistributorAndCollectives_coll :
    (busy (.coll .allred .add .u32 5 0x600 0x700 4 0 none false 1) .waiting).dev.collCheck 1 .allred .u32 5 0x600 0x700 4 0 none = 0 ∧
    (busy (.coll .allred .add .u32 5 0x600 0x700 0 0 none false 1) .waiting).dev.collCheck 1 .allred .u32 5 0x600 0x700 0 0 none = 0x41 ∧
    (busy (.coll .allred .add .u32 5 0x600 0x700 4 0 none false 1) .waiting).dev.collBehind 7 1 5 = false ∧
    (cmdOf (.coll .allred .add .u32 5 0x600 0x700 4 0 none true 1) .running).stage ≠ .finished ∧
    (match (busy (.coll .allred .add .u32 5 0x600 0x700 4 0 none false 1) .waiting).dev.condMet (cmdOf .take .waiting) none with
      | .ok b => b | _ => false) = true := by decide

/-- Loads of fibres 1 and 0 are outstanding, and split 0 of fibre 0 is parked until cycle 100. -/
def awaiting (now : Word64) : State :=
  { busy .take .running with dev := { (busy .take .running).dev with
      cycles := now,
      warps := [(0, { Warp.zero with n := 32, p := [32], out := [⟨1, [3], [], [], []⟩, ⟨0, [1], [], [(0, 64, 2)], []⟩] })],
      fibs := [(0, { fibre with splits := [(0, { two.split with st := .parked parkAt64 })] })] } }

theorem test_witness_WaitsEnd :
    (awaiting 0).cur = none ∧
    (Tab.find (awaiting 0).dev.warps (0 / 4)).map (·.out) = some ([⟨1, [3], [], [], []⟩] ++ ⟨0, [1], [], [(0, 64, 2)], []⟩ :: []) ∧
    (∀ x ∈ [(⟨1, [3], [], [], []⟩ : Outstanding)], x.fib ≠ 0 % 4) ∧ (0, 64, 2) ∈ [(0, 64, 2)] ∧ (awaiting 0).dev.bad = [] ∧
    (Tab.find (awaiting 0).dev.fibs 0).bind (fun f => Tab.find f.splits 0) = some { two.split with st := .parked parkAt64 } ∧
    parkAt64.deadline ≤ (awaiting 100).dev.cycles.toNat ∧ (awaiting 99).dev.cycles.toNat < parkAt64.deadline := by decide

/-- Splits 1 and 2 of one parent are ready, 1 held behind 2 for 64 opportunities. -/
def dividedWarp : State :=
  { busy .take .running with dev := { (busy .take .running).dev with
      warps := [(0, { Warp.zero with n := 32, p := [32], cur := some (0, 2, false), opps := 64, issuableSince := 1 })],
      fibs := [(0, { fibre with
        splits := [(1, { two.split with parent := 0, mask := 1, pc := 0x20000, wait := some 0 }), (2, { two.split with parent := 0, mask := 2 })],
        tree := [(0, 63)] })] } }

/-- A warp of which a split has been spilled for 4,096 opportunities while another is idle. -/
def spilledWarp : State :=
  { dividedWarp with dev := { dividedWarp.dev with
      warps := [(0, { Warp.zero with n := 32, p := [32], opps := 4096 })],
      fibs := [(0, { fibre with spilled := [⟨0, 0, 0, 3, 63, two.split, none⟩] })] } }

theorem test_witness_SlotChoices :
    ((Tab.find dividedWarp.dev.warps 0).map (·.cur)) = some (some (0, 2, false)) ∧
    ((Tab.find dividedWarp.dev.fibs 0).map (fun f => f.candidates.map (fun x => (x.1, x.2.1)))) = some [(2, false)] ∧
    (dividedWarp.flush.refresh.dev.choose none).isSome = true ∧ (idle.flush.refresh.dev.choose none).isNone = true ∧
    ((dividedWarp.flush.refresh.dev.issuable.find? (fun y => y.w == 0)).map (·.since)) = some 1 ∧
    1 + 15 ≤ dividedWarp.flush.refresh.dev.cycles.toNat ∧ dividedWarp.flush.refresh.dev.overdue 0 1 = true ∧
    (spilledWarp.dev.longSpilled 0 { Warp.zero with n := 32, p := [32], opps := 4096 }) = some 0 ∧
    (spilledWarp.dev.idleResident 0 { Warp.zero with n := 32, p := [32], opps := 4096 }) = some (0, 0, two.split) ∧
    (let s : State := { two with split := { two.split with st := .stalled false [.sreg 0 5] 0 none } }; s.cur.isSome = true) := by decide

/-- A queue with one record to read: 128 bytes that name a completion word at 0x200 and no workgroup. -/
def queued : State :=
  { busy .take .running with dev := { (busy .take .running).dev with
      queues := [(0, { Queue.zero with tail := 1 })], mem := Memory.writeNat [] 8 0x40018 0x200 } }

/-- A descriptor at 0x80000, and a record of 1 × 1 × 1 workgroups of one warp. -/
def launchableMemory : Memory :=
  let desc := Memory.writeNat (Memory.writeNat [] 16 0x80000 (0x4F4B4431 + 2 ^ 32 * (5 + 2 ^ 8 * 6 + 2 ^ 16 + 2 ^ 32 * 32 + 2 ^ 64 * 32))) 8 0x80020 0x10000
  Memory.writeNat desc 24 0x40000 (0x80000 + 2 ^ 64 * (1 + 2 ^ 32 + 2 ^ 64 + 2 ^ 96))

/-- queued with that record and descriptor in memory. -/
def launchable : State := { queued with dev := { queued.dev with mem := launchableMemory } }

theorem test_witness_LaunchAndFirstInstruction :
    queued.dev.queueDesc 0 = some (1, ⟨0x40000, 0, 4, 1, true⟩) ∧ queued.dev.headReady 0 = true ∧ queued.dev.isCancelled 1 0 0 = false ∧
    ((queued.dev.readVirtual (queueSpace 1 ⟨0x40000, 0, 4, 1, true⟩) 128 0x40000).map (fun v => (launchRec v).done)) = some 0x200 ∧
    ((queued.dev.readVirtual (queueSpace 1 ⟨0x40000, 0, 4, 1, true⟩) 128 0x40000).map (fun v =>
      (queued.dev.checkLaunch 1 (queueSpace 1 ⟨0x40000, 0, 4, 1, true⟩) (launchRec v)).toOption.isNone)) = some true ∧
    (queued.dev.translateRange (queueSpace 1 ⟨0x40000, 0, 4, 1, true⟩) .store 8 0x200).toOption.isSome = true ∧ (31 : Nat) < 32 := by decide

/-- The record at the head of launchable passes every check. -/
theorem test_witness_LaunchAndFirstInstruction_passes :
    ((launchable.dev.readVirtual (queueSpace 1 ⟨0x40000, 0, 4, 1, true⟩) 128 0x40000).map (fun v =>
      (launchable.dev.checkLaunch 1 (queueSpace 1 ⟨0x40000, 0, 4, 1, true⟩) (launchRec v)).toOption.isSome)) = some true := by decide

/-- The machine with launch 0 as x and with the cores of slice 0 in configuration c. -/
def launching (x : Launch) (c : Nat) : State :=
  { State.reset with dev := { (busy .take .running).dev with
      launches := [(0, x)], cmds := [], fibs := [], warps := [], wgs := [],
      cores := (List.range 24).map (fun i => (coreKey 0 i, { (State.reset.dev.core 0 0) with config := c })) } }

/-- A launch whose next workgroup has fitted no core since cycle 0. -/
def longing : Launch := { launch1 with fitFrom := some 0, desc := { desc1 with lwsize := 0x2000000 } }

theorem test_witness_DistributorSteps :
    { launch1 with depMet := false }.depMet = false ∧ (launching { launch1 with depMet := false } 0).dev.depHolds { launch1 with depMet := false } = true ∧
    (launching launch1 0).dev.mayPlace 0 0 23 = true ∧ ((launching launch1 0).dev.fits launch1 0 23).isSome = true ∧
    (launching launch1 0).dev.promotes launch1 = true ∧
    (∀ p ∈ [((0 : Nat), { fibre with exited := true })], p.1 / 256 = 0 → p.2.exited = true) := by decide

/-- A core in its configuration is reserved for a workgroup that waits, or one in no other launch's hands is changed to it. -/
theorem test_witness_DistributorSteps_cores :
    ((launching longing 0).dev.coreToReserve 0 longing).map (·.1) = some none ∧
    ((launching { longing with desc := desc1 } 1).dev.coreToChange 0 { longing with desc := desc1 }) = some (none, 0, 0) ∧
    (launching longing 0).dev.keptFrom none none 0 23 = false ∧ (0, 23) ∈ (launching longing 0).dev.coresOf longing.part ∧
    (launching { longing with desc := desc1 } 1).dev.warpsOn 0 0 = 0 := by decide

/-- A saved workgroup that waits; a launch that has ended. -/
theorem test_witness_DistributorSteps_waits :
    (let x := { launch1 with nextWg := 2, finished := 2 }
     x.total ≤ x.nextWg ∧ x.total ≤ x.finished ∧ (launching x 0).dev.wgsOf 0 = [] ∧ x.answer = false ∧ x.done ≠ 0 ∧ x.done % 8 = 0 ∧
       ((launching x 0).dev.translateRange ⟨1, 0, .u⟩ .store 8 0x200).toOption.isSome = true) := by decide

/-- A record of fibre 0. -/
def rec0 (kind : Nat) : Rec :=
  ⟨{ pc := 0x10000, addr := 0, info := 0, mask := 3, split := 0, cause := 0x10, kind := kind, loc := 0, lid := 0, part := 1 }, some 0, [], some 0, false⟩

/-- Slice 0 has a record waiting and a replayable one in its ring; the handler of fibre 0 has kept a save waiting since cycle 0. -/
def trapped : State :=
  { busy .take .running with dev := { (busy .take .running).dev with
      slices := [(0, { Slice.zero with tail := 1, waiting := [rec0 1], live := [(0, rec0 1)] })],
      fibs := [(0, { fibre with handler := some two.split, trapped := some ⟨0x5E, 0x10000, 0⟩ })],
      wgs := [(0, { Wg.zero with launch := some 0, part := 1, nwarps := 1, nfibs := 1, saving := some ⟨0x59, 0, false, none, none, none, false, false⟩ })] } }

theorem test_witness_TrapQueue :
    trapped.cur = none ∧ (trapped.dev.slice 0).waiting = [rec0 1] ∧ 2 ≤ (trapped.dev.slice 0).free ∧ (rec0 1).data.kind ≠ 2 ∧
    trapped.dev.inKeys ((trapped.dev.slice 0).recordAt 1 + 63) = false ∧ (trapped.dev.slice 0).head < 256 ∧ (11 : Nat) < 12 ∧
    Tab.find (trapped.dev.slice 0).live 0 = some (rec0 1) ∧ (rec0 1).answered = false ∧ 1 % 4 = 1 ∧
    (Tab.find trapped.dev.fibs 0).bind (·.handler) = some two.split ∧ trapped.dev.handlerLate 0 = true ∧ fibre.inService = false := by decide

/-- A workgroup with a save asked for at cycle 0 whose fibre runs forward, and a saved one. -/
def switching : State :=
  { busy .take .running with dev := { (busy .take .running).dev with
      cmds := [], fibs := [(0, { fibre with stop := some (.forward 0) })],
      wgs := [(0, { Wg.zero with launch := some 0, part := 1, nwarps := 1, nfibs := 1, saving := some ⟨0x59, 0, false, none, none, none, false, false⟩ })],
      saved := [(1, ⟨{ Wg.zero with launch := some 0, part := 1, nwarps := 1, nfibs := 1 }, 0x2000000, 16, [], none, none, none, none, [(256, fibre)],
        [(64, { Warp.zero with n := 32, p := [32] })]⟩)],
      turns := [(0, ⟨1, 1, 2500000, false, false⟩)] } }

theorem test_witness_ContextSwitch :
    (Tab.find (busy .take .running).dev.wgs 0).map (·.saving) = some none ∧
    (Tab.find switching.dev.fibs 0).map (·.stop) = some (some (.forward 0)) ∧ 0 + 16384 ≤ switching.dev.cycles.toNat ∧ fibre.handler = none ∧
    (Tab.find switching.dev.wgs 0).map (·.saving) = some (some ⟨0x59, 0, false, none, none, none, false, false⟩) ∧ switching.dev.mayRestore 1 0 0 = true ∧
    ((Tab.find switching.dev.saved 1).bind (fun x => switching.dev.restoreRoom x 0 0)).isSome = true ∧
    (switching.dev.translateRange ⟨1, 0, .s⟩ .load 16 0x2000000).toOption.isSome = true ∧
    switching.dev.turns.find? (fun t => t.2.part == 1) = some (0, ⟨1, 1, 2500000, false, false⟩) ∧ 2500000 ≤ switching.dev.cycles.toNat ∧
    switching.dev.noneOn 1 = false ∧ idle.dev.noneOn 1 = true ∧ idle.dev.cycles.toNat < 2500000 := by decide

/-- A fibre at a rewind point, with no block of a live register written. -/
def rewinder : Fib := { fibre with rewind := some ⟨0x10000, 1, 1, 0, 0, 0, 0, 3, []⟩ }

theorem test_witness_Rewinding :
    rewinder.rewind = some ⟨0x10000, 1, 1, 0, 0, 0, 0, 3, []⟩ ∧ rewinder.rewindable { Warp.zero with n := 32, p := [32] } 0 = true ∧
    { rewinder with wroteV := 1 }.rewindable { Warp.zero with n := 32, p := [32] } 0 = false := by decide

/-- A guarded warp whose fibre is f. -/
def shadowed (f : Fib) : State :=
  { busy .take .running with dev := { (busy .take .running).dev with
      fibs := [(0, f)],
      warps := [(0, { Warp.zero with n := 32, p := [32], place := ⟨0, 0, 0, 0, 0, some (1, 1)⟩, cur := some (0, 0, false) })],
      cores := [(coreKey 0 3, { (State.reset.dev.core 0 0) with suspect := true })] } }

theorem test_witness_Reliability :
    (Tab.find (shadowed rewinder).dev.warps 0).map (fun x => (x.cur, x.place.shadow, x.retries)) = some (some (0, 0, false), some (1, 1), []) ∧
    rewinder.runs = true ∧ rewinder.trapped = none ∧ rewinder.rewindable { Warp.zero with n := 32, p := [32] } 0 = true ∧
    fibre.rewindable { Warp.zero with n := 32, p := [32] } 0 = false ∧ ((shadowed fibre).dev.core 0 3).suspect = true ∧
    (idle.dev.entry 1).map (fun e => (e.first, e.nsl)) = some (0, 12) ∧ (4096 : Nat) ≤ 4096 ∧
    (idle.dev.translateRange ⟨1, 0, .s⟩ .store 64 0x5000).toOption.isSome = true ∧
    (idle.dev.carriedSet 1).testBit 6 = true ∧ Tab.find (busy .take .running).dev.comms (5 * 16 + 1) = some ⟨2, 0, 0, 0x5000, 6, 0⟩ := by decide

/-- A partition whose block lies outside its memory. -/
def unreadable : Part :=
  { Part.start .beforeCommit with entry := { (Part.start .beforeCommit).entry with sblock := 2 ^ 60 } }

theorem test_witness_Commits :
    idle.cur = none ∧ 0 = idle.dev.gen ∧ idle.dev.genWeak = false ∧ 1 ≠ idle.dev.gen ∧
    (Tab.find idle.dev.parts 1).map (fun q => (q.sgen, q.sgenWeak)) = some (0, false) ∧
    Nat.testBit 5 63 = false ∧ (idle.dev.readBlock 1 unreadable).toOption.isNone = true := by decide

theorem test_witness_HostInterface :
    queued.cur = none ∧ queued.dev.hostQueue 1 0 = some (0, ⟨0x40000, 0, 4, 1, true⟩) ∧ (1 : Nat) ≠ 0 ∧ (0 : Nat) < 0xF00 ∧
    0x100 ≤ 0x118 ∧ 0x118 < 0x120 ∧ 0x118 % 8 = 0 ∧ 0xBFFFFFFFFF + [0].length ≤ deviceEnd ∧ hostStart ≤ 0x10000000000 ∧
    idle.dev.inKeys 0x300 = false := by decide

theorem test_witness_FabricAndQueues :
    idle.dev.streamOf 0 0 1 = true ∧ idle.dev.streamOf 0 2 0 = true ∧
    (({ idle.dev with sfq := [(0, { Sfq.zero with reqs := [⟨0, 1, 64, 0, 1, 0⟩] })] } : Dev).fairQueue 0).next = some ⟨0, 1, 64, 0, 1, 0⟩ := by
  decide

/-- The empty images pass the loader's checks. -/
theorem test_witness_FabricAndQueues_images :
    (List.replicate 2048 0).length = 2048 ∧ (List.replicate 8192 0).length = 8192 ∧
    ∀ e, e < 64 → entryLoads { (idle.dev.core 0 0) with table := [], store := [] } e = true := by
  refine ⟨List.length_replicate, List.length_replicate, ?_⟩
  decide

theorem test_witness_PowerAndReset :
    idle.cur = none ∧ ({ idle with dev := { idle.dev with thermal := true } } : State).dev.thermal = true := by decide

theorem test_witness_EverythingExecutes :
    two.cur = some ⟨0, 0, false⟩ ∧ isDeviceStep (.genCommit 1) = true ∧ isDeviceStep (.sos) = false ∧ idle.cur = none := by decide

/-- The NOP of R269 at 0x10000, chosen. -/
def placed (w : Nat) : State := State.reset.withFetchWord 64 w

theorem test_witness_StepRunsDecoded :
    (placed 0x7925).dev.thermal = false ∧ (placed 0x7925).dev.agenda = [] ∧ (placed 0x7925).dev.chosen = true ∧ (placed 0x7925).canIssue = true ∧
    (match (placed 0x7925).fetchAt (placed 0x7925).split.pc.toNat with | .word w => decide (w = 0x7925) | _ => false) = true ∧
    (placed 0x7925).matchWord 0x7925 = none ∧ (placed 0x7925).split.pc.toNat % 32 + lenBytes (0x7925 % 4) ≤ 32 ∧
    (decodeWord false 0x7925).toOption = some (.nop g7 .l64) ∧ opcodeOf 0x7925 ≠ 0x25C ∧ ¬ 0x260 ≤ opcodeOf 0x7925 := by decide

theorem test_witness_StepOtherwise :
    (let s : State := { placed 0x7925 with split := { (placed 0x7925).split with pc := 0x10002 } }; s.split.pc.toNat % 4 ≠ 0 ∧ s.canIssue = true) ∧
    (let s : State := { placed 0x7925 with split := { (placed 0x7925).split with pc := 0x1001C }, dev := { (placed 0x7925).dev with mem := Memory.writeNat [] 4 0x1001C 0xFFFFFFFF } }
     (match s.fetchAt s.split.pc.toNat with | .filler => true | _ => false) = true ∧ s.canIssue = true) ∧
    (match (placed 0x7924).fetchAt 0x10000 with | .word w => decide (w % 4 = 0) | _ => false) = true ∧ (placed 0x7924).matchWord 0x7924 = none ∧
    (let s : State := { placed 0x7925 with split := { (placed 0x7925).split with pc := 0x1001C }, dev := { (placed 0x7925).dev with mem := Memory.writeNat [] 8 0x1001C 0x7925 } }
     (match s.fetchAt s.split.pc.toNat with | .word w => decide (w % 4 ≠ 0 ∧ 32 < 0x1001C % 32 + lenBytes (w % 4)) | _ => false) = true) ∧
    (match decodeWord false (0x3FF * 4 + 1) with | .error .illegalOpcode => true | _ => false) = true ∧ replaced.matchWord nopWord = some 0 := by decide

theorem test_witness_MemoryStaysCanonical :
    MemoryOk (placed 0x7925) ∧ (match step (placed 0x7925) with | .next _ => true | _ => false) = true := by
  refine ⟨?_, ?_⟩
  · unfold MemoryOk; decide
  · decide

theorem test_witness_EncodingAgrees :
    WellFormed (.nop g7 .l64) ∧ Instr.substituteOnly (.ximm g7 (.s 8)) = true ∧ Instr.shapeOk (.ximm g7 (.s 8)) = true ∧
    Instr.regsOk true (.ximm g7 (.s 8)) = true ∧ (decodeWord true 0x7925).toOption = some (.nop g7 .l64) := by
  unfold WellFormed; decide

/-- Each clause: the host reads it, another slot, a key that slot 1 takes at a commit, the same line under the same slot, and another line. -/
theorem test_witness_MemoryUnderKeys :
    let p : Phys := ⟨64, 15, some 1⟩
    isDevice p.pa = true ∧ idle.dev.inKeys p.pa = false ∧ p.slot = some 1 ∧ (2 : Nat) < 128 ∧ (1 : Nat) ≠ 2 ∧
    (let d : Dev := { idle.dev with keyPending := [(1, 5)] }
     Tab.find d.keyPending 1 = some 5 ∧ (d.keyPending.map (·.1)).Nodup ∧ Tab.find d.keyPending 2 = none ∧ d.inKeys p.pa = false) ∧
    (127 : Nat) / 64 = 64 / 64 ∧ (128 : Nat) / 64 ≠ 64 / 64 := by decide

/-- R250, R253: of two stores to a line under slots 1 and 2, the first is destroyed, and the second reads under slot 2 alone. -/
theorem test_step_seal :
    let d := (idle.dev.writeByte ⟨64, 15, some 1⟩ 7).writeByte ⟨65, 15, some 2⟩ 9
    d.readsAs ⟨64, 15, some 1⟩ = .unknown ∧ d.readsAs ⟨65, 15, some 1⟩ = .unknown ∧ (d.readByte ⟨65, 15, some 2⟩).toNat = 9 ∧
    (d.readByte ⟨65, 15, none⟩).toNat = 9 ∧ d.readsAs ⟨128, 15, some 1⟩ = .plain := by decide

/-- FIPS 197, appendix C.3: the key 00 01 ... 1f and the block 00 11 ... ff give 8e a2 ... 89. -/
theorem test_aes_block :
    aesEncrypt (aesKeys (aesPack 32 id)) (aesPack 16 (· * 17)) = 0x8960494B9049FCEABF456751CAB7A28E := by decide +kernel

/-- The value of a key slot: the two keys of the AES-256 vectors of IEEE 1619 (vector 10), the lowest byte first. -/
def keyOf1619 : Nat :=
  0x9245947409820551379993169741880295278333646284239397585326594131 * 2 ^ 256 +
    0x2776966649575999699370245777496226357174286053234590452818281827

/-- IEEE 1619, vector 10: the first and the last 16 of the first 64 bytes of a data unit numbered ff that holds 00 01 02 ... -/
theorem test_xts_line :
    let x := xtsEncrypt keyOf1619 0xFF (aesPack 64 id)
    x % 2 ^ 128 = 0x9BCF70E3996C83E48603772F103A3B1C ∧ x / 2 ^ 384 = 0xFD88B14BCBFEBE4533FCAD35AC860A68 := by decide +kernel

/-- R253: a line stored under slot 1 reads as its new key makes of it once slot 1 has taken one, under slot 3 as a free value, and once slot 1
takes the old key again as it was stored. -/
theorem test_step_rekey :
    let d : Dev := idle.dev.writeByte ⟨64, 15, some 1⟩ 7
    let e := ({ d with keyPending := [(1, keyOf1619)] } : Dev).loadKeys
    let f := ({ e with keyPending := [(1, 0)] } : Dev).loadKeys
    (d.readByte ⟨64, 15, some 1⟩).toNat = 7 ∧ e.readsAs ⟨64, 15, some 1⟩ = .ciphered ∧ e.readsAs ⟨64, 15, some 3⟩ = .unknown ∧
    (f.readByte ⟨64, 15, some 1⟩).toNat = 7 := by decide +kernel

/-! ### Witnesses: values -/

/-- Classes, operands and conditions of each clause: a NaN beside a number, two NaNs, numbers, and zeros of both signs. -/
theorem test_witness_FloatFunctions_classes :
    (FVal.nan true).isNan = true ∧ (FVal.fin true 3 0).isNan = false ∧ (FVal.fin true 0 5).isZero = true ∧ (FVal.fin false 0 0).isZero = true ∧
    Ty.bf16 ∈ [Ty.f32, .f64, .f16, .bf16] ∧ 0xFF80 < 2 ^ Ty.w .bf16 ∧ (255 : Nat) < 256 ∧ (63 : Nat) < 64 ∧
    (∀ n, FCond.ge ≠ .rsv n) ∧ (Ty.operand .f32 0x8F041006 0x7F800001).isNan = true ∧ (Ty.operand .f32 0x8F041006 0xFF800000).isInf = true ∧
    (Ty.operand .f32 0x8F041006 0x80000000).isZero = true ∧ fp32 = fp32 ∧ (-1601 : ℤ) ≤ -1601 :=
  ⟨by decide, by decide, by decide, by decide, by decide, by decide, by decide, by decide, (fun _ h => nomatch h), by decide, by decide, by decide,
    rfl, by decide⟩

/-- The exponent of 10 is 3. -/
theorem test_witness_FloatFunctions_exponent :
    (2 : ℚ) ^ (3 : ℤ) ≤ |(Ty.operand .f32 0x8F041006 0x41200000).rat| ∧
    |(Ty.operand .f32 0x8F041006 0x41200000).rat| < (2 : ℚ) ^ ((3 : ℤ) + 1) := by
  rw [show Ty.operand .f32 0x8F041006 0x41200000 = .fin false 10485760 (-20) by decide]
  norm_num [FVal.rat]

/-- Each case of the four functions: past the ends, integers at both bounds, powers of two at both bounds, and neither. -/
theorem test_witness_FloatFunctions_cases :
    0 < 1 ∧ 128 ≤ (FVal.fin false 1 7).rat ∧ (FVal.fin true 75 1).rat ≤ -150 ∧ (FVal.fin true 149 0).rat = ((-149 : ℤ) : ℚ) ∧
    (FVal.fin false 127 0).rat = ((127 : ℤ) : ℚ) ∧ (FVal.fin false 1 (-149)).rat = (2 : ℚ) ^ (-149 : ℤ) ∧
    (FVal.fin false 1 127).rat = (2 : ℚ) ^ (127 : ℤ) ∧ (∀ n : ℤ, (FVal.fin false 1 (-1)).rat ≠ n) ∧
    ∀ n : ℤ, (FVal.fin false 3 0).rat ≠ (2 : ℚ) ^ n := by
  refine ⟨by decide, by norm_num [FVal.rat], by norm_num [FVal.rat], by norm_num [FVal.rat], by norm_num [FVal.rat], by simp [FVal.rat],
    by simp [FVal.rat], fun n h => ?_, fun n h => ?_⟩
  · have h2 : (1 : ℚ) = 2 * n := by rw [← h]; norm_num [FVal.rat]
    have h3 : (1 : ℤ) = 2 * n := by exact_mod_cast h2
    omega
  · have h1 : (3 : ℚ) = 2 ^ n := by rw [← h]; norm_num [FVal.rat]
    rcases le_or_gt n 1 with hn | hn
    · have := zpow_le_zpow_right₀ (by norm_num : (1 : ℚ) ≤ 2) hn
      norm_num at this
      linarith
    · have := zpow_le_zpow_right₀ (by norm_num : (1 : ℚ) ≤ 2) (show (2 : ℤ) ≤ n by omega)
      norm_num at this
      linarith

/-- Each kind of conversion, and the operands of BSCL and RQNT in each case. -/
theorem test_witness_DotProductAndConversions_values :
    Ty.isPacked .f16 = false ∧ Ty.isInt .u8 = true ∧ Ty.isInt .f64 = false ∧ (Ty.operand .f16 0 0x7C00).isInf = true ∧ Ty.f32 ≠ .t8 ∧
    Ty.isPacked .bf16x2 = true ∧
    (∃ x ∈ [0x7F800000].map (fp32.operand 0x8F041006), x.isNan = true ∨ x.isInf = true) ∧
    (∀ x ∈ [0, 0x80000000].map (fp32.operand 0x8F041006), x.isZero = true) ∧
    (∀ x ∈ [0, 0x3F800000].map (fp32.operand 0x8F041006), x.isNan = false ∧ x.isInf = false) ∧
    (∃ x ∈ [0, 0x3F800000].map (fp32.operand 0x8F041006), x.isZero = false) ∧
    Ty.s8 ∈ [Ty.t8, .t6, .s8] ∧ Ty.f16 ∈ [Ty.t8, .t6, .s8, .f32, .f16, .bf16] ∧ (Ty.operand .t8 0 0x80).isNan = true ∧
    0xFF00 / 256 % 256 = 255 ∧ 0xFF / 256 % 256 = 0 ∧ 1 ≤ 0x0100 / 256 % 256 ∧ 0xFEFF / 256 % 256 ≤ 254 := by decide

/-! ### Witnesses: stops, waits and translation -/

/-- The poison mark of an index register stops a load, a store and an atomic; of device memory, and of host memory. -/
theorem test_witness_WhatKeepsFromEffect_kinds :
    kept.inRecipe = false ∧ kept.active g7 ≠ 0 ∧
    (let m : MemOp := ⟨.zero, .v 7, 0, some 0⟩
     [Pre.opds g7 (memReads false m) [(.v 1, 32)], Pre.opds g7 ((.v 2, 32) :: memReads false m) [],
      { Pre.opds g7 ((.v 2, 32) :: memReads false m) [(.v 1, 32)] with pins := true }].all (fun p =>
        kept.windowsOk p && decide (kept.unmet p = []) && decide (kept.poisoned p (kept.active g7) ≠ [])) = true) ∧
    ((kept.poisoned (Pre.opds g7 [(.v 7, 32)] []) (kept.active g7)).map (·.2)).headD 0 ≤ 2 ^ 64 := by decide

/-- A split that reloads, one that expects another value, a lane with a timeout of its own, and a store to the parked line and
beside it. -/
theorem test_witness_WaitAndWake_cases :
    ({ two with split := { two.split with st := .woken (some parkAt64) } } : State).split.st.reloads = true ∧
    two.dev.gather (bytes64 4) ≠ two.get .arith 32 .one 0 ∧ two.timeout 0 (.reg .lane) = 0 ∧ two.timeout 1 (.reg .lane) ≠ 0 ∧
    (∃ p ∈ bytes64 4, p.pa / 64 ∈ parkAt64.lines) ∧ ¬ ∃ p ∈ [(⟨128, 15, some 0⟩ : Phys)], p.pa / 64 ∈ parkAt64.lines := by decide

/-- A page of 1 GiB at address 0 with every right and stamp 3, under a stage-1 root at 0x200000; its launch traps on other stamps. -/
def stamped (trapen : Byte) : State :=
  { two with
    wg := { two.wg with launch := some 0 }, fib := { two.fib with trapen := trapen },
    dev := { two.dev with
      launches := [(0, { launch1 with s1root := 0x200000 })],
      mem := Memory.writeNat (Memory.writeNat (Memory.writeNat [] 8 0x200000 0x201001) 8 0x201000 0x202001) 8 0x202000
        (31 + 2 ^ 52 + 3 * 2 ^ 60) } }

/-- The same tables at stage 2 of partition 1. -/
def nested : State :=
  { stamped 0 with dev := { (stamped 0).dev with
      parts := [(1, { part1 with entry := { part1.entry with s2root := 0x200000 } })],
      mem := Memory.writeNat (Memory.writeNat (Memory.writeNat [] 8 0x200000 0x201001) 8 0x201000 0x202001) 8 0x202000 31 } }

/-- Both stages, one alone, and none; an address that stage 2 maps and one that it does not; a range that lies within them. -/
theorem test_witness_InstructionLocks_translation :
    (stamped 0).dev.s2root 1 = 0 ∧ nested.dev.s2root 1 = 0x200000 ∧ (0x200000 : Nat) ≠ 0 ∧ (2 : Nat) ^ 57 - 1 < 2 ^ 57 ∧
    (nested.dev.stage2 1 .load 64).toOption = some (⟨64, 15, some 0⟩, 0) ∧ (nested.dev.stage2 1 .load (2 ^ 30)).toOption = none ∧
    ((stamped 0).dev.translate ⟨1, 0x200000, .u⟩ .load 64).toOption = some ⟨64, 3, some 0⟩ ∧
    ((stamped 0).dev.translateRange ⟨1, 0x200000, .u⟩ .load 4 (2 ^ 30 - 4)).toOption.isSome = true ∧
    ((stamped 0).dev.translateRange ⟨1, 0x200000, .u⟩ .load 4 (2 ^ 30 - 3)).toOption = none ∧
    ranged.coreLocks = [] := by decide +kernel

/-- Each fault of a lane's access at its boundary, and a stamp that differs from the contract. -/
theorem test_witness_InstructionLocks_lanes :
    66 % 4 ≠ 0 ∧ two.fib.lwsize.toNat / 32 < (two.fib.lwsize.toNat / 32 - 3) + 4 ∧
    (two.fib.lwsize.toNat / 32 - 4) + 4 ≤ two.fib.lwsize.toNat / 32 ∧ (4 < 3 % 4 + 2 ∧ 3 % 2 ≠ 0) ∧ ¬ 4 < 1 % 4 + 2 ∧
    ((stamped 0x80).laneAccess .load false true 4 64 0).toOption = some ((List.range 4).map (fun i => ⟨64 + i, 3, some 0⟩)) ∧
    (stamped 0x80).fib.trapen.getLsbD 7 = true ∧ (stamped 0).fib.trapen.getLsbD 7 = false ∧
    (∃ p ∈ (List.range 4).map (fun i => (⟨64 + i, 3, some 0⟩ : Phys)), p.stamp ≠ 15 ∧ p.stamp ≠ (stamped 0x80).wg.contract) ∧
    ∀ p ∈ bytes64 4, ¬ (p.stamp ≠ 15 ∧ p.stamp ≠ two.wg.contract) := by decide

/-! ### Witnesses: tiles and metadata -/

/-- A command that reads h4 and writes h0 is unfinished. -/
def naming : State :=
  { bound with dev := { bound.dev with cmds := [(0, cmdOf (.tiles 0 0 0 4 0 0 1 16) .waiting)] } }

theorem test_witness_TileBinding_waits :
    naming.cur.isSome = true ∧ naming.active g7 ≠ 0 ∧
    (∃ c ∈ naming.dev.cmds.vals, c.wg = naming.wgKey ∧ 0 ∈ cmdWrites c.kind ++ cmdReads c.kind) ∧ (3 : Nat) < 4 := by decide

/-- h2 holds no bytes, h63 is not bound; a row and a column one past the tile. -/
theorem test_witness_TileElements_faults :
    (∀ x, Tab.find bound.wg.tiles 2 = some x → x.lvl = .a ∨ x.lvl = .q) ∧ Tab.find bound.wg.tiles 63 = none ∧
    bound.ready { Pre.opds g7 ((.v 1, regBits .b32) :: coordReads ⟨0, .imm 8, .imm 0⟩) [] with deps := [.users bound.wgKey 0] } = true ∧
    bound.ready { Pre.opds g7 (coordReads ⟨2, .imm 0, .imm 0⟩) [(.v 1, regBits .b32)] with deps := [.writers bound.wgKey 2] } = true ∧
    bound.ready { Pre.opds g7 ((.v 1, regBits .b32) :: coordReads ⟨2, .imm 0, .imm 0⟩) [] with deps := [.users bound.wgKey 2] } = true ∧
    ∃ l, laneIn (bound.active g7) l = true ∧ ¬ (bound.coordVal (.imm 8) l < 8 ∧ bound.coordVal (.imm 0) l < 128 / Width.bytes .b32) :=
  ⟨fun x h => Or.inl (by have : x = tileOf .a 32 256 := by rw [← Option.some.injEq, ← h]; rfl
                         rw [this]; rfl), by decide, by decide, by decide, by decide, 0, by decide⟩

/-- Handles that give no accumulator, and the two of an FP64 row; finite fields, and the operands of a product and a write. -/
theorem test_witness_Accumulators_rows :
    bound.accPair false 63 = none ∧ bound.accPair true 3 = none ∧ bound.accPair false 0 = none ∧
    bound.accPair true 2 = some (tileOf .a 32 256, tileOf .a 32 256) ∧ [0, 31].Nodup ∧
    bound.ready { Pre.opds g7 (coordReads ⟨63, .imm 0, .imm 0⟩) [(.v 1, 32)] with deps := [.writers bound.wgKey 63] } = true ∧
    bound.ready { Pre.opds g7 ((.v 1, 32) :: coordReads ⟨63, .imm 0, .imm 0⟩) [] with deps := (accHandles false 63).map (Dep.users bound.wgKey) } = true ∧
    bound.ready { Pre.opds g7 [] [] with deps := (accHandles true 3).map (Dep.users bound.wgKey) } = true ∧
    bound.ready { Pre.opds g7 [] [] with deps := (accHandles true 3).map (Dep.writers bound.wgKey) } = true ∧
    (fp64.decode ((tileOf .a 32 256).meta 0).chk).isNan = false ∧ (fp64.decode ((tileOf .a 32 256).meta 0).chk).isInf = false ∧
    (fp64.decode ((tileOf .a 32 256).meta 0).mag).isInf = false ∧ (fp64.decode ((tileOf .a 32 256).meta 0).bnd).isInf = false ∧
    (fp32.decode (accElem false (tileOf .a 32 256, tileOf .a 32 256) 31 63)).isInf = false ∧
    (fp32.decode 0x3F800000).isNan = false ∧ (fp32.decode 0x3F800000).isInf = false ∧
    [FVal.fin false 1 0].length = [List.replicate 64 (some (FVal.fin false 1 0))].length ∧ (List.replicate 64 0).length = 64 ∧
    (∀ q ∈ [List.replicate 64 (some (FVal.fin false 1 0))], q.length = 64) ∧
    (∀ v ∈ [FVal.fin false 1 0], v.isNan = false ∧ v.isInf = false) ∧
    (∀ v ∈ List.replicate 64 (FVal.fin false 1 0), v.isNan = false ∧ v.isInf = false) ∧
    (fp64.decode (mmaRow .f16 0x8F041006 false [FVal.fin false 1 0] [List.replicate 64 (some (FVal.fin false 1 0))]
      (List.replicate 64 0) ⟨0, 0, 0, 0⟩).2.2.mag).isInf = false := by decide

/-! ### Witnesses: what the engines move -/

/-- The same machine with h1 a W of the block sizes of R164 and h5 a T, and command 7. -/
def moving (k : CmdKind) : State :=
  { busy k .running with dev := { (busy k .running).dev with
    wgs := [(0, { Wg.zero with
      launch := some 0, part := 1, nwarps := 1, nfibs := 1, tiles := [(0, tileOf .t 8 128), (1, tileOf .w 64 512), (5, tileOf .t 8 128)] })] } }

/-- An index list of one word, 2, at 0x500. -/
def indexed (k : CmdKind) : State := { moving k with dev := { (moving k).dev with mem := Memory.writeNat [] 4 0x500 2 } }

theorem test_witness_CommandEnds_moves :
    (let k := cmdOf (.toMem 0 0 0 2 16 16 0x300) .running
     let s := moving (.toMem 0 0 0 2 16 16 0x300)
     (∀ a ∈ (List.range 2).map (fun i => 0x300 + i * 16), a % 16 = 0 ∧ a + 16 ≤ 2 ^ 57) ∧
     (match s.dev.engineRows k.space .store 16 [0x300, 0x310] with | (rows, .ok ()) => decide (rows.length = 2) | _ => false) = true ∧
     s.dev.inKeys 0x30F = false ∧ (tileOf .t 8 128).poison = []) ∧
    (let k := cmdOf (.gather 0 0 0 1 16 16 0x300 0x500) .running
     let s := indexed (.gather 0 0 0 1 16 16 0x300 0x500)
     (match s.dev.engineRange k.space .load (4 * 1) 0x500 with
       | .ok ps => decide (s.dev.gather ps = 2) && (s.dev.lostBytes 0x500 ps).isEmpty | _ => false) = true ∧
     (match s.moveIn k 0 0 0 16 [0x300 + 2 * 16] with | .ok _ => true | _ => false) = true) := by decide

/-- A copy between tiles, a handle's weights, and dictionaries with room for them and without. -/
theorem test_witness_CommandEnds_tiles :
    (Tab.find (moving .take).dev.wgs 0).map (fun w => (Tab.find w.tiles 0, Tab.find w.tiles 5, Tab.find w.tiles 1)) =
      some (some (tileOf .t 8 128), some (tileOf .t 8 128), some (tileOf .w 64 512)) ∧
    (cmdOf (.tiles 5 0 0 0 1 16 2 16) .running).kind = .tiles 5 0 0 0 1 16 2 16 ∧ (0x400 : Nat) % 16 = 0 ∧ (0x401 : Nat) % 16 ≠ 0 ∧
    (moving .take).dev.unitsOn 0 0 0 1 (fun b => decide (0 ≤ b ∧ b < 0 + 16)) + 16 * (32 / 32) ≤ 512 ∧
    ¬ (moving .take).dev.unitsOn 0 0 0 1 (fun b => decide (0 ≤ b ∧ b < 0 + 129)) + 129 * (128 / 32) ≤ 512 ∧
    (match (moving .take).dev.engineRows (cmdOf .take .running).space .load 32 [0x400, 0x420] with | (_, .ok ()) => true | _ => false) = true ∧
    (moving .take).dev.bad = [] := by decide

/-- Each check of a collective fails, in order. -/
theorem test_witness_DistributorAndCollectives_checks :
    (let d := (busy .take .waiting).dev
     d.collCheck 1 .allred .u32 5 0x608 0x700 4 0 none = 0x38 ∧ d.collCheck 1 .allred .u32 6 0x600 0x700 4 0 none = 0x42 ∧
     Tab.find d.comms (6 * 16 + 1) = none ∧ Tab.find d.comms (5 * 16 + 1) = some ⟨2, 0, 0, 0x5000, 6, 0⟩ ∧
     d.collCheck 1 .redscat .u32 5 0x600 0x700 3 0 none = 0x41 ∧ d.collCheck 1 .bcast .u32 5 0x600 0x700 4 2 none = 0x41 ∧
     d.collCheck 1 .allred .u32 5 0x600 0x700 65 0 none = 0x41 ∧ d.collCheck 1 .allred .u32 5 0x600 0x700 64 0 none = 0 ∧
     d.collCheck 1 .allgat .u32 5 0x600 0x600 4 0 none = 0x41 ∧
     ({ d with comms := [(81, ⟨2, 0, 0, 0x5000, 6, 0x44⟩)] } : Dev).collCheck 1 .allred .u32 5 0x600 0x700 4 0 none = 0x44) := by decide

/-- Two ranks, of which 0 is here; the data of the other; both ranges translate; floats and integers reduce. -/
theorem test_witness_DistributorAndCollectives_results :
    Ty.u32 ∈ [Ty.f32, .f64, .f16, .bf16, .s32, .u32] ∧ Ty.isInt .u32 = true ∧ Ty.isInt .f32 = false ∧ ([1, 2] : List Nat) ≠ [] ∧
    Tab.find (busy .take .running).dev.comms (5 * 16 + (cmdOf .take .running).part) = some ⟨2, 0, 0, 0x5000, 6, 0⟩ ∧ (0 : Nat) < 2 ∧
    (match (busy .take .running).dev.engineRange (cmdOf .take .running).space .load (4 * (32 / 8)) 0x600 with
      | .ok ps => decide ((busy .take .running).dev.gather ps = 0) | _ => false) = true ∧
    (match (busy .take .running).dev.engineRange (cmdOf .take .running).space .store (4 * (32 / 8)) 0x700 with | .ok _ => true | _ => false) = true ∧
    (∀ r, r < 2 → r ≠ 0 → [((1 : Nat), (leBytes (4 * (32 / 8)) 7).map BitVec.toNat)].find? (fun p => p.1 == r) =
      some (r, (leBytes (4 * (32 / 8)) 7).map BitVec.toNat)) ∧
    (busy .take .running).dev.inKeys 0x700 = false := by
  refine ⟨by decide, by decide, by decide, by decide, by decide, by decide, by decide, by decide, ?_, by decide⟩
  intro r h1 h2
  have : r = 1 := by omega
  subst this
  rfl

/-! ### Witnesses: the scheduler and the distributor -/

/-- Split 1 of dividedWarp has waited 64 opportunities; the slot chooses a candidate that has not, or the one that waited longest. -/
theorem test_witness_SlotChoices_claims :
    (let w := { Warp.zero with n := 32, p := [32], cur := some (0, 2, false), opps := 0, issuableSince := 1 }
     w.pass = false ∧ ∀ c ∈ dividedWarp.dev.claims 0 w.opps, c.due w.opps (dividedWarp.dev.claims 0 w.opps) = false) ∧
    (let w := { Warp.zero with n := 32, p := [32], cur := none, opps := 64, issuableSince := 1 }
     w.cur = none ∧ ∃ c ∈ dividedWarp.dev.claims 0 w.opps, c.due w.opps (dividedWarp.dev.claims 0 w.opps) = true) ∧
    dividedWarp.flush.refresh.dev.slotTurn (0 / 4) = true ∧
    spilledWarp.dev.longSpilled 0 { Warp.zero with n := 32, p := [32], opps := 4095 } = none ∧
    (∀ y ∈ dividedWarp.flush.refresh.dev.issuable, y.since ≠ 0 → 1 ≤ y.since) ∧
    (Tab.find spilledWarp.dev.fibs 0).isSome = true ∧ (Tab.find spilledWarp.dev.wgs (0 / 64)).isSome = true := by decide

/-- A saved workgroup of launch 0 that has waited since cycle 0 for a core. -/
def waitingSaved : State :=
  { switching with dev := { switching.dev with
      cores := (List.range 24).map (fun i => (coreKey 0 i, { (State.reset.dev.core 0 0) with retired := decide (i ≠ 3) })),
      wgs := [(0, { Wg.zero with launch := some 0, part := 1, core := 3, nwarps := 1, nfibs := 1 })],
      warps := (List.range 16).map (fun i => (i, { Warp.zero with n := 512, p := [512], place := ⟨0, 3, i % 4, i / 4, 16 * (i / 4), none⟩ })),
      fibs := (List.range 16).map (fun i => (i * 4, fibre)),
      saved := [(1, ⟨{ Wg.zero with launch := some 0, part := 1, nwarps := 1, nfibs := 1 }, 0x2000000, 16, [], some 0, none, none, none,
        [(256, fibre)], [(64, { Warp.zero with n := 32, p := [32] })]⟩)] } }

theorem test_witness_TrapQueue_fatal :
    (let r : Rec := { rec0 2 with launch := some 0 }
     r.data.kind = 2 ∧ r.launch = some 0 ∧ Tab.find trapped.dev.launches 0 = some launch1) ∧ trapped.dev.watchdogRang 0 = false ∧
    (Tab.find trapped.dev.wgs (0 / 256)).isSome = true ∧ (Tab.find trapped.dev.warps (0 / 4)).isSome = true ∧
    (∃ f, Tab.find trapped.dev.fibs 0 = some f) ∧ (trapped.dev.slice 0).used = 1 ∧ (idle.dev.slice 0).used = 0 := by
  refine ⟨by decide, by decide, by decide, by decide, ⟨_, rfl⟩, by decide, by decide⟩

/-! ### Witnesses: saving and restoring -/

/-- A fibre in each state in which a pre-emption stops it or lets it run forward. -/
theorem test_witness_ContextSwitch_kinds :
    (Tab.find (busy .take .running).dev.wgs 0).map (fun g => (g.saving, decide (g.core = 24))) = some (none, false) ∧
    fibre.stop = none ∧ { fibre with exited := true }.exited = true ∧ { fibre with handler := some two.split }.handler.isSome = true ∧
    { fibre with inService := true }.inService = true ∧ fibre.marks = [] ∧
    { rewinder with splits := [(0, two.split)] }.rewindable { Warp.zero with n := 32, p := [32] } 0 = true ∧
    fibre.rewindable { Warp.zero with n := 32, p := [32] } 0 = false ∧
    (∃ p ∈ [((0 : Nat), { two.split with st := .parked parkAt64 })], p.2.waits = true) ∧ ¬ (∃ p ∈ fibre.splits, p.2.waits = true) ∧
    2500000 < 2483617 + 16384 ∧ 2483616 + 16384 ≤ switching.dev.cycles.toNat := by decide

/-- The save of workgroup 0, whose fibre has stopped with the KIND k, to a pool at a. -/
def stopping (k a : Nat) : State :=
  { busy .take .running with dev := { (busy .take .running).dev with
      cmds := [], fibs := [(0, { rewinder with stop := some (.stopped k 0x10000) })],
      parts := [(1, { part1 with block := { part1.block with ctxBase := a } })],
      wgs := [(0, { Wg.zero with launch := some 0, part := 1, nwarps := 1, nfibs := 1, saving := some ⟨0x59, 0, false, none, none, none, false, false⟩ })] } }

/-- The same once the fibre is classified and the record raised. -/
def stoppedAt (k a : Nat) : State := (stopping k a).onDev (fun d => (d.classify 0).tellSave 0)

theorem test_witness_ContextSwitch_save :
    (Tab.find (stopping 0 0x2000000).dev.wgs 0).map (·.saving) = some (some ⟨0x59, 0, false, none, none, none, false, false⟩) ∧
    (stopping 0 0x2000000).dev.waitsFor 1 none = false ∧
    (Tab.find (stoppedAt 0 0x2000000).dev.wgs 0).map (·.saving) = some (some ⟨0x59, 0, true, none, none, none, false, false⟩) ∧
    (stoppedAt 0 0x2000000).dev.stopped 0 = true ∧ (firstFibre (stoppedAt 0 0x2000000).dev.fibs 0).isSome = true ∧
    (switching.onDev (fun d => (d.classify 0).tellSave 0)).dev.waitsFor 1 none = false := by decide

/-- The image that is written. -/
def savedImage (k a : Nat) : List Byte :=
  (stoppedAt k a).saveImage 0 { Wg.zero with launch := some 0, part := 1, nwarps := 1, nfibs := 1, saving := some ⟨0x59, 0, true, none, none, none, false, false⟩ }

/-- Device memory translates at level S where no stage 2 is in use and the partition's key is loaded. -/
theorem translates (d : Dev) (p : Nat) (acc : Access) (h0 : d.s2root p = 0) (hk : d.keyOk (d.keyix p) = true) :
    ∀ n va : Nat, va + n ≤ 0xC000000000 → (d.translateRange ⟨p, 0, .s⟩ acc n va).toOption.isSome = true := by
  intro n
  induction n with
  | zero => intro va _; rfl
  | succ n ih =>
    intro va h
    have h1 : va % 2 ^ 64 = va := Nat.mod_eq_of_lt (by omega)
    have h3 : va < 144115188075855872 := by omega
    have h4 : isDevice va = true := decide_eq_true (show va < 0xC000000000 by omega)
    have h2 : d.translate ⟨p, 0, .s⟩ acc va = .ok ⟨va, 15, some (d.keyix p)⟩ := by
      simp [Dev.translate, Dev.guest, Dev.direct, h0, h3, h4, hk]
    have := ih (va + 1) (by omega)
    simp only [Dev.translateRange, h1, h2]
    split
    · rfl
    · revert this
      cases d.translateRange ⟨p, 0, .s⟩ acc n (va + 1) <;> simp [Except.toOption]

/-- The image takes at most 64 KiB, wherever it goes. -/
theorem savedImage_length : (savedImage 0 0x2000000).length ≤ 0x10000 := by decide +kernel

theorem savedImage_elsewhere : (savedImage 0 0xC000000000).length ≤ 0x10000 := by decide +kernel

/-- The first place in the pool has room for it. -/
theorem area_first (a n : Nat) (ha : a = 0x2000000 ∨ a = 0xC000000000) (h : n ≤ 0x10000) : (stoppedAt 0 a).dev.areaFor 1 n = some a := by
  rcases ha with rfl | rfl
  · have h1 : (stoppedAt 0 0x2000000).dev.areaFor 1 n =
        [0x2000000].find? (fun a => decide (0x2000000 ≤ a ∧ a + n ≤ 0x2000000 + 0x1000000) && true) := rfl
    rw [h1]
    have : 0x2000000 + n ≤ 0x2000000 + 0x1000000 := by omega
    simp [List.find?, this]
  · have h1 : (stoppedAt 0 0xC000000000).dev.areaFor 1 n =
        [0xC000000000].find? (fun a => decide (0xC000000000 ≤ a ∧ a + n ≤ 0xC000000000 + 0x1000000) && true) := rfl
    rw [h1]
    have : 0xC000000000 + n ≤ 0xC000000000 + 0x1000000 := by omega
    simp [List.find?, this]

/-- The pool has room and its pages translate; a pool with no room; and one beyond the device's memory, whose first page does not. -/
theorem test_witness_ContextSwitch_area :
    (stoppedAt 0 0x2000000).dev.areaFor 1 (savedImage 0 0x2000000).length = some 0x2000000 ∧
    ((stoppedAt 0 0x2000000).dev.translateRange ⟨1, 0, .s⟩ .store (savedImage 0 0x2000000).length 0x2000000).toOption.isSome = true ∧
    (stoppedAt 0 0x2FFFFFF).dev.areaFor 1 (2 ^ 24) = none ∧
    (stoppedAt 0 0xC000000000).dev.areaFor 1 (savedImage 0 0xC000000000).length = some 0xC000000000 ∧
    ∀ n, ((stoppedAt 0 0xC000000000).dev.translateRange ⟨1, 0, .s⟩ .store (n + 1) 0xC000000000).toOption = none := by
  have h := savedImage_length
  refine ⟨area_first _ _ (.inl rfl) h, translates _ 1 .store (by decide) (by decide) _ _ (by omega), by decide,
    area_first _ _ (.inr rfl) savedImage_elsewhere, fun n => ?_⟩
  have : (stoppedAt 0 0xC000000000).dev.translate ⟨1, 0, .s⟩ .store (0xC000000000 % 2 ^ 64) = .error .notPresent := rfl
  simp only [Dev.translateRange, this]
  rfl

/-- Fields of an area, for each KIND and state of a split, and the parts of a saved tile. -/
theorem test_witness_ContextSwitch_fields :
    fieldAt (6 * 2 ^ 64) 8 1 = 6 ∧ fieldAt 0 8 1 ≠ 6 ∧ fieldAt (2 ^ 72) 9 1 = 1 ∧ fieldAt (2 * 2 ^ (8 * 0x2E)) 0x2E 1 = 2 ∧
    fieldAt (3 * 2 ^ (8 * 0x2E)) 0x2E 1 = 3 ∧ fieldAt (4 * 2 ^ (8 * 0x2E)) 0x2E 1 = 4 ∧ fieldAt 0 8 1 ≤ 1 ∧ 2 ≤ fieldAt (3 * 2 ^ 64) 8 1 ∧
    bitAt (fieldAt (2 ^ 80) 0x10 8) 0 = false ∧ bitAt (fieldAt (2 ^ 128) 0x10 8) 0 = true ∧
    { fibre with exited := true }.kind = 6 ∧ { fibre with stop := some (.stopped 1 0x10000) }.kind = 1 ∧ rewinder.rewind ≠ none ∧
    2 ≤ fibre.kind ∧ fibre.kind ≤ 4 ∧ (tileOf .a 32 256).lvl = .a ∧ (tileOf .q 4 512).lvl = .q ∧
    Tab.find meeting.wg.bars 0 = none ∧ Tab.find meeting.wg.bars 1 = some ⟨1, 2, [1]⟩ ∧ Tab.find bound.wg.tiles 0 = some (tileOf .t 8 128) := by
  decide

theorem test_witness_ContextSwitch_restore :
    switching.cur = none ∧ switching.dev.cmds = [] ∧ (Tab.find switching.dev.saved 1).map (fun x => (x.asked, x.carried)) = some (none, []) ∧
    (Tab.find switching.dev.saved 1).map (·.fibs) = some [(256, fibre)] ∧
    (Tab.find switching.dev.saved 1).map (·.warps) = some [(256 / 4, { Warp.zero with n := 32, p := [32] })] ∧
    switching.dev.waitsFor 1 none = false ∧
    ((Tab.find switching.dev.saved 1).bind (fun x => switching.dev.restoreRoom x 0 0)).map (·.length) = some 1 ∧ 256 / 256 = 1 ∧
    ([] : List Nat).Nodup ∧ (switching.dev.wgs.map (·.1)).Nodup ∧ (Tab.find switching.dev.parts 1).isSome = true ∧
    ({ switching with dev := { switching.dev with wgs := [] } } : State).dev.noneOn 1 = true ∧
    (Tab.find switching.dev.wgs 0).map (fun g => (g.part, g.saving.isNone)) = some (1, false) := by decide

/-! ### Witnesses: errors, commits and the fabric -/

/-- The first retry of fibre 0 is not over. -/
def retrying : State :=
  { shadowed rewinder with dev := { (shadowed rewinder).dev with
      warps := [(0, { Warp.zero with n := 32, p := [32], place := ⟨0, 0, 0, 0, 0, some (1, 1)⟩, cur := some (0, 0, false), retries := [⟨0, 0x10000, false⟩] })] } }

theorem test_witness_Reliability_retry :
    (Tab.find retrying.dev.warps 0).map (fun x => x.retries.find? (fun r => r.fib == (0 * 4 + 0) % 4)) = some (some ⟨0, 0x10000, false⟩) ∧
    (Tab.find retrying.dev.wgs (0 / 64)).map (fun g => (g.saving.isNone, decide (g.core = 24))) = some (true, false) ∧
    (Tab.find (shadowed rewinder).dev.warps 0).map (fun x => x.retries.all (fun r => decide (r.fib ≠ (0 * 4 + 0) % 4))) = some true ∧
    ((shadowed fibre).dev.core 0 3).suspect = true ∧ (∀ g ∈ (shadowed fibre).dev.wgs, g.2.slice ≠ 0 ∨ g.2.core ≠ 3) := by decide

/-- A row of the controller that is the home of its address; a sector of that slice; a way. -/
theorem test_witness_Reliability_errors :
    idle.cur = none ∧ (11 : Nat) < 12 ∧ (31 : Nat) < 32 ∧ (∃ o, idle.dev.home 0 = some (0, o)) ∧ (∀ b ∈ [0], ∃ o, idle.dev.home (b * 32) = some (0, o)) ∧
    (∀ b ∈ ([] : List Nat), ∃ o, idle.dev.home (b * 32) = some (11, o)) := by
  refine ⟨by decide, by decide, by decide, ⟨_, rfl⟩, fun b h => ?_, fun b h => by cases h⟩
  rw [List.mem_singleton.1 h]
  exact ⟨_, rfl⟩

/-- A collective on the communicator whose member is lost, running and not yet started. -/
def losing (started : Bool) (st : Stage) : State :=
  { busy (.coll .allred .add .u32 5 0x600 0x700 4 0 none started 1) st with
    dev := { (busy (.coll .allred .add .u32 5 0x600 0x700 4 0 none started 1) st).dev with
      comms := [(5 * 16 + 1, ⟨2, 0, 0, 0x5000, 6, 0x44⟩)] } }

theorem test_witness_Reliability_lost :
    (Tab.find (busy (.coll .allred .add .u32 5 0x600 0x700 4 0 none true 1) .running).dev.cmds 7).map (fun k => (k.part, decide (k.stage = .carried), decide (k.stage = .finished))) =
      some (1, false, false) ∧
    (Tab.find (losing true .running).dev.comms (5 * 16 + 1)).isSome = true ∧ Tab.find fibre.pend 12 = some 7 ∧
    (losing false .waiting).dev.cmdReady (cmdOf (.coll .allred .add .u32 5 0x600 0x700 4 0 none false 1) .waiting) = true ∧
    (losing false .waiting).dev.collBehind 7 1 5 = false ∧ (0x600 : Nat) % 16 = 0 ∧ (4 : Nat) ≠ 0 ∧
    (Tab.find (losing false .waiting).dev.comms (5 * 16 + 1)).map (·.status) = some 0x44 := by decide

/-- The machine before its first commit, with a manager area in which entry 1 is the one before the first commit with a key slot of
its own and entry 0 begins with z; and a key that waits. -/
def committing (z : Nat) : State :=
  { idle with dev := { idle.dev with
      keyPending := [(1, 5)],
      flash := { idle.dev.flash with managerArea := 0x10000 },
      mem := (((0x47, 1) :: tableBeforeCommit).foldl (fun m p => Memory.writeNat m 1 (0x10000 + p.1) p.2.toNat) (Memory.writeNat [] 1 0x10000 z)) } }

theorem test_witness_Commits_table :
    idle.dev.ready = true ∧ 1 ≠ idle.dev.gen ∧ ({ idle with dev := { idle.dev with ready := false } } : State).dev.ready = false ∧
    (let raw := fun i : Nat => (committing 0).dev.readOwn 64 (0x10000 + 64 * i)
     raw 0 = 0 ∧ (raw 1).testBit 16 = true ∧ raw 2 = 0 ∧
     (committing 0).dev.tableFailure ((List.range 16).map raw) [(1, entryOf (raw 1))] = none ∧
     Tab.find (committing 0).dev.parts 1 ≠ none ∧ Tab.find (committing 0).dev.keyPending 1 = some 5) ∧
    (committing 1).dev.readOwn 64 0x10000 ≠ 0 ∧ ((committing 0).dev.keyPending.map (·.1)).Nodup := by decide

/-- Queue 0 with HEAD 1, a launch read from position 0, and position 1 not yet read and marked. -/
def cancelling : State :=
  { queued with dev := { queued.dev with
      parts := [(1, { part1 with cancelled := [(0, 1)] })],
      mem := Memory.writeNat [] 8 0x40098 0x200,
      queues := [(0, { Queue.zero with head := 1, tail := 2 })] } }

theorem test_witness_Commits_cancel :
    (cancelling.dev.entry 1).map (fun e => (e.qfirst, e.qquota, e.sblock)) = some (0, 256, 0) ∧ (2 ^ 63 : Nat).testBit 63 = true ∧
    (2 ^ 63 + 2 ^ 40) / 2 ^ 40 % 2 ^ 22 ≠ 0 ∧ ¬ (2 ^ 63 / 2 ^ 40 % 2 ^ 22 ≠ 0 ∨ 256 ≤ 2 ^ 63 % 2 ^ 8) ∧
    (1 + 2 ^ 32 - (cancelling.dev.queue 0).head) % 2 ^ 32 < 2 ^ 31 ∧ ¬ (0 + 2 ^ 32 - (cancelling.dev.queue 0).head) % 2 ^ 32 < 2 ^ 31 ∧
    cancelling.dev.launches.find? (fun l => l.2.queue == 0 && l.2.pos == 0) = some (0, launch1) ∧ launch1.answer = false ∧
    (∀ l ∈ cancelling.dev.launches, l.2.queue ≠ 0 ∨ l.2.pos ≠ 2 ^ 32 - 1) ∧
    ((List.range 8).mapM (fun i => (cancelling.dev.guest 1 .store (0 + 0x50 + i)).toOption)).isSome = true ∧
    cancelling.dev.headReady 0 = true ∧ cancelling.dev.isCancelled 1 0 1 = true ∧
    ((cancelling.dev.readVirtual (queueSpace 1 ⟨0x40000, 0, 4, 1, true⟩) 128 (0x40000 + 1 % 2 ^ 4 * 128)).map (fun v => (launchRec v).done)) = some 0x200 := by
  decide

/-- Each side of the hypotheses on a port, a request and its weight; fractions above zero; a request that is served. -/
theorem test_witness_FabricAndQueues_requests :
    (17 : Nat) < 18 ∧ (idle.dev.port 17).taken ≤ 0 ∧ 0 < 1 ∧ (idle.dev.port 17).sent ≤ 1 ∧ idle.dev.home 0 = some (0, 0) ∧
    idle.dev.streamOf 0 0 1 = true ∧ idle.dev.carriedWeight 0 1 0 = some 0 ∧ idle.dev.carriedWeight 2 0 0 = some 0 ∧
    (busy (.coll .allred .add .u32 5 0x600 0x700 4 0 none true 3) .running).dev.carriedWeight 1 1 7 = some 3 ∧
    0 < Sfq.zero.vden ∧ 0 < (Tab.get (0, 1) Sfq.zero.f 1).2 ∧
    ({ Sfq.zero with reqs := [⟨0, 1, 64, 0, 1, 0⟩] } : Sfq).next = some ⟨0, 1, 64, 0, 1, 0⟩ ∧
    (∀ x ∈ ([⟨0, 1, 64, 0, 1, 0⟩] : List SfqReq), 0 < x.den) := by decide

/-- A core whose entry 0 is valid and loads, one whose entry 0 is valid and does not, and a device that is ready. -/
theorem test_witness_FabricAndQueues_entries :
    imageNat replaced.core.table 1 0x13 % 2 = 1 ∧ entryLoads replaced.core 0 = true ∧
    entryLoads { (idle.dev.core 0 0) with table := [(0x13, 1)], store := [] } 0 = false ∧
    imageOf ((List.replicate 0x13 0) ++ [1]) = [(0x13, 1)] ∧ idle.dev.ready = true ∧ (24 : Nat) < 25 := by decide

/-- An image that verifies, one that does not, and one that starts firmware; a record with a reserved bit. -/
theorem test_witness_PowerAndReset_images :
    Nat.testBit 15 3 = true ∧ Nat.testBit 7 3 = false ∧ 15 % 16 = 15 ∧ idle.dev.flash.boots = [] ∧
    ({ idle.dev.flash with boots := [⟨0, .h, 0, 0x10000⟩] } : Flash).boots[0]? = some ⟨0, .h, 0, 0x10000⟩ ∧
    (0x80000000 : Nat).testBit 31 = true ∧ (0x80000010 : Nat) / 2 ^ 4 % 2 ^ 6 ≠ 0 ∧
    (idle.dev.agenda = []) := by decide

/-- A guarded warp whose shadow has to be waited for, and one that runs on. -/
def shadowedWord (n : Nat) : State :=
  { placed 0x7925 with warp := { (placed 0x7925).warp with
      place := ⟨0, 0, 0, 0, 0, some (1, 1)⟩, shadow := some ⟨[], [], List.replicate n ⟨0, Fib.zero.shadowed, [], 1⟩, 0⟩ } }

theorem test_witness_StepRunsDecoded_guarded :
    (placed 0x7925).guarded = false ∧ (shadowedWord 0).guarded = true ∧ (shadowedWord 0).shadowWait (.nop g7 .l64) = none ∧
    (shadowedWord 64).shadowWait (.ld g7 .b32 false false false (.v 1) at64) ≠ none ∧
    replaced.shadowWait (.substituteSequence 0) = none := by decide

/-- replaced with mov v3, v1 in the store. -/
def replacedMove : State :=
  { replaced with dev := replaced.dev.setCore 0 0 { replaced.core with
      store := (leBytes 16 (((encode (.mov ⟨g7, .u32, .v 3, .v 1⟩)).map (·.2)).getD 0)).zipIdx.foldl (fun m p => Tab.set 0 m p.2 p.1) [] } }

theorem test_witness_Replacement_move :
    replacedMove.core.elements 0 (imageNat replacedMove.core.table 1 0x12) 0 = some [.mov ⟨g7, .u32, .v 3, .v 1⟩] ∧
    ([.mov ⟨g7, .u32, .v 3, .v 1⟩] : List Instr).all (fun x => x.wellFormed true) = true ∧
    replacedMove.ready (.opds (.ofCode (nopWord / 2 ^ 12 % 2 ^ 4)) [(.v 1, Ty.w .u32)] [(.v 3, Ty.w .u32)]) = true ∧
    replacedMove.matchWord nopWord = some 0 ∧ (match replacedMove.fetchAt replacedMove.split.pc.toNat with | .word w => decide (w % 2 ^ 64 = nopWord) | _ => false) = true ∧
    Opd.dstOk true 64 (.v 3) = false ∧ Opd.dstOk true 32 .one = false ∧ Opd.dstOk true 64 (.v 2) = true ∧ 31 < 32 ∧ ¬ 32 < 32 := by decide

/-- A page that is not present in recipe code, and elsewhere. -/
theorem test_witness_TakingATrap_recipe :
    ({ two with fib := { two.fib with recipe := some 0x10000 } } : State).inRecipe = true ∧ two.inHandler = false ∧ two.inRecipe = false ∧
    two.inner = none := by decide

/-! ### Witnesses: clauses that stand beside others -/

theorem test_witness_CountsAndFields_bytes :
    two.ready (.opds g7 [(.v 1, Ty.w .u8), (.v 2, max (Ty.w .u8) 16)] [(.v 3, Ty.w .u8)]) = true ∧
    two.ready (.opds g7 [(.v 1, 8), (.imm16 0x300, max 8 16), (.v 9, 8)] [(.v 2, 8)]) = true := by decide

/-- A format and magnitudes of each kind; operands of each class. -/
theorem test_witness_PlacementAndRounding_classes :
    fp64 ∈ [fp16, fpb16, fp32, fp64] ∧ (0 : Nat) < 1 ∧ (FVal.fin true 1 5).isZero = false ∧ (FVal.fin true 1 5).isNan = false ∧
    (FVal.fin true 1 5).neg = true ∧ (FVal.inf true).isInf = true ∧ (FVal.inf true).isNan = false ∧ (FVal.fin true 0 5).isZero = true ∧
    (FVal.fin true 0 5).isInf = false ∧ (FVal.nan true).isNan = true ∧ FVal.inf false = .inf false ∧
    (FVal.fin false 3 0).rat + (FVal.fin true 3 0).rat = 0 ∧
    (FVal.fin false 3 0).rat * (FVal.fin true 2 0).rat + (FVal.fin false 6 0).rat = 0 := by
  refine ⟨by decide, by decide, by decide, by decide, by decide, by decide, by decide, by decide, by decide, by decide, rfl, ?_, ?_⟩ <;>
    norm_num [FVal.rat]

/-- Lists of each kind that a group's sum tells apart, and a record of each ALIGN and GROUP at its boundaries. -/
theorem test_witness_MatrixElements_sums :
    fp32 ∈ [fp16, fpb16, fp32, fp64] ∧ 0x1000 / 2 ^ 10 % 2 ^ 3 ≤ 4 ∧ 0x1000 / 2 ^ 13 % 2 ^ 5 = 0 ∧ 24 ≤ 0x31000 / 2 ^ 13 % 2 ^ 5 ∧
    0x3D000 / 2 ^ 13 % 2 ^ 5 ≤ 30 ∧ (∃ x ∈ [FVal.nan false], x.isNan = true) ∧
    (∀ x ∈ [FVal.inf false, .inf true], x.isNan = false) ∧ FVal.inf false ∈ [FVal.inf false, .inf true] ∧ FVal.inf true ∈ [FVal.inf false, .inf true] ∧
    FVal.inf (!true) ∉ [FVal.inf true, .fin false 1 0] ∧ (∀ x ∈ [FVal.fin true 0 0, .fin false 0 3], x.isZero = true) ∧
    (∀ x ∈ [FVal.fin false 1 0, .fin true 3 (-40)], x.isInf = false) ∧
    (∃ x ∈ [FVal.fin false 1 0, .fin true 3 (-40)], (2 : ℚ) ^ (0 : ℤ) ≤ |x.rat|) ∧
    ∀ x ∈ [FVal.fin false 1 0, .fin true 3 (-40)], |x.rat| < (2 : ℚ) ^ ((0 : ℤ) + 1) := by
  refine ⟨by decide, by decide, by decide, by decide, by decide, by decide, by decide, by decide, by decide, by decide, by decide, by decide,
    ⟨_, List.mem_cons_self, by norm_num [FVal.rat]⟩, ?_⟩
  intro x h
  rcases List.mem_cons.1 h with rfl | h
  · norm_num [FVal.rat]
  · rw [List.mem_singleton.1 h]
    norm_num [FVal.rat, abs_of_pos, abs_of_neg]

/-- Each access with a poisoned operand: its hypotheses, and what the lane that is not poisoned would do. -/
theorem test_witness_WhatKeepsFromEffect_lanes :
    (let m : MemOp := ⟨.zero, .v 7, 0, some 0⟩
     [Pre.opds g7 (memReads false m) [(.v 1, 32)], Pre.opds g7 ((.v 2, 32) :: memReads false m) [],
      { Pre.opds g7 ((.v 2, 32) :: memReads false m) [(.v 1, 32)] with pins := true }].all (fun p =>
        kept.windowsOk p && decide (kept.active p.g ≠ 0) && decide (kept.unmet p = []) && decide (kept.poisoned p (kept.active p.g) ≠ [])) = true) ∧
    (accessFault (kept.loadAccess false false 4 (kept.address ⟨.zero, .v 7, 0, some 0⟩ 0) 0)).isNone = true ∧
    (accessFault (kept.loadAccess false false 4 (2 ^ 57) 0)).isSome = true ∧ kept.inRecipe = false := by decide

/-- A split that was parked with other addresses than it would form now. -/
theorem test_witness_WaitAndWake_reload :
    (let s : State := { two with split := { two.split with st := .woken (some { parkAt64 with lanes := 3, addr := [(0, 128), (1, 128)] }) } }
     s.split.st = .woken (some { parkAt64 with lanes := 3, addr := [(0, 128), (1, 128)] }) ∧ s.address at64 0 = 64 ∧
     s.ready { Pre.opds g7 [(.zero, 32), (.zero, 64), (.s 1, 64)] [(.v 1, 32)] with pins := true } = true ∧
     ∀ l ∈ accessLanes (isScalarDest (.v 1)) (s.active g7),
       (s.flatAccess .load true (32 / 8) ((Tab.find [(0, 128), (1, 128)] l).getD (s.address at64 l))).toOption.isSome = true) := by decide

/-- Every way to misuse a barrier outside a handler, and a phase that the other fibre, which has exited, leaves short. -/
theorem test_witness_Barriers_misuse :
    meeting.inHandler = false ∧ meeting.wg.nwarps * meeting.wg.nfibs < 2 + 1 ∧ (Tab.find meeting.wg.bars 1).isSome = true ∧ 0 + 1 ≠ 2 ∧
    (∀ c, some 1 = some c → c + 1 ≤ meeting.wg.nwarps * meeting.wg.nfibs) ∧ Tab.find meeting.wg.bars 0 = none ∧
    (let s : State := { meeting with
       dev := { meeting.dev with fibs := [(1, { Fib.zero with exited := true })] }, wg := { meeting.wg with bars := [(2, ⟨0, 2, []⟩)] } }
     s.ready { Pre.opds g7 [] [] with pins := true } = true ∧ s.inHandler = false ∧ s.key ∉ ([] : List Nat) ∧ s.unreachable ⟨0 + 1, 2, [] ++ [s.key]⟩ = true) := by
  refine ⟨by decide, by decide, by decide, by decide, ?_, by decide, by decide⟩
  intro c h
  cases h
  decide

/-- The fibres that a barrier closes: one that waits at it and runs; and the releasing fibre's own splits. -/
theorem test_witness_Barriers_closed :
    (∃ f, Tab.find meeting.dev.fibs 1 = some f ∧ f.trapped = none ∧ f.inService = false ∧ ∃ p ∈ f.splits, p.2.st.code = (3, 1)) ∧
    1 / 256 = meeting.wgKey ∧ (meeting.warpAt (1 / 4)).isSome = true ∧ meeting.key ∈ [0, 1] ∧ meeting.fib.spilled = [] := by
  refine ⟨⟨_, rfl, by decide, by decide, _, List.mem_cons_self, by decide⟩, by decide, by decide, by decide, by decide⟩

/-- Lane 0 and lane 1 are two splits of one parent, of which the second issues; a sibling with a parent that has no other child. -/
theorem test_witness_ExitSosPpt_sibling :
    (let s : State := { two with
       cur := some ⟨0, 2, false⟩, split := { two.split with mask := 2, parent := 0 },
       fib := { two.fib with splits := [(1, { two.split with parent := 0, mask := 1 })], tree := [(0, 63)] } }
     s.ready (.opds g7 [] []) = true ∧ s.inHandler = false ∧ s.split.mask &&& ~~~ s.active g7 = 0 ∧ s.lastSplit = false ∧
       s.fib.spilled = [] ∧ s.dev.fibs.all (fun p => p.2.spilled.isEmpty) = true ∧ s.fib.marks = [] ∧ (0 : Nat) ≠ 63) ∧
    (let s : State := { two with
       cur := some ⟨0, 2, false⟩, split := { two.split with mask := 2, parent := 0 },
       fib := { two.fib with splits := [(1, { two.split with parent := 0, mask := 1 }), (3, { two.split with parent := 0, mask := 4, pc := 0x20000 })],
                             tree := [(0, 63)] } }
     s.lastSplit = false ∧ (s.fib.nest 64).step = none) := by decide

/-- A workgroup that is being saved, whose CPYQ on a full queue holds the partition's one engine, and a copy that waits. -/
def yieldingState : State :=
  { busy (.entries 4 1 0x400) .running with dev := { (busy (.entries 4 1 0x400) .running).dev with
      parts := [(1, { part1 with entry := { part1.entry with ceng := 1 } })],
      cmds := [(7, cmdOf (.entries 4 1 0x400) .running), (8, cmdOf (.toTile 0 0 0 1 16 16 0x300) .waiting)],
      wgs := [(0, { Wg.zero with
        launch := some 0, part := 1, nwarps := 1, nfibs := 1, saving := some ⟨0x59, 0, false, none, none, none, false, false⟩,
        tiles := [(0, tileOf .t 8 128), (4, { tileOf .q 4 512 with queue := [0, 0, 0, 0] })] })] } }

theorem test_witness_CopyEngines_yielding :
    yieldingState.dev.canDispatch 8 = true ∧ (CmdKind.toTile 0 0 0 1 16 16 0x300).isCopy = true ∧
    yieldingState.dev.engines 1 ≤ (yieldingState.dev.copies 1 .running).length ∧ (yieldingState.dev.yielding 1).map (·.1) = [7] ∧
    ((busy (.toTile 0 0 0 1 16 16 0x300) .waiting).dev.copies 1 .running).length < (busy (.toTile 0 0 0 1 16 16 0x300) .waiting).dev.engines 1 := by
  decide

/-- A shadow with n entries in its queue. -/
def trailing (n : Nat) : Warp :=
  { Warp.zero with
    n := 32, p := [32], cur := some (0, 0, false), place := ⟨0, 0, 0, 0, 0, some (1, 1)⟩,
    shadow := some ⟨[], [(0, Fib.zero.shadowed)], List.replicate n ⟨0, fibre.shadowed, [], 1⟩, 1⟩ }

/-- busy with such a warp. -/
def lagging (n : Nat) : State :=
  { busy .take .running with dev := { (busy .take .running).dev with warps := [(0, trailing n)] } }

theorem test_witness_CommandEnds_held :
    (cmdOf .take .carried).stage = .carried ∧ (lagging 64).dev.queueRoom 0 = false ∧ (lagging 63).dev.queueRoom 0 = true ∧
    (busy .take .running).dev.queueRoom 0 = true ∧ (cmdOf .take .running).stage ≠ .finished ∧
    (busy .take .waiting).dev.queueRoom (cmdOf .take .waiting).fib = true := by decide

/-- A load of lanes 0 and 1, the second marked as it issued, and one that met no mark. -/
theorem test_witness_WaitsEnd_marked :
    (let o : Outstanding := ⟨0, [1], [], [(0, 64, 64), (1, 96, 96)], [(1, 5)]⟩
     (∀ y ∈ o.marked, y.2 ≠ 0) ∧ (0, 64, 64) ∈ o.bytes ∧ 64 / 32 = 2 ∧ 1 ∈ o.v) ∧
    (⟨0, [1], [], [(0, 64, 2)], []⟩ : Outstanding).marked = [] := by decide

/-- A slot that is due, and none that is; a shadow with a trail, whose fibres have no command. -/
theorem test_witness_SlotChoices_shadow :
    (let t := (lagging 2).flush.refresh
     (∃ x ∈ t.dev.issuable, x.shadow = true ∧ x.w = 0 ∧ x.since ≠ 0 ∧ x.since + 15 ≤ t.dev.cycles.toNat ∧
       ∀ y ∈ t.dev.issuable, y.place.subKey = x.place.subKey → y.since ≠ 0 → x.since ≤ y.since) ∧
     ∀ x ∈ t.dev.issuable, x.w ≠ 1) ∧
    (trailing 2).shadow.map (·.trail) = some (⟨0, fibre.shadowed, [], 1⟩ :: [⟨0, fibre.shadowed, [], 1⟩]) ∧ (trailing 2).place.shadow = some (1, 1) ∧
    Tab.find ({ (lagging 2).dev with cmds := [] } : Dev).warps 0 = some (trailing 2) := by
  refine ⟨⟨⟨_, List.mem_of_getElem? (i := 1) rfl, by decide⟩, by decide⟩, by decide, by decide, by decide⟩

theorem test_witness_SlotChoices_passOn :
    (shadowedWord 64).cur.isSome = true ∧ (shadowedWord 64).warp.shadow.isSome = true ∧ (shadowedWord 64).split.held = false ∧
    (shadowedWord 64).guarded = true ∧ leavesWarp (.tzero g7 0) = true ∧ receivesValues (.ld g7 .b32 false false false (.v 1) at64) = true ∧
    leavesWarp (.ld g7 .b32 false false false (.v 1) at64) = false ∧ 64 ≤ ((shadowedWord 64).warp.trail.map (·.entries)).sum ∧
    (shadowedWord 64).warp.trail ≠ [] := by decide

/-- A core kept for a saved workgroup, and none that it has left; no launch promised to go first. -/
theorem test_witness_DistributorSteps_saved :
    (match Tab.find waitingSaved.dev.launches 0 with
      | some x => (waitingSaved.dev.coreToReserve 0 { x with nextWg := 2 }).map (·.1) == some (some 1)
      | none => false) = true ∧
    (∀ k v, some 1 = some k → (k, v) ∈ waitingSaved.dev.saved → v.left ≠ some (0, 5)) ∧
    (launching { longing with desc := desc1 } 1).dev.heldBack 0 1 = false ∧ (trailing 0).trails = false ∧ (trailing 1).trails = true := by
  refine ⟨by decide, ?_, by decide, by decide, by decide⟩
  intro k v h hv
  cases h
  have : (1, v) = _ := List.mem_singleton.1 hv
  cases this
  decide

/-- A replayable record of fibre 0 in the ring of slice 0, whose launch has a handler. -/
def answering : State :=
  { busy .take .running with dev := { (busy .take .running).dev with
      launches := [(0, { launch1 with desc := { desc1 with handler := 0x20000 } })],
      fibs := [(0, { fibre with inService := true })],
      slices := [(0, { Slice.zero with tail := 1, live := [(0, rec0 1)] })] } }

theorem test_witness_TrapQueue_answers :
    answering.cur = none ∧ Tab.find (answering.dev.slice 0).live 0 = some (rec0 1) ∧ (rec0 1).data.kind = 1 ∧ (rec0 1).answered = false ∧
    0x1A02 < 2 ^ 64 ∧ 0x1A02 % 4 = 2 ∧ 3 % 4 = 3 ∧ (rec0 1).fibre = some 0 ∧ (rec0 1).joined = [] ∧ (rec0 1).fibs = [0] ∧ (0 : Nat) ∉ ([] : List Nat) ∧
    (Tab.find answering.dev.fibs 0).map (fun f => f.handler.isNone) = some true ∧
    (Tab.find answering.dev.wgs (0 / 256)).map (·.launch) = some (some 0) ∧ (Tab.find answering.dev.warps (0 / 4)).isSome = true ∧
    (Tab.find answering.dev.launches 0).map (fun y => decide (y.desc.handler ≠ 0)) = some true ∧ (rec0 1).launch = some 0 ∧
    answering.dev.inKeys ((answering.dev.slice 0).recordAt 0 + 0x1F) = false ∧
    trapped.dev.inKeys ((trapped.dev.slice 0).recordAt 1 + 0x38 + 7) = false := by decide

theorem test_witness_ContextSwitch_turn :
    ((switching.dev.turns.find? (fun t => t.2.part == 1)).map (fun t => t.2.ending)) = some false ∧ switching.dev.noneOn 1 = false := by decide

/-- A launch that a fatal record has ended, whose completion word is still to be written. -/
theorem test_witness_Commits_ending :
    (let x : Launch := { launch1 with ending := true }
     let s : State := { cancelling with dev := { cancelling.dev with launches := [(0, x)] } }
     s.dev.launches.find? (fun l => l.2.queue == 0 && l.2.pos == 0) = some (0, x) ∧ x.answer = false ∧ x.ending = true) ∧ launch1.ending = false := by
  decide

theorem test_witness_Reliability_unshadowed :
    (Tab.find (busy (.coll .allred .add .u32 5 0x600 0x700 4 0 none true 1) .running).dev.warps (0 / 4)).map (·.shadow) = some none := by decide

/-- A port with a flit that is behind, one that has all; and offsets at both ends of the report. -/
theorem test_witness_FabricAndQueues_ports :
    Tab.find ({ idle.dev with ports := [(17, ⟨3, 9, 5⟩)] } : Dev).ports 17 = some ⟨3, 9, 5⟩ ∧ (3 : Nat) ≤ 5 ∧ 5 ≤ 9 ∧ 9 - 3 < 7 ∧
    0x200 ≤ 0x3A7 ∧ 0x3A7 < 0x3A8 ∧ 0x3A0 + 7 < 0x3A8 := by decide

/-! ### Witnesses: engine records, retirements, held records -/

/-- The record of an engine's page in the ring, which fibre 0 has joined, and a command that asked for the page. -/
def askingPage : State :=
  { busy .take .running with dev := { (busy .take .running).dev with
      cmds := [(7, { cmdOf (.toTile 0 0 0 1 16 16 0x300) .running with asked := some 0 })],
      fibs := [(0, { fibre with inService := true })],
      slices := [(0, { Slice.zero with tail := 1, live := [(0, { rec0 1 with fibre := none, joined := [0], launch := some 1 })] })] } }

theorem test_witness_TrapQueue_engine :
    (Tab.find (askingPage.dev.slice 0).live 0).map (fun r => (r.fibre, r.joined, r.data.cause, r.data.part, r.data.addr)) =
      some (none, [0], 0x10, 1, 0) ∧
    (Tab.find askingPage.dev.cmds 7).map (fun k => (k.part, k.asked, k.stage)) = some (1, some 0, .running) ∧
    (Tab.find askingPage.dev.warps (0 / 4)).map (·.shadow) = some none ∧ (Tab.find askingPage.dev.fibs 0).isSome = true ∧
    0 / 256 ∉ askingPage.dev.wgsOf 1 := by decide

/-- Such an answer ends the command with 0x39, and the fibre that joined runs again. -/
theorem test_step_engine_page :
    (match exec (.respWrite 0 0 0x1002) askingPage with
      | .next u => (Tab.find u.dev.cmds 7).isNone && (Tab.find u.dev.fibs 0).any (fun f => !f.inService && Tab.get 0 f.s 12 == (0x39 : Word64))
      | _ => false) = true := by decide

/-- Core 3 of slice 0 is suspect and a workgroup stands on it; or it is being retired. -/
def leaving (retiring : Bool) : State :=
  { shadowed fibre with dev := { (shadowed fibre).dev with
      wgs := [(0, { Wg.zero with launch := some 0, part := 1, nwarps := 1, nfibs := 1, core := 3 })],
      cores := [(coreKey 0 3, { (State.reset.dev.core 0 0) with suspect := !retiring, retiring := retiring })] } }

theorem test_witness_Reliability_leaving :
    ((leaving false).dev.core 0 3).suspect = true ∧
    (Tab.find (leaving false).dev.wgs 0).map (fun g => (g.slice, g.core, g.saving.isNone)) = some (0, 3, true) ∧
    ((leaving true).dev.core 0 3).retiring = true ∧ (∃ g ∈ (leaving true).dev.wgs, g.2.slice = 0 ∧ g.2.core = 3) ∧
    (let d : Dev := { (leaving true).dev with wgs := [] }; (d.core 0 3).retiring = true ∧ ∀ g ∈ d.wgs, g.2.slice ≠ 0 ∨ g.2.core ≠ 3) ∧
    ((leaving false).dev.core 0 3).retiring = false := by decide

/-- A core that fails its test keeps the spare back until its last workgroup has left. -/
theorem test_step_retiring :
    (match exec (.coreTestResult 0 3 false) (leaving false) with
      | .next u => !(u.dev.slice 0).spareUsed && (u.dev.core 0 3).retiring && ((u.dev.dropWg 0).slice 0).spareUsed && !((u.dev.dropWg 0).core 0 3).retiring
      | _ => false) = true := by decide

/-- A weak load of an address that is not present. -/
def farLoad : Instr := .ld g7 .b32 false false false (.v 1) ⟨.s 8, .zero, 0, none⟩

/-- It issues in a guarded warp whose shadow trails by n instructions. -/
def farState (n : Nat) : State :=
  { shadowedWord n with fib := { (shadowedWord n).fib with s := [(8, 0xC000000000)] } }

theorem test_witness_StepRunsDecoded_held :
    (farState 1).guarded = true ∧ (farState 1).shadowWait farLoad = none ∧ (farState 1).begin.warp.trails = true ∧
    (farState 1).begin.wouldPin (execGuarded farLoad) = true ∧ (farState 0).begin.warp.trails = false := by decide

/-- A launch all of whose workgroups have exited, the last of them not yet released, before its completion word is written. -/
def ended : State :=
  { cancelling with dev := { cancelling.dev with
      launches := [(0, { launch1 with nextWg := 2, finished := 1 })], cmds := [], fibs := [(0, { fibre with exited := true })],
      wgs := [(0, { Wg.zero with launch := some 0, part := 1, nwarps := 1, nfibs := 1 })], warps := [(0, { Warp.zero with n := 32, p := [32] })] } }

theorem test_witness_Commits_ended :
    ended.dev.launches.find? (fun l => l.2.queue == 0 && l.2.pos == 0) = some (0, { launch1 with nextWg := 2, finished := 1 }) ∧
    launch1.answer = false ∧ launch1.ending = false ∧ ended.dev.launchOver 0 { launch1 with nextWg := 2, finished := 1 } = true ∧
    (∀ g ∈ ended.dev.saved, g.2.wg.launch ≠ some 0) ∧ cancelling.dev.launchOver 0 launch1 = false := by decide

theorem test_witness_SpecialRegisters_values :
    (let s : State := { two with wg := { two.wg with launch := some 0 }, dev := { two.dev with launches := [(0, launch1)], turns := [(0, ⟨1, 1, 9, false, false⟩)] } }
     s.wg.launch = some 0 ∧ Tab.find s.dev.launches 0 = some launch1 ∧ s.dev.turns = [(0, ⟨1, 1, 9, false, false⟩)] ∧ 1 = s.wg.part) ∧
    (Tab.find two.dev.parts two.wg.part).isSome = true ∧ two.dev.turns = [] ∧ 0x8000 % 2 ^ 16 ≠ 0 ∧ 0x1800 % 2 ^ 33 % 2 ^ 12 ≠ 0 ∧
    (0 : Nat) % 2 ^ 33 < 2 ^ 12 ∧ 2 ^ 32 < (2 ^ 32 + 2 ^ 12) % 2 ^ 33 ∧ idle.wg.slice < 12 ∧ (2 ^ 64 - 1 : Nat) < 2 ^ 64 := by decide

/-- The save of the last workgroup on a core that is being retired. -/
theorem test_witness_ContextSwitch_retiring :
    ((leaving true).dev.core 0 3).retiring = true ∧ ∀ p ∈ (leaving true).dev.wgs, p.1 = 0 ∨ p.2.slice ≠ 0 ∨ p.2.core ≠ 3 := by decide

/-- An atomic addition to a marked word gives a marked register, and the word stays marked; an exchange cleans it. -/
theorem test_step_marked_atomics :
    (let s : State := { two with dev := { two.dev with marked := [64, 65, 66, 67] }, split := { two.split with mask := 1 } }
     let at4 : MemOp := ⟨.zero, .zero, 0, some 64⟩
     (match exec (.atom g7 .u32 .add false (.v 1) at4 (.v 2)) s with
       | .next t => decide (t.dev.marked = [64, 65, 66, 67]) && decide (t.warp.out.map (fun o => o.marked.map (·.1)) = [[0, 0, 0, 0]])
       | _ => false) = true ∧
     (match exec (.atom g7 .u32 .exch false (.v 1) at4 (.v 2)) s with
       | .next t => decide (t.dev.marked = []) && decide (t.warp.out.map (fun o => o.marked.map (·.1)) = [[0, 0, 0, 0]])
       | _ => false) = true) := by decide

/-! ### Single steps: waits, spills, marks of lost data -/

/-- mov v3, s5 at the PC, with s5 pending for n commands. -/
def movPending (n : Nat) : State :=
  let t := placed (((encode (.mov ⟨g7, .u32, .v 3, .s 5⟩)).map (·.2)).getD 0)
  { t with fib := { t.fib with pend := (List.range n).map (fun i => (5 + i, 7)) } }

/-- R50: a word that has to wait is no opportunity of its slot, and one that issues is. -/
theorem test_step_opportunities :
    (match step (movPending 1), step (movPending 0) with
      | .next t, .next u => decide (t.warp.opps = 0 ∧ t.split.last = 0 ∧ t.split.pc = 0x10000 ∧ u.warp.opps = 1 ∧ u.split.last = 1 ∧ u.split.pc = 0x10008) &&
          (match t.split.st with | .stalled _ _ _ _ => true | _ => false)
      | _, _ => false) = true := by decide

/-- R46: of two fibres' splits spilled at one opportunity that which spilled first returns. -/
theorem test_step_spill_order :
    (let s : State := { spilledWarp with dev := { spilledWarp.dev with fibs := [
        (0, { fibre with spilled := [⟨0, 0, 1, 3, 63, two.split, none⟩] }), (1, { fibre with spilled := [⟨0, 0, 0, 3, 63, two.split, none⟩] })] } }
     (s.fillOne 0).dev.fibs.map (fun p => p.2.spilled.length)) = [1, 0] := by decide

/-- R323: the count of cycles does not turn round. R107: a metadata sum that is not exact sets NX. R22: with no table loaded, one run. -/
theorem test_step_small_changes :
    laterBy 0xFFFFFFFFFFFFFFFF 5 = 0xFFFFFFFFFFFFFFFF ∧ laterBy 7 5 = 12 ∧
    mdAdd .rne 0x3FF0000000000000 (pow2 (-60)) = (0x3FF0000000000000, flagNX) ∧ runHolding [] 3 = some (0, 12) := by decide

/-- R206: a word a later byte of which an engine has left lost is not run. -/
theorem test_step_lost_word :
    (let s := placed 0x7925
     (match ({ s with dev := { s.dev with marked := [0x10005] } } : State).fetchAt 0x10000 with | .fault 0x17 _ _ => true | _ => false) &&
     (match ({ s with dev := { s.dev with marked := [0x10008] } } : State).fetchAt 0x10000 with | .word _ => true | _ => false)) = true := by decide

/-- R158: a park of a saved workgroup lapses, and no WAKE counts it any more. -/
theorem test_step_saved_timeout :
    (let s : State := { waitingSaved with dev := { waitingSaved.dev with
        cycles := 100, saved := waitingSaved.dev.saved.map (fun x => (x.1, { x.2 with fibs := [(256, { fibre with splits := [(0, { two.split with st := .parked parkAt64 })] })] })) } }
     match exec (.waitaTimeout 256 0) s with
     | .next t => decide (s.parks.length = 1 ∧ t.parks.length = 0) && s.dev.waitSteps.contains (.waitaTimeout 256 0)
     | _ => false) = true := by decide

/-- R11, R49: a stall of an instruction that an SOS governs lets the slot pass, even where it ends before the next choice; without the SOS
the split keeps the slot. -/
theorem test_step_sos_passes :
    (let s := movPending 1
     match step { s with split := { s.split with sos := true } }, step s with
      | .next t, .next u => t.warp.pass && !u.warp.pass && (match t.split.st with | .stalled true _ _ none => true | _ => false)
      | _, _ => false) = true := by decide

/-- R49, R51: a split whose park is over stalls where its reload must wait, and is to reload when the stall is over. -/
theorem test_woken_stall :
    let t := ({ two with split := { two.split with st := .woken none } } : State).stall [.sreg 0 5]
    t.split.isReady = false ∧ t.split.fusable = false ∧ t.split.st.afterStall = .woken none ∧ t.attempt.split.st.reloads = true := by decide

/-- R135, R69: within a 4-byte unit a weak local access of 2 bytes needs no alignment, a strong one does. -/
theorem test_local_alignment :
    (two.laneAccess .load true false 2 0x11 0).toOption.isSome = true ∧
    (accessFault (two.laneAccess .load true true 2 0x11 0)).map (·.cause) = some 0x14 := by decide

end Sys2Proof.Tests
end

section
/-!
PROOFS. IADD and ISUB with their carries, IMUL, IMULH and IMAD (spec/24_ref_g_p.md R325, R326, R331; R103).
-/
namespace Sys2Proof

/-! ### Values at a width -/

/-- Only the low w bits are read as a two's complement number. -/
theorem toSigned_mod (w x : Nat) : toSigned w (x % 2 ^ w) = toSigned w x := by
  simp [toSigned]

/-- A result is placed by its low bits alone, so that it may be placed before or after it is reduced modulo 2^W (R103). -/
theorem Ty.place_mod (t : Ty) (x : Nat) : t.place (x % 2 ^ t.w) = t.place x := by
  simp only [Ty.place, toSigned_mod, Nat.mod_mod]

/-- A natural number modulo 2^w is the same taken as an integer. -/
theorem ofInt_natCast (w n : Nat) : ofInt w n = n % 2 ^ w := by
  rw [ofInt, ← Int.toNat_natCast (n % 2 ^ w)]
  push_cast
  rfl

namespace Machine

/-! ### The exact sum and its carry -/

@[simp] theorem addExact_add (a b c : Nat) : addExact false a b c = ((a + b + c : Nat) : Int) := by
  simp [addExact]

@[simp] theorem addExact_sub (a b c : Nat) : addExact true a b c = (a : Int) - b - c := rfl

/-- The carry out: the exact sum reaches 2^w, or the exact difference x is negative (R326). -/
def carryOut (sub : Bool) (w : Nat) (x : Int) : Bool := if sub then decide (x < 0) else decide ((2 ^ w : Int) ≤ x)

theorem carryOut_add (w a b c : Nat) : carryOut false w (addExact false a b c) = decide (2 ^ w ≤ a + b + c) := by
  have h : (2 ^ w : Int) ≤ ((a + b + c : Nat) : Int) ↔ 2 ^ w ≤ a + b + c := by exact_mod_cast Iff.rfl
  simp only [carryOut, addExact_add, h, Bool.false_eq_true, if_false]

theorem carryOut_sub (w a b c : Nat) : carryOut true w (addExact true a b c) = decide (a < b + c) := by
  have h : (a : Int) - b - c < 0 ↔ a < b + c := by omega
  simp only [carryOut, addExact_sub, h, if_true]

/-- The carry that predicate ci, where one is named, brings in from lane k (R325). -/
def State.carryIn (s : State) (ci : Option Nat) (k : Nat) : Nat :=
  match ci with
  | some p => if s.getP p k then 1 else 0
  | none => 0

/-- The exact sum or difference of lane l (R326), of the operands and the carry of the lane that R60 takes them from. -/
def State.laneSum (s : State) (o : A2) (ci : Option Nat) (sub : Bool) (act : Word32) (l : Nat) : Int :=
  let k := laneFor o.d act l
  addExact sub (s.get .arith o.ty.w o.a k) (s.get .arith o.ty.w o.b k) (s.carryIn ci k)

/-- Clearing the mark changes no predicate. -/
theorem State.getP_clearMark (s : State) (n l : Nat) : s.clearMark.getP n l = s.getP n l := by
  rw [State.clearMark_rest]; rfl

theorem State.laneSum_clearMark (s : State) (o : A2) (ci : Option Nat) (sub : Bool) (act : Word32) (l : Nat) :
    s.clearMark.laneSum o ci sub act l = s.laneSum o ci sub act l := by
  simp only [State.laneSum, State.carryIn, State.get_clearMark, State.getP_clearMark]

/-! ### The shape of IADD and ISUB -/

/-- Writes the carry-out predicate, where one is named, in each active lane. -/
def State.putCarry (s : State) (act : Word32) (co : Option Nat) (bit : Nat → Bool) : State :=
  match co with
  | some p => s.perLanePred act p (fun l => (bit l, 0))
  | none => s

theorem State.putCarry_wrote (s : State) (act : Word32) (co : Option Nat) (bit : Nat → Bool) :
    WroteCarry s (s.putCarry act co bit) act co bit := by
  cases co with
  | some p => exact State.perLanePred_wrote s act p bit
  | none => exact rfl

/-- What IADD or ISUB does in lanes act: the sums modulo 2^W, then the carries; operands and carry-in are those before either
write. -/
def State.addSubLanes (s : State) (o : A2) (ci co : Option Nat) (sub : Bool) (act : Word32) : State :=
  (s.perLane act o.d o.ty.w (fun l => plainInt o.ty (ofInt o.ty.w (s.laneSum o ci sub act l)))).putCarry act co
    (fun l => carryOut sub o.ty.w (s.laneSum o ci sub act l))

/-- IADD or ISUB that nothing keeps from its effect writes the exact sum modulo 2^W and then its carry. -/
theorem addSub_wrote {i : Instr} {o : A2} {ci co : Option Nat} (sub : Bool) {s : State}
    (h : s.ready (.opds o.g [(o.a, o.ty.w), (o.b, o.ty.w)] [(o.d, o.ty.w)]) = true) :
    ∃ m u, addSub i o ci co sub s = .next (u.advance i.bytes) ∧
      Wrote s.clearMark m (s.active o.g) o.d o.ty.w
        (fun l => o.ty.place (ofInt o.ty.w (s.laneSum o ci sub (s.active o.g) l))) (fun _ => 0) ∧
      WroteCarry m u (s.active o.g) co (fun l => carryOut sub o.ty.w (s.laneSum o ci sub (s.active o.g) l)) := by
  have e : addSub i o ci co sub s = .next ((s.clearMark.addSubLanes o ci co sub (s.active o.g)).advance i.bytes) :=
    State.issue_ready (p := { Pre.opds o.g [(o.a, o.ty.w), (o.b, o.ty.w)] [(o.d, o.ty.w)] with len := i.bytes }) h
      (fun act t => (t.addSubLanes o ci co sub act).advance i.bytes)
  simp only [State.addSubLanes, State.laneSum_clearMark] at e
  exact ⟨_, _, e, State.perLane_wrote _ _ _ _ _, State.putCarry_wrote _ _ _ _⟩

/-! ### The instructions of two and three sources -/

/-- An instruction whose effect is that of alu2 computes the function that alu2 is given. -/
theorem computes2_of_alu2 {i : Instr} {o : A2} {cls : ImmCls} {w wb : Nat} {f : Nat → Nat → Nat × Nat}
    (h : ∀ s, exec i s = alu2 i o cls w wb f s) : Computes2 i o cls w wb (fun _ => f) := by
  intro s hs
  rw [h s]
  exact alu2_wrote hs

/-- An instruction whose effect is that of alu3 computes the function that alu3 is given. -/
theorem computes3_of_alu3 {i : Instr} {o : A3} {cls : ImmCls} {w wb : Nat} {f : Nat → Nat → Nat → Nat × Nat}
    (h : ∀ s, exec i s = alu3 i o cls w wb f s) : Computes3 i o cls w wb (fun _ => f) := by
  intro s hs
  rw [h s]
  exact alu3_wrote hs

theorem imul_computes (o : A2) :
    Computes2 (.imul o) o .arith o.ty.w o.ty.w (fun _ a b => (o.ty.place (a * b % 2 ^ o.ty.w), 0)) := by
  simp only [Ty.place_mod]
  exact computes2_of_alu2 (fun _ => rfl)

theorem imulh_computes (o : A2) :
    Computes2 (.imulh o) o .arith o.ty.w o.ty.w (fun _ a b =>
      (o.ty.place ((o.ty.intVal a * o.ty.intVal b / 2 ^ o.ty.w % (2 ^ o.ty.w : Int)).toNat), 0)) :=
  computes2_of_alu2 (fun _ => rfl)

theorem imad_computes (o : A3) :
    Computes3 (.imad o) o .arith o.ty.w o.ty.w (fun _ a b c => (o.ty.place ((a * b + c) % 2 ^ o.ty.w), 0)) := by
  simp only [Ty.place_mod]
  exact computes3_of_alu3 (fun _ => rfl)

end Machine

open Machine

/-- Settles O1: IADD and ISUB by the shape that they share, IMUL, IMULH and IMAD by those of two and three sources. -/
theorem arithmetic : Obligations.Arithmetic := by
  refine ⟨fun s o ci co h => ⟨?iadd, ?isub⟩, imul_computes, imulh_computes, imad_computes⟩
  case iadd =>
    obtain ⟨m, u, e, hm, hu⟩ := addSub_wrote (i := .iadd o ci co) (ci := ci) (co := co) false h
    simp only [State.laneSum, addExact_add, ofInt_natCast] at hm
    simp only [State.laneSum, carryOut_add] at hu
    exact ⟨m, u, e, hm, hu⟩
  case isub =>
    obtain ⟨m, u, e, hm, hu⟩ := addSub_wrote (i := .isub o ci co) (ci := ci) (co := co) true h
    simp only [State.laneSum, carryOut_sub] at hu
    exact ⟨m, u, e, hm, hu⟩

end Sys2Proof
end

section
/-!
PROOFS. SHFL: the source lane of each lane, and what SHFL writes (spec/25_ref_r_z.md R364).
-/
namespace Sys2Proof

namespace Machine

/-! ### The source lane -/

/-- A source lane that is inactive supplies nothing. -/
theorem shflLane_eq_filter (act : Word32) (mode : ShflMode) (seg l b : Nat) :
    shflLane act mode seg l b = (shflFrom mode seg l b).filter (fun j => act.getLsbD j) := by
  unfold shflLane
  cases shflFrom mode seg l b with
  | none => rfl
  | some j => rfl

/-- The active source lane of lane l, with b read as signed under .off and as unsigned under the other modes. -/
def State.shflSource (s : State) (act : Word32) (mode : ShflMode) (seg : Nat) (b : Opd) (l : Nat) : Option Nat :=
  shflLane act mode seg l (s.get (if mode = .off then .arith else .logic) 32 b l)

/-- Clearing the mark changes no source lane. -/
theorem State.shflSource_clearMark (s : State) (act : Word32) (mode : ShflMode) (seg : Nat) (b : Opd) (l : Nat) :
    s.clearMark.shflSource act mode seg b l = s.shflSource act mode seg b l := by
  simp only [State.shflSource, State.get_clearMark]

/-! ### What SHFL writes -/

/-- What SHFL does in lanes act: the values of the source lanes, then the predicate; both are those before either write. -/
def State.shflLanes (s : State) (mode : ShflMode) (seg : Nat) (ty : Ty) (d a b : Opd) (p : Nat) (act : Word32) : State :=
  let src := s.shflSource act mode seg b
  (s.perLane act d ty.w (fun l => (s.get .logic ty.w a ((src l).getD l), 0))).perLanePred act p (fun l => ((src l).isSome, 0))

/-- SHFL that nothing keeps from its effect writes each lane's source value, or its own, and then whether there was a source. -/
theorem shfl_wrote {s : State} {g : Guard} {ty : Ty} {d a b : Opd} (mode : ShflMode) (seg p : Nat)
    (h : s.ready (.opds g [(a, ty.w), (b, 32)] [(d, ty.w)]) = true) :
    ∃ m u, exec (.shfl g mode seg ty d a b p) s = .next (u.advance (Instr.shfl g mode seg ty d a b p).bytes) ∧
      Wrote s.clearMark m (s.active g) d ty.w
        (fun l => s.get .logic ty.w a ((s.shflSource (s.active g) mode seg b l).getD l)) (fun _ => 0) ∧
      WrotePred m u (s.active g) p (fun l => (s.shflSource (s.active g) mode seg b l).isSome) := by
  let len := (Instr.shfl g mode seg ty d a b p).bytes
  have e : exec (.shfl g mode seg ty d a b p) s =
      .next ((s.clearMark.shflLanes mode seg ty d a b p (s.active g)).advance len) :=
    State.issue_ready (p := { Pre.opds g [(a, ty.w), (b, 32)] [(d, ty.w)] with len := len }) h
      (fun act t => (t.shflLanes mode seg ty d a b p act).advance len)
  simp only [State.shflLanes, State.shflSource_clearMark, State.get_clearMark] at e
  exact ⟨_, _, e, State.perLane_wrote _ _ _ _ _, State.perLanePred_wrote _ _ _ _⟩

end Machine

open Machine

/-- Settles O13: the statement's source lane is the model's, kept where it is active. -/
theorem laneMoves : Obligations.LaneMoves := by
  intro s g mode seg ty d a b p h
  have hw := shfl_wrote mode seg p h
  simp only [State.shflSource, shflLane_eq_filter] at hw
  exact hw

end Sys2Proof
end
